-- ==== Sys2Proof/Word.lean ====
section
/-! DEFINITION. The machine's word types: what the manual reads, writes, shifts or counts modulo a power of two. -/

namespace Sys2Proof

/-- A byte of a buffer, of a frame or of a cause or service code. -/
abbrev Byte := BitVec 8

/-- A 32-bit word of the client bus (11, R184). -/
abbrev Word := BitVec 32

/-- A sequence number, acknowledge value or edge: 0..31, counted modulo 32 (00, 5.2). -/
abbrev Seq := BitVec 5

/-- A slot's generation: 0..15, advanced modulo 16 (R3). -/
abbrev Generation := BitVec 4

/-- One of the four client ports, equal to the master number of its accesses (R146). -/
abbrev PortNo := Fin 4

/-- One of the eight lines. -/
abbrev LineNo := Fin 8

/-- One of the 192 circuit records of the directory. -/
abbrev SlotNo := Fin 192

/-- One of the 512 buffers of the pool. -/
abbrev BufNo := Fin 512

/-- One of the 24 entries of the service table. -/
abbrev EntryNo := Fin 24

end Sys2Proof
end

