-- ==== Sys2Proof/Syntax.lean ====
section
/-! DEFINITION. The commands of the block: one constructor of Instr per row of spec/opcode_table.json, with its operands. -/

namespace Sys2Proof

/-- The kinds of frame, codes 1 to 8 (R131, 11.6). -/
inductive FrameKind where
  | openCall | grant | refuse | carry | credit | ask | close | closed
  deriving DecidableEq, Repr

/-- The content of a frame but for its check (11.6). -/
structure Frame where
  number : Byte
  kind : FrameKind
  a : Byte
  b : Byte
  payload : List Byte
  deriving DecidableEq, Repr

/-- The width of a bus access; `none` stands for byte lanes that give no width (R183, log 16). -/
inductive Width where
  | byte | half | word | none
  deriving DecidableEq, Repr

/-- One access on the client bus (R183): the master number, the byte offset A9..A0, the width, and a write's data. -/
structure BusAccess where
  mn : PortNo
  offset : BitVec 10
  width : Width
  write : Bool
  data : Word
  deriving DecidableEq, Repr

/-- A flag at a line's receiver, and the bits that follow it (R130, log 5). -/
structure FlagAndBits where
  line : LineNo
  bits : List Bool
  deriving DecidableEq, Repr

/-- The commands. The bits of FRAME_DISCARDED and ABORT come before the flag or the seven 1 bits of the row, and those of OPENING_FLAG
after its flag, as they stand on the receive data pin (R130; log 5). The 26 rows that the arbiter takes have no operand of their own: the
port is the arbiter's choice (R152) and the arguments stand in that port's command slot (R149; log 2). -/
inductive Instr where
  -- commands taken by the arbiter
  | call | accept | refuse | close
  | send | release | setCredit
  | claim | unclaim | poolSet | poolQuery
  | serviceSet | serviceClear | serviceQuery
  | lineSet | lineEnable | lineDisable | lineQuery | lineTake
  | query | retire
  | take | takeNext
  | portSet | portReset
  | unknownCommand
  -- accesses on the client bus
  | commandWordWrite (mn : PortNo) (value : Word)
  | argumentWordWrite (mn : PortNo) (index : Fin 4) (value : Word)
  | windowRegisterWrite (mn : PortNo) (value : Word)
  | clearRequest (mn : PortNo) (value : Word)
  | windowRead (mn : PortNo) (offset : Nat) (width : Width)
  | windowWrite (mn : PortNo) (offset : Nat) (width : Width) (data : Word)
  | voidAccess (access : BusAccess)
  -- frames that end at a line receiver
  | openFrame (line : LineNo) (number a b : Byte)
  | grantFrame (line : LineNo) (number a b : Byte)
  | refuseFrame (line : LineNo) (number a b : Byte)
  | carryFrame (line : LineNo) (number a b : Byte) (payload : List Byte)
  | creditFrame (line : LineNo) (number a b : Byte)
  | askFrame (line : LineNo) (number a b : Byte)
  | closeFrame (line : LineNo) (number a b : Byte)
  | closedFrame (line : LineNo) (number a b : Byte)
  | frameDiscarded (line : LineNo) (bits : List Bool)
  | abort (line : LineNo) (bits : List Bool)
  -- timer expiries
  | openWaitExpiry (slot : SlotNo)
  | offerWaitExpiry (slot : SlotNo)
  | ackWaitExpiry (slot : SlotNo)
  | stallWaitExpiry (slot : SlotNo)
  | closeWaitExpiry (slot : SlotNo)
  | settleExpiry (line : LineNo)
  | holdoffExpiry (port : PortNo)
  -- line and transmitter events
  | readyAsserted (line : LineNo)
  | readyDropped (line : LineNo)
  | selectionEvent (line : LineNo)
  | completion (line : LineNo)
  -- reset
  | resetAsserted
  | startUp
  | startUpCompletion
  -- a receiver's opening flag
  | openingFlag (flag : FlagAndBits)
  deriving DecidableEq, Repr

end Sys2Proof
end

