-- ==== Sys2Proof/Decode.lean ====
section
/-! DEFINITION. Words that spell a command: no row of spec/opcode_table.json gives bits, so none does. -/

namespace Sys2Proof

/-- The command that a word spells by the table's bits. The table gives bits for no row, so the answer is none for every word. -/
def decodeTableWord (_nbits _w : Nat) : Option Instr := none

end Sys2Proof
end

