-- ==== Sys2Proof/Machine/Frames.lean ====
section
/-! DEFINITION. Frames as bits: byte order, the check, zero insertion and deletion, and the receiver's validation (07, R127 to R131). -/

namespace Sys2Proof.Machine

/-! ## Bits of bytes, most significant first (R127) -/

/-- The eight bits of a byte, most significant first. -/
def byteBits (v : Byte) : List Bool :=
  [v.getLsbD 7, v.getLsbD 6, v.getLsbD 5, v.getLsbD 4, v.getLsbD 3, v.getLsbD 2, v.getLsbD 1, v.getLsbD 0]

/-- The bits of bytes sent in order. -/
def bytesBits : List Byte → List Bool
  | [] => []
  | v :: vs => byteBits v ++ bytesBits vs

/-- One bit of a byte at a place. -/
def placeBit (bit : Bool) (place : Nat) : Byte :=
  BitVec.ofNat 8 (bit.toNat <<< place)

/-- A byte from eight bits, most significant first. -/
def byteOfBits (b7 b6 b5 b4 b3 b2 b1 b0 : Bool) : Byte :=
  placeBit b7 7 ||| placeBit b6 6 ||| placeBit b5 5 ||| placeBit b4 4
    ||| placeBit b3 3 ||| placeBit b2 2 ||| placeBit b1 1 ||| placeBit b0 0

/-- The bytes a run of bits spells, when its number is a multiple of 8 (R131, whole bytes). -/
def bytesOfBits : List Bool → Option (List Byte)
  | [] => some []
  | b7 :: b6 :: b5 :: b4 :: b3 :: b2 :: b1 :: b0 :: bits =>
    match bytesOfBits bits with
    | some vs => some (byteOfBits b7 b6 b5 b4 b3 b2 b1 b0 :: vs)
    | none => none
  | _ => none

/-! ## The check (R128) -/

/-- One bit of the division by x¹⁶ + x¹⁵ + x² + 1 (R128). -/
def checkStep (register : BitVec 16) (bit : Bool) : BitVec 16 :=
  if Bool.xor bit register.msb then (register <<< 1) ^^^ 0x8005#16 else register <<< 1

/-- The remainder of a run of bits, from a register of FFFFh (R128). -/
def checkOf (bits : List Bool) : BitVec 16 :=
  bits.foldl checkStep 0xFFFF#16

/-- The two check bytes, high byte first (R128). -/
def checkBytes (check : BitVec 16) : List Byte :=
  [check.extractLsb' 8 8, check.extractLsb' 0 8]

/-- The codes of the frame kinds (11.6). -/
def kindCode : FrameKind → Byte
  | .openCall => 1
  | .grant => 2
  | .refuse => 3
  | .carry => 4
  | .credit => 5
  | .ask => 6
  | .close => 7
  | .closed => 8

/-- The kind a second content byte names (R131). -/
def kindOfCode (code : Byte) : Option FrameKind :=
  if code = 1 then some .openCall
  else if code = 2 then some .grant
  else if code = 3 then some .refuse
  else if code = 4 then some .carry
  else if code = 5 then some .credit
  else if code = 6 then some .ask
  else if code = 7 then some .close
  else if code = 8 then some .closed
  else none

/-- Header and payload of a frame (11.6). -/
def frameBody (f : Frame) : List Byte :=
  f.number :: kindCode f.kind :: f.a :: f.b :: f.payload

/-- The check of a frame, over its header and payload bits (R128). -/
def frameCheck (f : Frame) : BitVec 16 :=
  checkOf (bytesBits (frameBody f))

/-- The content of a frame: header, payload and check (R127). -/
def frameContent (f : Frame) : List Byte :=
  frameBody f ++ checkBytes (frameCheck f)

/-- The content of a frame as bits, before zero insertion. -/
def frameBits (f : Frame) : List Bool :=
  bytesBits (frameContent f)

/-! ## Zero insertion and deletion (R127, R130) -/

/-- Inserts a 0 after every run of five consecutive 1 bits; the number counts the run so far. -/
def insertZeros : Nat → List Bool → List Bool
  | _, [] => []
  | _, false :: bits => false :: insertZeros 0 bits
  | ones, true :: bits =>
    if ones = 4 then true :: false :: insertZeros 0 bits else true :: insertZeros (ones + 1) bits

/-- Deletes the 0 that follows five consecutive content 1 bits. -/
def deleteZeros : Nat → List Bool → List Bool
  | _, [] => []
  | ones, false :: bits => if ones = 5 then deleteZeros 0 bits else false :: deleteZeros 0 bits
  | ones, true :: bits => true :: deleteZeros (ones + 1) bits

/-- The flag 7Eh (R127). -/
def flagBits : List Bool := byteBits 0x7E

/-- The abort sequence: eight consecutive 1 bits (R127). -/
def abortBits : List Bool := List.replicate 8 true

/-- A frame as sent on the line: opening flag, content with zeros inserted, closing flag (R127). -/
def frameOnLine (f : Frame) : List Bool :=
  flagBits ++ insertZeros 0 (frameBits f) ++ flagBits

/-! ## Delimiting frames (R130) -/

/-- What ends at a receiver, with the content gathered: a frame at its closing flag, or one that an abort cuts off. -/
inductive Ending where
  | closed (content : List Bool)
  | aborted (content : List Bool)
  deriving DecidableEq, Repr

/-- The content that bits taken since an opening flag spell, the last taken first: the inserted zeros are deleted. -/
def gathered (taken : List Bool) : List Bool := deleteZeros 0 taken.reverse

/-- Delimits bits in the order they arrive, and gives what the receiver holds after them and the frames that ended. It holds nothing in
HUNT, and in FRAME the bits taken since the opening flag, the last taken first. The number counts the 1 bits taken last: six of them
and a 0 are a flag, whose own first 0 and 1 bits are no content, and seven are an abort. A 0 that ends one flag may begin the next. -/
def delimit : Option (List Bool) → Nat → List Bool → Option (List Bool) × List Ending
  | held, _, [] => (held, [])
  | none, ones, false :: bits => if ones = 6 then delimit (some []) 0 bits else delimit none 0 bits
  | none, ones, true :: bits => delimit none (min 7 (ones + 1)) bits
  | some taken, ones, false :: bits =>
    if ones = 6 then
      let rest := delimit (some []) 0 bits
      if taken.drop 7 = [] then rest else (rest.1, .closed (gathered (taken.drop 7)) :: rest.2)
    else delimit (some (false :: taken)) 0 bits
  | some taken, ones, true :: bits =>
    if ones = 6 then
      let rest := delimit none 7 bits
      (rest.1, .aborted (gathered (taken.drop 6)) :: rest.2)
    else delimit (some (true :: taken)) (ones + 1) bits

/-- The 1 bits that a run of bits ends with. -/
def trailingOnes (bits : List Bool) : Nat := (bits.reverse.takeWhile id).length

/-- Bits after an opening flag that hold neither a flag nor an abort: they are gathered. -/
def endsNothing (bits : List Bool) : Bool := delimit (some []) 0 bits = (some bits.reverse, [])

/-! ## Validation (R131) -/

/-- The ranges of field A, field B and the payload length that each kind allows (R131, the second table). -/
def fieldsAllowed (f : Frame) : Bool :=
  match f.kind with
  | .openCall => f.b ≤ 15 && f.payload.isEmpty
  | .grant => f.a ≤ 15 && f.b == 0 && f.payload.isEmpty
  | .refuse => f.b == 0 && f.payload.isEmpty
  | .carry => f.a ≤ 31 && f.b ≤ 1 && 1 ≤ f.payload.length && f.payload.length ≤ 128
  | .credit => f.a ≤ 31 && f.b ≤ 31 && f.payload.isEmpty
  | .ask => f.a == 0 && f.b == 0 && f.payload.isEmpty
  | .close => f.b == 0 && f.payload.isEmpty
  | .closed => f.a == 0 && f.b == 0 && f.payload.isEmpty

/-- A frame whose check is good and whose fields pass the tests of R131; the line state is tested apart. -/
def frameValid (f : Frame) : Bool :=
  1 ≤ f.number && f.number ≤ 127 && fieldsAllowed f

/-- The valid frame that content bits spell, if the tests of R131 (but for the line state) pass. -/
def readContent (content : List Bool) : Option Frame :=
  match bytesOfBits content with
  | none => none
  | some bytes =>
    if checkOf content ≠ 0 then none
    else if bytes.length < 6 ∨ 134 < bytes.length then none
    else
      match bytes with
      | number :: code :: a :: b :: rest =>
        match kindOfCode code with
        | none => none
        | some kind =>
          let f : Frame := ⟨number, kind, a, b, rest.take (rest.length - 2)⟩
          if frameValid f then some f else none
      | _ => none

end Sys2Proof.Machine
end

