-- ==== Sys2Proof/Machine/Sparse.lean ====
section
/-! DEFINITION. Maps held as lists of (key, value) pairs with rising keys: the form of memory, places, slots and the index map. -/

namespace Sys2Proof.Machine.Sparse

variable {κ α : Type}

/-- The value listed under a key. -/
def find (key : κ → Nat) (k : Nat) : List (κ × α) → Option α
  | [] => none
  | e :: m => if key e.1 = k then some e.2 else find key k m

/-- Lists a value under a key, in place of the one listed there, keeping keys in rising order. -/
def insert (key : κ → Nat) (k : κ) (v : α) : List (κ × α) → List (κ × α)
  | [] => [(k, v)]
  | e :: m =>
    if key k < key e.1 then (k, v) :: e :: m
    else if key k = key e.1 then (k, v) :: m
    else e :: insert key k v m

/-- Lists nothing under a key. -/
def erase (key : κ → Nat) (k : Nat) : List (κ × α) → List (κ × α)
  | [] => []
  | e :: m => if key e.1 = k then erase key k m else e :: erase key k m

/-- The value a key has: the listed one, or the default d of an unlisted key. -/
def get (key : κ → Nat) (d : α) (k : Nat) (m : List (κ × α)) : α :=
  (find key k m).getD d

/-- Gives a key a value; writing the default removes the entry. -/
def set [DecidableEq α] (key : κ → Nat) (d : α) (k : κ) (v : α) (m : List (κ × α)) : List (κ × α) :=
  if v = d then erase key (key k) m else insert key k v m

/-- Keys rise strictly. -/
abbrev rising (key : κ → Nat) (m : List (κ × α)) : Prop :=
  m.Pairwise (fun x y => key x.1 < key y.1)

/-- The canonical form: keys rise strictly and no entry is the default. -/
abbrev wf (key : κ → Nat) (d : α) (m : List (κ × α)) : Prop :=
  rising key m ∧ ∀ e ∈ m, e.2 ≠ d

end Sys2Proof.Machine.Sparse
end

