-- ==== Sys2Proof/Config.lean ====
section
/-! DEFINITION. What the part fixes (sizes, limits, default settings, codes of causes) and its one free value. -/

namespace Sys2Proof.Config

/-- A buffer holds 128 bytes (R76). -/
def bufferBytes : Nat := 128

/-- A transmit queue holds at most 64 entries (R51). -/
def transmitRoom : Nat := 64

/-- An unacknowledged list holds at most 15 entries (R51). -/
def unackedRoom : Nat := 15

/-- A stray reply queue holds up to 4 replies (R134). -/
def strayRoom : Nat := 4

/-- The delivered count and the discard count stay at this value (R174, R124). -/
def countMax : Nat := 65535

/-- The loss count stays at this value (R124). -/
def lossMax : Nat := 255

/-- The floor after RESET (R85). -/
def floorAtReset : Nat := 32

/-- The part code in the identity word (R184). -/
def partCode : Nat := 0x5C08

/-- The silicon revision in the identity word (R184). -/
def revision : Nat := 0x01

/-! The causes of R188. -/

def causeNoService : Byte := 2
def causeBusy : Byte := 3
def causeCongested : Byte := 4
def causeNoAnswer : Byte := 5
def causeNoResponse : Byte := 6
def causeProtocol : Byte := 7
def causeUnknown : Byte := 8
def causeWithdrawn : Byte := 9
def causeCollision : Byte := 10
def causeLineLost : Byte := 11
def causeLineDisabled : Byte := 12

/-- FREE VALUE (log 4): a number drawn for the time that has passed on a running settle timer.
The manual reports the time remaining (R125) and the model keeps no clock, so nothing fixes it. -/
opaque settleReading : Nat → Nat

end Sys2Proof.Config
end

