-- ==== Sys2Proof/Machine/State.lean ====
section
/-! DEFINITION. The state of the LC8, field by field as the manual's tables name it, and State.reset. -/

namespace Sys2Proof.Machine

/-- Why a step stops with a fault. -/
inductive Fault where
  /-- Raised by a CARRY frame taken in order when the free queue is empty although the circuit holds a reservation.
  R81 and R83 rule such a state out; the model stops there (log 12). Safe: no state the part can be in is affected. -/
  | noFreeBuffer
  deriving DecidableEq, Repr

/-- Why a step is refused. -/
inductive Refusal where
  /-- Raised by exec's arm of a command that has no meaning yet; no arm raises it now. Safe. -/
  | notModelled (mnemonic : String)
  deriving DecidableEq, Repr

/-! ## The circuit record (01, R1) -/

/-- LOCAL or REMOTE, as a cause source. -/
inductive Side where
  | localEnd | remoteEnd
  deriving DecidableEq, Repr

inductive Confirmation where
  | confirmed | unconfirmed
  deriving DecidableEq, Repr

/-- The state of a circuit that is not FREE, with the fields that are present in that state alone:
the drain cause of DRAINING (R41), the cause of CLOSING and ENDED, the cause source and confirmation of ENDED (R1). -/
inductive CircuitState where
  | calling
  | offered
  | opened
  | draining (drainCause : Byte)
  | closing (cause : Byte)
  | ended (cause : Byte) (source : Side) (confirmation : Option Confirmation)
  deriving DecidableEq, Repr

/-- The seven names of a slot's state (R1). -/
inductive StateName where
  | free | calling | offered | opened | draining | closing | ended
  deriving DecidableEq, Repr

/-- LOCAL, or REMOTE with the service entry that admitted the call (R1, R7). -/
inductive Origin where
  | localCall
  | remoteCall (entry : EntryNo)
  deriving DecidableEq, Repr

/-- The purposes of the circuit timer (01, 1.6). -/
inductive Purpose where
  | openWait | offerWait | ackWait | stallWait | closeWait
  deriving DecidableEq, Repr

/-- A running circuit timer (R11). The time remaining, in units of its line setting, is loaded full and not counted down (log 3). -/
structure Timer where
  purpose : Purpose
  remaining : Nat
  deriving DecidableEq, Repr

/-- An entry of a transmit queue or a receive queue (R51, R52). -/
structure Entry where
  buffer : BufNo
  length : Nat
  endMark : Bool
  deriving DecidableEq, Repr

/-- An entry of an unacknowledged list (R51). -/
structure SentEntry where
  sequence : Seq
  entry : Entry
  deriving DecidableEq, Repr

/-- A set of the five conditions (R172). -/
structure Conditions where
  arrival : Bool := false
  connected : Bool := false
  data : Bool := false
  delivered : Bool := false
  ended : Bool := false
  deriving DecidableEq, Repr

/-- A set of the six kinds of owed control (R12). -/
structure Owed where
  openCall : Bool := false
  grant : Bool := false
  credit : Bool := false
  ask : Bool := false
  close : Bool := false
  resend : Bool := false
  deriving DecidableEq, Repr

/-- The kinds of owed control, by name. -/
inductive OwedKind where
  | openCall | grant | credit | ask | close | resend
  deriving DecidableEq, Repr

/-- A circuit record in a state other than FREE (R1). -/
structure Circuit where
  state : CircuitState
  line : LineNo
  number : Byte
  owner : Option PortNo
  origin : Origin
  service : Byte
  retry : Nat
  timer : Option Timer
  nextSend : Seq
  ackBase : Seq
  farEdge : Seq
  transmit : List Entry
  unacked : List SentEntry
  nextExpected : Seq
  receiveEdge : Seq
  reserved : Nat
  target : Nat
  receive : List Entry
  conditions : Conditions
  delivered : Nat
  owed : Owed
  deriving DecidableEq, Repr

/-- A slot: its generation and, unless it is FREE, its record (R1). -/
structure Slot where
  generation : Generation := 0
  circuit : Option Circuit := none
  deriving DecidableEq, Repr

/-! ## The buffer pool (04) -/

/-- Where a buffer stands (R77). -/
inductive Place where
  | free
  | claimed (port : PortNo)
  | transmit (slot : SlotNo)
  | unacked (slot : SlotNo)
  | receive (slot : SlotNo)
  deriving DecidableEq, Repr

/-! ## The service table (05) -/

/-- An entry's action with the fields that action uses (R97). -/
inductive Action where
  | offer (client : PortNo) (limit : Nat)
  | accept (client : PortNo) (credit : Nat) (limit : Nat)
  | refuse (cause : Byte)
  deriving DecidableEq, Repr

/-- The fields of an entry that is not EMPTY; a service code that is absent means any code (R97). -/
structure ServiceFields where
  code : Option Byte
  lines : BitVec 8
  action : Action
  deriving DecidableEq, Repr

/-- A service entry. Only ACTIVE and WITHDRAWN entries hold fields; an EMPTY one has live count 0 (R97, R98). -/
inductive ServiceEntry where
  | empty
  | active (fields : ServiceFields) (live : Nat)
  | withdrawn (fields : ServiceFields) (live : Nat)
  deriving DecidableEq, Repr

/-! ## Lines, receivers and transmitters (06, 07) -/

inductive LineState where
  | disabled | waiting | settling | active
  deriving DecidableEq, Repr

inductive Role where
  | originRole | answerRole
  deriving DecidableEq, Repr

inductive Level where
  | down | up
  deriving DecidableEq, Repr

/-- A line's configuration, written whole by LINE-SET (R109, R122), with its defaults (R126). -/
structure LineConfig where
  role : Role := .originRole
  settleTime : Nat := 20
  openTimeout : Nat := 50
  retransmit : Nat := 20
  closeTimeout : Nat := 50
  offerTimeout : Nat := 50
  retryLimit : Nat := 4
  deriving DecidableEq, Repr

/-- A line receiver (R129). In FRAME it holds the bits taken since the opening flag, as they stand on the receive data pin; the
content gathered so far is what they spell without the inserted zeros (R130, log 5). -/
inductive Receiver where
  | off
  | hunt
  | frame (bits : List Bool)
  deriving DecidableEq, Repr

/-- The kinds of reply a stray reply queue holds (R134). -/
inductive ReplyKind where
  | refuse | close | closed
  deriving DecidableEq, Repr

/-- A reply for a circuit number without a record; the cause is 0 for CLOSED (R134). -/
structure Reply where
  number : Byte
  kind : ReplyKind
  cause : Byte
  deriving DecidableEq, Repr

/-- What a transmitter notes of the circuit it stages a frame for (R13). -/
structure Noted where
  slot : SlotNo
  generation : Generation
  line : LineNo
  number : Byte
  state : StateName
  deriving DecidableEq, Repr

/-- A staged frame: the copy of its content and check, whether it is a retransmission, and the noted circuit if it has one (R136). -/
structure Staged where
  frame : Frame
  check : BitVec 16
  retransmission : Bool
  noted : Option Noted
  deriving DecidableEq, Repr

/-- What the transmit data pin carries (R127): continuous 1 bits, continuous flags, the staged frame and then flags,
or the abort sequence of R144 and then flags or 1 bits. -/
inductive TransmitData where
  | ones | flags | stagedFrame | abortThenFlags | abortThenOnes
  deriving DecidableEq, Repr

/-- A line transmitter: IDLE while it holds no staged frame, SENDING otherwise (R136). -/
structure Transmitter where
  staged : Option Staged := none
  control : List SlotNo := []
  stray : List Reply := []
  ring : List SlotNo := []
  data : TransmitData := .ones
  deriving DecidableEq, Repr

/-- A line record (06, 6.1) with its pins, receiver and transmitter. -/
structure Line where
  state : LineState := .disabled
  config : LineConfig := {}
  discards : Nat := 0
  losses : Nat := 0
  reported : Level := .down
  changed : Bool := false
  settleTimer : Option Nat := none
  readyLevel : Bool := false
  readyPin : Bool := false
  lon : Bool := false
  receiver : Receiver := .off
  tx : Transmitter := {}
  deriving DecidableEq, Repr

/-! ## Client ports (08, 09) -/

inductive SlotStatus where
  | starting | idle | pending | done
  deriving DecidableEq, Repr

/-- The result codes 0..13 (08, 8.5). -/
inductive ResultCode where
  | ok | unknownCommand | notPermitted | badArgument | badHandle | notOwner | wrongState
  | lineDown | noSlot | noNumber | noBuffer | noRoom | empty | inUse
  deriving DecidableEq, Repr

/-- Argument words A0 to A3. -/
structure Args where
  a0 : Word := 0
  a1 : Word := 0
  a2 : Word := 0
  a3 : Word := 0
  deriving DecidableEq, Repr

/-- Result words 0 to 3. -/
structure Results where
  r0 : Word := 0
  r1 : Word := 0
  r2 : Word := 0
  r3 : Word := 0
  deriving DecidableEq, Repr

/-- A port's holdoff timer (R177). -/
inductive Holdoff where
  | absent
  | running (remaining : Nat)
  | expired
  deriving DecidableEq, Repr

/-- A port record (R148) with its attention list, holdoff timer and ATN output (09). -/
structure Port where
  status : SlotStatus := .starting
  command : Byte := 0
  args : Args := {}
  result : ResultCode := .ok
  results : Results := {}
  overrun : Bool := false
  window : BufNo := 0
  windowFault : Option BufNo := none
  holdoffCount : Nat := 0
  holdoffTime : Nat := 0
  attention : List SlotNo := []
  holdoff : Holdoff := .absent
  atn : Bool := false
  deriving DecidableEq, Repr

/-! ## The part -/

/-- RESET asserted, start-up running (STARTING), or RUNNING (R147, R169 to R171). -/
inductive Phase where
  | inReset | starting | running
  deriving DecidableEq, Repr

/-- The data of a bus read, as wide as the access (R183, log 8). -/
inductive ReadData where
  | byte (v : BitVec 8)
  | half (v : BitVec 16)
  | word (v : BitVec 32)
  deriving DecidableEq, Repr

/-- The state of the LC8. slots, places and memory list only the keys whose value is not the one an unlisted key has
(a FREE slot of generation 0, a FREE buffer, a byte 0), with keys rising; index has rising keys. -/
structure State where
  phase : Phase
  lastServed : PortNo
  slots : List (SlotNo × Slot)
  freeSlots : List SlotNo
  index : List (Nat × SlotNo)
  memory : List Host.Cell
  places : List (BufNo × Place)
  freeQueue : List BufNo
  reservedTotal : Nat
  floor : Nat
  waitQueue : List SlotNo
  services : Vector ServiceEntry 24
  lines : Vector Line 8
  ports : Vector Port 4
  readData : ReadData
  freeCount : Nat
  pending : List Instr
  deriving DecidableEq, Repr

/-- The machine at the release of RESET, start-up in progress (R22, R95, R97, R126, R148, R152, R170, R181; logs 4, 7, 8, 10). -/
def State.reset : State where
  phase := .starting
  lastServed := 3
  slots := []
  freeSlots := List.finRange 192
  index := []
  memory := []
  places := []
  freeQueue := List.finRange 512
  reservedTotal := 0
  floor := Config.floorAtReset
  waitQueue := []
  services := Vector.replicate 24 .empty
  lines := Vector.replicate 8 {}
  ports := Vector.replicate 4 {}
  readData := .word 0
  freeCount := 0
  pending := []

end Sys2Proof.Machine
end

