-- ==== Sys2Proof/Machine/Access.lean ====
section
/-! DEFINITION. Reading and writing one port, line, slot, place, service entry or byte of State: every other file goes through these. -/

namespace Sys2Proof.Machine

namespace State

/-! ## The plain fields -/

def setReservedTotal (s : State) (n : Nat) : State := { s with reservedTotal := n }
def setWaitQueue (s : State) (q : List SlotNo) : State := { s with waitQueue := q }
def setFreeQueue (s : State) (q : List BufNo) : State := { s with freeQueue := q }
def setFreeSlots (s : State) (q : List SlotNo) : State := { s with freeSlots := q }
def setFloor (s : State) (n : Nat) : State := { s with floor := n }
def setLastServed (s : State) (p : PortNo) : State := { s with lastServed := p }
def setReadData (s : State) (x : ReadData) : State := { s with readData := x }
def setFreeCount (s : State) (n : Nat) : State := { s with freeCount := n }

/-! ## Ports, lines, service entries -/

def port (s : State) (p : PortNo) : Port := s.ports[p]

def setPort (s : State) (p : PortNo) (r : Port) : State := { s with ports := s.ports.set p r }

def modPort (s : State) (p : PortNo) (f : Port → Port) : State := s.setPort p (f (s.port p))

def line (s : State) (l : LineNo) : Line := s.lines[l]

def setLine (s : State) (l : LineNo) (r : Line) : State := { s with lines := s.lines.set l r }

def modLine (s : State) (l : LineNo) (f : Line → Line) : State := s.setLine l (f (s.line l))

/-- Changes a line's transmitter alone. -/
def modTx (s : State) (l : LineNo) (f : Transmitter → Transmitter) : State :=
  s.modLine l fun r => { r with tx := f r.tx }

def entry (s : State) (e : EntryNo) : ServiceEntry := s.services[e]

def setEntry (s : State) (e : EntryNo) (x : ServiceEntry) : State := { s with services := s.services.set e x }

/-! ## Slots and circuits (01, R1) -/

/-- An unlisted slot is FREE with generation 0 (R22). -/
def slot (s : State) (i : SlotNo) : Slot := Sparse.get Fin.val {} i s.slots

def setSlot (s : State) (i : SlotNo) (x : Slot) : State := { s with slots := Sparse.set Fin.val {} i x s.slots }

/-- The record of a slot that is not FREE. -/
def circuit (s : State) (i : SlotNo) : Option Circuit := (s.slot i).circuit

/-- Writes the record of a slot, keeping its generation. -/
def setCircuit (s : State) (i : SlotNo) (c : Option Circuit) : State :=
  s.setSlot i { s.slot i with circuit := c }

/-- Changes the record of a slot that has one. -/
def modCircuit (s : State) (i : SlotNo) (f : Circuit → Circuit) : State :=
  s.setCircuit i ((s.circuit i).map f)

/-- The slots whose record meets a test, in ascending slot number (R16). -/
def slotsWhere (s : State) (test : Circuit → Bool) : List SlotNo :=
  (s.slots.filter fun e => match e.2.circuit with | some c => test c | none => false).map (·.1)

/-! ## The index map (R8) -/

/-- The key of (line, circuit number). -/
def indexKey (l : LineNo) (n : Byte) : Nat := l.val * 256 + n.toNat

/-- The slot the index map holds under (line, circuit number). -/
def lookup (s : State) (l : LineNo) (n : Byte) : Option SlotNo := Sparse.find id (indexKey l n) s.index

def mapNumber (s : State) (l : LineNo) (n : Byte) (i : SlotNo) : State :=
  { s with index := Sparse.insert id (indexKey l n) i s.index }

def unmapNumber (s : State) (l : LineNo) (n : Byte) : State :=
  { s with index := Sparse.erase id (indexKey l n) s.index }

/-! ## Places (R77) -/

/-- An unlisted buffer is FREE (R95). -/
def place (s : State) (b : BufNo) : Place := Sparse.get Fin.val .free b s.places

def setPlace (s : State) (b : BufNo) (x : Place) : State := { s with places := Sparse.set Fin.val .free b x s.places }

/-- A port's claimed set, in ascending buffer number (R77, R148). -/
def claimedSet (s : State) (p : PortNo) : List BufNo :=
  (s.places.filter fun e => e.2 == .claimed p).map (·.1)

end State

/-! ## Buffer memory (R76) -/

namespace Memory

/-- What an unlisted byte reads as: its content after RESET (R95). -/
def resetByte : Byte := 0

/-- The number of bytes of the buffer memory: 512 buffers of 128 bytes. -/
def size : Nat := 512 * Config.bufferBytes

/-- Canonical form: keys rise, no listed byte is the reset byte, and every key lies in the memory. -/
abbrev wf (m : List Host.Cell) : Prop :=
  Sparse.wf id resetByte m ∧ ∀ c ∈ m, c.1 < size

/-- The key of a byte of a buffer. -/
def key (b : BufNo) (k : Nat) : Nat := b.val * Config.bufferBytes + k

def read (m : List Host.Cell) (a : Nat) : Byte := Sparse.get id resetByte a m

def write (m : List Host.Cell) (a : Nat) (v : Byte) : List Host.Cell := Sparse.set id resetByte a v m

/-- Writes bytes at successive keys. -/
def writeBytes (m : List Host.Cell) (a : Nat) : List Byte → List Host.Cell
  | [] => m
  | v :: vs => writeBytes (write m a v) (a + 1) vs

end Memory

namespace State

/-- Byte k of buffer b. -/
def bufferByte (s : State) (b : BufNo) (k : Nat) : Byte := Memory.read s.memory (Memory.key b k)

/-- Bytes k, k + 1, … of buffer b. -/
def bufferBytes (s : State) (b : BufNo) (k n : Nat) : List Byte :=
  (List.range n).map fun j => s.bufferByte b (k + j)

/-- Writes bytes k, k + 1, … of buffer b; bytes past the buffer's 128 are not its own and are dropped. -/
def writeBuffer (s : State) (b : BufNo) (k : Nat) (vs : List Byte) : State :=
  { s with memory := Memory.writeBytes s.memory (Memory.key b k) (vs.take (Config.bufferBytes - k)) }

end State

end Sys2Proof.Machine
end

