-- ==== Sys2Proof/Machine/Flags.lean ====
section
/-! DEFINITION. Sets of conditions and of owed control, presence of states, change flags and the ATN levels (R12, R120, R172, R178, R179). -/

namespace Sys2Proof.Machine

/-! ## Conditions (R172, R178) -/

namespace Conditions

def union (x y : Conditions) : Conditions :=
  ⟨x.arrival || y.arrival, x.connected || y.connected, x.data || y.data, x.delivered || y.delivered, x.ended || y.ended⟩

def isEmpty (x : Conditions) : Bool := x = {}

/-- ARRIVAL and ENDED are the urgent conditions (R178). -/
def urgent (x : Conditions) : Bool := x.arrival || x.ended

end Conditions

/-! ## Owed control (R12) -/

namespace Owed

/-- Gives one kind's membership a value. -/
def put (o : Owed) (k : OwedKind) (v : Bool) : Owed :=
  match k with
  | .openCall => { o with openCall := v }
  | .grant => { o with grant := v }
  | .credit => { o with credit := v }
  | .ask => { o with ask := v }
  | .close => { o with close := v }
  | .resend => { o with resend := v }

def has (o : Owed) (k : OwedKind) : Bool :=
  match k with
  | .openCall => o.openCall
  | .grant => o.grant
  | .credit => o.credit
  | .ask => o.ask
  | .close => o.close
  | .resend => o.resend

def isEmpty (o : Owed) : Bool := o = {}

end Owed

/-! ## Names of states -/

/-- The name of a record's state (R1). -/
def CircuitState.name : CircuitState → StateName
  | .calling => .calling
  | .offered => .offered
  | .opened => .opened
  | .draining _ => .draining
  | .closing _ => .closing
  | .ended _ _ _ => .ended

/-- OPEN or DRAINING: the data phase. -/
def CircuitState.inData : CircuitState → Bool
  | .opened => true
  | .draining _ => true
  | _ => false

/-- A circuit that the index map holds: every state but ENDED and FREE (R8). -/
def Circuit.mapped (c : Circuit) : Bool := c.state.name ≠ .ended

/-- OPEN and DRAINING count as one state in the comparison of R13. -/
def StateName.sameStage (x y : StateName) : Bool :=
  x = y || (x = .opened && y = .draining) || (x = .draining && y = .opened)

/-! ## Change flags (R109, R120) -/

/-- A line's level: UP while ACTIVE, DOWN otherwise. It is not stored. -/
def Line.level (r : Line) : Level := if r.state = .active then .up else .down

/-- The change flag follows the level and the reported level (R120). -/
def Line.flagged (r : Line) : Line := { r with changed := r.level ≠ r.reported }

/-! ## ATN (R178, R179) -/

namespace State

/-- The conditions pending on a slot's circuit. -/
def conditionsOf (s : State) (i : SlotNo) : Conditions :=
  match s.circuit i with
  | some c => c.conditions
  | none => {}

/-- Some circuit on p's list has an urgent condition pending (R178). -/
def urgentOn (s : State) (p : PortNo) : Bool :=
  (s.port p).attention.any fun i => (s.conditionsOf i).urgent

/-- Some line's change flag is set (R179). -/
def anyChanged (s : State) : Bool :=
  (List.finRange 8).any fun l => (s.line l).changed

/-- The level of ATNp: the tests of R178, and for ATN0 the change flags of R179. -/
def atnLevel (s : State) (p : PortNo) : Bool :=
  let r := s.port p
  (!r.attention.isEmpty
    && (r.holdoffCount = 0 || r.holdoffCount ≤ r.attention.length || r.holdoff = .expired || s.urgentOn p))
  || (p = 0 && s.anyChanged)

/-- The attention unit judges one port's ATN output. -/
def judgeAtnOf (s : State) (p : PortNo) : State := s.modPort p fun r => { r with atn := s.atnLevel p }

/-- The attention unit judges every ATN output afresh (R178). -/
def judgeAtn (s : State) : State := (((s.judgeAtnOf 0).judgeAtnOf 1).judgeAtnOf 2).judgeAtnOf 3

end State

end Sys2Proof.Machine
end

