-- ==== Sys2Proof/Machine/Operands.lean ====
section
/-! DEFINITION. Command codes, argument words, handles, the checking order, and the decoding of bus accesses (R4 to R6, R152, R154, R183, R186). -/

namespace Sys2Proof.Machine

/-! ## Sequence arithmetic (00, 5.2) -/

/-- The distance from a to b: the steps needed to count forward from a to b, modulo 32. -/
def distance (a b : Seq) : Nat := (b - a).toNat

/-! ## Command codes (R186) -/

namespace Code

def call : Byte := 0x01
def accept : Byte := 0x02
def refuse : Byte := 0x03
def close : Byte := 0x04
def send : Byte := 0x08
def release : Byte := 0x09
def setCredit : Byte := 0x0A
def claim : Byte := 0x10
def unclaim : Byte := 0x11
def poolSet : Byte := 0x12
def poolQuery : Byte := 0x13
def serviceSet : Byte := 0x18
def serviceClear : Byte := 0x19
def serviceQuery : Byte := 0x1A
def lineSet : Byte := 0x20
def lineEnable : Byte := 0x21
def lineDisable : Byte := 0x22
def lineQuery : Byte := 0x23
def lineTake : Byte := 0x24
def query : Byte := 0x28
def retire : Byte := 0x29
def take : Byte := 0x30
def takeNext : Byte := 0x31
def portSet : Byte := 0x38
def portReset : Byte := 0x39

/-- The 25 codes of R186. -/
def known : List Byte :=
  [call, accept, refuse, close, send, release, setCredit, claim, unclaim, poolSet, poolQuery, serviceSet, serviceClear,
   serviceQuery, lineSet, lineEnable, lineDisable, lineQuery, lineTake, query, retire, take, takeNext, portSet, portReset]

end Code

/-! ## Fields of words -/

/-- Bits hi..lo of a word as an unsigned number (R186). -/
def bitsOf (w : Word) (hi lo : Nat) : Nat := (w.extractLsb' lo (hi + 1 - lo)).toNat

/-- A number placed in bits hi..lo of a word, the other bits 0 (R184, R187). -/
def inBits (hi lo v : Nat) : Word := BitVec.ofNat 32 ((v % 2 ^ (hi + 1 - lo)) <<< lo)

/-- A field that may be absent, in bits hi..lo with its presence bit; absent reads all 0 (R187). -/
def optBits (hi lo present : Nat) : Option Nat → Word
  | some v => inBits hi lo v ||| inBits present present 1
  | none => 0

/-! ## The checking order (R154) -/

/-- One test of the checking order: what fails it gives the result code. -/
def require (test : Bool) (code : ResultCode) : Except ResultCode Unit :=
  if test then .ok () else .error code

/-- The line a whole argument names, or BAD-ARGUMENT. -/
def lineArg (w : Word) : Except ResultCode LineNo :=
  if h : w.toNat < 8 then .ok ⟨w.toNat, h⟩ else .error .badArgument

/-- The buffer a whole argument names, or BAD-ARGUMENT. -/
def bufferArg (w : Word) : Except ResultCode BufNo :=
  if h : w.toNat < 512 then .ok ⟨w.toNat, h⟩ else .error .badArgument

/-- The service entry an index names, or BAD-ARGUMENT. -/
def entryArg (v : Nat) : Except ResultCode EntryNo :=
  if h : v < 24 then .ok ⟨v, h⟩ else .error .badArgument

/-- The port an argument names, or BAD-ARGUMENT. -/
def portArg (v : Nat) : Except ResultCode PortNo :=
  if h : v < 4 then .ok ⟨v, h⟩ else .error .badArgument

/-- The supervisor-only commands are refused from ports 1 to 3 (R156). -/
def supervisorOnly (p : PortNo) : Except ResultCode Unit := require (p = 0) .notPermitted

/-! ## Handles (01, 1.3) -/

/-- The handle of one allocation of a slot: generation × 256 + slot. -/
def handleValue (g : Generation) (i : SlotNo) : Nat := g.toNat * 256 + i.val

/-- The handle of a slot's present allocation. -/
def State.handle (s : State) (i : SlotNo) : Nat := handleValue (s.slot i).generation i

/-- A handle argument decoded into slot and generation, or BAD-ARGUMENT (R4). -/
def handleArg (w : Word) : Except ResultCode (SlotNo × Generation) :=
  if 4095 < w.toNat then .error .badArgument
  else if h : w.toNat % 256 < 192 then .ok (⟨w.toNat % 256, h⟩, BitVec.ofNat 4 (w.toNat / 256))
  else .error .badArgument

/-- The handle step: the circuit now in the slot, or BAD-HANDLE (R5). -/
def State.named (s : State) (h : SlotNo × Generation) : Except ResultCode Circuit :=
  match s.circuit h.1 with
  | none => .error .badHandle
  | some c => if (s.slot h.1).generation = h.2 then .ok c else .error .badHandle

/-- The ownership step for a circuit (R6). -/
def ownedBy (p : PortNo) (c : Circuit) : Except ResultCode Unit := require (c.owner = some p) .notOwner

/-! ## The command arbiter (R152) -/

/-- The order in which the arbiter looks at the ports, from the last one served. -/
def roundFrom (q : PortNo) : List PortNo := [q + 1, q + 2, q + 3, q]

/-- The first PENDING port in the arbiter's order. -/
def State.nextPort (s : State) : Option PortNo :=
  (roundFrom s.lastServed).find? fun p => (s.port p).status = .pending

/-- The port whose command the arbiter takes next, when that command has the given code and the part is RUNNING (log 2). -/
def State.takes (s : State) (test : Byte → Bool) : Option PortNo :=
  if s.phase = .running then
    match s.nextPort with
    | some p => if test (s.port p).command then some p else none
    | none => none
  else none

/-! ## Bus accesses (R183) -/

/-- The number of bytes an access covers; 0 where its byte lanes give no width. -/
def widthBytes : Width → Nat
  | .byte => 1
  | .half => 2
  | .word => 4
  | .none => 0

/-- A window access that R183 does not call void: a width, aligned to it, within bytes 0 to 127. -/
def windowAccessOk (offset : Nat) (w : Width) : Bool :=
  0 < widthBytes w && offset % widthBytes w = 0 && offset + widthBytes w ≤ Config.bufferBytes

/-- What an access reaches (11.1). -/
inductive Target where
  | identity | globalStatus | portStatus | commandWord
  | argument (i : Fin 4)
  | result (i : Fin 4)
  | windowRegister | holdoffSettings | attentionHead | attentionState
  | windowData (offset : Nat)
  | undefinedOffset
  deriving DecidableEq, Repr

/-- The register at a word-aligned offset (11.1). -/
def registerAt (offset : Nat) : Target :=
  if offset = 0x000 then .identity
  else if offset = 0x004 then .globalStatus
  else if offset = 0x100 then .portStatus
  else if offset = 0x104 then .commandWord
  else if offset = 0x108 then .argument 0
  else if offset = 0x10C then .argument 1
  else if offset = 0x110 then .argument 2
  else if offset = 0x114 then .argument 3
  else if offset = 0x118 then .result 0
  else if offset = 0x11C then .result 1
  else if offset = 0x120 then .result 2
  else if offset = 0x124 then .result 3
  else if offset = 0x128 then .windowRegister
  else if offset = 0x12C then .holdoffSettings
  else if offset = 0x130 then .attentionHead
  else if offset = 0x134 then .attentionState
  else .undefinedOffset

/-- What an access reaches, undefinedOffset standing for every void access (R183). -/
def accessTarget (x : BusAccess) : Target :=
  let o := x.offset.toNat
  if 0x200 ≤ o ∧ o ≤ 0x27F then
    if windowAccessOk (o - 0x200) x.width then .windowData (o - 0x200) else .undefinedOffset
  else if x.width = .word then registerAt o
  else .undefinedOffset

/-- The access has a row of its own in the command table: a write of the command word, an argument word, the window register,
or the port status word with the clear request, or an access to the window data. -/
def hasOwnRow (x : BusAccess) : Bool :=
  match accessTarget x with
  | .commandWord => x.write
  | .argument _ => x.write
  | .windowRegister => x.write
  | .portStatus => x.write && x.data.getLsbD 9
  | .windowData _ => true
  | _ => false

end Sys2Proof.Machine
end

