-- ==== Sys2Proof/Machine/Ops.lean ====
section
/-! DEFINITION. The named operations that the commands share: owed control, timers, attention, the pool, the directory, ending a circuit, teardown. -/

namespace Sys2Proof.Machine

/-! ## Tests on a circuit record -/

/-- The circuit can send new data (R54). -/
def Circuit.canSend (c : Circuit) : Bool :=
  c.state.inData && !c.transmit.isEmpty && c.unacked.length < Config.unackedRoom && c.nextSend ≠ c.farEdge

/-- The circuit is stalled (R57). -/
def Circuit.stalled (c : Circuit) : Bool :=
  c.state.inData && c.unacked.isEmpty && !c.transmit.isEmpty && c.farEdge = c.nextSend

/-- The circuit wants more credit than it holds (04, 4.5). -/
def Circuit.short (c : Circuit) : Bool := c.reserved < c.target

/-- The circuit timer runs with this purpose. -/
def Circuit.waits (c : Circuit) (p : Purpose) : Bool := c.timer.any fun t => t.purpose = p

/-- The buffers a record holds: transmit queue, unacknowledged list, receive queue, each oldest first (R80). -/
def Circuit.buffers (c : Circuit) : List BufNo :=
  c.transmit.map (·.buffer) ++ c.unacked.map (·.entry.buffer) ++ c.receive.map (·.buffer)

/-- The line setting a timer purpose takes its duration from (01, 1.6). -/
def LineConfig.duration (g : LineConfig) : Purpose → Nat
  | .openWait => g.openTimeout
  | .offerWait => g.offerTimeout
  | .ackWait => g.retransmit
  | .stallWait => g.retransmit
  | .closeWait => g.closeTimeout

/-- A queue joined at its tail by a circuit that does not stand on it. -/
def joinTail (q : List SlotNo) (i : SlotNo) : List SlotNo := if i ∈ q then q else q ++ [i]

/-- A queue that a circuit leaves; those behind it move up and keep their order. -/
def leave (q : List SlotNo) (i : SlotNo) : List SlotNo := q.filter fun j => j ≠ i

namespace State

/-! ## Owed control and the control queue (R12, R137) -/

/-- Adds a kind to a circuit's owed control; the circuit joins its line's control queue if it does not stand there. -/
def owe (s : State) (i : SlotNo) (k : OwedKind) : State :=
  match s.circuit i with
  | none => s
  | some c =>
    (s.setCircuit i (some { c with owed := c.owed.put k true })).modTx c.line
      fun t => { t with control := joinTail t.control i }

/-- Removes a kind from owed control; a circuit left owing nothing leaves the control queue (R28, R63). -/
def dropOwed (s : State) (i : SlotNo) (k : OwedKind) : State :=
  match s.circuit i with
  | none => s
  | some c =>
    let owed := c.owed.put k false
    let t := s.setCircuit i (some { c with owed := owed })
    if owed.isEmpty then t.modTx c.line fun x => { x with control := leave x.control i } else t

/-! ## The circuit timer (R11) -/

/-- Starts the circuit timer with a purpose and its full duration, in place of any timer that runs. -/
def startTimer (s : State) (i : SlotNo) (p : Purpose) : State :=
  s.modCircuit i fun c => { c with timer := some ⟨p, (s.line c.line).config.duration p⟩ }

def stopTimer (s : State) (i : SlotNo) : State := s.modCircuit i fun c => { c with timer := none }

/-! ## Conditions and attention lists (R172, R173, R177) -/

/-- A circuit joins the tail of a port's attention list; an empty list's joining starts the holdoff timer (R177). -/
def joinAttention (s : State) (p : PortNo) (i : SlotNo) : State :=
  s.modPort p fun r =>
    { r with
      attention := joinTail r.attention i
      holdoff := if r.attention.isEmpty && 0 < r.holdoffTime then .running r.holdoffTime else r.holdoff }

/-- A circuit leaves a port's attention list; the list's emptying makes the holdoff timer ABSENT (R177). -/
def leaveAttention (s : State) (p : PortNo) (i : SlotNo) : State :=
  s.modPort p fun r =>
    { r with
      attention := leave r.attention i
      holdoff := if (leave r.attention i).isEmpty then .absent else r.holdoff }

/-- Raises conditions on a circuit; when none was pending it joins its owner's attention list (R172).
A circuit without an owner is raised nothing. -/
def raise (s : State) (i : SlotNo) (x : Conditions) : State :=
  match s.circuit i with
  | none => s
  | some c =>
    match c.owner with
    | none => s
    | some p =>
      let t := s.setCircuit i (some { c with conditions := c.conditions.union x })
      if c.conditions.isEmpty then t.joinAttention p i else t

/-- Empties a circuit's pending conditions and zeroes its delivered count (R174, R175). -/
def clearConditions (s : State) (i : SlotNo) : State :=
  s.modCircuit i fun c => { c with conditions := {}, delivered := 0 }

/-- Takes a circuit off its owner's attention list and drops what it has pending (R15, R18). -/
def leaveOwner (s : State) (i : SlotNo) : State :=
  match s.circuit i with
  | none => s
  | some c =>
    match c.owner with
    | none => s
    | some p => (s.leaveAttention p i).clearConditions i

/-! ## The pool (04) -/

/-- The available count: the free queue length less the reserved total (R81). -/
def available (s : State) : Nat := s.freeQueue.length - s.reservedTotal

/-- Hands one reservation to the circuit at the head of the credit wait queue; still short, it rejoins the tail (R66, R88). -/
def grantOne (s : State) (i : SlotNo) (rest : List SlotNo) : State :=
  let t := (s.setReservedTotal (s.reservedTotal + 1)).setWaitQueue rest
  let u := (t.modCircuit i fun c => { c with reserved := c.reserved + 1, receiveEdge := c.receiveEdge + 1 }).owe i .credit
  if (u.circuit i).any Circuit.short then u.setWaitQueue (u.waitQueue ++ [i]) else u

/-- Grants until the queue is empty or n grants are made. -/
def serveTimes : Nat → State → State
  | 0, s => s
  | n + 1, s =>
    match s.waitQueue with
    | [] => s
    | i :: rest => serveTimes n (s.grantOne i rest)

/-- The pool serves its credit wait queue: each grant lowers the available count by one, so it bounds the grants (R88). -/
def serveWait (s : State) : State := serveTimes s.available s

/-- A circuit that does not stand on the credit wait queue joins its tail, and the pool serves the queue (R86, R89). -/
def joinWait (s : State) (i : SlotNo) : State :=
  if i ∈ s.waitQueue then s else (s.setWaitQueue (s.waitQueue ++ [i])).serveWait

def leaveWait (s : State) (i : SlotNo) : State := s.setWaitQueue (leave s.waitQueue i)

/-- A circuit that is short joins the credit wait queue (R28, R35, R36, R59, R74). -/
def joinWaitIfShort (s : State) (i : SlotNo) : State :=
  if (s.circuit i).any Circuit.short then s.joinWait i else s

/-- A direct reservation of the smaller of a number and the available count, which sets the receive edge (R82, R26, R35, R36). -/
def reserve (s : State) (i : SlotNo) (wanted : Nat) : State :=
  let r := min wanted s.available
  (s.setReservedTotal (s.reservedTotal + r)).modCircuit i
    fun c => { c with reserved := r, receiveEdge := BitVec.ofNat 5 r }

/-- Gives back all reservations of a circuit, and the pool serves its queue (R84). -/
def releaseReservations (s : State) (i : SlotNo) : State :=
  match s.circuit i with
  | none => s
  | some c =>
    ((s.setReservedTotal (s.reservedTotal - c.reserved)).setCircuit i (some { c with reserved := 0 })).serveWait

/-- A buffer returns to the tail of the free queue (R80). -/
def returnBuffer (s : State) (b : BufNo) : State :=
  (s.setFreeQueue (s.freeQueue ++ [b])).setPlace b .free

/-- Buffers return in order. -/
def returnBuffers (s : State) (bs : List BufNo) : State := bs.foldl returnBuffer s

/-- Every buffer of a record returns to the free queue, the three lists are emptied, and the pool serves its queue (R15, R18, R166). -/
def returnCircuitBuffers (s : State) (i : SlotNo) : State :=
  match s.circuit i with
  | none => s
  | some c =>
    ((s.setCircuit i (some { c with transmit := [], unacked := [], receive := [] })).returnBuffers c.buffers).serveWait

/-! ## The data ready ring and the stall condition (R54, R57, R138) -/

/-- A circuit that can send new data and is not on its line's ring joins the ring's tail (R54). -/
def settleReady (s : State) (i : SlotNo) : State :=
  match s.circuit i with
  | none => s
  | some c => if c.canSend then s.modTx c.line fun t => { t with ring := joinTail t.ring i } else s

/-- STALL-WAIT starts at a circuit that is stalled and does not run it yet (R57). -/
def settleStall (s : State) (i : SlotNo) : State :=
  match s.circuit i with
  | none => s
  | some c => if c.stalled && !c.waits .stallWait then s.startTimer i .stallWait else s

/-! ## Stray replies (R134) -/

/-- A stray reply queue after a reply is offered to it: suppressed as a duplicate, dropped when 4 are held, or joined at the tail. -/
def offered (q : List Reply) (r : Reply) : List Reply :=
  if q.any fun x => x.number = r.number && x.kind = r.kind then q
  else if Config.strayRoom ≤ q.length then q
  else q ++ [r]

/-- Offers a reply to a line's stray reply queue. -/
def offerReply (s : State) (l : LineNo) (r : Reply) : State := s.modTx l fun t => { t with stray := offered t.stray r }

/-! ## Allocation and numbering (R3, R10) -/

/-- The numbers 1..127 in ascending order. -/
def circuitNumbers : List Byte := (List.range 127).map fun k => BitVec.ofNat 8 (k + 1)

/-- A number on a line is free when the index map does not hold it. -/
def numberFree (s : State) (l : LineNo) (n : Byte) : Bool := (s.lookup l n).isNone

/-- The choice of a circuit number: the lowest free one by the ORIGIN role, the highest by the ANSWER role (R10). -/
def chooseNumber (s : State) (l : LineNo) : Role → Option Byte
  | .originRole => circuitNumbers.find? (s.numberFree l)
  | .answerRole => circuitNumbers.reverse.find? (s.numberFree l)

/-- Takes the slot at the head of the free-slot queue, advances its generation, enters the circuit's line and number in the
index map and writes its record (R3). -/
def allocate (s : State) (c : Circuit) : Option (SlotNo × State) :=
  match s.freeSlots with
  | [] => none
  | i :: rest =>
    let t := (s.setFreeSlots rest).setSlot i ⟨(s.slot i).generation + 1, some c⟩
    some (i, t.mapNumber c.line c.number i)

end State

/-- The starting values of a record (R3). -/
def Circuit.start (st : CircuitState) (l : LineNo) (n : Byte) (owner : PortNo) (origin : Origin) (service : Byte)
    (farEdge : Seq) (target : Nat) : Circuit where
  state := st
  line := l
  number := n
  owner := some owner
  origin := origin
  service := service
  retry := 0
  timer := none
  nextSend := 0
  ackBase := 0
  farEdge := farEdge
  transmit := []
  unacked := []
  nextExpected := 0
  receiveEdge := 0
  reserved := 0
  target := target
  receive := []
  conditions := {}
  delivered := 0
  owed := {}

/-! ## Live counts (R99) -/

/-- The live count rises by one at an admission. -/
def ServiceEntry.raised : ServiceEntry → ServiceEntry
  | .active f n => .active f (n + 1)
  | .withdrawn f n => .withdrawn f (n + 1)
  | .empty => .empty

/-- The live count falls by one; a WITHDRAWN entry whose count reaches 0 becomes EMPTY (R98, R99). -/
def ServiceEntry.lowered : ServiceEntry → ServiceEntry
  | .active f n => .active f (n - 1)
  | .withdrawn f n => if n ≤ 1 then .empty else .withdrawn f (n - 1)
  | .empty => .empty

namespace State

/-- The service entry a circuit names, if any, loses one live circuit. -/
def lowerLive (s : State) : Origin → State
  | .localCall => s
  | .remoteCall e => s.setEntry e (s.entry e).lowered

/-! ## CLOSING (R24) -/

/-- A circuit enters CLOSING with a local cause. -/
def enterClosing (s : State) (i : SlotNo) (cause : Byte) : State :=
  match s.circuit i with
  | none => s
  | some c =>
    let s1 := s.setCircuit i (some { c with state := .closing cause })
    let s2 := (s1.modTx c.line fun t => { t with ring := leave t.ring i }).leaveWait i
    let s3 := s2.releaseReservations i
    let s4 := s3.modCircuit i fun x => { x with timer := none, retry := 0, owed := {} }
    s4.owe i .close

/-! ## Ending a circuit (01, 1.7) -/

/-- Steps 1 to 5 of R14: out of the index map, off the live count and the queues, reservations back, timer and owed control gone. -/
def endSteps (s : State) (i : SlotNo) : State :=
  match s.circuit i with
  | none => s
  | some c =>
    let s1 := s.unmapNumber c.line c.number
    let s2 := s1.lowerLive c.origin
    let s3 := (s2.leaveWait i).modTx c.line
      fun t => { t with control := leave t.control i, ring := leave t.ring i }
    let s4 := s3.releaseReservations i
    s4.modCircuit i fun x => { x with timer := none, owed := {} }

/-- A circuit enters ENDED with steps 1 to 5 of R14. -/
def endRecord (s : State) (i : SlotNo) (cause : Byte) (source : Side) (confirmation : Option Confirmation) : State :=
  (s.modCircuit i fun c => { c with state := .ended cause source confirmation }).endSteps i

/-- An owned circuit enters ENDED, and ENDED is raised for its owner (R14). -/
def enterEnded (s : State) (i : SlotNo) (cause : Byte) (source : Side) (confirmation : Option Confirmation) : State :=
  (s.endRecord i cause source confirmation).raise i { ended := true }

/-- A slot becomes FREE and joins the tail of the free-slot queue (R15, R18). -/
def freeSlot (s : State) (i : SlotNo) : State :=
  (s.setCircuit i none).setFreeSlots (s.freeSlots ++ [i])

/-- Direct return to FREE (R15). -/
def directFree (s : State) (i : SlotNo) : State :=
  (((s.endSteps i).returnCircuitBuffers i).leaveOwner i).freeSlot i

/-- The end of a CLOSING circuit: an owned one enters ENDED with the cause it holds, an orphan returns to FREE (R47, R48, R49). -/
def endClosing (s : State) (i : SlotNo) (confirmation : Confirmation) : State :=
  match s.circuit i with
  | none => s
  | some c =>
    match c.state, c.owner with
    | .closing cause, some _ => s.enterEnded i cause .localEnd (some confirmation)
    | .closing _, none => s.directFree i
    | _, _ => s

/-! ## Lines (06) -/

/-- Writes a line and brings its change flag up to date (R120). -/
def putLine (s : State) (l : LineNo) (f : Line → Line) : State := s.modLine l fun r => (f r).flagged

/-- The circuits mapped under a line, in ascending slot number. -/
def mappedSlots (s : State) (l : LineNo) : List SlotNo := s.slotsWhere fun c => c.line = l && c.mapped

/-- The discard count rises by one and stays at 65535 (R124). -/
def countDiscard (s : State) (l : LineNo) : State :=
  s.modLine l fun r => { r with discards := min Config.countMax (r.discards + 1) }

/-- One circuit of a line ended by its teardown (R117, step 2). -/
def endByTeardown (cause : Byte) (s : State) (i : SlotNo) : State :=
  match s.circuit i with
  | none => s
  | some c =>
    match c.state, c.owner with
    | .closing _, none => s.directFree i
    | .closing _, some _ => s.enterEnded i cause .localEnd (some .unconfirmed)
    | _, _ => s.enterEnded i cause .localEnd none

/-- What the transmitter's pin carries once a teardown has abandoned its work (R144). -/
def afterTeardown (sending : Bool) : LineState → TransmitData
  | .disabled => if sending then .abortThenOnes else .ones
  | _ => if sending then .abortThenFlags else .flags

/-- Teardown of a line that has left ACTIVE, in the four steps of R117. -/
def teardown (s : State) (l : LineNo) (cause : Byte) : State :=
  let slots := s.mappedSlots l
  let s1 := s.setWaitQueue (s.waitQueue.filter fun i => i ∉ slots)
  let s2 := slots.foldl (endByTeardown cause) s1
  let s3 := s2.modLine l fun r =>
    { r with tx := { data := afterTeardown r.tx.staged.isSome r.state } }
  match (s3.line l).receiver with
  | .frame _ => (s3.countDiscard l).modLine l fun r => { r with receiver := .hunt }
  | _ => s3

end State

end Sys2Proof.Machine
end

