-- ==== Sys2Proof/Machine/Arrivals.lean ====
section
/-! DEFINITION. What a valid frame does at the directory: admission, collision, the arrivals by kind and state, and strays (chapters 2, 3, 5; R9, R133). -/

namespace Sys2Proof.Machine

/-- The outcome of a command. -/
abbrev Outcome := Host.Outcome State Fault Refusal

namespace State

/-! ## Admission (05, 5.3) -/

/-- An entry's fields and live count when it takes part in admission and matches the call (R100). -/
def matchEntry (l : LineNo) (service : Byte) : ServiceEntry → Option (ServiceFields × Nat)
  | .active f live =>
    if f.lines.getLsbD l.val && (f.code = none || f.code = some service) then some (f, live) else none
  | _ => none

/-- The matching entry: the ACTIVE entry of lowest index whose line set holds the line and whose code fits (R100). -/
def matchingEntry (s : State) (l : LineNo) (service : Byte) : Option (EntryNo × ServiceFields × Nat) :=
  (List.finRange 24).findSome? fun e => (matchEntry l service (s.entry e)).map fun x => (e, x)

/-- Admission refuses a call: a REFUSE reply is offered (R101). -/
def refuseCall (s : State) (l : LineNo) (n cause : Byte) : State := s.offerReply l ⟨n, .refuse, cause⟩

/-- A call admitted with action OFFER (R34, R102). -/
def admitOffer (s : State) (l : LineNo) (n service edge : Byte) (e : EntryNo) (client : PortNo) : State :=
  match s.allocate (Circuit.start .offered l n client (.remoteCall e) service (edge.setWidth 5) 0) with
  | none => s.refuseCall l n Config.causeCongested
  | some (i, t) => ((t.setEntry e (t.entry e).raised).startTimer i .offerWait).raise i { arrival := true }

/-- A call admitted with action ACCEPT (R35, R102). -/
def admitAccept (s : State) (l : LineNo) (n service edge : Byte) (e : EntryNo) (client : PortNo) (credit : Nat) : State :=
  match s.allocate (Circuit.start .opened l n client (.remoteCall e) service (edge.setWidth 5) credit) with
  | none => s.refuseCall l n Config.causeCongested
  | some (i, t) =>
    ((((t.setEntry e (t.entry e).raised).reserve i credit).owe i .grant).raise i { connected := true }).joinWaitIfShort i

/-- Admission of an unmapped OPEN frame: the tests of R101 in order. -/
def admitCall (s : State) (l : LineNo) (n service edge : Byte) : State :=
  match s.matchingEntry l service with
  | none => s.refuseCall l n Config.causeNoService
  | some (e, f, live) =>
    match f.action with
    | .refuse cause => s.refuseCall l n cause
    | .offer client limit =>
      if limit ≤ live then s.refuseCall l n Config.causeBusy else s.admitOffer l n service edge e client
    | .accept client credit limit =>
      if limit ≤ live then s.refuseCall l n Config.causeBusy else s.admitAccept l n service edge e client credit

/-! ## Arrivals at a circuit, by kind -/

/-- The record under (line, number), with its slot (R9). -/
def arrivalAt (s : State) (l : LineNo) (n : Byte) : Option (SlotNo × Circuit) :=
  match s.lookup l n with
  | none => none
  | some i => (s.circuit i).map fun c => (i, c)

/-- Admission takes the slot at the head of the free-slot queue, and that slot comes before this one. -/
def freeBefore (s : State) (i : SlotNo) : Bool := s.freeSlots.head?.any fun j => j < i

/-- An open collision on an ANSWER line: the local call is renumbered, or ended with COLLISION; the frame then goes to admission
(R32, R33). When the event raises conditions on the ended call and on an admitted one, they join attention lists in ascending slot
number (R173). -/
def collide (s : State) (i : SlotNo) (l : LineNo) (n service edge : Byte) : State :=
  match s.chooseNumber l .answerRole with
  | some m =>
    let s1 := (s.unmapNumber l n).mapNumber l m i
    let s2 := s1.modCircuit i fun c => { c with number := m, timer := none, retry := 0 }
    (s2.owe i .openCall).admitCall l n service edge
  | none =>
    if s.freeBefore i then
      ((s.endRecord i Config.causeCollision .localEnd none).admitCall l n service edge).raise i { ended := true }
    else (s.enterEnded i Config.causeCollision .localEnd none).admitCall l n service edge

/-- An OPEN frame (R9, R31, R32, R33, R39, R50). -/
def openArrives (s : State) (l : LineNo) (n a b : Byte) : State :=
  match s.arrivalAt l n with
  | none => s.admitCall l n a b
  | some (i, c) =>
    match c.state, c.origin with
    | .calling, _ => if (s.line l).config.role = .answerRole then s.collide i l n a b else s
    | .opened, .remoteCall _ => s.owe i .grant
    | .draining _, .remoteCall _ => s.owe i .grant
    | _, _ => s

/-- The answer to a stray frame (R133). -/
def strayArrives (s : State) (l : LineNo) (n : Byte) : FrameKind → State
  | .close => s.offerReply l ⟨n, .closed, 0⟩
  | .grant => s.offerReply l ⟨n, .close, Config.causeUnknown⟩
  | .carry => s.offerReply l ⟨n, .close, Config.causeUnknown⟩
  | .credit => s.offerReply l ⟨n, .close, Config.causeUnknown⟩
  | .ask => s.offerReply l ⟨n, .close, Config.causeUnknown⟩
  | _ => s

/-- A GRANT frame (R28, R50, R133). -/
def grantArrives (s : State) (l : LineNo) (n a : Byte) : State :=
  match s.arrivalAt l n with
  | none => s.strayArrives l n .grant
  | some (i, c) =>
    match c.state with
    | .calling =>
      let s1 := (s.stopTimer i).dropOwed i .openCall
      let s2 := s1.modCircuit i fun x => { x with farEdge := a.setWidth 5, state := .opened, retry := 0 }
      let s3 := (s2.raise i { connected := true }).joinWaitIfShort i
      (s3.settleReady i).settleStall i
    | _ => s

/-- A REFUSE frame (R29, R50, R133). -/
def refuseArrives (s : State) (l : LineNo) (n a : Byte) : State :=
  match s.arrivalAt l n with
  | none => s.strayArrives l n .refuse
  | some (i, c) =>
    match c.state with
    | .calling => s.enterEnded i a .remoteEnd none
    | _ => s

/-- A protocol violation closes the circuit with PROTOCOL, and the frame takes no other effect (R44). -/
def violate (s : State) (i : SlotNo) : State := s.enterClosing i Config.causeProtocol

/-- The classes of a CARRY frame (R58). -/
inductive CarryClass where
  | inOrder | duplicate | outOfOrder | violation
  deriving DecidableEq, Repr

/-- The class of sequence number x, by the first row of R58 that applies. -/
def carryClass (c : Circuit) (x : Seq) : CarryClass :=
  let d := distance c.nextExpected x
  let back := distance x c.nextExpected
  if d = 0 then (if 0 < c.reserved then .inOrder else .violation)
  else if 1 ≤ back ∧ back ≤ 16 then .duplicate
  else if 1 ≤ d ∧ d < c.reserved then .outOfOrder
  else .violation

/-- A CARRY frame taken in order into the buffer at the head of the free queue (R59, R83). -/
def takeCarry (s : State) (i : SlotNo) (b : BufNo) (rest : List BufNo) (endMark : Bool) (payload : List Byte) : State :=
  let s0 := ((s.setFreeQueue rest).setReservedTotal (s.reservedTotal - 1)).setPlace b (.receive i)
  let s1 := s0.writeBuffer b 0 payload
  let s2 := s1.modCircuit i fun c =>
    { c with
      receive := c.receive ++ [⟨b, payload.length, endMark⟩]
      nextExpected := c.nextExpected + 1
      reserved := c.reserved - 1 }
  ((s2.raise i { data := true }).owe i .credit).joinWaitIfShort i

/-- A CARRY frame (R58, R59, R60, R44, R50, R133). -/
def carryArrives (s : State) (l : LineNo) (n a b : Byte) (payload : List Byte) : Outcome :=
  match s.arrivalAt l n with
  | none => .next (s.strayArrives l n .carry).judgeAtn
  | some (i, c) =>
    if c.state.inData then
      match carryClass c (a.setWidth 5) with
      | .inOrder =>
        match s.freeQueue with
        | [] => .fault .noFreeBuffer
        | buf :: rest => .next (s.takeCarry i buf rest (b = 1) payload).judgeAtn
      | .duplicate => .next (s.owe i .credit).judgeAtn
      | .outOfOrder => .next (s.owe i .credit).judgeAtn
      | .violation => .next (s.violate i).judgeAtn
    else .next s.judgeAtn

/-- The far edge after a CREDIT frame with acknowledgement a and edge e (R62). -/
def farEdgeAfter (held a e : Seq) : Seq :=
  if distance a e ≤ 15 ∧ distance a held ≤ distance a e then e else held

/-- The timer after a CREDIT frame that acknowledged n entries (R63, step 3). -/
def settleTimer (s : State) (i : SlotNo) (n : Nat) : State :=
  match s.circuit i with
  | none => s
  | some c =>
    if !c.unacked.isEmpty then (if 0 < n then s.startTimer i .ackWait else s)
    else if c.stalled then (if c.waits .stallWait then s else s.startTimer i .stallWait)
    else s.stopTimer i

/-- A drain with nothing left to acknowledge completes (R43; R63, step 5). -/
def settleDrain (s : State) (i : SlotNo) : State :=
  match s.circuit i with
  | none => s
  | some c =>
    match c.state with
    | .draining cause => if c.transmit.isEmpty && c.unacked.isEmpty then s.enterClosing i cause else s
    | _ => s

/-- What R63 settles after the acknowledgement and the edge: retries, ASK, the timer, readiness and a drain. -/
def settleCredit (s : State) (i : SlotNo) (n : Nat) (wasEmpty : Bool) : State :=
  let s1 := if 0 < n || wasEmpty then s.modCircuit i fun c => { c with retry := 0 } else s
  (((s1.dropOwed i .ask).settleTimer i n).settleReady i).settleDrain i

/-- The n oldest entries leave the unacknowledged list and their buffers the circuit; the delivered count and DELIVERED follow (R61). -/
def acknowledge (s : State) (i : SlotNo) (c : Circuit) (n : Nat) (a : Seq) : State :=
  let s1 := s.setCircuit i (some { c with unacked := c.unacked.drop n, ackBase := a })
  let s2 := (s1.returnBuffers ((c.unacked.take n).map (·.entry.buffer))).serveWait
  let s3 := s2.modCircuit i fun x => { x with delivered := min Config.countMax (x.delivered + n) }
  if 0 < n then s3.raise i { delivered := true } else s3

/-- A CREDIT frame (R61, R62, R63, R44, R50, R133). -/
def creditArrives (s : State) (l : LineNo) (n a b : Byte) : State :=
  match s.arrivalAt l n with
  | none => s.strayArrives l n .credit
  | some (i, c) =>
    if c.state.inData then
      let ack : Seq := a.setWidth 5
      let edge : Seq := b.setWidth 5
      let back := distance ack c.ackBase
      let count := distance c.ackBase ack
      if 1 ≤ back ∧ back ≤ 16 then s.settleCredit i 0 c.unacked.isEmpty
      else if c.unacked.length < count then s.violate i
      else
        let s1 := s.acknowledge i c count ack
        let s2 := s1.modCircuit i fun x => { x with farEdge := farEdgeAfter x.farEdge ack edge }
        s2.settleCredit i count c.unacked.isEmpty
    else s

/-- An ASK frame (R65, R50, R133). -/
def askArrives (s : State) (l : LineNo) (n : Byte) : State :=
  match s.arrivalAt l n with
  | none => s.strayArrives l n .ask
  | some (i, c) => if c.state.inData then s.owe i .credit else s

/-- A CLOSE frame (R45, R48, R133). -/
def closeArrives (s : State) (l : LineNo) (n a : Byte) : State :=
  match s.arrivalAt l n with
  | none => s.strayArrives l n .close
  | some (i, c) =>
    match c.state with
    | .closing _ => (s.endClosing i .confirmed).offerReply l ⟨n, .closed, 0⟩
    | .ended _ _ _ => s
    | _ => (s.enterEnded i a .remoteEnd none).offerReply l ⟨n, .closed, 0⟩

/-- A CLOSED frame (R47, R50, R133). -/
def closedArrives (s : State) (l : LineNo) (n : Byte) : State :=
  match s.arrivalAt l n with
  | none => s.strayArrives l n .closed
  | some (i, c) =>
    match c.state with
    | .closing _ => s.endClosing i .confirmed
    | _ => s

/-- A valid frame is handed to the directory (R132), and the ATN outputs are judged after it (R178). -/
def frameArrives (s : State) (l : LineNo) (f : Frame) : Outcome :=
  match f.kind with
  | .openCall => .next (s.openArrives l f.number f.a f.b).judgeAtn
  | .grant => .next (s.grantArrives l f.number f.a).judgeAtn
  | .refuse => .next (s.refuseArrives l f.number f.a).judgeAtn
  | .carry => s.carryArrives l f.number f.a f.b f.payload
  | .credit => .next (s.creditArrives l f.number f.a f.b).judgeAtn
  | .ask => .next (s.askArrives l f.number).judgeAtn
  | .close => .next (s.closeArrives l f.number f.a).judgeAtn
  | .closed => .next (s.closedArrives l f.number).judgeAtn

end State

end Sys2Proof.Machine
end

