-- ==== Sys2Proof/Machine/Layouts.lean ====
section
/-! DEFINITION. The layouts of register words and result words, with the codes their fields use (11, R184, R187). -/

namespace Sys2Proof.Machine

/-! ## Codes -/

/-- The result codes (R186). -/
def ResultCode.code : ResultCode → Nat
  | .ok => 0
  | .unknownCommand => 1
  | .notPermitted => 2
  | .badArgument => 3
  | .badHandle => 4
  | .notOwner => 5
  | .wrongState => 6
  | .lineDown => 7
  | .noSlot => 8
  | .noNumber => 9
  | .noBuffer => 10
  | .noRoom => 11
  | .empty => 12
  | .inUse => 13

def SlotStatus.code : SlotStatus → Nat
  | .starting => 0
  | .idle => 1
  | .pending => 2
  | .done => 3

def StateName.code : StateName → Nat
  | .free => 0
  | .calling => 1
  | .offered => 2
  | .opened => 3
  | .draining => 4
  | .closing => 5
  | .ended => 6

def LineState.code : LineState → Nat
  | .disabled => 0
  | .waiting => 1
  | .settling => 2
  | .active => 3

def Purpose.code : Purpose → Nat
  | .openWait => 1
  | .offerWait => 2
  | .ackWait => 3
  | .stallWait => 4
  | .closeWait => 5

def Side.code : Side → Nat
  | .localEnd => 0
  | .remoteEnd => 1

def Confirmation.code : Confirmation → Nat
  | .confirmed => 0
  | .unconfirmed => 1

def Role.code : Role → Nat
  | .originRole => 0
  | .answerRole => 1

def Level.code : Level → Nat
  | .down => 0
  | .up => 1

def Holdoff.code : Holdoff → Nat
  | .absent => 0
  | .running _ => 1
  | .expired => 2

/-- A set of conditions in five bits, ARRIVAL lowest (R184). -/
def Conditions.code (x : Conditions) : Nat :=
  x.arrival.toNat + 2 * x.connected.toNat + 4 * x.data.toNat + 8 * x.delivered.toNat + 16 * x.ended.toNat

/-! ## Fields of a record that may be absent -/

/-- The cause, present in CLOSING and ENDED (R1). -/
def CircuitState.cause : CircuitState → Option Byte
  | .closing cause => some cause
  | .ended cause _ _ => some cause
  | _ => none

/-- The cause source, present in ENDED (R1). -/
def CircuitState.source : CircuitState → Option Side
  | .ended _ source _ => some source
  | _ => none

/-- The confirmation, present in ENDED when it was entered from CLOSING (R1). -/
def CircuitState.confirmation : CircuitState → Option Confirmation
  | .ended _ _ confirmation => confirmation
  | _ => none

/-- The service entry, present when the origin is REMOTE (R1). -/
def Origin.entry : Origin → Option EntryNo
  | .localCall => none
  | .remoteCall e => some e

def Origin.code : Origin → Nat
  | .localCall => 0
  | .remoteCall _ => 1

/-- A receive entry field: buffer, length, end mark and presence in 19 bits; none is the empty indication (R187). -/
def receiveField : Option Entry → Word
  | some e => inBits 8 0 e.buffer.val ||| inBits 16 9 e.length ||| inBits 17 17 e.endMark.toNat ||| inBits 18 18 1
  | none => 0

/-! ## Register words (R184) -/

namespace State

/-- The start-up state bit: 1 once RUNNING (R147). -/
def runningBit (s : State) : Nat := if s.phase = .running then 1 else 0

def identityWord : Word := inBits 31 16 Config.partCode ||| inBits 7 0 Config.revision

/-- Bit 8 + p is 1 while port p's slot is PENDING (R147). -/
def pendingBit (s : State) (p : PortNo) : Word :=
  inBits (8 + p.val) (8 + p.val) (if (s.port p).status = .pending then 1 else 0)

def globalStatusWord (s : State) : Word :=
  inBits 0 0 s.runningBit ||| s.pendingBit 0 ||| s.pendingBit 1 ||| s.pendingBit 2 ||| s.pendingBit 3

def portStatusWord (s : State) (p : PortNo) : Word :=
  let r := s.port p
  inBits 1 0 r.status.code ||| inBits 7 4 r.result.code ||| inBits 8 8 r.overrun.toNat
    ||| optBits 24 16 9 (r.windowFault.map Fin.val) ||| inBits 31 31 s.runningBit

def holdoffWord (s : State) (p : PortNo) : Word :=
  inBits 3 0 (s.port p).holdoffCount ||| inBits 15 8 (s.port p).holdoffTime

/-- The attention head register's head word (R180): 0 while the list is empty. -/
def attentionHeadWord (s : State) (p : PortNo) : Word :=
  match (s.port p).attention with
  | [] => 0
  | i :: _ => inBits 11 0 (s.handle i) ||| inBits 20 16 (s.conditionsOf i).code ||| inBits 31 31 1

/-- Bit 16 + L is 1 while line L's change flag is set (R180). -/
def changedBits (s : State) : Word :=
  (List.finRange 8).foldl (fun w l => w ||| inBits (16 + l.val) (16 + l.val) (s.line l).changed.toNat) 0

/-- The attention head register's state word (R180). -/
def attentionStateWord (s : State) (p : PortNo) : Word :=
  let r := s.port p
  inBits 7 0 r.attention.length ||| inBits 8 8 (s.urgentOn p).toNat ||| inBits 10 9 r.holdoff.code
    ||| inBits 11 11 r.atn.toNat ||| (if p = 0 then s.changedBits else 0)

/-! ## Result words (R187) -/

/-- The four result words of QUERY (R20). -/
def queryResults (s : State) (i : SlotNo) (c : Circuit) : Results where
  r0 := inBits 11 0 (s.handle i) ||| inBits 14 12 c.state.name.code
    ||| (match c.owner with | some p => inBits 16 15 p.val | none => inBits 17 17 1)
    ||| inBits 18 18 c.origin.code ||| inBits 23 19 c.conditions.code ||| optBits 28 24 29 (c.origin.entry.map Fin.val)
  r1 := inBits 2 0 c.line.val ||| inBits 9 3 c.number.toNat ||| inBits 17 10 c.service.toNat
    ||| optBits 25 18 26 (c.state.cause.map BitVec.toNat) ||| optBits 27 27 28 (c.state.source.map Side.code)
    ||| optBits 29 29 30 (c.state.confirmation.map Confirmation.code)
  r2 := inBits 4 0 c.nextSend.toNat ||| inBits 9 5 c.ackBase.toNat ||| inBits 14 10 c.farEdge.toNat
    ||| inBits 19 15 c.nextExpected.toNat ||| inBits 24 20 c.receiveEdge.toNat ||| inBits 28 25 c.retry
    ||| inBits 31 29 ((c.timer.map fun t => t.purpose.code).getD 0)
  r3 := inBits 3 0 c.reserved ||| inBits 7 4 c.target ||| inBits 14 8 c.transmit.length
    ||| inBits 18 15 c.unacked.length ||| inBits 29 20 c.receive.length

/-- The four result words of TAKE and TAKE-NEXT, with the circuits then left on the list (09, 9.3). -/
def takeResults (s : State) (i : SlotNo) (c : Circuit) (left : Nat) : Results where
  r0 := inBits 11 0 (s.handle i) ||| inBits 14 12 c.state.name.code ||| inBits 19 15 c.conditions.code
  r1 := inBits 2 0 c.line.val ||| inBits 10 3 c.service.toNat
    ||| optBits 18 11 19 (c.state.cause.map BitVec.toNat) ||| optBits 20 20 21 (c.state.source.map Side.code)
  r2 := inBits 15 0 c.delivered
  r3 := receiveField c.receive.head? ||| inBits 31 24 left

/-- The four result words of POOL-QUERY (R94). -/
def poolResults (s : State) (p : PortNo) : Results where
  r0 := inBits 9 0 s.freeQueue.length ||| inBits 25 16 s.reservedTotal
  r1 := inBits 9 0 s.available ||| inBits 24 16 s.floor
  r2 := inBits 7 0 s.waitQueue.length ||| optBits 19 8 20 (s.waitQueue.head?.map s.handle)
  r3 := inBits 9 0 (s.claimedSet p).length
    ||| inBits 25 16 ((s.claimedSet 0).length + (s.claimedSet 1).length + (s.claimedSet 2).length + (s.claimedSet 3).length)

end State

/-! ## Service entries -/

namespace ServiceEntry

def code : ServiceEntry → Nat
  | .empty => 0
  | .active _ _ => 1
  | .withdrawn _ _ => 2

def live : ServiceEntry → Nat
  | .empty => 0
  | .active _ n => n
  | .withdrawn _ n => n

def fields : ServiceEntry → Option ServiceFields
  | .empty => none
  | .active f _ => some f
  | .withdrawn f _ => some f

/-- Result word 0 of SERVICE-SET and SERVICE-CLEAR: entry state and live count. -/
def stateWord (x : ServiceEntry) : Word := inBits 1 0 x.code ||| inBits 15 8 x.live

end ServiceEntry

namespace Action

def code : Action → Nat
  | .offer _ _ => 1
  | .accept _ _ _ => 2
  | .refuse _ => 3

def client : Action → Option PortNo
  | .offer p _ => some p
  | .accept p _ _ => some p
  | .refuse _ => none

def limit : Action → Option Nat
  | .offer _ n => some n
  | .accept _ _ n => some n
  | .refuse _ => none

def credit : Action → Option Nat
  | .accept _ n _ => some n
  | _ => none

def refuseCause : Action → Option Nat
  | .refuse cause => some cause.toNat
  | _ => none

end Action

namespace State

/-- How many entries have a state code. -/
def countEntries (s : State) (code : Nat) : Nat :=
  ((List.finRange 24).filter fun e => (s.entry e).code = code).length

/-- The four result words of SERVICE-QUERY (R107). -/
def serviceResults (s : State) (e : EntryNo) : Results :=
  let x := s.entry e
  let action := x.fields.map (·.action)
  { r0 := inBits 1 0 x.code ||| inBits 3 2 ((action.map Action.code).getD 0)
      ||| optBits 5 4 6 ((action.bind Action.client).map Fin.val) ||| inBits 15 8 x.live
    r1 := optBits 7 0 8 ((x.fields.bind (·.code)).map BitVec.toNat)
      ||| (match x.fields with | some f => inBits 9 9 (if f.code = none then 1 else 0) | none => 0)
      ||| optBits 23 16 24 (x.fields.map fun f => f.lines.toNat)
    r2 := optBits 7 0 8 (action.bind Action.refuseCause) ||| optBits 12 9 13 (action.bind Action.credit)
      ||| optBits 23 16 24 (action.bind Action.limit)
    r3 := inBits 7 0 (s.countEntries 0) ||| inBits 15 8 (s.countEntries 1) ||| inBits 23 16 (s.countEntries 2) }

/-- The time remaining in ms that LINE-QUERY reports for a running settle timer: FREE VALUE no greater than the time it was
started with (R125, log 4). -/
def settleReading (s : State) (started : Nat) : Nat := Config.settleReading s.freeCount % (started + 1)

/-- The four result words of LINE-QUERY (R125). -/
def lineResults (s : State) (l : LineNo) : Results :=
  let r := s.line l
  { r0 := inBits 1 0 r.state.code ||| inBits 2 2 r.config.role.code ||| inBits 3 3 r.readyLevel.toNat
      ||| inBits 4 4 r.reported.code ||| inBits 5 5 r.changed.toNat ||| inBits 14 8 (s.mappedSlots l).length
    r1 := inBits 7 0 r.config.settleTime ||| inBits 15 8 r.config.openTimeout ||| inBits 23 16 r.config.retransmit
      ||| inBits 31 24 r.config.closeTimeout
    r2 := inBits 7 0 r.config.offerTimeout ||| inBits 11 8 r.config.retryLimit
      ||| optBits 23 16 24 (r.settleTimer.map s.settleReading)
    r3 := inBits 15 0 r.discards ||| inBits 23 16 r.losses }

end State

end Sys2Proof.Machine
end

