-- ==== Sys2Proof/Machine/Commands.lean ====
section
/-! DEFINITION. How the arbiter takes a command and completes it: R151 to R155. -/

namespace Sys2Proof.Machine

namespace State

/-- A port's slot goes to DONE with a result, and the port becomes the last served (R151, R152). -/
def finish (s : State) (p : PortNo) (code : ResultCode) (words : Results) : State :=
  (s.modPort p fun r => { r with status := .done, result := code, results := words }).setLastServed p

/-- A failed check changes nothing but the slot; a command that passes its checks acts and completes with OK (R151, R154). -/
def conclude (s : State) (p : PortNo) : Except ResultCode (State × Results) → State
  | .error code => s.finish p code {}
  | .ok (t, words) => t.finish p .ok words

/-- The checks of a handle command after its argument ranges: handle, then ownership (R5, R6). -/
def ownedCircuit (s : State) (p : PortNo) (h : SlotNo × Generation) : Except ResultCode Circuit := do
  let c ← s.named h
  ownedBy p c
  return c

end State

/-- The body of a command: its checks in order, then its effect and result words. -/
abbrev Body := PortNo → Args → State → Except ResultCode (State × Results)

/-- The arbiter takes its next command, when it is the one with this code (R152, log 2). -/
def takeCommand (code : Byte) (body : Body) (s : State) : Outcome :=
  match s.takes (· == code) with
  | none => .next s
  | some p => .next (s.conclude p (body p (s.port p).args s))

/-- UNKNOWN_COMMAND: a code that names none of the 25 commands (R155). -/
def execUnknownCommand (s : State) : Outcome :=
  match s.takes fun code => !Code.known.contains code with
  | none => .next s
  | some p => .next (s.conclude p (.error .unknownCommand))

end Sys2Proof.Machine
end

