-- ==== Sys2Proof/Machine/Bus.lean ====
section
/-! DEFINITION. The client bus: the command slot's writes, the window, the status write and every other access (08, 8.2 to 8.6; 11, R183 to R185). -/

namespace Sys2Proof.Machine

namespace State

/-! ## Writes of the port block -/

/-- A write of the command word, by the slot status (R150, R185): bits 7..0 are the code. -/
def writeCommand (s : State) (p : PortNo) (v : Word) : State :=
  match (s.port p).status with
  | .starting => s
  | .pending => s.modPort p fun r => { r with overrun := true }
  | _ =>
    s.modPort p fun r =>
      { r with status := .pending, command := v.setWidth 8, result := .ok, results := {}, overrun := false }

/-- Argument words with one of them replaced. -/
def putArg (a : Args) (i : Fin 4) (v : Word) : Args :=
  match i with
  | 0 => { a with a0 := v }
  | 1 => { a with a1 := v }
  | 2 => { a with a2 := v }
  | 3 => { a with a3 := v }

def argAt (a : Args) : Fin 4 → Word
  | 0 => a.a0
  | 1 => a.a1
  | 2 => a.a2
  | 3 => a.a3

def resultAt (w : Results) : Fin 4 → Word
  | 0 => w.r0
  | 1 => w.r1
  | 2 => w.r2
  | 3 => w.r3

/-- A write of an argument word, by the slot status (R149). -/
def writeArgument (s : State) (p : PortNo) (i : Fin 4) (v : Word) : State :=
  match (s.port p).status with
  | .starting => s
  | .pending => s.modPort p fun r => { r with overrun := true }
  | _ => s.modPort p fun r => { r with args := putArg r.args i v }

/-- A write of the window register: the whole value compared with 511 (R157, R185). -/
def writeWindow (s : State) (p : PortNo) (v : Word) : State :=
  if (s.port p).status = .starting then s
  else if h : v.toNat < 512 then s.modPort p fun r => { r with window := ⟨v.toNat, h⟩ }
  else s

/-- A write of the port status word: bit 9 at 1 is the clear request (R159, R185). -/
def writeStatus (s : State) (p : PortNo) (v : Word) : State :=
  if (s.port p).status = .starting then s
  else if v.getLsbD 9 then s.modPort p fun r => { r with windowFault := none }
  else s

/-! ## The buffer window (R158, R159) -/

/-- A window access judged a fault records its buffer unless one is recorded already (R159). -/
def faultWindow (s : State) (p : PortNo) (b : BufNo) : State :=
  s.modPort p fun r => { r with windowFault := r.windowFault.or (some b) }

/-- The length of the receive queue entry that a circuit holds a buffer under. -/
def receivedLength (c : Circuit) (b : BufNo) : Nat :=
  ((c.receive.find? fun e => e.buffer = b).map (·.length)).getD 0

/-- How many of a buffer's bytes a port may read, or none for a fault (R158). -/
def readableLength (s : State) (p : PortNo) (b : BufNo) : Option Nat :=
  match s.place b with
  | .claimed q => if q = p then some Config.bufferBytes else none
  | .receive i =>
    match s.circuit i with
    | some c => if c.owner = some p then some (receivedLength c b) else none
    | none => none
  | _ => none

/-- The byte a window read shows at an offset: 0 at and beyond the readable length (R158). -/
def windowByte (s : State) (b : BufNo) (readable k : Nat) : Byte :=
  if k < readable then s.bufferByte b k else 0

/-- The data of a read as wide as the access, lowest offset in the low bits (R183). -/
def readDataOf (byteAt : Nat → Byte) : Width → ReadData
  | .byte => .byte (byteAt 0)
  | .half => .half (byteAt 1 ++ byteAt 0)
  | .word => .word (byteAt 3 ++ byteAt 2 ++ byteAt 1 ++ byteAt 0)
  | .none => .word 0

/-- A read whose every byte is 0. -/
def zeroData (w : Width) : ReadData := readDataOf (fun _ => 0) w

/-- A read of the window data (R158). -/
def readWindow (s : State) (p : PortNo) (offset : Nat) (w : Width) : State :=
  if s.phase = .running ∧ windowAccessOk offset w = true then
    let b := (s.port p).window
    match s.readableLength p b with
    | some n => s.setReadData (readDataOf (fun j => s.windowByte b n (offset + j)) w)
    | none => (s.faultWindow p b).setReadData (zeroData w)
  else s.setReadData (zeroData w)

/-- The bytes an access writes, lowest offset first (R183). -/
def writtenBytes (v : Word) (w : Width) : List Byte :=
  (List.range (widthBytes w)).map fun j => v.extractLsb' (8 * j) 8

/-- A write of the window data (R158). -/
def writeWindowData (s : State) (p : PortNo) (offset : Nat) (w : Width) (v : Word) : State :=
  if s.phase = .running ∧ windowAccessOk offset w = true then
    let b := (s.port p).window
    if s.place b = .claimed p then s.writeBuffer b offset (writtenBytes v w) else s.faultWindow p b
  else s

/-! ## Every access (R183) -/

/-- The word a register read returns (R184). -/
def readRegister (s : State) (p : PortNo) : Target → Word
  | .identity => identityWord
  | .globalStatus => s.globalStatusWord
  | .portStatus => s.portStatusWord p
  | .commandWord => (s.port p).command.setWidth 32
  | .argument i => argAt (s.port p).args i
  | .result i => resultAt (s.port p).results i
  | .windowRegister => inBits 8 0 (s.port p).window.val
  | .holdoffSettings => s.holdoffWord p
  | .attentionHead => s.attentionHeadWord p
  | .attentionState => s.attentionStateWord p
  | .windowData _ => 0
  | .undefinedOffset => 0

/-- A read access. A register read returns its word and changes nothing; a void read returns 0; while RESET is asserted every
read returns 0 (R183, R169). -/
def busRead (s : State) (x : BusAccess) : State :=
  if s.phase = .inReset then s.setReadData (zeroData x.width)
  else
    match accessTarget x with
    | .windowData k => s.readWindow x.mn k x.width
    | .undefinedOffset => s.setReadData (zeroData x.width)
    | target => s.setReadData (.word (s.readRegister x.mn target))

/-- A write access. Writes of read-only words and void writes are ignored (R183, R185); while RESET is asserted every write is. -/
def busWrite (s : State) (x : BusAccess) : State :=
  if s.phase = .inReset then s
  else
    match accessTarget x with
    | .portStatus => s.writeStatus x.mn x.data
    | .commandWord => s.writeCommand x.mn x.data
    | .argument i => s.writeArgument x.mn i x.data
    | .windowRegister => s.writeWindow x.mn x.data
    | .windowData k => s.writeWindowData x.mn k x.width x.data
    | _ => s

end State

/-! ## The rows -/

/-- COMMAND_WORD_WRITE (R150). -/
def execCommandWordWrite (p : PortNo) (v : Word) (s : State) : Outcome :=
  if s.phase = .inReset then .next s else .next (s.writeCommand p v)

/-- ARGUMENT_WORD_WRITE (R149). -/
def execArgumentWordWrite (p : PortNo) (i : Fin 4) (v : Word) (s : State) : Outcome :=
  if s.phase = .inReset then .next s else .next (s.writeArgument p i v)

/-- WINDOW_REGISTER_WRITE (R157). -/
def execWindowRegisterWrite (p : PortNo) (v : Word) (s : State) : Outcome :=
  if s.phase = .inReset then .next s else .next (s.writeWindow p v)

/-- CLEAR_REQUEST (R159). -/
def execClearRequest (p : PortNo) (v : Word) (s : State) : Outcome :=
  if s.phase = .inReset then .next s else .next (s.writeStatus p v)

/-- WINDOW_READ (R158). -/
def execWindowRead (p : PortNo) (offset : Nat) (w : Width) (s : State) : Outcome := .next (s.readWindow p offset w)

/-- WINDOW_WRITE (R158). -/
def execWindowWrite (p : PortNo) (offset : Nat) (w : Width) (v : Word) (s : State) : Outcome :=
  .next (s.writeWindowData p offset w v)

/-- VOID_ACCESS: an access decoded by R183. Of those without a row of their own, a write is ignored, a register read returns its word
and a void read returns 0; none changes a state of the part (log 9). -/
def execVoidAccess (x : BusAccess) (s : State) : Outcome := .next (if x.write then s.busWrite x else s.busRead x)

end Sys2Proof.Machine
end

