-- ==== Sys2Proof/Machine/CircuitCommands.lean ====
section
/-! DEFINITION. The commands on circuits: CALL, ACCEPT, REFUSE, CLOSE, SEND, RELEASE, SET_CREDIT, QUERY, RETIRE, TAKE, TAKE_NEXT. -/

namespace Sys2Proof.Machine

/-- CALL: line, service code, receive target (R25, R26). -/
def callBody : Body := fun p a s => do
  let l ← lineArg a.a0
  require (a.a1.toNat ≤ 255) .badArgument
  require (a.a2.toNat ≤ 15) .badArgument
  require ((s.line l).state = .active) .lineDown
  require (!s.freeSlots.isEmpty) .noSlot
  match s.chooseNumber l (s.line l).config.role with
  | none => .error .noNumber
  | some n =>
    match s.allocate (Circuit.start .calling l n p .localCall (a.a1.setWidth 8) 0 a.a2.toNat) with
    | none => .error .noSlot
    | some (i, t) =>
      let u := (t.reserve i a.a2.toNat).owe i .openCall
      return (u, { r0 := inBits 11 0 (u.handle i), r1 := inBits 6 0 n.toNat })

def execCall (s : State) : Outcome := takeCommand Code.call callBody s

/-- ACCEPT: handle, receive target (R36). -/
def acceptBody : Body := fun p a s => do
  let h ← handleArg a.a0
  require (a.a1.toNat ≤ 15) .badArgument
  let c ← s.ownedCircuit p h
  require (c.state = .offered) .wrongState
  let s1 := s.modCircuit h.1 fun x => { x with timer := none, target := a.a1.toNat, state := .opened, retry := 0 }
  return (((s1.reserve h.1 a.a1.toNat).owe h.1 .grant).joinWaitIfShort h.1, {})

def execAccept (s : State) : Outcome := takeCommand Code.accept acceptBody s

/-- A cause that a client may give: the one named, or a client-defined one (R37, R40). -/
def clientCause (named : Nat) (w : Word) : Bool := w.toNat = named || (16 ≤ w.toNat && w.toNat ≤ 255)

/-- REFUSE: handle, cause (R37). -/
def refuseBody : Body := fun p a s => do
  let h ← handleArg a.a0
  require (clientCause 1 a.a1) .badArgument
  let c ← s.ownedCircuit p h
  require (c.state = .offered) .wrongState
  return (((s.offerReply c.line ⟨c.number, .refuse, a.a1.setWidth 8⟩).directFree h.1).judgeAtn, {})

def execRefuse (s : State) : Outcome := takeCommand Code.refuse refuseBody s

/-- CLOSE: handle, mode (0 DRAIN, 1 ABORT), cause (R40, R41, R42). -/
def closeBody : Body := fun p a s => do
  let h ← handleArg a.a0
  require (a.a1.toNat ≤ 1) .badArgument
  require (clientCause 0 a.a2) .badArgument
  let c ← s.ownedCircuit p h
  let cause : Byte := a.a2.setWidth 8
  if a.a1 = 0 then
    require (c.state = .opened) .wrongState
    if c.transmit.isEmpty && c.unacked.isEmpty then return (s.enterClosing h.1 cause, {})
    else return (s.modCircuit h.1 fun x => { x with state := .draining cause }, {})
  else
    require (c.state = .calling || c.state.inData) .wrongState
    return (s.enterClosing h.1 cause, {})

def execClose (s : State) : Outcome := takeCommand Code.close closeBody s

/-- SEND: handle, buffer, length, end mark (R53). -/
def sendBody : Body := fun p a s => do
  let h ← handleArg a.a0
  let b ← bufferArg a.a1
  require (1 ≤ a.a2.toNat && a.a2.toNat ≤ 128) .badArgument
  require (a.a3.toNat ≤ 1) .badArgument
  let c ← s.ownedCircuit p h
  require (s.place b = .claimed p) .notOwner
  require (c.state = .calling || c.state = .opened) .wrongState
  require (c.transmit.length < Config.transmitRoom) .noRoom
  let s1 := s.setPlace b (.transmit h.1)
  let s2 := s1.modCircuit h.1 fun x => { x with transmit := x.transmit ++ [⟨b, a.a2.toNat, a.a3 = 1⟩] }
  return ((s2.settleReady h.1).settleStall h.1, {})

def execSend (s : State) : Outcome := takeCommand Code.send sendBody s

/-- RELEASE: handle (R73). -/
def releaseBody : Body := fun p a s => do
  let h ← handleArg a.a0
  let c ← s.ownedCircuit p h
  match c.receive with
  | [] => .error .empty
  | e :: rest =>
    let s1 := s.modCircuit h.1 fun x => { x with receive := rest }
    return ((s1.returnBuffer e.buffer).serveWait, { r0 := inBits 9 0 rest.length, r1 := receiveField rest.head? })

def execRelease (s : State) : Outcome := takeCommand Code.release releaseBody s

/-- SET-CREDIT: handle, receive target (R74). -/
def setCreditBody : Body := fun p a s => do
  let h ← handleArg a.a0
  require (a.a1.toNat ≤ 15) .badArgument
  let c ← s.ownedCircuit p h
  require c.state.inData .wrongState
  let s1 := s.modCircuit h.1 fun x => { x with target := a.a1.toNat }
  if c.reserved < a.a1.toNat then return (s1.joinWait h.1, {}) else return (s1.leaveWait h.1, {})

def execSetCredit (s : State) : Outcome := takeCommand Code.setCredit setCreditBody s

/-- QUERY: handle; port 0 passes the ownership step for every circuit (R20, R6). -/
def queryBody : Body := fun p a s => do
  let h ← handleArg a.a0
  let c ← s.named h
  require (p = 0 || c.owner = some p) .notOwner
  return (s, s.queryResults h.1 c)

def execQuery (s : State) : Outcome := takeCommand Code.query queryBody s

/-- RETIRE: handle (R18). -/
def retireBody : Body := fun p a s => do
  let h ← handleArg a.a0
  let c ← s.ownedCircuit p h
  require (c.state.name = .ended) .wrongState
  return ((((s.returnCircuitBuffers h.1).leaveOwner h.1).freeSlot h.1).judgeAtn, {})

def execRetire (s : State) : Outcome := takeCommand Code.retire retireBody s

/-- A take of a circuit by a port: off the port's list, its account given, its conditions and delivered count cleared (R175, R176). -/
def takeAccount (s : State) (p : PortNo) (i : SlotNo) (c : Circuit) : State × Results :=
  let s1 := s.leaveAttention p i
  ((s1.clearConditions i).judgeAtn, s.takeResults i c (s1.port p).attention.length)

/-- TAKE: handle (R176). -/
def takeBody : Body := fun p a s => do
  let h ← handleArg a.a0
  let c ← s.ownedCircuit p h
  return takeAccount s p h.1 c

def execTake (s : State) : Outcome := takeCommand Code.take takeBody s

/-- TAKE-NEXT (R175). A list that names a FREE slot is no state of the part (R173). -/
def takeNextBody : Body := fun p _ s =>
  match (s.port p).attention with
  | [] => .error .empty
  | i :: _ =>
    match s.circuit i with
    | none => .error .empty
    | some c => .ok (takeAccount s p i c)

def execTakeNext (s : State) : Outcome := takeCommand Code.takeNext takeNextBody s

end Sys2Proof.Machine
end

