-- ==== Sys2Proof/Machine/Expiries.lean ====
section
/-! DEFINITION. The timer expiries: the five circuit timer purposes, the settle timer and the holdoff timer (R11, R30, R38, R49, R67, R70, R114, R177). -/

namespace Sys2Proof.Machine

namespace State

/-- A circuit timer expiry: the timer field becomes absent and the rule of the purpose acts (R11).
Where no timer of the purpose runs, no expiry occurs (log 1). -/
def expire (s : State) (i : SlotNo) (p : Purpose) (rule : Circuit → State → State) : Outcome :=
  if s.phase = .running then
    match s.circuit i with
    | none => .next s
    | some c => if c.waits p then .next (rule c (s.stopTimer i)) else .next s
  else .next s

/-- A retry while the count is below the line's retry limit, and giving up when it is not (R23). -/
def retryOr (s : State) (i : SlotNo) (c : Circuit) (retry giveUp : State → State) : State :=
  if c.retry < (s.line c.line).config.retryLimit then
    retry (s.modCircuit i fun x => { x with retry := x.retry + 1 })
  else giveUp s

end State

/-- OPEN_WAIT_EXPIRY (R30). -/
def execOpenWaitExpiry (i : SlotNo) (s : State) : Outcome :=
  s.expire i .openWait fun c t =>
    if c.state = .calling then
      t.retryOr i c (fun u => u.owe i .openCall) (fun u => u.enterClosing i Config.causeNoResponse)
    else t

/-- OFFER_WAIT_EXPIRY (R38). -/
def execOfferWaitExpiry (i : SlotNo) (s : State) : Outcome :=
  s.expire i .offerWait fun c t =>
    if c.state = .offered then
      ((t.enterEnded i Config.causeNoAnswer .localEnd none).offerReply c.line
        ⟨c.number, .refuse, Config.causeNoAnswer⟩).judgeAtn
    else t

/-- ACK_WAIT_EXPIRY (R67). -/
def execAckWaitExpiry (i : SlotNo) (s : State) : Outcome :=
  s.expire i .ackWait fun c t =>
    if c.state.inData then
      t.retryOr i c (fun u => u.owe i .resend) (fun u => u.enterClosing i Config.causeNoResponse)
    else t

/-- STALL_WAIT_EXPIRY (R70). -/
def execStallWaitExpiry (i : SlotNo) (s : State) : Outcome :=
  s.expire i .stallWait fun c t =>
    if c.state.inData then
      t.retryOr i c (fun u => (u.owe i .ask).startTimer i .stallWait)
        (fun u => u.enterClosing i Config.causeNoResponse)
    else t

/-- CLOSE_WAIT_EXPIRY (R49). -/
def execCloseWaitExpiry (i : SlotNo) (s : State) : Outcome :=
  s.expire i .closeWait fun c t =>
    if c.state.name = .closing then
      t.retryOr i c (fun u => u.owe i .close) (fun u => (u.endClosing i .unconfirmed).judgeAtn)
    else t

/-- SETTLE_EXPIRY (R114, R120, R179). -/
def execSettleExpiry (l : LineNo) (s : State) : Outcome :=
  if s.phase = .running ∧ (s.line l).state = .settling then
    .next (s.putLine l fun r => { r with state := .active, settleTimer := none }).judgeAtn
  else .next s

/-- HOLDOFF_EXPIRY (R177, R178). -/
def execHoldoffExpiry (p : PortNo) (s : State) : Outcome :=
  if s.phase = .running then
    match (s.port p).holdoff with
    | .running _ => .next (s.modPort p fun r => { r with holdoff := .expired }).judgeAtn
    | _ => .next s
  else .next s

end Sys2Proof.Machine
end

