-- ==== Sys2Proof/Machine/LineCommands.lean ====
section
/-! DEFINITION. The line commands and the READY events: LINE_SET, LINE_ENABLE, LINE_DISABLE, LINE_QUERY, LINE_TAKE, READY_ASSERTED, READY_DROPPED (06). -/

namespace Sys2Proof.Machine

/-- The role a packed byte names, or BAD-ARGUMENT (R122, R186). -/
def roleArg : Nat → Except ResultCode Role
  | 0 => .ok .originRole
  | 1 => .ok .answerRole
  | _ => .error .badArgument

/-- A duration in 1..255; a packed byte cannot exceed 255. -/
def durationOk (v : Nat) : Bool := 1 ≤ v && v ≤ 255

/-- The configuration that LINE-SET's packed words give, each field in its range (R122, R186). -/
def configArg (a1 a2 : Word) : Except ResultCode LineConfig := do
  let role ← roleArg (bitsOf a1 7 0)
  let g : LineConfig :=
    { role := role
      settleTime := bitsOf a1 15 8
      openTimeout := bitsOf a2 7 0
      retransmit := bitsOf a2 15 8
      closeTimeout := bitsOf a2 23 16
      offerTimeout := bitsOf a2 31 24
      retryLimit := bitsOf a1 23 16 }
  require (durationOk g.settleTime && durationOk g.openTimeout && durationOk g.retransmit && durationOk g.closeTimeout
    && durationOk g.offerTimeout) .badArgument
  require (1 ≤ g.retryLimit && g.retryLimit ≤ 15) .badArgument
  return g

/-- LINE-SET: line, configuration; supervisor only (R122). -/
def lineSetBody : Body := fun p a s => do
  supervisorOnly p
  let l ← lineArg a.a0
  let g ← configArg a.a1 a.a2
  require ((s.line l).state = .disabled) .wrongState
  return (s.modLine l fun r => { r with config := g }, {})

def execLineSet (s : State) : Outcome := takeCommand Code.lineSet lineSetBody s

/-- A line leaves DISABLED: LON asserted, the receiver in HUNT, flags sent; SETTLING while READY is asserted, else WAITING
(R112, R127, R129). -/
def Line.enabled (r : Line) : Line :=
  { r with
    state := if r.readyLevel then .settling else .waiting
    settleTimer := if r.readyLevel then some r.config.settleTime else none
    lon := true
    receiver := .hunt
    tx := { r.tx with data := .flags } }

/-- LINE-ENABLE: line; supervisor only (R112). -/
def lineEnableBody : Body := fun p a s => do
  supervisorOnly p
  let l ← lineArg a.a0
  require ((s.line l).state = .disabled) .wrongState
  let t := s.modLine l Line.enabled
  return (t, { r0 := inBits 1 0 (t.line l).state.code })

def execLineEnable (s : State) : Outcome := takeCommand Code.lineEnable lineEnableBody s

/-- A line that LINE-DISABLE has made DISABLED: LON deasserted, no settle timer, the receiver OFF, 1 bits sent (R119, R127, R129).
The abort sequence of a teardown comes before the 1 bits. -/
def Line.disabled (r : Line) : Line :=
  { r with
    state := .disabled
    settleTimer := none
    lon := false
    receiver := .off
    tx := { r.tx with data := if r.tx.data = .abortThenOnes then .abortThenOnes else .ones } }

namespace State

/-- An ACTIVE line leaves ACTIVE for a state, is torn down, and its change flag follows (R116, R119). -/
def leaveActive (s : State) (l : LineNo) (x : LineState) (cause : Byte) : State :=
  ((s.modLine l fun r => { r with state := x }).teardown l cause).putLine l fun r => r

/-- LINE-DISABLE by the line state (R119). -/
def disableLine (s : State) (l : LineNo) : State :=
  match (s.line l).state with
  | .active => ((s.leaveActive l .disabled Config.causeLineDisabled).modLine l Line.disabled).judgeAtn
  | .waiting => s.modLine l Line.disabled
  | .settling => s.modLine l Line.disabled
  | .disabled => s

end State

/-- LINE-DISABLE: line; supervisor only (R119). -/
def lineDisableBody : Body := fun p a s => do
  supervisorOnly p
  let l ← lineArg a.a0
  let r := s.line l
  let ended := if r.state = .active then (s.mappedSlots l).length else 0
  return (s.disableLine l, { r0 := inBits 1 0 r.state.code ||| inBits 14 8 ended })

def execLineDisable (s : State) : Outcome := takeCommand Code.lineDisable lineDisableBody s

/-- LINE-QUERY: line, clear option; supervisor only (R125). A free value is drawn while the settle timer runs (log 4). -/
def lineQueryBody : Body := fun p a s => do
  supervisorOnly p
  let l ← lineArg a.a0
  require (a.a1.toNat ≤ 1) .badArgument
  let t := s.setFreeCount (s.freeCount + 1)
  let u := if a.a1 = 1 then t.modLine l fun r => { r with discards := 0, losses := 0 } else t
  return (u, s.lineResults l)

def execLineQuery (s : State) : Outcome := takeCommand Code.lineQuery lineQueryBody s

/-- LINE-TAKE: line; supervisor only (R121). -/
def lineTakeBody : Body := fun p a s => do
  supervisorOnly p
  let l ← lineArg a.a0
  let r := s.line l
  let words : Results :=
    { r0 := inBits 0 0 r.level.code ||| inBits 1 1 r.reported.code ||| inBits 5 4 r.state.code ||| inBits 15 8 r.losses }
  return ((s.putLine l fun x => { x with reported := x.level }).judgeAtn, words)

def execLineTake (s : State) : Outcome := takeCommand Code.lineTake lineTakeBody s

/-! ## The READY monitor (R111) -/

/-- READY_ASSERTED: the pin is asserted; the monitor, which runs while RESET is released, takes the change when it holds the other
level, and a WAITING line then settles (R111, R113). -/
def execReadyAsserted (l : LineNo) (s : State) : Outcome :=
  let t := s.modLine l fun r => { r with readyPin := true }
  if s.phase = .inReset ∨ (s.line l).readyLevel = true then .next t
  else
    .next (t.modLine l fun r =>
      if r.state = .waiting then
        { r with readyLevel := true, state := .settling, settleTimer := some r.config.settleTime }
      else { r with readyLevel := true })

/-- READY_DROPPED: the pin is deasserted; a SETTLING line returns to WAITING, and an ACTIVE line suffers a line loss (R113, R116). -/
def execReadyDropped (l : LineNo) (s : State) : Outcome :=
  let t := s.modLine l fun r => { r with readyPin := false }
  if s.phase = .inReset ∨ (s.line l).readyLevel = false then .next t
  else
    let u := t.modLine l fun r => { r with readyLevel := false }
    match (s.line l).state with
    | .settling => .next (u.modLine l fun r => { r with state := .waiting, settleTimer := none })
    | .active =>
      let v := u.modLine l fun r => { r with losses := min Config.lossMax (r.losses + 1) }
      .next (v.leaveActive l .waiting Config.causeLineLost).judgeAtn
    | _ => .next u

end Sys2Proof.Machine
end

