-- ==== Sys2Proof/Machine/PoolCommands.lean ====
section
/-! DEFINITION. The pool commands: CLAIM, UNCLAIM, POOL_SET, POOL_QUERY (04, 4.6). -/

namespace Sys2Proof.Machine

/-- CLAIM (R91). -/
def claimBody : Body := fun p _ s => do
  require (s.floor < s.available) .noBuffer
  match s.freeQueue with
  | [] => .error .noBuffer
  | b :: rest =>
    let t := ((s.setFreeQueue rest).writeBuffer b 0 (List.replicate Config.bufferBytes 0)).setPlace b (.claimed p)
    return (t, { r0 := inBits 8 0 b.val, r1 := inBits 9 0 t.available })

def execClaim (s : State) : Outcome := takeCommand Code.claim claimBody s

/-- UNCLAIM: buffer (R92). -/
def unclaimBody : Body := fun p a s => do
  let b ← bufferArg a.a0
  require (s.place b = .claimed p) .notOwner
  return ((s.returnBuffer b).serveWait, {})

def execUnclaim (s : State) : Outcome := takeCommand Code.unclaim unclaimBody s

/-- POOL-SET: floor; supervisor only (R93). -/
def poolSetBody : Body := fun p a s => do
  supervisorOnly p
  require (a.a0.toNat ≤ 256) .badArgument
  return (s.setFloor a.a0.toNat, { r0 := inBits 8 0 s.floor })

def execPoolSet (s : State) : Outcome := takeCommand Code.poolSet poolSetBody s

/-- POOL-QUERY (R94). -/
def poolQueryBody : Body := fun p _ s => .ok (s, s.poolResults p)

def execPoolQuery (s : State) : Outcome := takeCommand Code.poolQuery poolQueryBody s

end Sys2Proof.Machine
end

