-- ==== Sys2Proof/Machine/PortCommands.lean ====
section
/-! DEFINITION. The port commands: PORT_SET, PORT_RESET (08, 8.7 and 8.8). -/

namespace Sys2Proof.Machine

/-- PORT-SET: holdoff count, holdoff time (R161). -/
def portSetBody : Body := fun p a s => do
  require (a.a0.toNat ≤ 15) .badArgument
  require (a.a1.toNat ≤ 255) .badArgument
  let old := s.port p
  let t := s.modPort p fun r =>
    { r with
      holdoffCount := a.a0.toNat
      holdoffTime := a.a1.toNat
      holdoff := if !r.attention.isEmpty && 0 < a.a1.toNat then .running a.a1.toNat else .absent }
  return (t.judgeAtn, { r0 := inBits 3 0 old.holdoffCount ||| inBits 15 8 old.holdoffTime })

def execPortSet (s : State) : Outcome := takeCommand Code.portSet portSetBody s

namespace State

/-- The port's own fields (R163); its attention list is dealt with apart. -/
def resetPortFields (s : State) (p : PortNo) : State :=
  s.modPort p fun r => { ({} : Port) with status := .idle, attention := r.attention, atn := r.atn }

/-- The attention list is emptied, with the conditions and delivered counts of the circuits on it (R164). -/
def emptyAttention (s : State) (p : PortNo) : State :=
  ((s.port p).attention.foldl clearConditions s).modPort p fun r => { r with attention := [], holdoff := .absent }

/-- The claimed set returns to the pool in ascending buffer number (R165). -/
def returnClaimed (s : State) (p : PortNo) : State := (s.returnBuffers (s.claimedSet p)).serveWait

/-- One circuit of a reset port dealt with by its state (R166). -/
def orphan (s : State) (i : SlotNo) : State :=
  match s.circuit i with
  | none => s
  | some c =>
    match c.state with
    | .offered => (s.offerReply c.line ⟨c.number, .refuse, Config.causeWithdrawn⟩).directFree i
    | .closing _ => s.modCircuit i fun x => { x with owner := none }
    | .ended _ _ _ => (s.returnCircuitBuffers i).freeSlot i
    | _ =>
      ((s.enterClosing i Config.causeWithdrawn).modCircuit i fun x => { x with owner := none }).returnCircuitBuffers i

/-- The circuits of a port, in ascending slot number. -/
def circuitsOf (s : State) (p : PortNo) : List SlotNo := s.slotsWhere fun c => c.owner = some p

/-- PORT-RESET of a port, in the order of R163 to R166. -/
def resetPort (s : State) (p : PortNo) : State :=
  let s1 := ((s.resetPortFields p).emptyAttention p).returnClaimed p
  ((s1.circuitsOf p).foldl orphan s1).judgeAtn

/-- How many circuits of a port are in states of these names. -/
def countOf (s : State) (p : PortNo) (names : List StateName) : Nat :=
  (s.slotsWhere fun c => c.owner = some p && names.contains c.state.name).length

/-- How many buffers the circuits of a port return when it is reset: all but those of circuits already CLOSING (R166). -/
def buffersOf (s : State) (p : PortNo) : Nat :=
  ((s.slotsWhere fun c => c.owner = some p && c.state.name ≠ .closing).map fun i =>
    ((s.circuit i).map fun c => c.buffers.length).getD 0).sum

/-- The two result words of a PORT-RESET that port 0 issues for another port (R167). -/
def resetResults (s : State) (p : PortNo) : Results where
  r0 := inBits 7 0 (s.countOf p [.calling, .opened, .draining]) ||| inBits 15 8 (s.countOf p [.closing])
    ||| inBits 23 16 (s.countOf p [.offered]) ||| inBits 31 24 (s.countOf p [.ended])
  r1 := inBits 9 0 (s.claimedSet p).length ||| inBits 25 16 (s.buffersOf p)

end State

/-- PORT-RESET's checks: a port other than 0 may name only itself, the argument as given; then the argument range (R162). -/
def portResetCheck (p : PortNo) (a : Args) : Except ResultCode PortNo := do
  require (p = 0 || a.a0.toNat = p.val) .notPermitted
  portArg a.a0.toNat

/-- PORT_RESET: port (R162 to R167). A self-reset leaves the slot IDLE with OK; port 0's reset of another port completes DONE. -/
def execPortReset (s : State) : Outcome :=
  match s.takes (· == Code.portReset) with
  | none => .next s
  | some p =>
    match portResetCheck p (s.port p).args with
    | .error code => .next (s.finish p code {})
    | .ok q =>
      let t := s.resetPort q
      if q = p then .next (t.setLastServed p) else .next (t.finish p .ok (s.resetResults q))

end Sys2Proof.Machine
end

