-- ==== Sys2Proof/Machine/Receiver.lean ====
section
/-! DEFINITION. The line receiver and the rows it raises: the eight frames, FRAME_DISCARDED, ABORT and OPENING_FLAG (07, R129 to R132). -/

namespace Sys2Proof.Machine

namespace State

def setReceiver (s : State) (l : LineNo) (x : Receiver) : State := s.modLine l fun r => { r with receiver := x }

/-- The frame that ends with this content at a closing flag: judged, and handed over or discarded and counted (R131, R132). -/
def closeContent (s : State) (l : LineNo) (content : List Bool) : Outcome :=
  if (s.line l).state = .active then
    match readContent content with
    | some f => s.frameArrives l f
    | none => .next (s.countDiscard l)
  else .next (s.countDiscard l)

/-- The frame that ends with these fields and a good check: what closeContent does with its content bits. -/
def closeFields (s : State) (l : LineNo) (f : Frame) : Outcome :=
  if (s.line l).state = .active ∧ frameValid f = true then s.frameArrives l f else .next (s.countDiscard l)

/-- The frames that end, in order. An abort discards the frame, which counts once when content has been gathered (R130). -/
def takeEndings (s : State) (l : LineNo) : List Ending → Outcome
  | [] => .next s
  | .closed content :: rest =>
    match s.closeContent l content with
    | .next t => t.takeEndings l rest
    | x => x
  | .aborted content :: rest => (if content = [] then s else s.countDiscard l).takeEndings l rest

/-- A receiver that holds this after bits have been delimited, and the frames that ended in them. -/
def settleReceiver (s : State) (l : LineNo) (x : Option (List Bool) × List Ending) : Outcome :=
  (s.setReceiver l (match x.1 with
    | none => .hunt
    | some taken => .frame taken.reverse)).takeEndings l x.2

/-- Bits at a line's receive data pin (R130). A receiver that is OFF does not watch them. In HUNT nothing is held between commands
(R129), so the 0 that begins a flag is one of these bits. -/
def takeBits (s : State) (l : LineNo) (bits : List Bool) : Outcome :=
  if s.phase = .running then
    match (s.line l).receiver with
    | .off => .next s
    | .hunt => s.settleReceiver l (delimit none 7 bits)
    | .frame taken => s.settleReceiver l (delimit (some taken.reverse) (trailingOnes taken) bits)
  else .next s

/-- A whole frame at a receiver: its opening flag, its content and its closing flag (log 5). A receiver that is OFF takes nothing. -/
def receive (s : State) (l : LineNo) (f : Frame) : Outcome :=
  if s.phase = .running ∧ (s.line l).receiver ≠ .off then
    match s.takeBits l flagBits with
    | .next t => t.closeFields l f
    | x => x
  else .next s

end State

/-! ## The frame rows -/

/-- OPEN_FRAME (R9, R31 to R35, R39, R100 to R102). -/
def execOpenFrame (l : LineNo) (n a b : Byte) (s : State) : Outcome := s.receive l ⟨n, .openCall, a, b, []⟩

/-- GRANT_FRAME (R28). -/
def execGrantFrame (l : LineNo) (n a b : Byte) (s : State) : Outcome := s.receive l ⟨n, .grant, a, b, []⟩

/-- REFUSE_FRAME (R29). -/
def execRefuseFrame (l : LineNo) (n a b : Byte) (s : State) : Outcome := s.receive l ⟨n, .refuse, a, b, []⟩

/-- CARRY_FRAME (R58 to R60). -/
def execCarryFrame (l : LineNo) (n a b : Byte) (payload : List Byte) (s : State) : Outcome :=
  s.receive l ⟨n, .carry, a, b, payload⟩

/-- CREDIT_FRAME (R61 to R63). -/
def execCreditFrame (l : LineNo) (n a b : Byte) (s : State) : Outcome := s.receive l ⟨n, .credit, a, b, []⟩

/-- ASK_FRAME (R65). -/
def execAskFrame (l : LineNo) (n a b : Byte) (s : State) : Outcome := s.receive l ⟨n, .ask, a, b, []⟩

/-- CLOSE_FRAME (R45, R48). -/
def execCloseFrame (l : LineNo) (n a b : Byte) (s : State) : Outcome := s.receive l ⟨n, .close, a, b, []⟩

/-- CLOSED_FRAME (R47). -/
def execClosedFrame (l : LineNo) (n a b : Byte) (s : State) : Outcome := s.receive l ⟨n, .closed, a, b, []⟩

/-! ## The receiver's own rows -/

/-- FRAME_DISCARDED: these bits and then a closing flag. The frame that ends there is judged (R130, R131); content that no test of R131
fails is no frame to discard, and is handed over like any valid frame (log 5). -/
def execFrameDiscarded (l : LineNo) (bits : List Bool) (s : State) : Outcome := s.takeBits l (bits ++ flagBits)

/-- ABORT: these bits and then seven consecutive 1 bits (R130). -/
def execAbort (l : LineNo) (bits : List Bool) (s : State) : Outcome := s.takeBits l (bits ++ List.replicate 7 true)

/-- OPENING_FLAG: a flag, and then these bits of the frame it opens (R130). -/
def execOpeningFlag (flag : FlagAndBits) (s : State) : Outcome := s.takeBits flag.line (flagBits ++ flag.bits)

end Sys2Proof.Machine
end

