-- ==== Sys2Proof/Machine/ResetEvents.lean ====
section
/-! DEFINITION. RESET and start-up: RESET_ASSERTED, START_UP, START_UP_COMPLETION (08, 8.9). -/

namespace Sys2Proof.Machine

namespace State

/-- Every block at its RESET value. What lies outside the part stays: the READY pins, the queue of commands, and the counter of free
values. -/
def atReset (s : State) (phase : Phase) : State :=
  { State.reset with
    phase := phase
    lines := s.lines.map fun r => { readyPin := r.readyPin }
    freeCount := s.freeCount
    pending := s.pending }

/-- The READY monitors take the levels at their pins, with no event (R111, R126). -/
def samplePins (s : State) : State := { s with lines := s.lines.map fun r => { r with readyLevel := r.readyPin } }

end State

/-- RESET_ASSERTED: every operation is abandoned and no state survives; outputs are deasserted and 1 bits are sent (R169, log 11). -/
def execResetAsserted (s : State) : Outcome := .next (s.atReset .inReset)

/-- START_UP: the release of RESET; every block takes its RESET value (R170). -/
def execStartUp (s : State) : Outcome :=
  if s.phase = .inReset then .next (s.atReset .starting).samplePins else .next s

/-- START_UP_COMPLETION: RUNNING, and every slot IDLE (R171). -/
def execStartUpCompletion (s : State) : Outcome :=
  if s.phase = .starting then
    .next { s with phase := .running, ports := s.ports.map fun r => { r with status := .idle } }
  else .next s

end Sys2Proof.Machine
end

