-- ==== Sys2Proof/Machine/ServiceCommands.lean ====
section
/-! DEFINITION. The service table commands: SERVICE_SET, SERVICE_CLEAR, SERVICE_QUERY (05, 5.4). -/

namespace Sys2Proof.Machine

/-- The service code of SERVICE-SET's A1: FFFFFFFFh for any code, else 0..255 (R104, R186). -/
def codeArg (w : Word) : Except ResultCode (Option Byte) :=
  if w = 0xFFFFFFFF#32 then .ok none
  else if w.toNat ≤ 255 then .ok (some (w.setWidth 8))
  else .error .badArgument

/-- The action of SERVICE-SET with the fields it uses, each in its range; the others are not checked and not kept (R104, R186). -/
def actionArg (a0 a2 : Word) : Except ResultCode Action := do
  let limit := bitsOf a2 31 16
  let credit := bitsOf a2 15 8
  let cause := bitsOf a2 7 0
  match bitsOf a0 15 8 with
  | 1 =>
    let client ← portArg (bitsOf a0 23 16)
    require (1 ≤ limit && limit ≤ 192) .badArgument
    return .offer client limit
  | 2 =>
    let client ← portArg (bitsOf a0 23 16)
    require (1 ≤ limit && limit ≤ 192) .badArgument
    require (credit ≤ 15) .badArgument
    return .accept client credit limit
  | 3 =>
    require (16 ≤ cause) .badArgument
    return .refuse (BitVec.ofNat 8 cause)
  | _ => .error .badArgument

/-- What SERVICE-SET makes of an entry, or IN-USE (R105). -/
def entryAfterSet (f : ServiceFields) : ServiceEntry → Except ResultCode ServiceEntry
  | .empty => .ok (.active f 0)
  | .active old live =>
    if live = 0 ∨ old.code = f.code then .ok (.active f live) else .error .inUse
  | .withdrawn _ _ => .error .inUse

/-- SERVICE-SET; supervisor only (R104, R105). -/
def serviceSetBody : Body := fun p a s => do
  supervisorOnly p
  let e ← entryArg (bitsOf a.a0 7 0)
  let action ← actionArg a.a0 a.a2
  let code ← codeArg a.a1
  let x ← entryAfterSet ⟨code, BitVec.ofNat 8 (bitsOf a.a0 31 24), action⟩ (s.entry e)
  return (s.setEntry e x, { r0 := x.stateWord })

def execServiceSet (s : State) : Outcome := takeCommand Code.serviceSet serviceSetBody s

/-- What SERVICE-CLEAR makes of an entry (R106). -/
def entryAfterClear : ServiceEntry → ServiceEntry
  | .empty => .empty
  | .active f live => if live = 0 then .empty else .withdrawn f live
  | .withdrawn f live => .withdrawn f live

/-- SERVICE-CLEAR: entry index; supervisor only (R106). -/
def serviceClearBody : Body := fun p a s => do
  supervisorOnly p
  let e ← entryArg a.a0.toNat
  let x := entryAfterClear (s.entry e)
  return (s.setEntry e x, { r0 := x.stateWord })

def execServiceClear (s : State) : Outcome := takeCommand Code.serviceClear serviceClearBody s

/-- SERVICE-QUERY: entry index (R107). -/
def serviceQueryBody : Body := fun _ a s => do
  let e ← entryArg a.a0.toNat
  return (s, s.serviceResults e)

def execServiceQuery (s : State) : Outcome := takeCommand Code.serviceQuery serviceQueryBody s

end Sys2Proof.Machine
end

