-- ==== Sys2Proof/Machine/Transmit.lean ====
section
/-! DEFINITION. The line transmitter: selection, staging and completion (R13, R55, R56, R68, R139 to R143). -/

namespace Sys2Proof.Machine

/-- The kind a selection takes from owed control, and what is then owed: CLOSE, GRANT, OPEN, RESEND, CREDIT, ASK in this order,
a RESEND with nothing unacknowledged being dropped without a frame (R140). -/
def Circuit.nextOwed (c : Circuit) : Option OwedKind × Owed :=
  let o := c.owed
  if o.close then (some .close, o.put .close false)
  else if o.grant then (some .grant, o.put .grant false)
  else if o.openCall then (some .openCall, o.put .openCall false)
  else if o.resend && !c.unacked.isEmpty then (some .resend, o.put .resend false)
  else
    let o' := o.put .resend false
    if o'.credit then (some .credit, o'.put .credit false)
    else if o'.ask then (some .ask, o'.put .ask false)
    else (none, o')

/-- The cause a CLOSE frame carries in field A (R46). -/
def Circuit.closeCause (c : Circuit) : Byte :=
  match c.state with
  | .closing cause => cause
  | _ => 0

/-- A sequence number or edge as a frame byte. -/
def seqByte (x : Seq) : Byte := x.setWidth 8

namespace State

/-- A CARRY frame from an entry: its sequence, its end mark and a copy of the first length bytes of its buffer (R55, R68). -/
def carryOf (s : State) (number : Byte) (sequence : Seq) (e : Entry) : Frame where
  number := number
  kind := .carry
  a := seqByte sequence
  b := if e.endMark then 1 else 0
  payload := s.bufferBytes e.buffer 0 e.length

/-- The frame composed for an owed kind from the record as it stands (R141). -/
def composeOwed (s : State) (c : Circuit) : OwedKind → Frame
  | .openCall => ⟨c.number, .openCall, c.service, seqByte c.receiveEdge, []⟩
  | .grant => ⟨c.number, .grant, BitVec.ofNat 8 (distance c.nextExpected c.receiveEdge), 0, []⟩
  | .close => ⟨c.number, .close, c.closeCause, 0, []⟩
  | .credit => ⟨c.number, .credit, seqByte c.nextExpected, seqByte c.receiveEdge, []⟩
  | .ask => ⟨c.number, .ask, 0, 0, []⟩
  | .resend =>
    match c.unacked with
    | e :: _ => s.carryOf c.number e.sequence e.entry
    -- not reached: a RESEND is chosen only while the list is not empty (R140)
    | [] => ⟨c.number, .carry, 0, 0, []⟩

/-- What is noted of a circuit at staging (R13). -/
def noteOf (s : State) (i : SlotNo) (c : Circuit) : Noted :=
  ⟨i, (s.slot i).generation, c.line, c.number, c.state.name⟩

/-- The transmitter stages a frame, computes its check and becomes SENDING (R136, R141). -/
def stage (s : State) (l : LineNo) (f : Frame) (retransmission : Bool) (noted : Option Noted) : State :=
  s.modTx l fun t => { t with staged := some ⟨f, frameCheck f, retransmission, noted⟩, data := .stagedFrame }

/-- A selection from the control queue (R140); n bounds the circuits it passes over whose last owed RESEND is dropped.
The transmitter stays without a staged frame when the queue runs out. -/
def selectControl (l : LineNo) : Nat → State → State
  | 0, s => s
  | n + 1, s =>
    match (s.line l).tx.control with
    | [] => s
    | i :: rest =>
      match s.circuit i with
      | none => selectControl l n (s.modTx l fun t => { t with control := rest })
      | some c =>
        match c.nextOwed with
        | (none, owed) =>
          selectControl l n
            ((s.setCircuit i (some { c with owed := owed })).modTx l fun t => { t with control := rest })
        | (some k, owed) =>
          let t := (s.setCircuit i (some { c with owed := owed })).modTx l
            fun x => { x with control := if owed.isEmpty then rest else rest ++ [i] }
          t.stage l (s.composeOwed c k) (k = .resend) (some (s.noteOf i c))

/-- The frame of a stray reply (R142). -/
def replyFrame (r : Reply) : Frame :=
  match r.kind with
  | .refuse => ⟨r.number, .refuse, r.cause, 0, []⟩
  | .close => ⟨r.number, .close, r.cause, 0, []⟩
  | .closed => ⟨r.number, .closed, 0, 0, []⟩

/-- The head of the transmit queue moves to the unacknowledged list under the next send sequence, and is staged (R55).
The circuit leaves the ring and rejoins its tail if it can still send (R142). -/
def stageData (s : State) (l : LineNo) (i : SlotNo) (rest : List SlotNo) : State :=
  let s0 := s.modTx l fun t => { t with ring := rest }
  match s.circuit i with
  | none => s0
  | some c =>
    match c.transmit with
    | [] => s0
    | e :: es =>
      let c' := { c with transmit := es, unacked := c.unacked ++ [⟨c.nextSend, e⟩], nextSend := c.nextSend + 1 }
      let s1 := (s0.setCircuit i (some c')).setPlace e.buffer (.unacked i)
      let s2 := s1.stage l (s.carryOf c.number c.nextSend e) false (some (s.noteOf i c))
      if c'.canSend then s2.modTx l fun t => { t with ring := joinTail t.ring i } else s2

/-- A selection: the control queue, then the stray reply queue, then the data ready ring (R139).
With nothing to select the transmitter is IDLE and sends flags. -/
def select (s : State) (l : LineNo) : State :=
  let t := selectControl l (s.line l).tx.control.length s
  if (t.line l).tx.staged.isSome then t
  else
    match (t.line l).tx.stray, (t.line l).tx.ring with
    | r :: rest, _ => (t.modTx l fun x => { x with stray := rest }).stage l (replyFrame r) false none
    | [], i :: rest => t.stageData l i rest
    | [], [] => t.modTx l fun x => { x with data := .flags }

/-- The noted identity still fits the slot (R13). -/
def fits (s : State) (n : Noted) (c : Circuit) : Bool :=
  (s.slot n.slot).generation = n.generation && c.line = n.line && c.number = n.number
    && c.state.name.sameStage n.state

/-- An applied completion: OPEN-WAIT, CLOSE-WAIT or ACK-WAIT starts, or a retransmission restarts ACK-WAIT (R27, R46, R56, R68). -/
def applyCompletion (s : State) (i : SlotNo) (c : Circuit) (x : Staged) : State :=
  match x.frame.kind with
  | .openCall => s.startTimer i .openWait
  | .close => s.startTimer i .closeWait
  | .carry =>
    if c.unacked.isEmpty then s
    else if x.retransmission || !c.waits .ackWait then s.startTimer i .ackWait
    else s
  | _ => s

/-- The completion of a staged frame is handed to the directory, which applies or ignores it (R13, R143). -/
def complete (s : State) (x : Staged) : State :=
  match x.noted with
  | none => s
  | some n =>
    match s.circuit n.slot with
    | none => s
    | some c => if s.fits n c then s.applyCompletion n.slot c x else s

end State

end Sys2Proof.Machine
end

