-- ==== Sys2Proof/Machine/TransmitEvents.lean ====
section
/-! DEFINITION. The transmitter's rows: SELECTION_EVENT and COMPLETION (07, R139, R143). -/

namespace Sys2Proof.Machine

/-- SELECTION_EVENT: an IDLE transmitter on an ACTIVE line selects (R139). -/
def execSelectionEvent (l : LineNo) (s : State) : Outcome :=
  if s.phase = .running ∧ (s.line l).state = .active ∧ (s.line l).tx.staged = none then .next (s.select l)
  else .next s

/-- COMPLETION: the staged frame leaves, the directory applies or ignores it, and the transmitter selects (R143). -/
def execCompletion (l : LineNo) (s : State) : Outcome :=
  if s.phase = .running then
    match (s.line l).tx.staged with
    | none => .next s
    | some x => .next (((s.modTx l fun t => { t with staged := none }).complete x).select l)
  else .next s

end Sys2Proof.Machine
end

