-- ==== Sys2Proof/Machine/Dispatch.lean ====
section
/-! DEFINITION. The effect of each command on everything but the queue: one arm per row of spec/opcode_table.json. -/

namespace Sys2Proof.Machine

def exec (i : Instr) (s : State) : Host.Outcome State Fault Refusal :=
  match i with
  | .call => Sys2Proof.Machine.execCall s
  | .accept => Sys2Proof.Machine.execAccept s
  | .refuse => Sys2Proof.Machine.execRefuse s
  | .close => Sys2Proof.Machine.execClose s
  | .send => Sys2Proof.Machine.execSend s
  | .release => Sys2Proof.Machine.execRelease s
  | .setCredit => Sys2Proof.Machine.execSetCredit s
  | .claim => Sys2Proof.Machine.execClaim s
  | .unclaim => Sys2Proof.Machine.execUnclaim s
  | .poolSet => Sys2Proof.Machine.execPoolSet s
  | .poolQuery => Sys2Proof.Machine.execPoolQuery s
  | .serviceSet => Sys2Proof.Machine.execServiceSet s
  | .serviceClear => Sys2Proof.Machine.execServiceClear s
  | .serviceQuery => Sys2Proof.Machine.execServiceQuery s
  | .lineSet => Sys2Proof.Machine.execLineSet s
  | .lineEnable => Sys2Proof.Machine.execLineEnable s
  | .lineDisable => Sys2Proof.Machine.execLineDisable s
  | .lineQuery => Sys2Proof.Machine.execLineQuery s
  | .lineTake => Sys2Proof.Machine.execLineTake s
  | .query => Sys2Proof.Machine.execQuery s
  | .retire => Sys2Proof.Machine.execRetire s
  | .take => Sys2Proof.Machine.execTake s
  | .takeNext => Sys2Proof.Machine.execTakeNext s
  | .portSet => Sys2Proof.Machine.execPortSet s
  | .portReset => Sys2Proof.Machine.execPortReset s
  | .unknownCommand => Sys2Proof.Machine.execUnknownCommand s
  | .commandWordWrite mn value => Sys2Proof.Machine.execCommandWordWrite mn value s
  | .argumentWordWrite mn index value => Sys2Proof.Machine.execArgumentWordWrite mn index value s
  | .windowRegisterWrite mn value => Sys2Proof.Machine.execWindowRegisterWrite mn value s
  | .clearRequest mn value => Sys2Proof.Machine.execClearRequest mn value s
  | .windowRead mn offset width => Sys2Proof.Machine.execWindowRead mn offset width s
  | .windowWrite mn offset width data => Sys2Proof.Machine.execWindowWrite mn offset width data s
  | .voidAccess access => Sys2Proof.Machine.execVoidAccess access s
  | .openFrame line number a b => Sys2Proof.Machine.execOpenFrame line number a b s
  | .grantFrame line number a b => Sys2Proof.Machine.execGrantFrame line number a b s
  | .refuseFrame line number a b => Sys2Proof.Machine.execRefuseFrame line number a b s
  | .carryFrame line number a b payload => Sys2Proof.Machine.execCarryFrame line number a b payload s
  | .creditFrame line number a b => Sys2Proof.Machine.execCreditFrame line number a b s
  | .askFrame line number a b => Sys2Proof.Machine.execAskFrame line number a b s
  | .closeFrame line number a b => Sys2Proof.Machine.execCloseFrame line number a b s
  | .closedFrame line number a b => Sys2Proof.Machine.execClosedFrame line number a b s
  | .frameDiscarded line bits => Sys2Proof.Machine.execFrameDiscarded line bits s
  | .abort line bits => Sys2Proof.Machine.execAbort line bits s
  | .openWaitExpiry slot => Sys2Proof.Machine.execOpenWaitExpiry slot s
  | .offerWaitExpiry slot => Sys2Proof.Machine.execOfferWaitExpiry slot s
  | .ackWaitExpiry slot => Sys2Proof.Machine.execAckWaitExpiry slot s
  | .stallWaitExpiry slot => Sys2Proof.Machine.execStallWaitExpiry slot s
  | .closeWaitExpiry slot => Sys2Proof.Machine.execCloseWaitExpiry slot s
  | .settleExpiry line => Sys2Proof.Machine.execSettleExpiry line s
  | .holdoffExpiry port => Sys2Proof.Machine.execHoldoffExpiry port s
  | .readyAsserted line => Sys2Proof.Machine.execReadyAsserted line s
  | .readyDropped line => Sys2Proof.Machine.execReadyDropped line s
  | .selectionEvent line => Sys2Proof.Machine.execSelectionEvent line s
  | .completion line => Sys2Proof.Machine.execCompletion line s
  | .resetAsserted => Sys2Proof.Machine.execResetAsserted s
  | .startUp => Sys2Proof.Machine.execStartUp s
  | .startUpCompletion => Sys2Proof.Machine.execStartUpCompletion s
  | .openingFlag flag => Sys2Proof.Machine.execOpeningFlag flag s

end Sys2Proof.Machine
end

