-- ==== Sys2Proof/Machine/Parts.lean ====
section
/-! DEFINITION. What the statements are said with: the parts of State that a command keeps, the effect of grants, and when a command is taken. -/

namespace Sys2Proof.Machine

/-- The parts of State, one for each field. -/
inductive Part where
  | phase | lastServed | slots | freeSlots | index | memory | places | freeQueue | reservedTotal | floor | waitQueue
  | services | lines | ports | readData | freeCount | pending
  deriving DecidableEq, Repr

/-- A part of one state is the same in another. -/
def State.sameAt (s t : State) : Part → Prop
  | .phase => t.phase = s.phase
  | .lastServed => t.lastServed = s.lastServed
  | .slots => t.slots = s.slots
  | .freeSlots => t.freeSlots = s.freeSlots
  | .index => t.index = s.index
  | .memory => t.memory = s.memory
  | .places => t.places = s.places
  | .freeQueue => t.freeQueue = s.freeQueue
  | .reservedTotal => t.reservedTotal = s.reservedTotal
  | .floor => t.floor = s.floor
  | .waitQueue => t.waitQueue = s.waitQueue
  | .services => t.services = s.services
  | .lines => t.lines = s.lines
  | .ports => t.ports = s.ports
  | .readData => t.readData = s.readData
  | .freeCount => t.freeCount = s.freeCount
  | .pending => t.pending = s.pending

/-- Every part but those named is the same after as before. -/
def Keeps (changed : List Part) (s t : State) : Prop := ∀ x, x ∉ changed → s.sameAt t x

/-! ## Grants (R66, R88) -/

/-- A record after the pool has granted it n reservations: each raises the reserved count and the receive edge by one, and CREDIT
is owed (R66). -/
def Circuit.granted (c : Circuit) (n : Nat) : Circuit :=
  if n = 0 then c
  else { c with
    reserved := c.reserved + n
    receiveEdge := c.receiveEdge + BitVec.ofNat 5 n
    owed := c.owed.put .credit true }

/-- The circuit in slot j has been granted one reservation or more between two states. -/
def State.gains (s t : State) (j : SlotNo) : Prop :=
  ∃ c n, s.circuit j = some c ∧ 0 < n ∧ t.circuit j = some (c.granted n)

/-- All that service of the credit wait queue may do: circuits that stood on it are granted reservations and join control queues. -/
structure Served (s t : State) : Prop where
  keeps : Keeps [.slots, .lines, .reservedTotal, .waitQueue] s t
  circuits : ∀ j, ∃ n, t.circuit j = (s.circuit j).map (·.granted n) ∧ (j ∉ s.waitQueue → n = 0)
  generations : ∀ j, (t.slot j).generation = (s.slot j).generation
  lines : ∀ l, ∃ more, (∀ j ∈ more, j ∈ s.waitQueue ∧ s.gains t j) ∧ t.line l
    = { s.line l with tx := { (s.line l).tx with control := (s.line l).tx.control ++ more } }
  waiting : ∀ j ∈ t.waitQueue, j ∈ s.waitQueue
  standing : ∀ j c, s.circuit j = some c → t.circuit j = some c ∨ j ∈ (t.line c.line).tx.control

/-- What an event at one circuit, in slot i on line l, may do elsewhere: circuits that wait for credit may be granted it, and those
granted stand on their control queues, joined at the tail. Nothing else of any other slot or line changes. -/
structure ActsOn (i : SlotNo) (l : LineNo) (s t : State) : Prop where
  others : ∀ j, j ≠ i → ∃ n, t.circuit j = (s.circuit j).map (·.granted n) ∧ (j ∉ s.waitQueue → n = 0)
  generations : ∀ j, (t.slot j).generation = (s.slot j).generation
  waiting : ∀ j ∈ t.waitQueue, j = i ∨ j ∈ s.waitQueue
  otherLines : ∀ m, m ≠ l → ∃ more, (∀ j ∈ more, j = i ∨ j ∈ s.waitQueue ∧ s.gains t j) ∧
    t.line m = { s.line m with tx := { (s.line m).tx with control := (s.line m).tx.control ++ more } }
  staying : ∀ m j, j ≠ i → j ∈ (s.line m).tx.control → j ∈ (t.line m).tx.control
  standing : ∀ j c, j ≠ i → s.circuit j = some c → t.circuit j = some c ∨ j ∈ (t.line c.line).tx.control

/-- What an event at the circuit in slot i does to its own line l: the control queue is this one of the circuits granted credit, which
join at the tail, the ring and the stray reply queue are these, and nothing else of the line changes (R12, R66). Slot i itself joins as
one granted credit only if `own` holds. -/
def Queued (i : SlotNo) (l : LineNo) (s t : State) (own : Prop) (control : List SlotNo → List SlotNo) (ring : List SlotNo)
    (stray : List Reply) : Prop :=
  ∃ more, (∀ j ∈ more, j = i ∧ own ∨ j ≠ i ∧ j ∈ s.waitQueue ∧ s.gains t j)
    ∧ t.line l = { s.line l with tx := { (s.line l).tx with control := control more, ring := ring, stray := stray } }

/-- The number that a CALL on a line takes: of those the index map does not hold there, the lowest on an ORIGIN line and the highest
on an ANSWER line (R10). -/
def State.numberFor (s : State) (l : LineNo) (role : Role) (n : Byte) : Prop :=
  (1 ≤ n.toNat ∧ n.toNat ≤ 127 ∧ s.lookup l n = none)
    ∧ ∀ m : Byte, 1 ≤ m.toNat → m.toNat ≤ 127 → s.lookup l m = none →
        match role with
        | .originRole => n.toNat ≤ m.toNat
        | .answerRole => m.toNat ≤ n.toNat

/-! ## Attention lists -/

/-- A port after a circuit has joined its attention list: an empty list's joining starts the holdoff timer (R172, R177). -/
def Port.joinedBy (r : Port) (i : SlotNo) : Port :=
  { r with
    attention := joinTail r.attention i
    holdoff := if r.attention = [] ∧ 0 < r.holdoffTime then .running r.holdoffTime else r.holdoff }

/-- A port after a circuit has left its attention list: an empty list makes the holdoff timer ABSENT (R173, R177). -/
def Port.leftBy (r : Port) (i : SlotNo) : Port :=
  { r with
    attention := leave r.attention i
    holdoff := if leave r.attention i = [] then .absent else r.holdoff }

/-! ## Several circuits in one event (R16) -/

/-- The buffers that the records in these slots hold, in order. -/
def State.buffersIn (s : State) (slots : List SlotNo) : List BufNo :=
  slots.flatMap fun i => ((s.circuit i).map Circuit.buffers).getD []

/-- The circuits mapped under line l that pass a test, in ascending slot number. -/
def State.mappedWhere (s : State) (l : LineNo) (test : Circuit → Bool) : List SlotNo :=
  s.slotsWhere fun c => c.line = l && c.mapped && test c

/-- The orphans mapped under line l, in ascending slot number: CLOSING circuits without an owner. -/
def State.orphansOn (s : State) (l : LineNo) : List SlotNo :=
  s.mappedWhere l fun c => c.state.name = .closing && c.owner.isNone

/-- What a teardown of line l with a cause does (R117, steps 1 and 2): the circuits mapped under the line end in ascending slot number,
an orphan's slot being FREE at once with its buffers returned, and the others are granted reservations at most, those granted standing
on their lines' control queues. The service entries lose one live circuit for each that ends, and those that end with nothing pending
join their owners' attention lists. -/
structure TornDown (l : LineNo) (cause : Byte) (s t : State) : Prop where
  orphans : ∀ i c x, s.circuit i = some c → c.line = l → c.state = .closing x → c.owner = none → t.circuit i = none
  owned : ∀ i c p, s.circuit i = some c → c.line = l → c.mapped = true → c.owner = some p → t.circuit i = some
    { c with
      state := .ended cause .localEnd (if c.state.name = .closing then some .unconfirmed else none)
      reserved := 0
      timer := none
      owed := {}
      conditions := c.conditions.union { ended := true } }
  unmapped : ∀ i c, s.circuit i = some c → c.line = l → c.mapped = true → t.lookup l c.number = none
  others : ∀ i c, s.circuit i = some c → (c.line ≠ l ∨ c.mapped = false) →
    ∃ n, t.circuit i = some (c.granted n) ∧ (i ∉ s.waitQueue → n = 0)
  frees : ∀ i, s.circuit i = none → t.circuit i = none
  generations : ∀ i, (t.slot i).generation = (s.slot i).generation
  otherNumbers : ∀ m o, (∀ i c, s.circuit i = some c → c.line = l → c.mapped = true → ¬ (m = l ∧ o = c.number)) →
    t.lookup m o = s.lookup m o
  otherLines : ∀ m, m ≠ l → ∃ more, (∀ j ∈ more, j ∈ s.waitQueue ∧ s.gains t j) ∧
    t.line m = { s.line m with tx := { (s.line m).tx with control := (s.line m).tx.control ++ more } }
  waiting : ∀ j ∈ t.waitQueue, j ∈ s.waitQueue ∧ j ∉ s.mappedSlots l
  standing : ∀ i c, s.circuit i = some c → c.line ≠ l → t.circuit i = some c ∨ i ∈ (t.line c.line).tx.control
  freeSlots : t.freeSlots = s.freeSlots ++ s.orphansOn l
  freeQueue : t.freeQueue = s.freeQueue ++ s.buffersIn (s.orphansOn l)
  places : ∀ b, t.place b = if b ∈ s.buffersIn (s.orphansOn l) then .free else s.place b
  entries : ∀ e, t.entry e = ServiceEntry.lowered^[(s.mappedWhere l fun c => c.origin = .remoteCall e).length] (s.entry e)
  lists : ∀ q, (t.port q).attention
      = ((s.mappedWhere l fun c => c.owner = some q && c.conditions.isEmpty).foldl Port.joinedBy (s.port q)).attention
    ∧ (t.port q).holdoff
      = ((s.mappedWhere l fun c => c.owner = some q && c.conditions.isEmpty).foldl Port.joinedBy (s.port q)).holdoff

/-- The service fields that SERVICE-SET's argument words give (R104, R186). -/
def describesService (a : Args) (f : ServiceFields) : Prop :=
  f.lines = BitVec.ofNat 8 (bitsOf a.a0 31 24)
    ∧ (match f.code with
      | none => a.a1 = 0xFFFFFFFF#32
      | some x => a.a1.toNat = x.toNat)
    ∧ (match f.action with
      | .offer client limit =>
        bitsOf a.a0 15 8 = 1 ∧ bitsOf a.a0 23 16 = client.val ∧ bitsOf a.a2 31 16 = limit ∧ 1 ≤ limit ∧ limit ≤ 192
      | .accept client credit limit =>
        bitsOf a.a0 15 8 = 2 ∧ bitsOf a.a0 23 16 = client.val ∧ bitsOf a.a2 31 16 = limit ∧ 1 ≤ limit ∧ limit ≤ 192
          ∧ bitsOf a.a2 15 8 = credit ∧ credit ≤ 15
      | .refuse cause => bitsOf a.a0 15 8 = 3 ∧ bitsOf a.a2 7 0 = cause.toNat ∧ 16 ≤ cause.toNat)

/-- The configuration that LINE-SET's argument words give (R122, R186). -/
def describesLine (a : Args) (g : LineConfig) : Prop :=
  bitsOf a.a1 7 0 = g.role.code ∧ bitsOf a.a1 15 8 = g.settleTime ∧ bitsOf a.a1 23 16 = g.retryLimit
    ∧ bitsOf a.a2 7 0 = g.openTimeout ∧ bitsOf a.a2 15 8 = g.retransmit ∧ bitsOf a.a2 23 16 = g.closeTimeout
    ∧ bitsOf a.a2 31 24 = g.offerTimeout
    ∧ 1 ≤ g.settleTime ∧ 1 ≤ g.openTimeout ∧ 1 ≤ g.retransmit ∧ 1 ≤ g.closeTimeout ∧ 1 ≤ g.offerTimeout
    ∧ 1 ≤ g.retryLimit ∧ g.retryLimit ≤ 15

/-! ## Admission (R100) -/

/-- An entry's fields fit a call on a line for a service: its line set holds the line, and its code is the call's or any. -/
def ServiceFields.fits (f : ServiceFields) (l : LineNo) (service : Byte) : Prop :=
  f.lines.getLsbD l.val = true ∧ (f.code = none ∨ f.code = some service)

/-- The matching entry of a call: the ACTIVE entry of lowest index that fits, with its fields and live count (R100). -/
def State.admits (s : State) (l : LineNo) (service : Byte) (e : EntryNo) (f : ServiceFields) (live : Nat) : Prop :=
  s.entry e = .active f live ∧ f.fits l service
    ∧ ∀ d g n, d < e → s.entry d = .active g n → ¬ g.fits l service

/-! ## Attention -/

/-- What asserts ATNp: one of the four tests of R178 while p's list is not empty, and for ATN0 a change flag (R179). -/
def State.atnAsserted (s : State) (p : PortNo) : Prop :=
  ((s.port p).attention ≠ []
      ∧ ((s.port p).holdoffCount = 0 ∨ (s.port p).holdoffCount ≤ (s.port p).attention.length
        ∨ (s.port p).holdoff = .expired
        ∨ ∃ i ∈ (s.port p).attention, ∃ c, s.circuit i = some c
            ∧ (c.conditions.arrival = true ∨ c.conditions.ended = true)))
    ∨ p = 0 ∧ ∃ l, (s.line l).changed = true

/-- The ports are as they were, and every ATN output has the level that R178 and R179 give. -/
def State.judged (s t : State) : Prop := ∀ q, t.port q = { s.port q with atn := t.atnLevel q }

/-- A condition has been raised on a circuit in slot i: it joins its owner's attention list unless a condition was pending, and
every ATN output has the level that R178 and R179 give (R172). -/
def State.attends (s t : State) (i : SlotNo) (c : Circuit) : Prop :=
  ∀ q, t.port q = { (if c.owner = some q ∧ c.conditions = {} then (s.port q).joinedBy i else s.port q) with
    atn := t.atnLevel q }

/-! ## PORT-RESET (R164, R166) -/

/-- A record after PORT-RESET of port q has emptied its attention list: what a circuit on the list had pending is dropped. -/
def State.untaken (s : State) (q : PortNo) (i : SlotNo) (c : Circuit) : Circuit :=
  if i ∈ (s.port q).attention then { c with conditions := {}, delivered := 0 } else c

/-- The buffers that the circuits of port q return when it is reset, by ascending slot: those of all but the CLOSING ones (R166). -/
def State.resetBuffers (s : State) (q : PortNo) : List BufNo :=
  s.buffersIn (s.slotsWhere fun c => c.owner = some q && c.state.name ≠ .closing)

/-- A record that PORT-RESET of its owner makes CLOSING (R166). -/
abbrev Circuit.live (c : Circuit) : Prop := c.state = .calling ∨ c.state = .opened ∨ c.state.name = .draining

/-- The circuit that stood in slot j before holds more reservations after, if it is there still. -/
def State.gathers (s t : State) (j : SlotNo) : Prop :=
  ∃ c, s.circuit j = some c ∧ ∀ d, t.circuit j = some d → c.reserved < d.reserved

/-- Why a circuit joins a control queue when port q is reset: it enters CLOSING and owes CLOSE, or it waited for credit and is granted
some (R24, R66, R166). -/
def State.joinsInReset (s : State) (q : PortNo) (t : State) (j : SlotNo) : Prop :=
  (∃ c, s.circuit j = some c ∧ c.owner = some q ∧ c.live) ∨ j ∈ s.waitQueue ∧ s.gathers t j

/-- What PORT-RESET of port q does to the circuits, their slots and buffers, the service table and the lines' queues (R164 to R166).
Offered calls leave their lines' control queues; circuits that enter CLOSING and circuits granted credit join them at the tail, and
the rest keep their places. -/
structure Orphaned (q : PortNo) (s t : State) : Prop where
  others : ∀ i c, s.circuit i = some c → c.owner ≠ some q →
    ∃ n, t.circuit i = some ((s.untaken q i c).granted n) ∧ (i ∉ s.waitQueue → n = 0)
  freed : ∀ i c, s.circuit i = some c → c.owner = some q → c.state = .offered ∨ c.state.name = .ended →
    t.circuit i = none
  unmapped : ∀ i c, s.circuit i = some c → c.owner = some q → c.state = .offered → t.lookup c.line c.number = none
  closing : ∀ i c, s.circuit i = some c → c.owner = some q → c.state.name = .closing →
    ∃ n, t.circuit i = some ({ s.untaken q i c with owner := none }.granted n) ∧ (i ∉ s.waitQueue → n = 0)
  closed : ∀ i c, s.circuit i = some c → c.owner = some q → c.live →
    ∃ n, t.circuit i = some
      { s.untaken q i c with
        state := .closing Config.causeWithdrawn, owner := none, timer := none, retry := 0, reserved := 0
        owed := { close := true }, transmit := [], unacked := [], receive := []
        receiveEdge := c.receiveEdge + BitVec.ofNat 5 n } ∧ (i ∉ s.waitQueue → n = 0)
  ownsNone : ∀ i c, t.circuit i = some c → c.owner ≠ some q
  frees : ∀ i, s.circuit i = none → t.circuit i = none
  otherNumbers : ∀ m o,
    (∀ i c, s.circuit i = some c → c.owner = some q → c.state = .offered → ¬ (m = c.line ∧ o = c.number)) →
    t.lookup m o = s.lookup m o
  generations : ∀ i, (t.slot i).generation = (s.slot i).generation
  queues : ∀ i c, s.circuit i = some c → c.owner = some q → c.live →
    i ∈ (t.line c.line).tx.control ∧ i ∉ t.waitQueue
  freeSlots : t.freeSlots
    = s.freeSlots ++ s.slotsWhere fun c => c.owner = some q && [StateName.offered, .ended].contains c.state.name
  freeQueue : t.freeQueue = s.freeQueue ++ s.claimedSet q ++ s.resetBuffers q
  places : ∀ b, t.place b = if b ∈ s.claimedSet q ++ s.resetBuffers q then .free else s.place b
  entries : ∀ e, t.entry e = ServiceEntry.lowered^[(s.slotsWhere fun c =>
    c.owner = some q && (c.state = .offered && c.origin = .remoteCall e)).length] (s.entry e)
  lines : ∀ m, ∃ more, (∀ j ∈ more, s.joinsInReset q t j) ∧ t.line m = { s.line m with tx := { (s.line m).tx with
    control := ((s.line m).tx.control.filter fun i => i ∉ s.slotsWhere fun c =>
      c.owner = some q && (c.state = .offered && c.line = m)) ++ more
    ring := (s.line m).tx.ring.filter fun i => i ∉ s.slotsWhere fun c =>
      c.owner = some q && (c.line = m && [StateName.calling, .offered, .opened, .draining].contains c.state.name)
    stray := ((s.slotsWhere fun c => c.owner = some q && (c.state = .offered && c.line = m)).filterMap fun i =>
      (s.circuit i).map fun c => ⟨c.number, .refuse, Config.causeWithdrawn⟩).foldl State.offered (s.line m).tx.stray } }
  staying : ∀ m j, (∀ c, s.circuit j = some c → c.owner ≠ some q) → j ∈ (s.line m).tx.control → j ∈ (t.line m).tx.control
  standing : ∀ i c, s.circuit i = some c → c.owner ≠ some q →
    t.circuit i = some (s.untaken q i c) ∨ i ∈ (t.line c.line).tx.control

/-! ## What every step keeps -/

/-- The lists that stand for maps are in canonical form: keys rise, no entry is what an unlisted key has, and every byte lies in the
buffer memory. -/
structure State.canonical (s : State) : Prop where
  memory : Memory.wf s.memory
  slots : Sparse.wf Fin.val {} s.slots
  places : Sparse.wf Fin.val .free s.places
  index : Sparse.rising id s.index

/-- The reservations that the circuits hold, together. -/
def State.reservedSum (s : State) : Nat := ∑ i : SlotNo, ((s.circuit i).map (·.reserved)).getD 0

/-- The account of the pool and of the slots: the reserved total is what the circuits hold, and the free queue backs it (R81, R83); only
circuits in OPEN and DRAINING wait for credit, each once (R86); those in OFFERED, CLOSING and ENDED hold no reservation; the free slots
are FREE, each listed once (R2); and no delivered count passes its limit (R174). -/
structure State.backed (s : State) : Prop where
  total : s.reservedSum = s.reservedTotal
  room : s.reservedTotal ≤ s.freeQueue.length
  waiting : s.waitQueue.Nodup ∧ ∀ i ∈ s.waitQueue, ∃ c, s.circuit i = some c ∧ c.state.inData = true
  quiet : ∀ i c, s.circuit i = some c → c.state = .offered ∨ c.state.name = .closing ∨ c.state.name = .ended →
    c.reserved = 0
  free : s.freeSlots.Nodup ∧ ∀ i ∈ s.freeSlots, s.circuit i = none
  counted : ∀ i c, s.circuit i = some c → c.delivered ≤ Config.countMax

/-- The credit wait queue as every event leaves it: it is empty or nothing is available (R89), and every circuit on it is short of its
receive target (R86). -/
structure State.settled (s : State) : Prop where
  served : s.waitQueue = [] ∨ s.available = 0
  short : ∀ i ∈ s.waitQueue, ∀ c, s.circuit i = some c → c.reserved < c.target

/-- A line record agrees with itself: the settle timer runs while SETTLING, LON and the receiver follow the line state, the change flag
follows the levels, only an ACTIVE line has a staged frame, the READY level fits the state, and settings and counts are in range
(R109, R112, R114, R116, R119, R120, R122, R124, R129, R136). -/
structure Line.sound (r : Line) : Prop where
  settle : r.settleTimer.isSome = true ↔ r.state = .settling
  lon : r.lon = true ↔ r.state ≠ .disabled
  receiver : r.receiver = .off ↔ r.state = .disabled
  changed : r.changed = decide (r.level ≠ r.reported)
  staged : r.tx.staged.isSome = true → r.state = .active
  ready : r.state ≠ .disabled → (r.readyLevel = true ↔ r.state = .settling ∨ r.state = .active)
  counts : r.discards ≤ Config.countMax ∧ r.losses ≤ Config.lossMax
  durations : ∀ p, 1 ≤ r.config.duration p ∧ r.config.duration p ≤ 255
  settings : 1 ≤ r.config.settleTime ∧ r.config.settleTime ≤ 255 ∧ 1 ≤ r.config.retryLimit ∧ r.config.retryLimit ≤ 15

/-! ## When a command is taken, and what it names -/

/-- The part is RUNNING, and the command that the arbiter takes next is port p's, of this code (R152). -/
def State.taken (s : State) (p : PortNo) (code : Byte) : Prop :=
  s.phase = .running ∧ s.nextPort = some p ∧ (s.port p).command = code

/-- A word is the handle of a circuit that port p owns (R5, R6). -/
def State.namesOwn (s : State) (w : Word) (p : PortNo) (i : SlotNo) (c : Circuit) : Prop :=
  w.toNat = s.handle i ∧ s.circuit i = some c ∧ c.owner = some p

/-- A line's receiver takes the frames that end at it: the part is RUNNING, the line ACTIVE, and no content is gathered yet. -/
def State.hears (s : State) (l : LineNo) : Prop :=
  s.phase = .running ∧ (s.line l).state = .active ∧ ((s.line l).receiver = .hunt ∨ (s.line l).receiver = .frame [])

/-- Bits that hold neither a flag nor an abort: six consecutive 1 bits stand nowhere in them (R127, R130). -/
abbrev sixless (bits : List Bool) : Prop := ¬ [true, true, true, true, true, true] <:+: bits

/-- The row of the table that stands for a frame on a line (log 5). -/
def frameRow (l : LineNo) (f : Frame) : Instr :=
  match f.kind with
  | .openCall => .openFrame l f.number f.a f.b
  | .grant => .grantFrame l f.number f.a f.b
  | .refuse => .refuseFrame l f.number f.a f.b
  | .carry => .carryFrame l f.number f.a f.b f.payload
  | .credit => .creditFrame l f.number f.a f.b
  | .ask => .askFrame l f.number f.a f.b
  | .close => .closeFrame l f.number f.a f.b
  | .closed => .closedFrame l f.number f.a f.b

/-- The index map holds a slot's circuit under a line and number (R8, R9). -/
def State.mappedAt (s : State) (l : LineNo) (n : Byte) (i : SlotNo) (c : Circuit) : Prop :=
  s.lookup l n = some i ∧ s.circuit i = some c

/-- Port p's slot is DONE with a result code and result words, the rest of its record and the other ports as they were (R151). -/
def State.answers (s t : State) (p : PortNo) (code : ResultCode) (w : Results) : Prop :=
  t.lastServed = p ∧ t.port p = { s.port p with status := .done, result := code, results := w }
    ∧ ∀ q, q ≠ p → t.port q = s.port q

/-- As answers, for a command that may also change attention lists, holdoff timers and ATN outputs. -/
def State.answersWithAttention (s t : State) (p : PortNo) (w : Results) : Prop :=
  t.lastServed = p
    ∧ t.port p = { s.port p with
        status := .done
        result := .ok
        results := w
        attention := (t.port p).attention
        holdoff := (t.port p).holdoff
        atn := (t.port p).atn }
    ∧ ∀ q, q ≠ p → t.port q = { s.port q with
        attention := (t.port q).attention
        holdoff := (t.port q).holdoff
        atn := (t.port q).atn }

/-- Port p's command has completed with OK and these words, and the circuit in slot i has left p's attention list; every ATN output has
the level that R178 and R179 give, and nothing else of any port has changed (R151, R173, R177). -/
def State.answersLeaving (s t : State) (p : PortNo) (w : Results) (i : SlotNo) : Prop :=
  t.lastServed = p ∧ ∀ q, t.port q =
    { (if q = p then { (s.port p).leftBy i with status := .done, result := .ok, results := w } else s.port q) with
      atn := t.atnLevel q }

/-- Port p's command has completed with a code other than OK: its slot is DONE, its result words 0, and nothing else has changed
(R151, R154). -/
def State.fails (s t : State) (p : PortNo) (code : ResultCode) : Prop :=
  s.answers t p code {} ∧ Keeps [.ports, .lastServed] s t

end Sys2Proof.Machine
end

