-- ==== Sys2Proof/WellFormed.lean ====
section
/-! DEFINITION. Which commands are well formed: operands that make them the command their row names. Every other command has a meaning too. -/

namespace Sys2Proof

/-- A frame row's frame passes the tests of R131 on its fields. -/
def Instr.frameOk (n : Byte) (k : FrameKind) (a b : Byte) (payload : List Byte) : Bool :=
  Machine.frameValid ⟨n, k, a, b, payload⟩

/-- The operands of a command fit its row. -/
def Instr.wellFormed : Instr → Bool
  | .call | .accept | .refuse | .close | .send | .release | .setCredit => true
  | .claim | .unclaim | .poolSet | .poolQuery => true
  | .serviceSet | .serviceClear | .serviceQuery => true
  | .lineSet | .lineEnable | .lineDisable | .lineQuery | .lineTake => true
  | .query | .retire | .take | .takeNext | .portSet | .portReset | .unknownCommand => true
  | .commandWordWrite _ _ | .argumentWordWrite _ _ _ | .windowRegisterWrite _ _ => true
  | .clearRequest _ value => value.getLsbD 9
  | .windowRead _ offset width => Machine.windowAccessOk offset width
  | .windowWrite _ offset width _ => Machine.windowAccessOk offset width
  | .voidAccess access => !Machine.hasOwnRow access
  | .openFrame _ n a b => Instr.frameOk n .openCall a b []
  | .grantFrame _ n a b => Instr.frameOk n .grant a b []
  | .refuseFrame _ n a b => Instr.frameOk n .refuse a b []
  | .carryFrame _ n a b payload => Instr.frameOk n .carry a b payload
  | .creditFrame _ n a b => Instr.frameOk n .credit a b []
  | .askFrame _ n a b => Instr.frameOk n .ask a b []
  | .closeFrame _ n a b => Instr.frameOk n .close a b []
  | .closedFrame _ n a b => Instr.frameOk n .closed a b []
  | .frameDiscarded _ bits => !bits.isEmpty
  | .abort _ _ => true
  | .openWaitExpiry _ | .offerWaitExpiry _ | .ackWaitExpiry _ | .stallWaitExpiry _ | .closeWaitExpiry _ => true
  | .settleExpiry _ | .holdoffExpiry _ => true
  | .readyAsserted _ | .readyDropped _ | .selectionEvent _ | .completion _ => true
  | .resetAsserted | .startUp | .startUpCompletion => true
  | .openingFlag flag => Machine.endsNothing flag.bits

end Sys2Proof
end

