-- ==== Sys2Proof/Certificates/Slice0/Obligations.lean ====
section
/-! DEFINITION. The statements for the provers, in the order of OBLIGATIONS.json. -/

open Sys2Proof Sys2Proof.Machine

/-! ## Steps and the arbiter -/

/-- A step takes the command at the front of the queue, and is that command's meaning on the queue's rest. The queue is the model's
(logs 3 and 14). -/
def Obligations.StepRunsTheFrontCommand : Prop :=
  ∀ (c : Instr) (s : State), step { s with pending := c :: s.pending } = exec c s

/-- R152: the arbiter's next port is the first PENDING one counted round from the port after the last served. -/
def Obligations.ArbiterGoesRoundThePorts : Prop :=
  ∀ (s : State) (p : PortNo),
    s.nextPort = some p
      ↔ (s.port p).status = .pending
          ∧ ∀ q : PortNo, (q - (s.lastServed + 1)).val < (p - (s.lastServed + 1)).val → (s.port q).status ≠ .pending

/-- R155: a code that names none of the 25 commands completes with UNKNOWN-COMMAND and changes nothing else. -/
def Obligations.UnknownCodeCompletes : Prop :=
  ∀ (s : State) (p : PortNo), s.phase = .running → s.nextPort = some p → (s.port p).command ∉ Code.known →
    ∃ t, exec .unknownCommand s = .next t ∧ s.fails t p .unknownCommand

/-- R156: from a port other than 0 the supervisor-only commands, and PORT-RESET naming another port, complete with NOT-PERMITTED and
change nothing else. -/
def Obligations.OtherPortsAreNotPermitted : Prop :=
  ∀ (s : State) (p : PortNo), p ≠ 0 →
    (∀ c code, (c, code) ∈ [(Instr.poolSet, Code.poolSet), (Instr.serviceSet, Code.serviceSet),
        (Instr.serviceClear, Code.serviceClear), (Instr.lineSet, Code.lineSet), (Instr.lineEnable, Code.lineEnable),
        (Instr.lineDisable, Code.lineDisable), (Instr.lineQuery, Code.lineQuery), (Instr.lineTake, Code.lineTake)] →
      s.taken p code → ∃ t, exec c s = .next t ∧ s.fails t p .notPermitted)
    ∧ (s.taken p Code.portReset → (s.port p).args.a0.toNat ≠ p.val →
        ∃ t, exec .portReset s = .next t ∧ s.fails t p .notPermitted)

/-- R4, R5, R6 for the nine commands with a handle, their other arguments in range: a handle that is no handle, one that names no
circuit now, and one that names another port's circuit. Port 0 passes the last test for QUERY. -/
def Obligations.HandlesAreChecked : Prop :=
  ∀ (s : State) (p : PortNo) (c : Instr) (code : Byte),
    ((c, code) ∈ [(Instr.release, Code.release), (Instr.query, Code.query), (Instr.retire, Code.retire),
        (Instr.take, Code.take)]
      ∨ (c, code) ∈ [(Instr.accept, Code.accept), (Instr.setCredit, Code.setCredit)] ∧ (s.port p).args.a1.toNat ≤ 15
      ∨ c = .refuse ∧ code = Code.refuse
        ∧ ((s.port p).args.a1.toNat = 1 ∨ 16 ≤ (s.port p).args.a1.toNat ∧ (s.port p).args.a1.toNat ≤ 255)
      ∨ c = .close ∧ code = Code.close ∧ (s.port p).args.a1.toNat ≤ 1
        ∧ ((s.port p).args.a2.toNat = 0 ∨ 16 ≤ (s.port p).args.a2.toNat ∧ (s.port p).args.a2.toNat ≤ 255)
      ∨ c = .send ∧ code = Code.send ∧ (s.port p).args.a1.toNat ≤ 511 ∧ 1 ≤ (s.port p).args.a2.toNat
        ∧ (s.port p).args.a2.toNat ≤ 128 ∧ (s.port p).args.a3.toNat ≤ 1) →
    s.taken p code →
    (4095 < (s.port p).args.a0.toNat ∨ 192 ≤ (s.port p).args.a0.toNat % 256 →
      ∃ t, exec c s = .next t ∧ s.fails t p .badArgument)
    ∧ ∀ i : SlotNo, (s.port p).args.a0.toNat ≤ 4095 → (s.port p).args.a0.toNat % 256 = i.val →
      (s.circuit i = none ∨ (s.slot i).generation.toNat ≠ (s.port p).args.a0.toNat / 256 →
        ∃ t, exec c s = .next t ∧ s.fails t p .badHandle)
      ∧ ∀ x, (s.port p).args.a0.toNat = s.handle i → s.circuit i = some x → x.owner ≠ some p → (c = .query → p ≠ 0) →
        ∃ t, exec c s = .next t ∧ s.fails t p .notOwner

/-- R154 with R18, R25, R36, R37, R40, R53, R74, R104, R106, R107, R112, R119, R121, R122, R125, R162, R175: the checks of argument
ranges, ownership of a buffer, state and resources, the checks before them passing, complete with their own codes and change nothing. -/
def Obligations.FailedChecksAreAnswered : Prop :=
  ∀ (s : State) (p : PortNo) (a : Args) (c : Instr) (code : Byte) (r : ResultCode),
    s.taken p code → (s.port p).args = a →
    -- argument ranges
    (r = .badArgument
        ∧ (c = .call ∧ code = Code.call ∧ (7 < a.a0.toNat ∨ 255 < a.a1.toNat ∨ 15 < a.a2.toNat)
          ∨ (c, code) ∈ [(Instr.accept, Code.accept), (Instr.setCredit, Code.setCredit)] ∧ 15 < a.a1.toNat
          ∨ c = .refuse ∧ code = Code.refuse ∧ a.a1.toNat ≠ 1 ∧ (a.a1.toNat < 16 ∨ 255 < a.a1.toNat)
          ∨ c = .close ∧ code = Code.close
            ∧ (1 < a.a1.toNat ∨ a.a2.toNat ≠ 0 ∧ (a.a2.toNat < 16 ∨ 255 < a.a2.toNat))
          ∨ c = .send ∧ code = Code.send
            ∧ (511 < a.a1.toNat ∨ a.a2.toNat = 0 ∨ 128 < a.a2.toNat ∨ 1 < a.a3.toNat)
          ∨ c = .serviceSet ∧ code = Code.serviceSet ∧ p = 0 ∧ (23 < bitsOf a.a0 7 0 ∨ ∀ f, ¬ describesService a f)
          ∨ c = .serviceClear ∧ code = Code.serviceClear ∧ p = 0 ∧ 23 < a.a0.toNat
          ∨ c = .serviceQuery ∧ code = Code.serviceQuery ∧ 23 < a.a0.toNat
          ∨ c = .lineSet ∧ code = Code.lineSet ∧ p = 0 ∧ (7 < a.a0.toNat ∨ ∀ g, ¬ describesLine a g)
          ∨ (c, code) ∈ [(Instr.lineEnable, Code.lineEnable), (Instr.lineDisable, Code.lineDisable),
              (Instr.lineQuery, Code.lineQuery), (Instr.lineTake, Code.lineTake)] ∧ p = 0 ∧ 7 < a.a0.toNat
          ∨ c = .lineQuery ∧ code = Code.lineQuery ∧ p = 0 ∧ 1 < a.a1.toNat
          ∨ c = .portReset ∧ code = Code.portReset ∧ p = 0 ∧ 3 < a.a0.toNat)
      -- CALL
      ∨ (c = .call ∧ code = Code.call ∧ a.a1.toNat ≤ 255 ∧ a.a2.toNat ≤ 15 ∧ ∃ l : LineNo, a.a0.toNat = l.val
        ∧ ((s.line l).state ≠ .active ∧ r = .lineDown
          ∨ (s.line l).state = .active ∧ s.freeSlots = [] ∧ r = .noSlot
          ∨ (s.line l).state = .active ∧ s.freeSlots ≠ []
            ∧ (∀ m : Byte, 1 ≤ m.toNat → m.toNat ≤ 127 → s.lookup l m ≠ none) ∧ r = .noNumber))
      -- commands on a circuit of the port
      ∨ (∃ i x, s.namesOwn a.a0 p i x
        ∧ (r = .wrongState
            ∧ (c = .accept ∧ code = Code.accept ∧ a.a1.toNat ≤ 15 ∧ x.state ≠ .offered
              ∨ c = .refuse ∧ code = Code.refuse ∧ (a.a1.toNat = 1 ∨ 16 ≤ a.a1.toNat ∧ a.a1.toNat ≤ 255)
                ∧ x.state ≠ .offered
              ∨ c = .close ∧ code = Code.close ∧ (a.a2.toNat = 0 ∨ 16 ≤ a.a2.toNat ∧ a.a2.toNat ≤ 255)
                ∧ (a.a1.toNat = 0 ∧ x.state ≠ .opened
                  ∨ a.a1.toNat = 1 ∧ (x.state = .offered ∨ x.state.name = .closing ∨ x.state.name = .ended))
              ∨ c = .setCredit ∧ code = Code.setCredit ∧ a.a1.toNat ≤ 15 ∧ x.state ≠ .opened ∧ x.state.name ≠ .draining
              ∨ c = .retire ∧ code = Code.retire ∧ x.state.name ≠ .ended)
          ∨ (c = .send ∧ code = Code.send ∧ 1 ≤ a.a2.toNat ∧ a.a2.toNat ≤ 128 ∧ a.a3.toNat ≤ 1
            ∧ ∃ b : BufNo, a.a1.toNat = b.val
              ∧ (s.place b ≠ .claimed p ∧ r = .notOwner
                ∨ s.place b = .claimed p ∧ x.state ≠ .calling ∧ x.state ≠ .opened ∧ r = .wrongState
                ∨ s.place b = .claimed p ∧ (x.state = .calling ∨ x.state = .opened) ∧ 64 ≤ x.transmit.length
                  ∧ r = .noRoom))))
      -- TAKE-NEXT
      ∨ (c = .takeNext ∧ code = Code.takeNext ∧ (s.port p).attention = [] ∧ r = .empty)) →
    ∃ t, exec c s = .next t ∧ s.fails t p r

/-! ## Commands on circuits -/

/-- R25, R26, R3, R10: CALL. -/
def Obligations.CallAllocatesACircuit : Prop :=
  ∀ (s : State) (p : PortNo) (l : LineNo) (n : Byte) (i : SlotNo) (rest : List SlotNo),
    s.taken p Code.call →
    (s.port p).args.a0.toNat = l.val → (s.port p).args.a1.toNat ≤ 255 → (s.port p).args.a2.toNat ≤ 15 →
    (s.line l).state = .active → s.freeSlots = i :: rest → s.numberFor l (s.line l).config.role n →
    ∃ t, exec .call s = .next t
      ∧ s.answers t p .ok
          { r0 := BitVec.ofNat 32 (handleValue ((s.slot i).generation + 1) i), r1 := BitVec.ofNat 32 n.toNat }
      ∧ (t.slot i).generation = (s.slot i).generation + 1
      ∧ t.circuit i = some
          { state := .calling, line := l, number := n, owner := some p, origin := .localCall,
            service := (s.port p).args.a1.setWidth 8, retry := 0, timer := none,
            nextSend := 0, ackBase := 0, farEdge := 0, transmit := [], unacked := [],
            nextExpected := 0, receiveEdge := BitVec.ofNat 5 (min (s.port p).args.a2.toNat s.available),
            reserved := min (s.port p).args.a2.toNat s.available, target := (s.port p).args.a2.toNat, receive := [],
            conditions := {}, delivered := 0, owed := { openCall := true } }
      ∧ t.freeSlots = rest
      ∧ (∀ m o, t.lookup m o = if m = l ∧ o = n then some i else s.lookup m o)
      ∧ t.reservedTotal = s.reservedTotal + min (s.port p).args.a2.toNat s.available
      ∧ t.line l = { s.line l with tx := { (s.line l).tx with control := joinTail (s.line l).tx.control i } }
      ∧ (∀ j, j ≠ i → t.slot j = s.slot j) ∧ (∀ m, m ≠ l → t.line m = s.line m)
      ∧ Keeps [.ports, .lastServed, .slots, .freeSlots, .index, .reservedTotal, .lines] s t

/-- R36: ACCEPT of an offered call. -/
def Obligations.AcceptOpensTheCircuit : Prop :=
  ∀ (s : State) (p : PortNo) (i : SlotNo) (c : Circuit),
    s.taken p Code.accept → s.namesOwn (s.port p).args.a0 p i c → c.state = .offered → (s.port p).args.a1.toNat ≤ 15 →
    ∃ t, exec .accept s = .next t
      ∧ s.answers t p .ok {}
      ∧ t.circuit i = some
          { c with
            state := .opened, timer := none, retry := 0, target := (s.port p).args.a1.toNat
            reserved := min (s.port p).args.a1.toNat s.available
            receiveEdge := BitVec.ofNat 5 (min (s.port p).args.a1.toNat s.available)
            owed := c.owed.put .grant true }
      ∧ t.reservedTotal = s.reservedTotal + min (s.port p).args.a1.toNat s.available
      ∧ t.waitQueue = (if s.available < (s.port p).args.a1.toNat then joinTail s.waitQueue i else s.waitQueue)
      ∧ t.line c.line
          = { s.line c.line with tx := { (s.line c.line).tx with control := joinTail (s.line c.line).tx.control i } }
      ∧ (t.slot i).generation = (s.slot i).generation
      ∧ (∀ j, j ≠ i → t.slot j = s.slot j) ∧ (∀ m, m ≠ c.line → t.line m = s.line m)
      ∧ Keeps [.ports, .lastServed, .slots, .reservedTotal, .waitQueue, .lines] s t

/-- R37, R15: REFUSE returns an offered call's slot to FREE and offers a REFUSE reply. -/
def Obligations.RefuseReturnsTheSlot : Prop :=
  ∀ (s : State) (p : PortNo) (i : SlotNo) (c : Circuit),
    s.taken p Code.refuse → s.namesOwn (s.port p).args.a0 p i c → c.state = .offered →
    ((s.port p).args.a1.toNat = 1 ∨ 16 ≤ (s.port p).args.a1.toNat ∧ (s.port p).args.a1.toNat ≤ 255) →
    ∃ t, exec .refuse s = .next t
      ∧ s.answersLeaving t p {} i
      ∧ t.circuit i = none ∧ t.freeSlots = s.freeSlots ++ [i]
      ∧ (∀ m o, t.lookup m o = if m = c.line ∧ o = c.number then none else s.lookup m o)
      ∧ (∀ e, t.entry e = if c.origin = .remoteCall e then (s.entry e).lowered else s.entry e)
      ∧ i ∉ t.waitQueue
      ∧ Queued i c.line s t False (fun more => leave (s.line c.line).tx.control i ++ more) (leave (s.line c.line).tx.ring i)
          (State.offered (s.line c.line).tx.stray ⟨c.number, .refuse, (s.port p).args.a1.setWidth 8⟩)
      ∧ t.freeQueue = s.freeQueue ++ c.buffers
      ∧ (∀ b, t.place b = if b ∈ c.buffers then .free else s.place b)
      ∧ ActsOn i c.line s t
      ∧ Keeps [.ports, .lastServed, .slots, .freeSlots, .index, .services, .places, .freeQueue, .reservedTotal,
          .waitQueue, .lines] s t

/-- R40, R41, R42, R24: CLOSE. A drain with data outstanding makes the circuit DRAINING; a drain with none, and an abort, make it
CLOSING with the command's cause. -/
def Obligations.CloseDrainsOrCloses : Prop :=
  ∀ (s : State) (p : PortNo) (i : SlotNo) (c : Circuit),
    s.taken p Code.close → s.namesOwn (s.port p).args.a0 p i c →
    ((s.port p).args.a2.toNat = 0 ∨ 16 ≤ (s.port p).args.a2.toNat ∧ (s.port p).args.a2.toNat ≤ 255) →
    ((s.port p).args.a1.toNat = 0 ∧ c.state = .opened ∧ ¬ (c.transmit = [] ∧ c.unacked = []) →
      ∃ t, exec .close s = .next t
        ∧ s.answers t p .ok {}
        ∧ t.circuit i = some { c with state := .draining ((s.port p).args.a2.setWidth 8) }
        ∧ (t.slot i).generation = (s.slot i).generation
        ∧ (∀ j, j ≠ i → t.slot j = s.slot j)
        ∧ Keeps [.ports, .lastServed, .slots] s t)
    ∧ ((s.port p).args.a1.toNat = 0 ∧ c.state = .opened ∧ c.transmit = [] ∧ c.unacked = []
        ∨ (s.port p).args.a1.toNat = 1 ∧ (c.state = .calling ∨ c.state = .opened ∨ ∃ x, c.state = .draining x) →
      ∃ t, exec .close s = .next t
        ∧ s.answers t p .ok {}
        ∧ t.circuit i = some
            { c with
              state := .closing ((s.port p).args.a2.setWidth 8), timer := none, retry := 0, reserved := 0
              owed := { close := true } }
        ∧ i ∉ t.waitQueue
        ∧ Queued i c.line s t False (fun more => joinTail ((s.line c.line).tx.control ++ more) i)
            (leave (s.line c.line).tx.ring i) (s.line c.line).tx.stray
        ∧ ActsOn i c.line s t
        ∧ Keeps [.ports, .lastServed, .slots, .reservedTotal, .waitQueue, .lines] s t)

/-- R53, R54, R57: SEND moves a claimed buffer to the transmit queue; the circuit joins the data ready ring, or stalls, by its record as
it then stands. -/
def Obligations.SendQueuesABuffer : Prop :=
  ∀ (s : State) (p : PortNo) (i : SlotNo) (c : Circuit) (b : BufNo),
    s.taken p Code.send → s.namesOwn (s.port p).args.a0 p i c → (s.port p).args.a1.toNat = b.val →
    1 ≤ (s.port p).args.a2.toNat → (s.port p).args.a2.toNat ≤ 128 → (s.port p).args.a3.toNat ≤ 1 →
    s.place b = .claimed p → (c.state = .calling ∨ c.state = .opened) → c.transmit.length < 64 →
    ∀ c' : Circuit,
      c' = { c with transmit := c.transmit ++ [⟨b, (s.port p).args.a2.toNat, (s.port p).args.a3 = 1⟩] } →
    ∃ t, exec .send s = .next t
      ∧ s.answers t p .ok {}
      ∧ t.circuit i = some
          (if c'.stalled ∧ ¬ c'.waits .stallWait then
            { c' with timer := some ⟨.stallWait, (s.line c.line).config.retransmit⟩ } else c')
      ∧ t.place b = .transmit i
      ∧ (∀ a, a ≠ b → t.place a = s.place a)
      ∧ t.line c.line
          = { s.line c.line with
              tx := { (s.line c.line).tx with
                ring := if c'.canSend then joinTail (s.line c.line).tx.ring i else (s.line c.line).tx.ring } }
      ∧ (t.slot i).generation = (s.slot i).generation
      ∧ (∀ j, j ≠ i → t.slot j = s.slot j) ∧ (∀ m, m ≠ c.line → t.line m = s.line m)
      ∧ Keeps [.ports, .lastServed, .slots, .places, .lines] s t

/-- R73: RELEASE gives the head buffer of the receive queue back to the pool, which serves its queue; of an empty receive queue it
completes with EMPTY. -/
def Obligations.ReleaseReturnsTheHeadBuffer : Prop :=
  ∀ (s : State) (p : PortNo) (i : SlotNo) (c : Circuit),
    s.taken p Code.release → s.namesOwn (s.port p).args.a0 p i c →
    (∀ (e : Entry) (rest : List Entry), c.receive = e :: rest →
      ∀ u : State,
        u = (((s.setCircuit i (some { c with receive := rest })).setFreeQueue (s.freeQueue ++ [e.buffer])).setPlace
          e.buffer .free) →
      ∃ t, exec .release s = .next t
        ∧ s.answers t p .ok { r0 := inBits 9 0 rest.length, r1 := receiveField rest.head? }
        ∧ Keeps [.ports, .lastServed] u.serveWait t
        ∧ Keeps [.ports, .lastServed, .slots, .freeQueue, .places, .reservedTotal, .waitQueue, .lines] s t)
    ∧ (c.receive = [] → ∃ t, exec .release s = .next t ∧ s.fails t p .empty)

/-- R74, R87: SET-CREDIT. A circuit that becomes short joins the tail of the credit wait queue, which the pool then serves; one that is
not short leaves it. -/
def Obligations.SetCreditSetsTheTarget : Prop :=
  ∀ (s : State) (p : PortNo) (i : SlotNo) (c : Circuit),
    s.taken p Code.setCredit → s.namesOwn (s.port p).args.a0 p i c → (s.port p).args.a1.toNat ≤ 15 →
    (c.state = .opened ∨ ∃ x, c.state = .draining x) →
    ∀ u : State, u = s.setCircuit i (some { c with target := (s.port p).args.a1.toNat }) →
    ∃ t, exec .setCredit s = .next t
      ∧ s.answers t p .ok {}
      ∧ Keeps [.ports, .lastServed, .slots, .reservedTotal, .waitQueue, .lines] s t
      ∧ (c.reserved < (s.port p).args.a1.toNat → i ∉ s.waitQueue →
          Keeps [.ports, .lastServed] (u.setWaitQueue (s.waitQueue ++ [i])).serveWait t)
      ∧ (c.reserved < (s.port p).args.a1.toNat → i ∈ s.waitQueue → Keeps [.ports, .lastServed] u t)
      ∧ ((s.port p).args.a1.toNat ≤ c.reserved →
          Keeps [.ports, .lastServed] (u.setWaitQueue (leave s.waitQueue i)) t)

/-- R18: RETIRE takes the circuit off its owner's attention list and returns the slot, and every buffer it held, to the free queues.
-/
def Obligations.RetireReturnsTheSlot : Prop :=
  ∀ (s : State) (p : PortNo) (i : SlotNo) (c : Circuit),
    s.taken p Code.retire → s.namesOwn (s.port p).args.a0 p i c →
    (∃ cause side m, c.state = .ended cause side m) →
    ∃ t, exec .retire s = .next t
      ∧ s.answersLeaving t p {} i
      ∧ t.circuit i = none ∧ t.freeSlots = s.freeSlots ++ [i]
      ∧ t.freeQueue = s.freeQueue ++ c.buffers
      ∧ (∀ b, t.place b = if b ∈ c.buffers then .free else s.place b)
      ∧ Queued i c.line s t (i ∈ s.waitQueue) (fun more => (s.line c.line).tx.control ++ more) (s.line c.line).tx.ring
          (s.line c.line).tx.stray
      ∧ ActsOn i c.line s t
      ∧ Keeps [.ports, .lastServed, .slots, .freeSlots, .places, .freeQueue, .reservedTotal, .waitQueue, .lines] s t

/-- R175, R176: TAKE and TAKE-NEXT report a circuit, take it off the port's attention list, and clear what it had pending. -/
def Obligations.TakesReportAndClear : Prop :=
  ∀ (s : State) (p : PortNo) (i : SlotNo) (c : Circuit) (x : Instr),
    (x = .take ∧ s.taken p Code.take ∧ s.namesOwn (s.port p).args.a0 p i c
      ∨ x = .takeNext ∧ s.taken p Code.takeNext ∧ (s.port p).attention.head? = some i ∧ s.circuit i = some c) →
    ∃ t, exec x s = .next t
      ∧ s.answersLeaving t p
          { r0 := inBits 11 0 (s.handle i) ||| inBits 14 12 c.state.name.code ||| inBits 19 15 c.conditions.code
            r1 := inBits 2 0 c.line.val ||| inBits 10 3 c.service.toNat
              ||| optBits 18 11 19 (c.state.cause.map BitVec.toNat) ||| optBits 20 20 21 (c.state.source.map Side.code)
            r2 := inBits 15 0 c.delivered
            r3 := receiveField c.receive.head? ||| inBits 31 24 (leave (s.port p).attention i).length }
          i
      ∧ t.circuit i = some { c with conditions := {}, delivered := 0 }
      ∧ (t.slot i).generation = (s.slot i).generation
      ∧ (∀ j, j ≠ i → t.slot j = s.slot j)
      ∧ Keeps [.ports, .lastServed, .slots] s t

/-- R20: QUERY reports the record and changes nothing. -/
def Obligations.QueryReportsTheRecord : Prop :=
  ∀ (s : State) (p : PortNo) (i : SlotNo) (c : Circuit),
    s.taken p Code.query → (s.port p).args.a0.toNat = s.handle i → s.circuit i = some c → (p = 0 ∨ c.owner = some p) →
    ∃ t, exec .query s = .next t
      ∧ s.answers t p .ok
          { r0 := inBits 11 0 (s.handle i) ||| inBits 14 12 c.state.name.code
              ||| (match c.owner with | some q => inBits 16 15 q.val | none => inBits 17 17 1)
              ||| inBits 18 18 c.origin.code ||| inBits 23 19 c.conditions.code
              ||| optBits 28 24 29 (c.origin.entry.map Fin.val)
            r1 := inBits 2 0 c.line.val ||| inBits 9 3 c.number.toNat ||| inBits 17 10 c.service.toNat
              ||| optBits 25 18 26 (c.state.cause.map BitVec.toNat) ||| optBits 27 27 28 (c.state.source.map Side.code)
              ||| optBits 29 29 30 (c.state.confirmation.map Confirmation.code)
            r2 := inBits 4 0 c.nextSend.toNat ||| inBits 9 5 c.ackBase.toNat ||| inBits 14 10 c.farEdge.toNat
              ||| inBits 19 15 c.nextExpected.toNat ||| inBits 24 20 c.receiveEdge.toNat ||| inBits 28 25 c.retry
              ||| inBits 31 29 ((c.timer.map fun x => x.purpose.code).getD 0)
            r3 := inBits 3 0 c.reserved ||| inBits 7 4 c.target ||| inBits 14 8 c.transmit.length
              ||| inBits 18 15 c.unacked.length ||| inBits 29 20 c.receive.length }
      ∧ Keeps [.ports, .lastServed] s t

/-! ## The pool -/

/-- R91, R92, R85: CLAIM takes the head buffer of the free queue, all its bytes 0, while the available count is above the floor, and
otherwise completes with NO-BUFFER; UNCLAIM returns a buffer that the port has claimed, and the pool serves its queue; of any other
buffer it completes with NOT-OWNER, and of no buffer with BAD-ARGUMENT. -/
def Obligations.ClaimAndUnclaimMoveABuffer : Prop :=
  (∀ (s : State) (p : PortNo), s.taken p Code.claim →
    (∀ (b : BufNo) (rest : List BufNo), s.floor < s.available → s.freeQueue = b :: rest →
      ∃ t, exec .claim s = .next t
        ∧ s.answers t p .ok { r0 := BitVec.ofNat 32 b.val, r1 := inBits 9 0 (rest.length - s.reservedTotal) }
        ∧ t.freeQueue = rest
        ∧ t.place b = .claimed p ∧ (∀ a, a ≠ b → t.place a = s.place a)
        ∧ (∀ k, k < 128 → t.bufferByte b k = 0)
        ∧ (∀ a k, a ≠ b → k < 128 → t.bufferByte a k = s.bufferByte a k)
        ∧ Keeps [.ports, .lastServed, .freeQueue, .places, .memory] s t)
    ∧ (s.available ≤ s.floor → ∃ t, exec .claim s = .next t ∧ s.fails t p .noBuffer))
  ∧ ∀ (s : State) (p : PortNo), s.taken p Code.unclaim →
    (∀ b : BufNo, (s.port p).args.a0.toNat = b.val →
      (s.place b = .claimed p →
        ∀ u : State, u = (s.setFreeQueue (s.freeQueue ++ [b])).setPlace b .free →
        ∃ t, exec .unclaim s = .next t
          ∧ s.answers t p .ok {}
          ∧ Keeps [.ports, .lastServed] u.serveWait t
          ∧ Keeps [.ports, .lastServed, .freeQueue, .places, .slots, .reservedTotal, .waitQueue, .lines] s t)
      ∧ (s.place b ≠ .claimed p → ∃ t, exec .unclaim s = .next t ∧ s.fails t p .notOwner))
    ∧ (511 < (s.port p).args.a0.toNat → ∃ t, exec .unclaim s = .next t ∧ s.fails t p .badArgument)

/-- R88, R66: the pool grants one reservation at a time to the head of its credit wait queue, which rejoins the tail while it is still
short, until the queue is empty or nothing is available. -/
def Obligations.PoolServesTheCreditQueue : Prop :=
  ∀ s : State,
    Served s s.serveWait
    ∧ (s.waitQueue = [] ∨ s.available = 0 → s.serveWait = s)
    ∧ ∀ (i : SlotNo) (rest : List SlotNo) (c : Circuit), s.waitQueue = i :: rest → 0 < s.available →
      s.circuit i = some c →
      ∃ u : State, s.serveWait = u.serveWait
        ∧ u.reservedTotal = s.reservedTotal + 1
        ∧ u.circuit i = some
            { c with reserved := c.reserved + 1, receiveEdge := c.receiveEdge + 1, owed := c.owed.put .credit true }
        ∧ u.waitQueue = (if c.reserved + 1 < c.target then rest ++ [i] else rest)
        ∧ (u.line c.line).tx.control = joinTail (s.line c.line).tx.control i
        ∧ (u.slot i).generation = (s.slot i).generation
        ∧ (∀ j, j ≠ i → u.slot j = s.slot j) ∧ (∀ m, m ≠ c.line → u.line m = s.line m)
        ∧ Keeps [.slots, .lines, .reservedTotal, .waitQueue] s u

/-- R93, R94: POOL-SET from port 0 sets the floor, and from any other port it completes with NOT-PERMITTED; POOL-QUERY reports the pool
and changes nothing. -/
def Obligations.PoolSetAndPoolQuery : Prop :=
  (∀ (s : State) (p : PortNo), p ≠ 0 → s.taken p Code.poolSet → ∃ t, exec .poolSet s = .next t ∧ s.fails t p .notPermitted)
  ∧ (∀ s : State, s.taken 0 Code.poolSet →
    ((s.port 0).args.a0.toNat ≤ 256 →
      ∃ t, exec .poolSet s = .next t ∧ t.floor = (s.port 0).args.a0.toNat
        ∧ s.answers t 0 .ok { r0 := inBits 8 0 s.floor } ∧ Keeps [.ports, .lastServed, .floor] s t)
    ∧ (256 < (s.port 0).args.a0.toNat → ∃ t, exec .poolSet s = .next t ∧ s.fails t 0 .badArgument))
  ∧ ∀ (s : State) (p : PortNo), s.taken p Code.poolQuery →
    ∃ t, exec .poolQuery s = .next t
      ∧ s.answers t p .ok
          { r0 := inBits 9 0 s.freeQueue.length ||| inBits 25 16 s.reservedTotal
            r1 := inBits 9 0 s.available ||| inBits 24 16 s.floor
            r2 := inBits 7 0 s.waitQueue.length ||| optBits 19 8 20 (s.waitQueue.head?.map s.handle)
            r3 := inBits 9 0 (s.claimedSet p).length
              ||| inBits 25 16 ((s.claimedSet 0).length + (s.claimedSet 1).length + (s.claimedSet 2).length
                + (s.claimedSet 3).length) }
      ∧ Keeps [.ports, .lastServed] s t

/-! ## The service table -/

/-- R104, R105: SERVICE-SET from port 0, with fields in range, by the entry's state. -/
def Obligations.ServiceSetLoadsTheEntry : Prop :=
  ∀ (s : State) (e : EntryNo) (f : ServiceFields),
    s.taken 0 Code.serviceSet → bitsOf (s.port 0).args.a0 7 0 = e.val → describesService (s.port 0).args f →
    (∀ live, (s.entry e = .empty ∧ live = 0
        ∨ ∃ old, s.entry e = .active old live ∧ (live = 0 ∨ old.code = f.code)) →
      ∃ t, exec .serviceSet s = .next t ∧ t.entry e = .active f live
        ∧ s.answers t 0 .ok { r0 := inBits 1 0 1 ||| inBits 15 8 live }
        ∧ (∀ d, d ≠ e → t.entry d = s.entry d)
        ∧ Keeps [.ports, .lastServed, .services] s t)
    ∧ ((∃ old live, s.entry e = .withdrawn old live)
        ∨ (∃ old live, s.entry e = .active old live ∧ 0 < live ∧ old.code ≠ f.code) →
      ∃ t, exec .serviceSet s = .next t ∧ s.fails t 0 .inUse)

/-- R106, R107: SERVICE-CLEAR from port 0 by the entry's state, and from any other port NOT-PERMITTED; SERVICE-QUERY reports an entry
and changes nothing; an index outside 0 to 23 completes with BAD-ARGUMENT. -/
def Obligations.ServiceClearAndServiceQuery : Prop :=
  (∀ (s : State) (p : PortNo),
    (p ≠ 0 → s.taken p Code.serviceClear → ∃ t, exec .serviceClear s = .next t ∧ s.fails t p .notPermitted)
    ∧ (23 < (s.port p).args.a0.toNat →
      (p = 0 → s.taken p Code.serviceClear → ∃ t, exec .serviceClear s = .next t ∧ s.fails t p .badArgument)
      ∧ (s.taken p Code.serviceQuery → ∃ t, exec .serviceQuery s = .next t ∧ s.fails t p .badArgument)))
  ∧ (∀ (s : State) (e : EntryNo), s.taken 0 Code.serviceClear → (s.port 0).args.a0.toNat = e.val →
    ∃ t, exec .serviceClear s = .next t
      ∧ t.entry e = (match s.entry e with
        | .active f live => if live = 0 then .empty else .withdrawn f live
        | x => x)
      ∧ s.answers t 0 .ok { r0 := inBits 1 0 (t.entry e).code ||| inBits 15 8 (t.entry e).live }
      ∧ (∀ d, d ≠ e → t.entry d = s.entry d)
      ∧ Keeps [.ports, .lastServed, .services] s t)
  ∧ ∀ (s : State) (p : PortNo) (e : EntryNo), s.taken p Code.serviceQuery → (s.port p).args.a0.toNat = e.val →
    ∃ t w, exec .serviceQuery s = .next t ∧ s.answers t p .ok w ∧ Keeps [.ports, .lastServed] s t
      ∧ (s.entry e = .empty → w.r0 = 0 ∧ w.r1 = 0 ∧ w.r2 = 0)
      ∧ (∀ f live, s.entry e = .active f live ∨ s.entry e = .withdrawn f live →
          w.r0 = inBits 1 0 (s.entry e).code ||| inBits 3 2 f.action.code
              ||| optBits 5 4 6 (f.action.client.map Fin.val) ||| inBits 15 8 live
          ∧ w.r1 = optBits 7 0 8 (f.code.map BitVec.toNat) ||| inBits 9 9 (if f.code = none then 1 else 0)
              ||| (inBits 23 16 f.lines.toNat ||| inBits 24 24 1)
          ∧ w.r2 = optBits 7 0 8 f.action.refuseCause ||| optBits 12 9 13 f.action.credit
              ||| optBits 23 16 24 f.action.limit)
      ∧ w.r3 = inBits 7 0 (s.countEntries 0) ||| inBits 15 8 (s.countEntries 1) ||| inBits 23 16 (s.countEntries 2)

/-! ## Lines -/

/-- R122: LINE-SET from port 0 replaces the whole configuration of a DISABLED line, and completes with WRONG-STATE in any other. -/
def Obligations.LineSetReplacesTheConfiguration : Prop :=
  ∀ (s : State) (l : LineNo) (g : LineConfig),
    s.taken 0 Code.lineSet → (s.port 0).args.a0.toNat = l.val → describesLine (s.port 0).args g →
    ((s.line l).state = .disabled →
      ∃ t, exec .lineSet s = .next t
        ∧ t.line l = { s.line l with config := g }
        ∧ s.answers t 0 .ok {}
        ∧ (∀ m, m ≠ l → t.line m = s.line m)
        ∧ Keeps [.ports, .lastServed, .lines] s t)
    ∧ ((s.line l).state ≠ .disabled → ∃ t, exec .lineSet s = .next t ∧ s.fails t 0 .wrongState)

/-- R112, R110, R129: LINE-ENABLE from port 0 takes a line out of DISABLED by the READY level, and completes with WRONG-STATE in any
other state; from another port it completes with NOT-PERMITTED, and of no line with BAD-ARGUMENT. What the transmit data pin then
carries is held by name (log 17). -/
def Obligations.LineEnableStartsTheLine : Prop :=
  (∀ (s : State) (p : PortNo), s.taken p Code.lineEnable →
    (p ≠ 0 → ∃ t, exec .lineEnable s = .next t ∧ s.fails t p .notPermitted)
    ∧ (p = 0 → 7 < (s.port p).args.a0.toNat → ∃ t, exec .lineEnable s = .next t ∧ s.fails t p .badArgument))
  ∧ ∀ (s : State) (l : LineNo), s.taken 0 Code.lineEnable → (s.port 0).args.a0.toNat = l.val →
    ((s.line l).state = .disabled →
      ∃ t, exec .lineEnable s = .next t
        ∧ t.line l =
            { s.line l with
              state := if (s.line l).readyLevel then .settling else .waiting
              settleTimer := if (s.line l).readyLevel then some (s.line l).config.settleTime else none
              lon := true
              receiver := .hunt
              tx := { (s.line l).tx with data := .flags } }
        ∧ s.answers t 0 .ok { r0 := if (s.line l).readyLevel then 2 else 1 }
        ∧ (∀ m, m ≠ l → t.line m = s.line m)
        ∧ Keeps [.ports, .lastServed, .lines] s t)
    ∧ ((s.line l).state ≠ .disabled → ∃ t, exec .lineEnable s = .next t ∧ s.fails t 0 .wrongState)

/-- R119, R117, R14 to R16, R99, R173: LINE-DISABLE from port 0 in every line state. The premise on the slots is the canonical form that
Obligations.MapsStayCanonical says every step keeps. A frame in reception is counted by the reading of log 6, and the transmit data pin
is held by name (log 17). -/
def Obligations.LineDisableTakesTheLineDown : Prop :=
  ∀ (s : State) (l : LineNo), s.taken 0 Code.lineDisable → (s.port 0).args.a0.toNat = l.val →
    ((s.line l).state = .disabled →
      ∃ t, exec .lineDisable s = .next t ∧ s.answers t 0 .ok {} ∧ Keeps [.ports, .lastServed] s t)
    ∧ ((s.line l).state = .waiting ∨ (s.line l).state = .settling →
      ∃ t, exec .lineDisable s = .next t
        ∧ t.line l =
            { s.line l with
              state := .disabled
              lon := false
              settleTimer := none
              receiver := .off
              tx := { (s.line l).tx with data := (t.line l).tx.data } }
        ∧ ((s.line l).tx.data ≠ .abortThenOnes → (t.line l).tx.data = .ones)
        ∧ s.answers t 0 .ok { r0 := inBits 1 0 (s.line l).state.code }
        ∧ (∀ m, m ≠ l → t.line m = s.line m)
        ∧ Keeps [.ports, .lastServed, .lines] s t)
    ∧ ((s.line l).state = .active → Sparse.wf Fin.val {} s.slots →
      ∃ t, exec .lineDisable s = .next t
        ∧ TornDown l Config.causeLineDisabled s t
        ∧ t.line l =
            { s.line l with
              state := .disabled
              lon := false
              settleTimer := none
              receiver := .off
              discards := match (s.line l).receiver with
                | .frame _ => min 65535 ((s.line l).discards + 1)
                | _ => (s.line l).discards
              changed := decide ((s.line l).reported = .up)
              tx := { staged := none, control := [], stray := [], ring := []
                      data := if (s.line l).tx.staged.isSome then .abortThenOnes else .ones } }
        ∧ s.answersWithAttention t 0
            { r0 := inBits 1 0 3 ||| inBits 14 8 (s.slotsWhere fun c => c.line = l && c.mapped).length }
        ∧ (∀ q, (t.port q).atn = t.atnLevel q)
        ∧ Keeps [.ports, .lastServed, .slots, .freeSlots, .index, .services, .places, .freeQueue, .reservedTotal,
            .waitQueue, .lines] s t)

/-- R125, R121, R120, R179: LINE-QUERY from port 0 reports the line and clears both counters when asked to; LINE-TAKE from port 0 copies
the level to the reported level and clears the change flag. The time remaining on a running settle timer is a free value no greater than
the time it was started with (log 4). -/
def Obligations.LineQueryAndLineTake : Prop :=
  (∀ (s : State) (l : LineNo), s.taken 0 Code.lineQuery → (s.port 0).args.a0.toNat = l.val →
    (s.port 0).args.a1.toNat ≤ 1 →
    ∃ t x, exec .lineQuery s = .next t
      ∧ (∀ d, (s.line l).settleTimer = some d → x ≤ d)
      ∧ s.answers t 0 .ok
          { r0 := inBits 1 0 (s.line l).state.code ||| inBits 2 2 (s.line l).config.role.code
              ||| inBits 3 3 (s.line l).readyLevel.toNat ||| inBits 4 4 (s.line l).reported.code
              ||| inBits 5 5 (s.line l).changed.toNat
              ||| inBits 14 8 (s.slotsWhere fun c => c.line = l && c.mapped).length
            r1 := inBits 7 0 (s.line l).config.settleTime ||| inBits 15 8 (s.line l).config.openTimeout
              ||| inBits 23 16 (s.line l).config.retransmit ||| inBits 31 24 (s.line l).config.closeTimeout
            r2 := inBits 7 0 (s.line l).config.offerTimeout ||| inBits 11 8 (s.line l).config.retryLimit
              ||| optBits 23 16 24 ((s.line l).settleTimer.map fun _ => x)
            r3 := inBits 15 0 (s.line l).discards ||| inBits 23 16 (s.line l).losses }
      ∧ t.line l = (if (s.port 0).args.a1.toNat = 1 then { s.line l with discards := 0, losses := 0 } else s.line l)
      ∧ (∀ m, m ≠ l → t.line m = s.line m)
      ∧ Keeps [.ports, .lastServed, .lines, .freeCount] s t)
  ∧ ∀ (s : State) (l : LineNo), s.taken 0 Code.lineTake → (s.port 0).args.a0.toNat = l.val →
    ∃ t, exec .lineTake s = .next t
      ∧ t.line l = { s.line l with reported := (s.line l).level, changed := false }
      ∧ s.answersWithAttention t 0
          { r0 := inBits 0 0 (s.line l).level.code ||| inBits 1 1 (s.line l).reported.code
              ||| inBits 5 4 (s.line l).state.code ||| inBits 15 8 (s.line l).losses }
      ∧ (∀ q, (t.port q).attention = (s.port q).attention ∧ (t.port q).holdoff = (s.port q).holdoff
          ∧ (t.port q).atn = t.atnLevel q)
      ∧ (∀ m, m ≠ l → t.line m = s.line m)
      ∧ Keeps [.ports, .lastServed, .lines] s t

/-! ## Ports -/

/-- R161, R177, R178: PORT-SET. -/
def Obligations.PortSetSetsTheHoldoff : Prop :=
  ∀ (s : State) (p : PortNo), s.taken p Code.portSet →
    ((s.port p).args.a0.toNat ≤ 15 → (s.port p).args.a1.toNat ≤ 255 →
      ∃ t, exec .portSet s = .next t
        ∧ t.lastServed = p
        ∧ t.port p =
            { s.port p with
              status := .done
              result := .ok
              results := { r0 := inBits 3 0 (s.port p).holdoffCount ||| inBits 15 8 (s.port p).holdoffTime }
              holdoffCount := (s.port p).args.a0.toNat
              holdoffTime := (s.port p).args.a1.toNat
              holdoff := if (s.port p).attention ≠ [] ∧ 0 < (s.port p).args.a1.toNat
                then .running (s.port p).args.a1.toNat else .absent
              atn := (t.port p).atn }
        ∧ (∀ q, q ≠ p → t.port q = { s.port q with atn := (t.port q).atn })
        ∧ (∀ q, (t.port q).atn = t.atnLevel q)
        ∧ Keeps [.ports, .lastServed] s t)
    ∧ (15 < (s.port p).args.a0.toNat ∨ 255 < (s.port p).args.a1.toNat →
      ∃ t, exec .portSet s = .next t ∧ s.fails t p .badArgument)

/-- R162 to R167, R16: PORT-RESET of port q, from port 0 or from q itself: the port's fields, the claimed set, every circuit of the port
by its state, in ascending slot number, and the lines' queues. Port 0 is told what it did to another port. The premise is the canonical
form of the model's lists (log 15), which Obligations.MapsStayCanonical says every step keeps. -/
def Obligations.PortResetClearsThePortAndItsCircuits : Prop :=
  ∀ (s : State) (p q : PortNo),
    s.taken p Code.portReset → (s.port p).args.a0.toNat = q.val → (p = 0 ∨ p = q) → s.canonical →
    ∃ t, exec .portReset s = .next t
      ∧ t.lastServed = p
      ∧ t.port q =
          { status := .idle, command := 0, args := {}, result := .ok, results := {}, overrun := false, window := 0,
            windowFault := none, holdoffCount := 0, holdoffTime := 0, attention := [], holdoff := .absent,
            atn := t.atnLevel q }
      ∧ (p ≠ q → t.port p = { s.port p with
          status := .done
          result := .ok
          results :=
            { r0 := inBits 7 0 (s.countOf q [.calling, .opened, .draining]) ||| inBits 15 8 (s.countOf q [.closing])
                ||| inBits 23 16 (s.countOf q [.offered]) ||| inBits 31 24 (s.countOf q [.ended])
              r1 := inBits 9 0 (s.claimedSet q).length ||| inBits 25 16 (s.resetBuffers q).length }
          atn := t.atnLevel p })
      ∧ (∀ r, r ≠ p → r ≠ q → t.port r = { s.port r with atn := t.atnLevel r })
      ∧ s.claimedSet q = ((List.finRange 512).filter fun b => s.place b = .claimed q)
      ∧ Orphaned q s t
      ∧ Keeps [.ports, .lastServed, .slots, .freeSlots, .index, .services, .places, .freeQueue, .reservedTotal,
          .waitQueue, .lines] s t

/-! ## Outcomes that other statements name -/

/-- R134, R98, R99: what the stray reply queue makes of a reply offered to it, and what a service entry's loss of one live circuit makes
of it. -/
def Obligations.RepliesOfferedAndLiveCountsLowered : Prop :=
  (∀ (q : List Reply) (r : Reply),
    ((∃ x ∈ q, x.number = r.number ∧ x.kind = r.kind) → State.offered q r = q)
    ∧ ((∀ x ∈ q, ¬ (x.number = r.number ∧ x.kind = r.kind)) →
      (4 ≤ q.length → State.offered q r = q) ∧ (q.length < 4 → State.offered q r = q ++ [r])))
  ∧ ∀ (f : ServiceFields) (n : Nat),
    (ServiceEntry.active f (n + 1)).lowered = .active f n
    ∧ (ServiceEntry.withdrawn f 1).lowered = .empty
    ∧ (ServiceEntry.withdrawn f (n + 2)).lowered = .withdrawn f (n + 1)

/-! ## The client bus -/

/-- R149, R150, R157, R159, R169: writes of the command word, an argument word, the window register and the clear request, by slot
status; while RESET is asserted all are ignored. -/
def Obligations.PortWritesActBySlotStatus : Prop :=
  (∀ (s : State) (p : PortNo) (v : Word) (i : Fin 4), s.phase = .inReset →
    exec (.commandWordWrite p v) s = .next s ∧ exec (.argumentWordWrite p i v) s = .next s
      ∧ exec (.windowRegisterWrite p v) s = .next s ∧ exec (.clearRequest p v) s = .next s)
  ∧ ∀ (s : State) (p : PortNo) (v : Word), s.phase ≠ .inReset →
    -- accepted
    ((s.port p).status = .idle ∨ (s.port p).status = .done →
      (∃ t, exec (.commandWordWrite p v) s = .next t
        ∧ t.port p = { s.port p with
            status := .pending, command := v.setWidth 8, result := .ok, results := {}, overrun := false }
        ∧ (∀ q, q ≠ p → t.port q = s.port q) ∧ Keeps [.ports] s t)
      ∧ (∀ a, (s.port p).args = a →
          (∃ t, exec (.argumentWordWrite p 0 v) s = .next t ∧ t.port p = { s.port p with args := { a with a0 := v } }
            ∧ (∀ q, q ≠ p → t.port q = s.port q) ∧ Keeps [.ports] s t)
          ∧ (∃ t, exec (.argumentWordWrite p 1 v) s = .next t ∧ t.port p = { s.port p with args := { a with a1 := v } }
            ∧ (∀ q, q ≠ p → t.port q = s.port q) ∧ Keeps [.ports] s t)
          ∧ (∃ t, exec (.argumentWordWrite p 2 v) s = .next t ∧ t.port p = { s.port p with args := { a with a2 := v } }
            ∧ (∀ q, q ≠ p → t.port q = s.port q) ∧ Keeps [.ports] s t)
          ∧ (∃ t, exec (.argumentWordWrite p 3 v) s = .next t ∧ t.port p = { s.port p with args := { a with a3 := v } }
            ∧ (∀ q, q ≠ p → t.port q = s.port q) ∧ Keeps [.ports] s t)))
    -- ignored, with OVERRUN
    ∧ (∀ i, (s.port p).status = .pending →
      ∃ t, exec (.commandWordWrite p v) s = .next t ∧ exec (.argumentWordWrite p i v) s = .next t
        ∧ t.port p = { s.port p with overrun := true } ∧ (∀ q, q ≠ p → t.port q = s.port q) ∧ Keeps [.ports] s t)
    -- ignored during start-up
    ∧ (∀ i, (s.port p).status = .starting →
      exec (.commandWordWrite p v) s = .next s ∧ exec (.argumentWordWrite p i v) s = .next s
        ∧ exec (.windowRegisterWrite p v) s = .next s ∧ exec (.clearRequest p v) s = .next s)
    -- the window register
    ∧ (∀ b : BufNo, (s.port p).status ≠ .starting → v.toNat = b.val →
      ∃ t, exec (.windowRegisterWrite p v) s = .next t ∧ t.port p = { s.port p with window := b }
        ∧ (∀ q, q ≠ p → t.port q = s.port q) ∧ Keeps [.ports] s t)
    ∧ (511 < v.toNat → exec (.windowRegisterWrite p v) s = .next s)
    -- the clear request
    ∧ ((s.port p).status ≠ .starting → v.getLsbD 9 = true →
      ∃ t, exec (.clearRequest p v) s = .next t ∧ t.port p = { s.port p with windowFault := none }
        ∧ (∀ q, q ≠ p → t.port q = s.port q) ∧ Keeps [.ports] s t)

/-- R158, R159, R169, R183: a window read returns the bytes of a buffer claimed by the port, those below the length of one received for the
port, and 0 with WINDOW-FAULT for any other; a window write reaches a buffer claimed by the port alone, at the offsets it covers, and
any other sets WINDOW-FAULT. While RESET is asserted, during start-up and at a misaligned offset a read returns 0, a write is ignored and
WINDOW-FAULT is not set. A read carries its bytes in ascending order from the low bits. -/
def Obligations.WindowAccessesAreJudged : Prop :=
  (∀ (s : State) (p : PortNo) (k : Nat) (w : Width) (b : BufNo),
    s.phase = .running → windowAccessOk k w = true → (s.port p).window = b →
    (s.place b = .claimed p →
      ∃ t, exec (.windowRead p k w) s = .next t
        ∧ t.readData = State.readDataOf (fun j => s.bufferByte b (k + j)) w ∧ Keeps [.readData] s t)
    ∧ (∀ i c e, s.place b = .receive i → s.circuit i = some c → c.owner = some p → e ∈ c.receive → e.buffer = b →
        (∀ x ∈ c.receive, x.buffer = b → x = e) →
      ∃ t, exec (.windowRead p k w) s = .next t
        ∧ t.readData = State.readDataOf (fun j => if k + j < e.length then s.bufferByte b (k + j) else 0) w
        ∧ Keeps [.readData] s t)
    ∧ (s.place b ≠ .claimed p → (∀ i c, s.place b = .receive i → s.circuit i = some c → c.owner ≠ some p) →
      ∃ t, exec (.windowRead p k w) s = .next t
        ∧ t.readData = State.readDataOf (fun _ => 0) w
        ∧ t.port p = { s.port p with
            windowFault := if (s.port p).windowFault = none then some b else (s.port p).windowFault }
        ∧ (∀ q, q ≠ p → t.port q = s.port q)
        ∧ Keeps [.readData, .ports] s t))
  ∧ (∀ (s : State) (p : PortNo) (k : Nat) (w : Width) (v : Word), s.phase ≠ .running ∨ windowAccessOk k w = false →
    (∃ t, exec (.windowRead p k w) s = .next t ∧ t.readData = State.readDataOf (fun _ => 0) w ∧ Keeps [.readData] s t)
    ∧ exec (.windowWrite p k w v) s = .next s)
  ∧ (∀ bytes : Nat → Byte,
    State.readDataOf bytes .byte = .byte (bytes 0)
    ∧ State.readDataOf bytes .half = .half (bytes 1 ++ bytes 0)
    ∧ State.readDataOf bytes .word = .word (bytes 3 ++ bytes 2 ++ bytes 1 ++ bytes 0))
  ∧ ∀ (s : State) (p : PortNo) (k : Nat) (w : Width) (v : Word) (b : BufNo),
    s.phase = .running → windowAccessOk k w = true → (s.port p).window = b →
    (s.place b = .claimed p →
      ∃ t, exec (.windowWrite p k w v) s = .next t
        ∧ (∀ j, j < widthBytes w → t.bufferByte b (k + j) = v.extractLsb' (8 * j) 8)
        ∧ (∀ a m, m < 128 → (a ≠ b ∨ m < k ∨ k + widthBytes w ≤ m) → t.bufferByte a m = s.bufferByte a m)
        ∧ Keeps [.memory] s t)
    ∧ (s.place b ≠ .claimed p →
      ∃ t, exec (.windowWrite p k w v) s = .next t
        ∧ t.port p = { s.port p with
            windowFault := if (s.port p).windowFault = none then some b else (s.port p).windowFault }
        ∧ (∀ q, q ≠ p → t.port q = s.port q)
        ∧ Keeps [.ports] s t)

/-- R183, R184, R180, R185, R169: an access without a row of its own. A write is ignored; a word read of a register returns its word; every
other read, and every read while RESET is asserted, returns 0. Which accesses these are is log 9, and a width of no lanes is log 16. -/
def Obligations.OtherAccessesChangeNothing : Prop :=
  ∀ (s : State) (x : BusAccess), hasOwnRow x = false →
    (x.write = true → exec (.voidAccess x) s = .next s)
    ∧ (x.write = false →
      ∃ t, exec (.voidAccess x) s = .next t ∧ Keeps [.readData] s t
        ∧ (s.phase = .inReset ∨ x.width ≠ .word ∨ registerAt x.offset.toNat = .undefinedOffset →
            t.readData = State.readDataOf (fun _ => 0) x.width)
        ∧ ∀ r : Port, s.port x.mn = r → s.phase ≠ .inReset → x.width = .word →
            ∀ urgent : Bool, (urgent = true ↔ ∃ i ∈ r.attention, ∃ c, s.circuit i = some c
              ∧ (c.conditions.arrival = true ∨ c.conditions.ended = true)) →
            ∀ offset word, (offset, word) ∈
              [(0x000, inBits 31 16 0x5C08 ||| inBits 7 0 0x01),
               (0x004, inBits 0 0 s.runningBit ||| s.pendingBit 0 ||| s.pendingBit 1 ||| s.pendingBit 2 ||| s.pendingBit 3),
               (0x100, inBits 1 0 r.status.code ||| inBits 7 4 r.result.code ||| inBits 8 8 r.overrun.toNat
                  ||| optBits 24 16 9 (r.windowFault.map Fin.val) ||| inBits 31 31 s.runningBit),
               (0x104, r.command.setWidth 32),
               (0x108, r.args.a0), (0x10C, r.args.a1), (0x110, r.args.a2), (0x114, r.args.a3),
               (0x118, r.results.r0), (0x11C, r.results.r1), (0x120, r.results.r2), (0x124, r.results.r3),
               (0x128, inBits 8 0 r.window.val),
               (0x12C, inBits 3 0 r.holdoffCount ||| inBits 15 8 r.holdoffTime),
               (0x130, match r.attention with
                  | [] => 0
                  | i :: _ => inBits 11 0 (s.handle i) ||| inBits 20 16 (s.conditionsOf i).code ||| inBits 31 31 1),
               (0x134, inBits 7 0 r.attention.length ||| inBits 8 8 urgent.toNat
                  ||| inBits 10 9 (match r.holdoff with | .absent => 0 | .running _ => 1 | .expired => 2)
                  ||| inBits 11 11 r.atn.toNat
                  ||| (if x.mn = 0 then
                      inBits 16 16 (s.line 0).changed.toNat ||| inBits 17 17 (s.line 1).changed.toNat
                        ||| inBits 18 18 (s.line 2).changed.toNat ||| inBits 19 19 (s.line 3).changed.toNat
                        ||| inBits 20 20 (s.line 4).changed.toNat ||| inBits 21 21 (s.line 5).changed.toNat
                        ||| inBits 22 22 (s.line 6).changed.toNat ||| inBits 23 23 (s.line 7).changed.toNat
                    else 0))] →
              x.offset.toNat = offset → t.readData = .word word)

/-! ## Admission -/

/-- R100, R101: a call that admission refuses: no entry fits, the entry refuses, the entry is at its limit, or no slot is FREE. A frame
row is one whole frame (log 5). -/
def Obligations.AdmissionRefusesACall : Prop :=
  ∀ (s : State) (l : LineNo) (n a b : Byte) (cause : Byte),
    s.hears l → 1 ≤ n.toNat → n.toNat ≤ 127 → b.toNat ≤ 15 → s.lookup l n = none →
    ((∀ d g m, s.entry d = .active g m → ¬ g.fits l a) ∧ cause = 2
      ∨ (∃ e f live, s.admits l a e f live
          ∧ (f.action = .refuse cause
            ∨ (∃ client limit, f.action = .offer client limit ∧ limit ≤ live ∧ cause = 3)
            ∨ (∃ client credit limit, f.action = .accept client credit limit ∧ limit ≤ live ∧ cause = 3)
            ∨ (∃ client limit, f.action = .offer client limit ∧ live < limit ∧ s.freeSlots = [] ∧ cause = 4)
            ∨ (∃ client credit limit, f.action = .accept client credit limit ∧ live < limit ∧ s.freeSlots = []
                ∧ cause = 4)))) →
    ∃ t, exec (.openFrame l n a b) s = .next t
      ∧ t.line l = { s.line l with
          receiver := .frame []
          tx := { (s.line l).tx with stray := State.offered (s.line l).tx.stray ⟨n, .refuse, cause⟩ } }
      ∧ (∀ m, m ≠ l → t.line m = s.line m) ∧ s.judged t
      ∧ Keeps [.lines, .ports] s t

/-- R34, R102, R3: a call admitted with action OFFER. A frame row is one whole frame (log 5). -/
def Obligations.AdmissionOffersACall : Prop :=
  ∀ (s : State) (l : LineNo) (n a b : Byte) (e : EntryNo) (f : ServiceFields) (live : Nat) (client : PortNo) (limit : Nat)
    (i : SlotNo) (rest : List SlotNo),
    s.hears l → 1 ≤ n.toNat → n.toNat ≤ 127 → b.toNat ≤ 15 → s.lookup l n = none → s.admits l a e f live →
    f.action = .offer client limit → live < limit → s.freeSlots = i :: rest →
    ∃ t, exec (.openFrame l n a b) s = .next t
      ∧ (t.slot i).generation = (s.slot i).generation + 1
      ∧ t.circuit i = some
          { state := .offered, line := l, number := n, owner := some client, origin := .remoteCall e, service := a,
            retry := 0, timer := some ⟨.offerWait, (s.line l).config.offerTimeout⟩,
            nextSend := 0, ackBase := 0, farEdge := b.setWidth 5, transmit := [], unacked := [],
            nextExpected := 0, receiveEdge := 0, reserved := 0, target := 0, receive := [],
            conditions := { arrival := true }, delivered := 0, owed := {} }
      ∧ t.freeSlots = rest
      ∧ (∀ m o, t.lookup m o = if m = l ∧ o = n then some i else s.lookup m o)
      ∧ t.entry e = .active f (live + 1) ∧ (∀ d, d ≠ e → t.entry d = s.entry d)
      ∧ (∀ q, t.port q
          = { (if q = client then (s.port q).joinedBy i else s.port q) with atn := t.atnLevel q })
      ∧ t.line l = { s.line l with receiver := .frame [] }
      ∧ (∀ j, j ≠ i → t.slot j = s.slot j) ∧ (∀ m, m ≠ l → t.line m = s.line m)
      ∧ Keeps [.slots, .freeSlots, .index, .services, .lines, .ports] s t

/-- R35, R102, R82, R3: a call admitted with action ACCEPT. A frame row is one whole frame (log 5). -/
def Obligations.AdmissionAcceptsACall : Prop :=
  ∀ (s : State) (l : LineNo) (n a b : Byte) (e : EntryNo) (f : ServiceFields) (live : Nat) (client : PortNo)
    (credit limit : Nat) (i : SlotNo) (rest : List SlotNo),
    s.hears l → 1 ≤ n.toNat → n.toNat ≤ 127 → b.toNat ≤ 15 → s.lookup l n = none → s.admits l a e f live →
    f.action = .accept client credit limit → live < limit → s.freeSlots = i :: rest →
    ∃ t, exec (.openFrame l n a b) s = .next t
      ∧ (t.slot i).generation = (s.slot i).generation + 1
      ∧ t.circuit i = some
          { state := .opened, line := l, number := n, owner := some client, origin := .remoteCall e, service := a,
            retry := 0, timer := none,
            nextSend := 0, ackBase := 0, farEdge := b.setWidth 5, transmit := [], unacked := [],
            nextExpected := 0, receiveEdge := BitVec.ofNat 5 (min credit s.available),
            reserved := min credit s.available, target := credit, receive := [],
            conditions := { connected := true }, delivered := 0, owed := { grant := true } }
      ∧ t.freeSlots = rest
      ∧ (∀ m o, t.lookup m o = if m = l ∧ o = n then some i else s.lookup m o)
      ∧ t.entry e = .active f (live + 1) ∧ (∀ d, d ≠ e → t.entry d = s.entry d)
      ∧ t.reservedTotal = s.reservedTotal + min credit s.available
      ∧ t.waitQueue = (if s.available < credit then joinTail s.waitQueue i else s.waitQueue)
      ∧ (∀ q, t.port q
          = { (if q = client then (s.port q).joinedBy i else s.port q) with atn := t.atnLevel q })
      ∧ t.line l = { s.line l with
          receiver := .frame []
          tx := { (s.line l).tx with control := joinTail (s.line l).tx.control i } }
      ∧ (∀ j, j ≠ i → t.slot j = s.slot j) ∧ (∀ m, m ≠ l → t.line m = s.line m)
      ∧ Keeps [.slots, .freeSlots, .index, .services, .reservedTotal, .waitQueue, .lines, .ports] s t

/-- R32, R33, R14, R173: an OPEN frame for the number of a CALLING circuit on an ANSWER line. The local call takes another number, or
ends with COLLISION when none is free; the frame then acts as on a number that no circuit holds. Of the ended call and a call then
admitted to a lower slot, the lower joins its owner's attention list first. A frame row is one whole frame (log 5). -/
def Obligations.CollisionsGiveWay : Prop :=
  ∀ (s : State) (l : LineNo) (n a b : Byte) (i : SlotNo) (c : Circuit),
    s.hears l → 1 ≤ n.toNat → n.toNat ≤ 127 → b.toNat ≤ 15 → s.mappedAt l n i c →
    c.line = l → c.number = n → c.state = .calling → (s.line l).config.role = .answerRole →
    (∀ m, s.numberFor l .answerRole m →
      ∃ u t, exec (.openFrame l n a b) s = .next t ∧ exec (.openFrame l n a b) u = .next t
        ∧ u.circuit i = some { c with number := m, timer := none, retry := 0, owed := c.owed.put .openCall true }
        ∧ (∀ k o, u.lookup k o = if k = l ∧ o = m then some i else if k = l ∧ o = n then none else s.lookup k o)
        ∧ u.line l = { s.line l with
            receiver := .frame []
            tx := { (s.line l).tx with control := joinTail (s.line l).tx.control i } }
        ∧ (u.slot i).generation = (s.slot i).generation
        ∧ (∀ j, j ≠ i → u.slot j = s.slot j) ∧ (∀ m, m ≠ l → u.line m = s.line m)
        ∧ Keeps [.slots, .index, .lines] s u)
    ∧ ((∀ m : Byte, 1 ≤ m.toNat → m.toNat ≤ 127 → s.lookup l m ≠ none) → ∀ p, c.owner = some p →
      ∃ u : State,
        (∀ k o, u.lookup k o = if k = l ∧ o = n then none else s.lookup k o)
        ∧ (∀ e, u.entry e = if c.origin = .remoteCall e then (s.entry e).lowered else s.entry e)
        ∧ i ∉ u.waitQueue
        ∧ Queued i l (s.setReceiver l (.frame [])) u False (fun more => leave (s.line l).tx.control i ++ more)
            (leave (s.line l).tx.ring i) (s.line l).tx.stray
        ∧ ActsOn i l (s.setReceiver l (.frame [])) u
        ∧ Keeps [.slots, .index, .services, .reservedTotal, .waitQueue, .lines, .ports] s u
        ∧ ((∀ j rest, s.freeSlots = j :: rest → i ≤ j) →
          u.circuit i = some
            { c with
              state := .ended Config.causeCollision .localEnd none, reserved := 0, timer := none, owed := {}
              conditions := c.conditions.union { ended := true } }
          ∧ (∀ q, u.port q = if c.owner = some q ∧ c.conditions = {} then (s.port q).joinedBy i else s.port q)
          ∧ ∃ t, exec (.openFrame l n a b) s = .next t ∧ exec (.openFrame l n a b) u = .next t)
        ∧ (∀ j rest, s.freeSlots = j :: rest → j < i →
          u.circuit i = some
            { c with state := .ended Config.causeCollision .localEnd none, reserved := 0, timer := none, owed := {} }
          ∧ (∀ q, u.port q = s.port q)
          ∧ ∃ v t, exec (.openFrame l n a b) u = .next v ∧ exec (.openFrame l n a b) s = .next t
            ∧ t.circuit i = (v.circuit i).map (fun d => { d with conditions := d.conditions.union { ended := true } })
            ∧ (∀ k, k ≠ i → t.slot k = v.slot k) ∧ (t.slot i).generation = (v.slot i).generation
            ∧ v.attends t i c
            ∧ Keeps [.slots, .ports] v t))

/-! ## Frames at a circuit -/

/-- R28: GRANT at a CALLING circuit opens it. A circuit that is short of its target joins the credit wait queue and may be granted
reservations there. A frame row is one whole frame (log 5). -/
def Obligations.GrantOpensTheCircuit : Prop :=
  ∀ (s : State) (l : LineNo) (n a : Byte) (i : SlotNo) (c : Circuit) (p : PortNo),
    s.hears l → 1 ≤ n.toNat → n.toNat ≤ 127 → a.toNat ≤ 15 → s.mappedAt l n i c → c.line = l → c.owner = some p →
    c.state = .calling →
    ∀ c' : Circuit,
      c' = { c with
        state := .opened, timer := none, retry := 0, farEdge := a.setWidth 5, owed := c.owed.put .openCall false
        conditions := c.conditions.union { connected := true } } →
    ∃ t grants, exec (.grantFrame l n a 0) s = .next t
      ∧ t.circuit i = some
          ((if c'.stalled then { c' with timer := some ⟨.stallWait, (s.line l).config.retransmit⟩ } else c').granted grants)
      ∧ (c.target ≤ c.reserved → i ∉ s.waitQueue → grants = 0 ∧ t.waitQueue = s.waitQueue)
      ∧ (c.reserved < c.target → s.available = 0 → grants = 0 ∧ t.waitQueue = joinTail s.waitQueue i)
      ∧ (c.reserved < c.target → s.waitQueue = [] → grants = min s.available (c.target - c.reserved)
          ∧ t.waitQueue = (if s.available < c.target - c.reserved then [i] else []))
      ∧ (c.target ≤ c.reserved ∨ s.available = 0 → c'.owed = {} → i ∉ (t.line l).tx.control)
      ∧ Queued i l (s.setReceiver l (.frame [])) t (0 < grants)
          (fun more => (if c'.owed = {} then leave (s.line l).tx.control i else (s.line l).tx.control) ++ more)
          (if c'.canSend then joinTail (s.line l).tx.ring i else (s.line l).tx.ring) (s.line l).tx.stray
      ∧ s.attends t i c
      ∧ ActsOn i l (s.setReceiver l (.frame [])) t
      ∧ Keeps [.slots, .reservedTotal, .waitQueue, .lines, .ports] s t

/-- R29, R45, R14: REFUSE at a CALLING circuit, and CLOSE at one in CALLING, OFFERED, OPEN or DRAINING, end it with the frame's cause
and cause source REMOTE; CLOSE offers a CLOSED reply. A frame row is one whole frame (log 5). -/
def Obligations.FarEndEndsTheCircuit : Prop :=
  ∀ (s : State) (l : LineNo) (n a : Byte) (i : SlotNo) (c : Circuit) (p : PortNo) (x : Instr) (replies : List Reply),
    s.hears l → 1 ≤ n.toNat → n.toNat ≤ 127 → s.mappedAt l n i c → c.line = l → c.number = n → c.owner = some p →
    (x = .refuseFrame l n a 0 ∧ c.state = .calling ∧ replies = (s.line l).tx.stray
      ∨ x = .closeFrame l n a 0 ∧ (c.state = .calling ∨ c.state = .offered ∨ c.state = .opened ∨ c.state.name = .draining)
        ∧ replies = State.offered (s.line l).tx.stray ⟨n, .closed, 0⟩) →
    ∃ t, exec x s = .next t
      ∧ t.circuit i = some
          { c with
            state := .ended a .remoteEnd none, reserved := 0, timer := none, owed := {}
            conditions := c.conditions.union { ended := true } }
      ∧ (∀ m o, t.lookup m o = if m = l ∧ o = n then none else s.lookup m o)
      ∧ (∀ e, t.entry e = if c.origin = .remoteCall e then (s.entry e).lowered else s.entry e)
      ∧ i ∉ t.waitQueue
      ∧ Queued i l (s.setReceiver l (.frame [])) t False (fun more => leave (s.line l).tx.control i ++ more)
          (leave (s.line l).tx.ring i) replies
      ∧ s.attends t i c
      ∧ ActsOn i l (s.setReceiver l (.frame [])) t
      ∧ Keeps [.slots, .index, .services, .reservedTotal, .waitQueue, .lines, .ports] s t

/-- R47, R48, R14, R15: CLOSED, and CLOSE, at a CLOSING circuit confirm its close: an owned one is ENDED with the cause it held, an
orphan's slot is FREE; CLOSE offers a CLOSED reply. A frame row is one whole frame (log 5). -/
def Obligations.CloseIsConfirmed : Prop :=
  ∀ (s : State) (l : LineNo) (n a cause : Byte) (i : SlotNo) (c : Circuit) (x : Instr) (replies : List Reply),
    s.hears l → 1 ≤ n.toNat → n.toNat ≤ 127 → s.mappedAt l n i c → c.line = l → c.number = n →
    c.state = .closing cause →
    (x = .closedFrame l n 0 0 ∧ replies = (s.line l).tx.stray
      ∨ x = .closeFrame l n a 0 ∧ replies = State.offered (s.line l).tx.stray ⟨n, .closed, 0⟩) →
    ∃ t, exec x s = .next t
      ∧ (∀ m o, t.lookup m o = if m = l ∧ o = n then none else s.lookup m o)
      ∧ (∀ e, t.entry e = if c.origin = .remoteCall e then (s.entry e).lowered else s.entry e)
      ∧ i ∉ t.waitQueue
      ∧ Queued i l (s.setReceiver l (.frame [])) t False (fun more => leave (s.line l).tx.control i ++ more)
          (leave (s.line l).tx.ring i) replies
      ∧ (∀ p, c.owner = some p →
          t.circuit i = some
            { c with
              state := .ended cause .localEnd (some .confirmed), reserved := 0, timer := none, owed := {}
              conditions := c.conditions.union { ended := true } }
          ∧ s.attends t i c ∧ t.freeSlots = s.freeSlots ∧ t.freeQueue = s.freeQueue ∧ ∀ b, t.place b = s.place b)
      ∧ (c.owner = none →
          t.circuit i = none ∧ s.judged t ∧ t.freeSlots = s.freeSlots ++ [i] ∧ t.freeQueue = s.freeQueue ++ c.buffers
          ∧ ∀ b, t.place b = if b ∈ c.buffers then .free else s.place b)
      ∧ ActsOn i l (s.setReceiver l (.frame [])) t
      ∧ Keeps [.slots, .freeSlots, .index, .services, .places, .freeQueue, .reservedTotal, .waitQueue, .lines,
          .ports] s t

/-- R58, R59, R83: a CARRY frame in order is taken into the buffer at the head of the free queue. A circuit then short of its target
joins the credit wait queue and may be granted reservations there. A frame row is one whole frame (log 5). -/
def Obligations.CarryInOrderIsTaken : Prop :=
  ∀ (s : State) (l : LineNo) (n a b : Byte) (payload : List Byte) (i : SlotNo) (c : Circuit) (p : PortNo) (buf : BufNo)
    (rest : List BufNo),
    s.hears l → 1 ≤ n.toNat → n.toNat ≤ 127 → b.toNat ≤ 1 → 1 ≤ payload.length → payload.length ≤ 128 →
    s.mappedAt l n i c → c.line = l → c.owner = some p → (c.state = .opened ∨ c.state.name = .draining) →
    a.toNat = c.nextExpected.toNat → 0 < c.reserved → s.freeQueue = buf :: rest →
    ∃ t grants, exec (.carryFrame l n a b payload) s = .next t
      ∧ t.circuit i = some
          ({ c with
            receive := c.receive ++ [Entry.mk buf payload.length (b = 1)]
            nextExpected := c.nextExpected + 1
            reserved := c.reserved - 1
            conditions := c.conditions.union { data := true }
            owed := c.owed.put .credit true }.granted grants)
      ∧ (c.target ≤ c.reserved - 1 → i ∉ s.waitQueue → grants = 0 ∧ t.waitQueue = s.waitQueue
          ∧ t.reservedTotal = s.reservedTotal - 1)
      ∧ (c.reserved - 1 < c.target → s.available = 0 → grants = 0 ∧ t.waitQueue = joinTail s.waitQueue i
          ∧ t.reservedTotal = s.reservedTotal - 1)
      ∧ (c.reserved - 1 < c.target → s.waitQueue = [] → 0 < s.reservedTotal →
          grants = min s.available (c.target - (c.reserved - 1))
          ∧ t.waitQueue = (if s.available < c.target - (c.reserved - 1) then [i] else [])
          ∧ t.reservedTotal = s.reservedTotal - 1 + grants)
      ∧ t.freeQueue = rest
      ∧ t.place buf = .receive i ∧ (∀ d, d ≠ buf → t.place d = s.place d)
      ∧ (∀ k v, payload[k]? = some v → t.bufferByte buf k = v)
      ∧ (∀ d k, k < 128 → (d ≠ buf ∨ payload.length ≤ k) → t.bufferByte d k = s.bufferByte d k)
      ∧ Queued i l (s.setReceiver l (.frame [])) t (0 < grants) (fun more => joinTail (s.line l).tx.control i ++ more)
          (s.line l).tx.ring (s.line l).tx.stray
      ∧ s.attends t i c
      ∧ ActsOn i l (s.setReceiver l (.frame [])) t
      ∧ Keeps [.slots, .memory, .places, .freeQueue, .reservedTotal, .waitQueue, .lines, .ports] s t

/-- R60, R65, R39, R12: a duplicate or out-of-order CARRY frame, and an ASK frame, make a circuit in OPEN or DRAINING owe CREDIT; an
OPEN frame makes one of REMOTE origin owe GRANT; nothing else changes. A frame row is one whole frame (log 5). -/
def Obligations.RepeatsAreAnswered : Prop :=
  ∀ (s : State) (l : LineNo) (n a b : Byte) (payload : List Byte) (i : SlotNo) (c : Circuit) (x : Instr) (k : OwedKind),
    s.hears l → 1 ≤ n.toNat → n.toNat ≤ 127 → s.mappedAt l n i c → c.line = l →
    (c.state = .opened ∨ c.state.name = .draining) →
    (x = .carryFrame l n a b payload ∧ k = .credit ∧ a.toNat ≤ 31 ∧ b.toNat ≤ 1 ∧ 1 ≤ payload.length
        ∧ payload.length ≤ 128 ∧ a.toNat ≠ c.nextExpected.toNat
        ∧ (distance (a.setWidth 5) c.nextExpected ≤ 16 ∨ distance c.nextExpected (a.setWidth 5) < c.reserved)
      ∨ x = .askFrame l n 0 0 ∧ k = .credit
      ∨ x = .openFrame l n a b ∧ k = .grant ∧ b.toNat ≤ 15 ∧ ∃ e, c.origin = .remoteCall e) →
    ∃ t, exec x s = .next t
      ∧ t.circuit i = some { c with owed := c.owed.put k true }
      ∧ t.line l = { s.line l with
          receiver := .frame []
          tx := { (s.line l).tx with control := joinTail (s.line l).tx.control i } }
      ∧ (t.slot i).generation = (s.slot i).generation
      ∧ (∀ j, j ≠ i → t.slot j = s.slot j) ∧ (∀ m, m ≠ l → t.line m = s.line m) ∧ s.judged t
      ∧ Keeps [.slots, .lines, .ports] s t

/-- R44, R58, R61, R24: a CARRY frame outside the credit given, and a CREDIT frame that acknowledges more than was sent, close the
circuit with PROTOCOL and take no other effect. A frame row is one whole frame (log 5). -/
def Obligations.ViolationsCloseTheCircuit : Prop :=
  ∀ (s : State) (l : LineNo) (n a b : Byte) (payload : List Byte) (i : SlotNo) (c : Circuit) (x : Instr),
    s.hears l → 1 ≤ n.toNat → n.toNat ≤ 127 → a.toNat ≤ 31 → s.mappedAt l n i c → c.line = l →
    (c.state = .opened ∨ c.state.name = .draining) →
    (x = .carryFrame l n a b payload ∧ b.toNat ≤ 1 ∧ 1 ≤ payload.length ∧ payload.length ≤ 128
        ∧ (a.toNat = c.nextExpected.toNat ∧ c.reserved = 0
          ∨ 16 < distance (a.setWidth 5) c.nextExpected ∧ c.reserved ≤ distance c.nextExpected (a.setWidth 5))
      ∨ x = .creditFrame l n a b ∧ b.toNat ≤ 31 ∧ ¬ (1 ≤ distance (a.setWidth 5) c.ackBase
          ∧ distance (a.setWidth 5) c.ackBase ≤ 16) ∧ c.unacked.length < distance c.ackBase (a.setWidth 5)) →
    ∃ t, exec x s = .next t
      ∧ t.circuit i = some
          { c with
            state := .closing Config.causeProtocol, timer := none, retry := 0, reserved := 0, owed := { close := true } }
      ∧ i ∉ t.waitQueue
      ∧ Queued i l (s.setReceiver l (.frame [])) t False (fun more => joinTail ((s.line l).tx.control ++ more) i)
          (leave (s.line l).tx.ring i) (s.line l).tx.stray
      ∧ s.judged t
      ∧ ActsOn i l (s.setReceiver l (.frame [])) t
      ∧ Keeps [.slots, .reservedTotal, .waitQueue, .lines, .ports] s t

/-- R61, R62, R63, R43, R174: a CREDIT frame at a circuit in OPEN or DRAINING that acknowledges `count` entries, none when its
acknowledgement lies behind the acknowledge base. The circuit may be granted reservations from the buffers that return. A frame row is
one whole frame (log 5). -/
def Obligations.CreditSettlesTheAccount : Prop :=
  ∀ (s : State) (l : LineNo) (n a b : Byte) (i : SlotNo) (c : Circuit) (p : PortNo) (count : Nat) (behind : Bool)
    (held c' : Circuit),
    s.hears l → 1 ≤ n.toNat → n.toNat ≤ 127 → a.toNat ≤ 31 → b.toNat ≤ 31 → s.mappedAt l n i c → c.line = l →
    c.owner = some p → (c.state = .opened ∨ c.state.name = .draining) →
    (behind = true ↔ 1 ≤ distance (a.setWidth 5) c.ackBase ∧ distance (a.setWidth 5) c.ackBase ≤ 16) →
    count = (if behind then 0 else distance c.ackBase (a.setWidth 5)) → count ≤ c.unacked.length →
    held = { c with
      unacked := c.unacked.drop count
      ackBase := if behind then c.ackBase else a.setWidth 5
      delivered := min 65535 (c.delivered + count)
      conditions := if 0 < count then c.conditions.union { delivered := true } else c.conditions
      farEdge :=
        if behind = false ∧ distance (a.setWidth 5) (b.setWidth 5) ≤ 15
          ∧ distance (a.setWidth 5) c.farEdge ≤ distance (a.setWidth 5) (b.setWidth 5) then b.setWidth 5 else c.farEdge
      retry := if 0 < count ∨ c.unacked = [] then 0 else c.retry
      owed := c.owed.put .ask false } →
    c' = { held with
      timer :=
        if held.unacked ≠ [] then
          (if 0 < count then some ⟨.ackWait, (s.line l).config.retransmit⟩ else c.timer)
        else if held.stalled then
          (if c.waits .stallWait then c.timer else some ⟨.stallWait, (s.line l).config.retransmit⟩)
        else none } →
    (c.delivered ≤ 65535) →
    ∃ t grants, exec (.creditFrame l n a b) s = .next t
      ∧ (∀ drain, c.state = .draining drain → held.transmit = [] → held.unacked = [] →
          t.circuit i = some
            { c' with
              state := .closing drain, timer := none, retry := 0, reserved := 0, owed := { close := true }
              receiveEdge := c.receiveEdge + BitVec.ofNat 5 grants }
          ∧ i ∉ t.waitQueue
          ∧ Queued i l (s.setReceiver l (.frame [])) t (0 < grants)
              (fun more => joinTail ((if grants = 0 ∧ held.owed = {} then leave (s.line l).tx.control i
                else (s.line l).tx.control) ++ more) i)
              (leave (s.line l).tx.ring i) (s.line l).tx.stray)
      ∧ ((c.state = .opened ∨ held.transmit ≠ [] ∨ held.unacked ≠ []) →
          t.circuit i = some (c'.granted grants)
          ∧ Queued i l (s.setReceiver l (.frame [])) t (0 < grants)
              (fun more => (if grants = 0 ∧ held.owed = {} then leave (s.line l).tx.control i
                else (s.line l).tx.control) ++ more)
              (if c'.canSend then joinTail (s.line l).tx.ring i else (s.line l).tx.ring) (s.line l).tx.stray)
      ∧ (i ∉ s.waitQueue ∨ count = 0 ∧ s.available = 0 → grants = 0)
      ∧ t.freeQueue = s.freeQueue ++ (c.unacked.take count).map (·.entry.buffer)
      ∧ (∀ d, t.place d = if d ∈ (c.unacked.take count).map (·.entry.buffer) then .free else s.place d)
      ∧ (if 0 < count then s.attends t i c else s.judged t)
      ∧ ActsOn i l (s.setReceiver l (.frame [])) t
      ∧ Keeps [.slots, .places, .freeQueue, .reservedTotal, .waitQueue, .lines, .ports] s t

/-- R50, R31, R39: a frame of a kind that has no use in its circuit's state changes no record; its flag is the receiver's next opening
flag. R133, R134: an unmapped frame that is not an OPEN frame offers a CLOSED reply (CLOSE), a CLOSE reply with cause UNKNOWN (GRANT,
CARRY, CREDIT, ASK) or none (REFUSE, CLOSED). A frame row is one whole frame (log 5). -/
def Obligations.UselessAndStrayFrames : Prop :=
  (∀ (s : State) (l : LineNo) (n a b : Byte) (payload : List Byte) (i : SlotNo) (c : Circuit) (x : Instr),
    s.hears l → s.mappedAt l n i c → x.wellFormed = true →
    (c.state = .calling ∧ x ∈ [.carryFrame l n a b payload, .creditFrame l n a b, .askFrame l n a b, .closedFrame l n a b]
      ∨ c.state = .calling ∧ (s.line l).config.role = .originRole ∧ x = .openFrame l n a b
      ∨ c.state = .offered ∧ x ∈ [.openFrame l n a b, .grantFrame l n a b, .refuseFrame l n a b,
          .carryFrame l n a b payload, .creditFrame l n a b, .askFrame l n a b, .closedFrame l n a b]
      ∨ (c.state = .opened ∨ c.state.name = .draining)
        ∧ x ∈ [.grantFrame l n a b, .refuseFrame l n a b, .closedFrame l n a b]
      ∨ (c.state = .opened ∨ c.state.name = .draining) ∧ c.origin = .localCall ∧ x = .openFrame l n a b
      ∨ c.state.name = .closing ∧ x ∈ [.openFrame l n a b, .grantFrame l n a b, .refuseFrame l n a b,
          .carryFrame l n a b payload, .creditFrame l n a b, .askFrame l n a b]) →
    ∃ t, exec x s = .next t
      ∧ t.line l = { s.line l with receiver := .frame [] } ∧ (∀ m, m ≠ l → t.line m = s.line m)
      ∧ s.judged t ∧ Keeps [.lines, .ports] s t)
  ∧ ∀ (s : State) (l : LineNo) (n a b : Byte) (payload : List Byte) (x : Instr) (replies : List Reply),
    s.hears l → s.lookup l n = none → x.wellFormed = true →
    (x = .closeFrame l n a b ∧ replies = State.offered (s.line l).tx.stray ⟨n, .closed, 0⟩
      ∨ x ∈ [.grantFrame l n a b, .carryFrame l n a b payload, .creditFrame l n a b, .askFrame l n a b]
        ∧ replies = State.offered (s.line l).tx.stray ⟨n, .close, Config.causeUnknown⟩
      ∨ x ∈ [.refuseFrame l n a b, .closedFrame l n a b] ∧ replies = (s.line l).tx.stray) →
    ∃ t, exec x s = .next t
      ∧ t.line l = { s.line l with receiver := .frame [], tx := { (s.line l).tx with stray := replies } }
      ∧ (∀ m, m ≠ l → t.line m = s.line m) ∧ s.judged t ∧ Keeps [.lines, .ports] s t

/-! ## The line receiver -/

/-- R130, R131, R115, R124: what a line receiver makes of the bits at its pin. A frame that ends on a line that is not ACTIVE, or whose
content fails R131, is discarded and counted, and a valid one is handed over; an abort discards what it cuts off, and counts it if it is
anything; bits between an opening flag and a closing flag are gathered, in one command or in several; a receiver in HUNT passes over all
but a flag; and one that is OFF takes nothing. A frame row is one whole frame, and the receiver's own rows carry bits (log 5). -/
def Obligations.ReceiversDiscardAndCount : Prop :=
  ∀ (s : State) (l : LineNo), s.phase = .running →
    -- whole frames
    (∀ f : Frame, (s.line l).receiver = .hunt ∨ (s.line l).receiver = .frame [] → (s.line l).state ≠ .active →
      ∃ t, exec (frameRow l f) s = .next t
        ∧ t.line l = { s.line l with receiver := .frame [], discards := min 65535 ((s.line l).discards + 1) }
        ∧ (∀ m, m ≠ l → t.line m = s.line m) ∧ Keeps [.lines] s t)
    -- bits and a closing flag
    ∧ (∀ raw bits, (s.line l).receiver = .frame raw → sixless (raw ++ bits) → raw ++ bits ≠ [] →
      ((s.line l).state ≠ .active ∨ readContent (deleteZeros 0 (raw ++ bits)) = none →
        ∃ t, exec (.frameDiscarded l bits) s = .next t
          ∧ t.line l = { s.line l with receiver := .frame [], discards := min 65535 ((s.line l).discards + 1) }
          ∧ (∀ m, m ≠ l → t.line m = s.line m) ∧ Keeps [.lines] s t)
      ∧ ∀ f, (s.line l).state = .active → readContent (deleteZeros 0 (raw ++ bits)) = some f →
        exec (.frameDiscarded l bits) s = exec (frameRow l f) (s.setReceiver l (.frame [])))
    -- bits and an abort
    ∧ (∀ raw bits content k, (s.line l).receiver = .frame raw → sixless (raw ++ bits) →
      raw ++ bits = content ++ List.replicate k true → (content = [] ∨ ∃ rest, content = rest ++ [false]) →
      ∃ t, exec (.abort l bits) s = .next t
        ∧ t.line l = { s.line l with
            receiver := .hunt
            discards := if content = [] then (s.line l).discards else min 65535 ((s.line l).discards + 1) }
        ∧ (∀ m, m ≠ l → t.line m = s.line m) ∧ Keeps [.lines] s t)
    -- an opening flag and bits
    ∧ ((s.line l).receiver = .hunt ∨ (s.line l).receiver = .frame [] → ∀ bits,
      (sixless bits →
        ∃ t, exec (.openingFlag ⟨l, bits⟩) s = .next t
          ∧ t.line l = { s.line l with receiver := .frame bits }
          ∧ (∀ m, m ≠ l → t.line m = s.line m) ∧ Keeps [.lines] s t)
      ∧ exec (.frameDiscarded l (flagBits ++ bits)) s = exec (.frameDiscarded l bits) (s.setReceiver l (.frame []))
      ∧ exec (.abort l (flagBits ++ bits)) s = exec (.abort l bits) (s.setReceiver l (.frame [])))
    -- bits that hold no flag, in HUNT
    ∧ ((s.line l).receiver = .hunt → ∀ bits, ¬ flagBits <:+: bits → exec (.abort l bits) s = .next s)
    -- any bits, at a receiver that is OFF
    ∧ ((s.line l).receiver = .off → ∀ (f : Frame) bits, exec (frameRow l f) s = .next s
      ∧ exec (.frameDiscarded l bits) s = .next s ∧ exec (.abort l bits) s = .next s
      ∧ exec (.openingFlag ⟨l, bits⟩) s = .next s)

/-- R127, R128, R130, R131: the content bits of every valid frame are read back as that frame, through zero insertion and deletion, with
a remainder of 0; no content as sent holds six consecutive 1 bits; and those bits at an ACTIVE line's receiver do what the frame's own
row does (log 5). -/
def Obligations.FramesReadBack : Prop :=
  (∀ f : Frame, frameValid f = true →
    readContent (deleteZeros 0 (insertZeros 0 (frameBits f))) = some f ∧ checkOf (frameBits f) = 0)
  ∧ (∀ bits : List Bool, deleteZeros 0 (insertZeros 0 bits) = bits)
  ∧ (∀ bits : List Bool, sixless (insertZeros 0 bits))
  ∧ ∀ (s : State) (l : LineNo) (f : Frame), s.hears l → frameValid f = true →
    exec (.frameDiscarded l (flagBits ++ insertZeros 0 (frameBits f))) s = exec (frameRow l f) s

/-! ## Timers -/

/-- R23, R30, R49, R67, R70, R11: a retry below the line's limit repeats the frame. An expiry may be taken whenever its timer runs (log
3). -/
def Obligations.ExpiriesRepeatTheFrame : Prop :=
  ∀ (s : State) (i : SlotNo) (c : Circuit) (x : Instr) (purpose : Purpose) (k : OwedKind),
    s.phase = .running → s.circuit i = some c → (∃ left, c.timer = some ⟨purpose, left⟩) →
    c.retry < (s.line c.line).config.retryLimit →
    (x = .openWaitExpiry i ∧ purpose = .openWait ∧ k = .openCall ∧ c.state = .calling
      ∨ x = .ackWaitExpiry i ∧ purpose = .ackWait ∧ k = .resend ∧ (c.state = .opened ∨ c.state.name = .draining)
      ∨ x = .stallWaitExpiry i ∧ purpose = .stallWait ∧ k = .ask ∧ (c.state = .opened ∨ c.state.name = .draining)
      ∨ x = .closeWaitExpiry i ∧ purpose = .closeWait ∧ k = .close ∧ c.state.name = .closing) →
    ∃ t, exec x s = .next t
      ∧ t.circuit i = some
          { c with
            retry := c.retry + 1
            owed := c.owed.put k true
            timer := if purpose = .stallWait then some ⟨.stallWait, (s.line c.line).config.retransmit⟩ else none }
      ∧ t.line c.line
          = { s.line c.line with tx := { (s.line c.line).tx with control := joinTail (s.line c.line).tx.control i } }
      ∧ (t.slot i).generation = (s.slot i).generation
      ∧ (∀ j, j ≠ i → t.slot j = s.slot j) ∧ (∀ m, m ≠ c.line → t.line m = s.line m)
      ∧ Keeps [.slots, .lines] s t

/-- R23, R24, R30, R49, R67, R70: at the line's retry limit an expiry gives up. A circuit in CALLING, OPEN or DRAINING enters CLOSING
with NO-RESPONSE; one in CLOSING ends UNCONFIRMED, an orphan's slot being FREE. An expiry may be taken whenever its timer runs (log 3).
-/
def Obligations.ExpiriesGiveUpAtTheLimit : Prop :=
  ∀ (s : State) (i : SlotNo) (c : Circuit), s.phase = .running → s.circuit i = some c →
    (s.line c.line).config.retryLimit ≤ c.retry →
    (∀ x purpose, (∃ left, c.timer = some ⟨purpose, left⟩) →
      (x = Instr.openWaitExpiry i ∧ purpose = Purpose.openWait ∧ c.state = .calling
        ∨ x = .ackWaitExpiry i ∧ purpose = .ackWait ∧ (c.state = .opened ∨ c.state.name = .draining)
        ∨ x = .stallWaitExpiry i ∧ purpose = .stallWait ∧ (c.state = .opened ∨ c.state.name = .draining)) →
      ∃ t, exec x s = .next t
        ∧ t.circuit i = some
            { c with
              state := .closing Config.causeNoResponse, timer := none, retry := 0, reserved := 0
              owed := { close := true } }
        ∧ i ∉ t.waitQueue
        ∧ Queued i c.line s t False (fun more => joinTail ((s.line c.line).tx.control ++ more) i)
            (leave (s.line c.line).tx.ring i) (s.line c.line).tx.stray
        ∧ ActsOn i c.line s t
        ∧ Keeps [.slots, .reservedTotal, .waitQueue, .lines] s t)
    ∧ (∀ cause left, c.timer = some ⟨.closeWait, left⟩ → c.state = .closing cause →
      ∃ t, exec (.closeWaitExpiry i) s = .next t
        ∧ (∀ m o, t.lookup m o = if m = c.line ∧ o = c.number then none else s.lookup m o)
        ∧ (∀ e, t.entry e = if c.origin = .remoteCall e then (s.entry e).lowered else s.entry e)
        ∧ (∀ p, c.owner = some p →
            t.circuit i = some
              { c with
                state := .ended cause .localEnd (some .unconfirmed), reserved := 0, timer := none, owed := {}
                conditions := c.conditions.union { ended := true } }
            ∧ s.attends t i c ∧ t.freeSlots = s.freeSlots ∧ t.freeQueue = s.freeQueue ∧ ∀ b, t.place b = s.place b)
        ∧ (c.owner = none → t.circuit i = none ∧ s.judged t ∧ t.freeSlots = s.freeSlots ++ [i]
            ∧ t.freeQueue = s.freeQueue ++ c.buffers ∧ ∀ b, t.place b = if b ∈ c.buffers then .free else s.place b)
        ∧ i ∉ t.waitQueue
        ∧ Queued i c.line s t False (fun more => leave (s.line c.line).tx.control i ++ more)
            (leave (s.line c.line).tx.ring i) (s.line c.line).tx.stray
        ∧ ActsOn i c.line s t
        ∧ Keeps [.slots, .freeSlots, .index, .services, .places, .freeQueue, .reservedTotal, .waitQueue, .lines,
            .ports] s t)

/-- R38, R177, R178: an OFFER-WAIT expiry ends the offer with NO-ANSWER and offers a REFUSE reply; a holdoff expiry makes the timer
EXPIRED and the ATN output follows. An expiry may be taken whenever its timer runs (log 3). -/
def Obligations.OfferAndHoldoffExpiries : Prop :=
  (∀ (s : State) (i : SlotNo) (c : Circuit) (p : PortNo) (left : Nat), s.phase = .running → s.circuit i = some c →
    c.timer = some ⟨.offerWait, left⟩ → c.state = .offered → c.owner = some p →
    ∃ t, exec (.offerWaitExpiry i) s = .next t
      ∧ t.circuit i = some
          { c with
            state := .ended Config.causeNoAnswer .localEnd none, reserved := 0, timer := none, owed := {}
            conditions := c.conditions.union { ended := true } }
      ∧ (∀ m o, t.lookup m o = if m = c.line ∧ o = c.number then none else s.lookup m o)
      ∧ (∀ e, t.entry e = if c.origin = .remoteCall e then (s.entry e).lowered else s.entry e)
      ∧ i ∉ t.waitQueue
      ∧ Queued i c.line s t False (fun more => leave (s.line c.line).tx.control i ++ more) (leave (s.line c.line).tx.ring i)
          (State.offered (s.line c.line).tx.stray ⟨c.number, .refuse, Config.causeNoAnswer⟩)
      ∧ s.attends t i c
      ∧ ActsOn i c.line s t
      ∧ Keeps [.slots, .index, .services, .reservedTotal, .waitQueue, .lines, .ports] s t)
  ∧ ∀ (s : State) (p : PortNo) (left : Nat), s.phase = .running → (s.port p).holdoff = .running left →
    ∃ t, exec (.holdoffExpiry p) s = .next t
      ∧ (t.port p) = { s.port p with holdoff := .expired, atn := t.atnLevel p }
      ∧ (∀ q, q ≠ p → t.port q = { s.port q with atn := t.atnLevel q })
      ∧ ((s.port p).attention ≠ [] → (t.port p).atn = true)
      ∧ Keeps [.ports] s t

/-! ## Line events -/

/-- R111, R113, R114, R120: READY asserted, the settle expiry, and READY dropped on a line that is not ACTIVE. The settle expiry may be
taken whenever the line is SETTLING (log 3). -/
def Obligations.LinesComeUp : Prop :=
  ∀ (s : State) (l : LineNo), s.phase ≠ .inReset →
    ((s.line l).readyLevel = false →
      ∃ t, exec (.readyAsserted l) s = .next t
        ∧ t.line l =
            { s.line l with
              readyPin := true
              readyLevel := true
              state := if (s.line l).state = .waiting then .settling else (s.line l).state
              settleTimer :=
                if (s.line l).state = .waiting then some (s.line l).config.settleTime else (s.line l).settleTimer }
        ∧ (∀ m, m ≠ l → t.line m = s.line m) ∧ Keeps [.lines] s t)
    ∧ (s.phase = .running → (s.line l).state = .settling →
      ∃ t, exec (.settleExpiry l) s = .next t
        ∧ t.line l =
            { s.line l with
              state := .active, settleTimer := none, changed := decide ((s.line l).reported = .down) }
        ∧ s.judged t ∧ (∀ m, m ≠ l → t.line m = s.line m) ∧ Keeps [.lines, .ports] s t)
    ∧ ((s.line l).readyLevel = true → (s.line l).state ≠ .active →
      ∃ t, exec (.readyDropped l) s = .next t
        ∧ t.line l =
            { s.line l with
              readyPin := false
              readyLevel := false
              state := if (s.line l).state = .settling then .waiting else (s.line l).state
              settleTimer := if (s.line l).state = .settling then none else (s.line l).settleTimer }
        ∧ (∀ m, m ≠ l → t.line m = s.line m) ∧ Keeps [.lines] s t)

/-- R116, R117, R118, R14 to R16, R99, R120, R144, R173: READY dropped on an ACTIVE line is a line loss. A frame in reception is counted
by the reading of log 6, and the transmit data pin is held by name (log 17). -/
def Obligations.LineLossTearsTheLineDown : Prop :=
  ∀ (s : State) (l : LineNo), s.phase ≠ .inReset → (s.line l).readyLevel = true → (s.line l).state = .active →
    Sparse.wf Fin.val {} s.slots →
    ∃ t, exec (.readyDropped l) s = .next t
      ∧ TornDown l Config.causeLineLost s t
      ∧ t.line l =
          { s.line l with
            state := .waiting
            readyPin := false
            readyLevel := false
            losses := min 255 ((s.line l).losses + 1)
            discards := match (s.line l).receiver with
              | .frame _ => min 65535 ((s.line l).discards + 1)
              | _ => (s.line l).discards
            receiver := match (s.line l).receiver with
              | .frame _ => .hunt
              | x => x
            changed := decide ((s.line l).reported = .up)
            tx := { staged := none, control := [], stray := [], ring := []
                    data := if (s.line l).tx.staged.isSome then .abortThenFlags else .flags } }
      ∧ (∀ q, t.port q = { s.port q with
          attention := (t.port q).attention, holdoff := (t.port q).holdoff, atn := t.atnLevel q })
      ∧ Keeps [.slots, .freeSlots, .index, .services, .places, .freeQueue, .reservedTotal, .waitQueue, .lines, .ports] s t

/-! ## The transmitter -/

/-- R139, R140, R141, R13: a selection from the control queue: the kind it chooses, the frame it stages, what it notes, and what stays
owed. A RESEND with nothing unacknowledged is dropped. The transmit data pin is held by name (log 17). -/
def Obligations.SelectionServesOwedControl : Prop :=
  ∀ (s : State) (l : LineNo) (i : SlotNo) (rest : List SlotNo) (c : Circuit),
    s.phase = .running → (s.line l).state = .active → (s.line l).tx.staged = none →
    (s.line l).tx.control = i :: rest → s.circuit i = some c →
    (∀ (k : OwedKind) (earlier later : List OwedKind) (left : Owed) (f : Frame),
      [OwedKind.close, .grant, .openCall, .resend, .credit, .ask] = earlier ++ k :: later →
      c.owed.has k = true → (k = .resend → c.unacked ≠ []) →
      (∀ x ∈ earlier, c.owed.has x = true → x = .resend ∧ c.unacked = []) →
      left = (if .resend ∈ earlier then (c.owed.put .resend false).put k false else c.owed.put k false) →
      (k = .openCall ∧ f = ⟨c.number, .openCall, c.service, c.receiveEdge.setWidth 8, []⟩
        ∨ k = .grant ∧ f = ⟨c.number, .grant, BitVec.ofNat 8 (distance c.nextExpected c.receiveEdge), 0, []⟩
        ∨ (∃ cause, k = .close ∧ c.state = .closing cause ∧ f = ⟨c.number, .close, cause, 0, []⟩)
        ∨ k = .credit ∧ f = ⟨c.number, .credit, c.nextExpected.setWidth 8, c.receiveEdge.setWidth 8, []⟩
        ∨ k = .ask ∧ f = ⟨c.number, .ask, 0, 0, []⟩
        ∨ (∃ e more, k = .resend ∧ c.unacked = e :: more
            ∧ f = ⟨c.number, .carry, e.sequence.setWidth 8, if e.entry.endMark then 1 else 0,
                s.bufferBytes e.entry.buffer 0 e.entry.length⟩)) →
      ∃ t, exec (.selectionEvent l) s = .next t
        ∧ t.circuit i = some { c with owed := left }
        ∧ t.line l = { s.line l with
            tx := { (s.line l).tx with
              staged := some ⟨f, frameCheck f, decide (k = .resend),
                some ⟨i, (s.slot i).generation, c.line, c.number, c.state.name⟩⟩
              control := if left = {} then rest else rest ++ [i]
              data := .stagedFrame } }
        ∧ (t.slot i).generation = (s.slot i).generation
        ∧ (∀ j, j ≠ i → t.slot j = s.slot j) ∧ (∀ m, m ≠ l → t.line m = s.line m)
        ∧ Keeps [.slots, .lines] s t)
    ∧ (c.owed = { resend := true } → c.unacked = [] →
      ∃ u t, exec (.selectionEvent l) s = .next t ∧ exec (.selectionEvent l) u = .next t
        ∧ u.circuit i = some { c with owed := {} }
        ∧ u.line l = { s.line l with tx := { (s.line l).tx with control := rest } }
        ∧ (u.slot i).generation = (s.slot i).generation
        ∧ (∀ j, j ≠ i → u.slot j = s.slot j) ∧ (∀ m, m ≠ l → u.line m = s.line m)
        ∧ Keeps [.slots, .lines] s u)

/-- R139, R142, R55, R54: with no control owed, a selection stages the oldest stray reply, else new data of the circuit at the head of
the data ready ring; with nothing to select the transmitter is IDLE. The transmit data pin is held by name (log 17). -/
def Obligations.SelectionServesRepliesThenData : Prop :=
  ∀ (s : State) (l : LineNo),
    s.phase = .running → (s.line l).state = .active → (s.line l).tx.staged = none → (s.line l).tx.control = [] →
    (∀ r more f, (s.line l).tx.stray = r :: more →
      (r.kind = .refuse ∧ f = Frame.mk r.number .refuse r.cause 0 [] ∨ r.kind = .close ∧ f = ⟨r.number, .close, r.cause, 0, []⟩
        ∨ r.kind = .closed ∧ f = ⟨r.number, .closed, 0, 0, []⟩) →
      ∃ t, exec (.selectionEvent l) s = .next t
        ∧ t.line l = { s.line l with
            tx := { (s.line l).tx with
              staged := some ⟨f, frameCheck f, false, none⟩, stray := more, data := .stagedFrame } }
        ∧ (∀ m, m ≠ l → t.line m = s.line m) ∧ Keeps [.lines] s t)
    ∧ (∀ i rest c e more c' f, (s.line l).tx.stray = [] → (s.line l).tx.ring = i :: rest → s.circuit i = some c →
      c.transmit = e :: more →
      c' = { c with
        transmit := more, unacked := c.unacked ++ [⟨c.nextSend, e⟩], nextSend := c.nextSend + 1 } →
      f = Frame.mk c.number .carry (c.nextSend.setWidth 8) (if e.endMark then 1 else 0) (s.bufferBytes e.buffer 0 e.length) →
      ∃ t, exec (.selectionEvent l) s = .next t
        ∧ t.circuit i = some c'
        ∧ t.place e.buffer = .unacked i ∧ (∀ b, b ≠ e.buffer → t.place b = s.place b)
        ∧ t.line l = { s.line l with
            tx := { (s.line l).tx with
              staged := some ⟨f, frameCheck f, false,
                some ⟨i, (s.slot i).generation, c.line, c.number, c.state.name⟩⟩
              ring := if c'.canSend then joinTail rest i else rest
              data := .stagedFrame } }
        ∧ (t.slot i).generation = (s.slot i).generation
        ∧ (∀ j, j ≠ i → t.slot j = s.slot j) ∧ (∀ m, m ≠ l → t.line m = s.line m)
        ∧ Keeps [.slots, .places, .lines] s t)
    ∧ ((s.line l).tx.stray = [] → (s.line l).tx.ring = [] →
      ∃ t, exec (.selectionEvent l) s = .next t
        ∧ t.line l = { s.line l with tx := { (s.line l).tx with data := .flags } }
        ∧ (∀ m, m ≠ l → t.line m = s.line m) ∧ Keeps [.lines] s t)

/-- R143, R13, R27, R46, R56, R68: a completion removes the staged frame, starts the timer that the frame's kind calls for at the
circuit it was staged for, if that has not moved on, and selects. -/
def Obligations.CompletionStartsTheTimer : Prop :=
  ∀ (s : State) (l : LineNo) (x : Staged),
    s.phase = .running → (s.line l).state = .active → (s.line l).tx.staged = some x →
    ∃ u t, exec (.completion l) s = .next t ∧ exec (.selectionEvent l) u = .next t
      ∧ u.line l = { s.line l with tx := { (s.line l).tx with staged := none } }
      ∧ (∀ m, m ≠ l → u.line m = s.line m)
      ∧ (∀ j, (u.slot j).generation = (s.slot j).generation)
      ∧ (∀ j, x.noted.map (·.slot) ≠ some j → u.circuit j = s.circuit j)
      ∧ (∀ note c, x.noted = some note → s.circuit note.slot = some c →
          ((s.slot note.slot).generation = note.generation ∧ c.line = note.line ∧ c.number = note.number
              ∧ (c.state.name = note.state
                ∨ c.state.inData = true ∧ (note.state = .opened ∨ note.state = .draining)) →
            u.circuit note.slot = some
              (match x.frame.kind with
              | .openCall => { c with timer := some ⟨.openWait, (s.line c.line).config.openTimeout⟩ }
              | .close => { c with timer := some ⟨.closeWait, (s.line c.line).config.closeTimeout⟩ }
              | .carry =>
                if c.unacked ≠ [] ∧ (x.retransmission = true ∨ c.waits .ackWait = false) then
                  { c with timer := some ⟨.ackWait, (s.line c.line).config.retransmit⟩ }
                else c
              | _ => c))
          ∧ (¬ ((s.slot note.slot).generation = note.generation ∧ c.line = note.line ∧ c.number = note.number
              ∧ (c.state.name = note.state
                ∨ c.state.inData = true ∧ (note.state = .opened ∨ note.state = .draining))) →
            u.circuit note.slot = some c))
      ∧ Keeps [.slots, .lines] s u

/-! ## RESET -/

/-- R169, R170, R171: RESET, its release and the completion of start-up. The READY pins and the queue of commands lie outside the part.
The fields hold their RESET values from the assertion on (log 11). -/
def Obligations.ResetAndStartUp : Prop :=
  ∀ s : State,
    (∃ t, exec .resetAsserted s = .next t ∧ t.phase = .inReset
      ∧ (∀ l, t.line l = { readyPin := (s.line l).readyPin })
      ∧ Keeps [.lines, .pending, .freeCount, .phase] State.reset t ∧ t.pending = s.pending)
    ∧ (s.phase = .inReset →
      ∃ t, exec .startUp s = .next t ∧ t.phase = .starting
        ∧ (∀ l, t.line l = { readyPin := (s.line l).readyPin, readyLevel := (s.line l).readyPin })
        ∧ Keeps [.lines, .pending, .freeCount] State.reset t ∧ t.pending = s.pending)
    ∧ (s.phase = .starting →
      ∃ t, exec .startUpCompletion s = .next t ∧ t.phase = .running
        ∧ (∀ p, t.port p = { s.port p with status := .idle }) ∧ Keeps [.phase, .ports] s t)

/-- R22, R85, R95, R97, R126, R148, R152, R170, R181: what RESET leaves. That it is the state at the release of RESET, with the READY
pins deasserted, is the model's choice (logs 7 and 10). -/
def Obligations.ResetStateIsAsGiven : Prop :=
  State.reset.phase = .starting ∧ State.reset.lastServed = 3
  ∧ (∀ i, State.reset.slot i = { generation := 0, circuit := none })
  ∧ State.reset.freeSlots = List.finRange 192 ∧ (∀ l n, State.reset.lookup l n = none)
  ∧ (∀ b k, State.reset.bufferByte b k = 0) ∧ (∀ b, State.reset.place b = .free)
  ∧ State.reset.freeQueue = List.finRange 512 ∧ State.reset.reservedTotal = 0 ∧ State.reset.floor = 32
  ∧ State.reset.waitQueue = [] ∧ (∀ e, State.reset.entry e = .empty)
  ∧ (∀ l, State.reset.line l =
      { state := .disabled
        config := ⟨.originRole, 20, 50, 20, 50, 50, 4⟩
        discards := 0, losses := 0, reported := .down, changed := false, settleTimer := none, readyLevel := false
        readyPin := false, lon := false, receiver := .off
        tx := { staged := none, control := [], stray := [], ring := [], data := .ones } })
  ∧ (∀ p, State.reset.port p =
      { status := .starting, command := 0, args := {}, result := .ok, results := {}, overrun := false, window := 0,
        windowFault := none, holdoffCount := 0, holdoffTime := 0, attention := [], holdoff := .absent, atn := false })
  ∧ State.reset.pending = []

/-! ## What every step keeps -/

/-- Every step keeps the canonical form of the lists that stand for maps: memory, places, slots and the index map. The lists and their
form are the model's choice (log 15). -/
def Obligations.MapsStayCanonical : Prop :=
  ∀ s t : State, s.canonical → step s = .next t → t.canonical

/-- R81, R83, R86, R89: from a state whose account of reservations and slots is right, every step answers a next state, never a fault,
and the account is right there. Where the credit wait queue is also settled, the step leaves it settled: it is empty or nothing is
available, and the circuits on it are short. -/
def Obligations.ReservationsStayBacked : Prop :=
  (∀ s : State, s.backed → ∃ t, step s = .next t ∧ t.backed)
  ∧ ∀ s t : State, s.backed → s.settled → step s = .next t → t.settled

/-- R178, R179: the level that every judgement gives an ATN output, and that every step leaves all four outputs at it. The outputs are
judged once at the end of a command (log 18). -/
def Obligations.AtnOutputsFollowTheirRules : Prop :=
  (∀ (s : State) (q : PortNo), s.atnLevel q = true ↔ s.atnAsserted q)
  ∧ ∀ s t : State, s.backed → (∀ q, (s.port q).atn = true ↔ s.atnAsserted q) → step s = .next t →
      ∀ q, (t.port q).atn = true ↔ t.atnAsserted q

/-- Every step keeps every line record in agreement with itself. -/
def Obligations.LineRecordsStaySound : Prop :=
  ∀ s t : State, (∀ l, (s.line l).sound) → step s = .next t → ∀ l, (t.line l).sound

/-- The state at the release of RESET meets what every step keeps. That this is the reset state is the model's choice (log 10), and so
is the canonical form (log 15). -/
def Obligations.InvariantsHoldAtReset : Prop :=
  State.reset.canonical ∧ State.reset.backed ∧ State.reset.settled ∧ (∀ l, (State.reset.line l).sound)
  ∧ ∀ q, (State.reset.port q).atn = true ↔ State.reset.atnAsserted q
end

