-- ==== Sys2Proof/Laws/Sparse.lean ====
section
/-! SUPPORT. Maps held as rising lists: what a find gives after an insert, an erase or a set, and that each keeps the canonical form. -/

namespace Sys2Proof.Machine.Sparse

variable {κ α : Type} {key : κ → Nat} {d : α}

@[simp] theorem find_nil (j : Nat) : find key j ([] : List (κ × α)) = none := rfl

/-! ## Finding after an update: no order is needed -/

theorem find_insert (k : κ) (v : α) (j : Nat) (m : List (κ × α)) :
    find key j (insert key k v m) = if j = key k then some v else find key j m := by
  induction m with
  | nil => simp [insert, find, eq_comm]
  | cons e m ih =>
    by_cases hj : j = key k
    · rw [if_pos hj] at ih ⊢
      rw [insert]
      by_cases h1 : key k < key e.1
      · rw [if_pos h1, find, if_pos hj.symm]
      · by_cases h2 : key k = key e.1
        · rw [if_neg h1, if_pos h2, find, if_pos hj.symm]
        · rw [if_neg h1, if_neg h2, find, if_neg (by omega), ih]
    · rw [if_neg hj] at ih ⊢
      rw [insert]
      by_cases h1 : key k < key e.1
      · rw [if_pos h1, find, if_neg (Ne.symm hj)]
      · by_cases h2 : key k = key e.1
        · rw [if_neg h1, if_pos h2, find, find, if_neg (Ne.symm hj), if_neg (by omega)]
        · rw [if_neg h1, if_neg h2, find, find, ih]

theorem find_erase (k j : Nat) (m : List (κ × α)) :
    find key j (erase key k m) = if j = k then none else find key j m := by
  induction m with
  | nil => simp [erase]
  | cons e m ih =>
    by_cases hj : j = k
    · rw [if_pos hj] at ih ⊢
      rw [erase]
      by_cases h1 : key e.1 = k
      · rw [if_pos h1, ih]
      · rw [if_neg h1, find, if_neg (by omega), ih]
    · rw [if_neg hj] at ih ⊢
      rw [erase]
      by_cases h1 : key e.1 = k
      · rw [if_pos h1, ih, find, if_neg (by omega)]
      · rw [if_neg h1, find, find, ih]

theorem get_set [DecidableEq α] (k : κ) (v : α) (j : Nat) (m : List (κ × α)) :
    get key d j (set key d k v m) = if j = key k then v else get key d j m := by
  unfold get set
  split_ifs with h1 h2 h2
  · simp [find_erase, h1, h2]
  · simp [find_erase, h2]
  · simp [find_insert, h2]
  · simp [find_insert, h2]

/-! ## Keys and entries of an update -/

theorem mem_insert {k : κ} {v : α} {m : List (κ × α)} {e : κ × α} (h : e ∈ insert key k v m) :
    e = (k, v) ∨ e ∈ m := by
  induction m with
  | nil => simpa [insert] using h
  | cons x m ih =>
    simp only [insert] at h
    split_ifs at h with h1 h2
    · simpa using h
    · rcases List.mem_cons.1 h with h | h
      · exact .inl h
      · exact .inr (List.mem_cons_of_mem _ h)
    · rcases List.mem_cons.1 h with h | h
      · exact .inr (h ▸ List.mem_cons_self)
      · rcases ih h with h | h
        · exact .inl h
        · exact .inr (List.mem_cons_of_mem _ h)

theorem mem_erase {k : Nat} {m : List (κ × α)} {e : κ × α} (h : e ∈ erase key k m) : e ∈ m := by
  induction m with
  | nil => exact h
  | cons x m ih =>
    simp only [erase] at h
    split_ifs at h
    · exact List.mem_cons_of_mem _ (ih h)
    · rcases List.mem_cons.1 h with h | h
      · exact h ▸ List.mem_cons_self
      · exact List.mem_cons_of_mem _ (ih h)

theorem mem_set [DecidableEq α] {k : κ} {v : α} {m : List (κ × α)} {e : κ × α} (h : e ∈ set key d k v m) :
    e = (k, v) ∨ e ∈ m := by
  unfold set at h
  split_ifs at h
  · exact .inr (mem_erase h)
  · exact mem_insert h

/-! ## The canonical form -/

theorem rising_erase {k : Nat} {m : List (κ × α)} (h : rising key m) : rising key (erase key k m) := by
  induction m with
  | nil => exact h
  | cons x m ih =>
    rw [rising, List.pairwise_cons] at h
    simp only [erase]
    split_ifs
    · exact ih h.2
    · exact List.pairwise_cons.2 ⟨fun e he => h.1 e (mem_erase he), ih h.2⟩

theorem rising_insert {k : κ} {v : α} {m : List (κ × α)} (h : rising key m) : rising key (insert key k v m) := by
  induction m with
  | nil => simp [insert, rising]
  | cons x m ih =>
    have h' := List.pairwise_cons.1 h
    simp only [insert]
    split_ifs with h1 h2
    · refine List.pairwise_cons.2 ⟨fun e he => ?_, h⟩
      rcases List.mem_cons.1 he with he | he
      · subst he; exact h1
      · exact lt_trans h1 (h'.1 e he)
    · exact List.pairwise_cons.2 ⟨fun e he => by simpa [h2] using h'.1 e he, h'.2⟩
    · refine List.pairwise_cons.2 ⟨fun e he => ?_, ih h'.2⟩
      rcases mem_insert he with he | he
      · subst he; simp only; omega
      · exact h'.1 e he

theorem wf_set [DecidableEq α] {k : κ} {v : α} {m : List (κ × α)} (h : wf key d m) : wf key d (set key d k v m) := by
  unfold set
  split_ifs with hv
  · exact ⟨rising_erase h.1, fun e he => h.2 e (mem_erase he)⟩
  · refine ⟨rising_insert h.1, fun e he => ?_⟩
    rcases mem_insert he with he | he
    · subst he; exact hv
    · exact h.2 e he

theorem wf_nil : wf key d ([] : List (κ × α)) := ⟨List.Pairwise.nil, fun _ h => absurd h List.not_mem_nil⟩

end Sys2Proof.Machine.Sparse
end

