-- ==== Sys2Proof/Laws/State.lean ====
section
/-! SUPPORT. What each update of State gives and leaves alone, field by field and reader by reader: every lemma holds by rfl. -/

namespace Sys2Proof.Machine.State

variable (s : State)

/-! ## setReservedTotal -/

@[simp] theorem setReservedTotal_reservedTotal (v : Nat) : (s.setReservedTotal v).reservedTotal = v := rfl
@[simp] theorem setReservedTotal_phase (v : Nat) : (s.setReservedTotal v).phase = s.phase := rfl
@[simp] theorem setReservedTotal_lastServed (v : Nat) : (s.setReservedTotal v).lastServed = s.lastServed := rfl
@[simp] theorem setReservedTotal_slots (v : Nat) : (s.setReservedTotal v).slots = s.slots := rfl
@[simp] theorem setReservedTotal_freeSlots (v : Nat) : (s.setReservedTotal v).freeSlots = s.freeSlots := rfl
@[simp] theorem setReservedTotal_index (v : Nat) : (s.setReservedTotal v).index = s.index := rfl
@[simp] theorem setReservedTotal_memory (v : Nat) : (s.setReservedTotal v).memory = s.memory := rfl
@[simp] theorem setReservedTotal_places (v : Nat) : (s.setReservedTotal v).places = s.places := rfl
@[simp] theorem setReservedTotal_freeQueue (v : Nat) : (s.setReservedTotal v).freeQueue = s.freeQueue := rfl
@[simp] theorem setReservedTotal_floor (v : Nat) : (s.setReservedTotal v).floor = s.floor := rfl
@[simp] theorem setReservedTotal_waitQueue (v : Nat) : (s.setReservedTotal v).waitQueue = s.waitQueue := rfl
@[simp] theorem setReservedTotal_services (v : Nat) : (s.setReservedTotal v).services = s.services := rfl
@[simp] theorem setReservedTotal_lines (v : Nat) : (s.setReservedTotal v).lines = s.lines := rfl
@[simp] theorem setReservedTotal_ports (v : Nat) : (s.setReservedTotal v).ports = s.ports := rfl
@[simp] theorem setReservedTotal_readData (v : Nat) : (s.setReservedTotal v).readData = s.readData := rfl
@[simp] theorem setReservedTotal_freeCount (v : Nat) : (s.setReservedTotal v).freeCount = s.freeCount := rfl
@[simp] theorem setReservedTotal_pending (v : Nat) : (s.setReservedTotal v).pending = s.pending := rfl
@[simp] theorem port_setReservedTotal (v : Nat) (q : PortNo) : (s.setReservedTotal v).port q = s.port q := rfl
@[simp] theorem line_setReservedTotal (v : Nat) (m : LineNo) : (s.setReservedTotal v).line m = s.line m := rfl
@[simp] theorem entry_setReservedTotal (v : Nat) (d : EntryNo) : (s.setReservedTotal v).entry d = s.entry d := rfl
@[simp] theorem slot_setReservedTotal (v : Nat) (j : SlotNo) : (s.setReservedTotal v).slot j = s.slot j := rfl
@[simp] theorem circuit_setReservedTotal (v : Nat) (j : SlotNo) : (s.setReservedTotal v).circuit j = s.circuit j := rfl
@[simp] theorem lookup_setReservedTotal (v : Nat) (m : LineNo) (o : Byte) : (s.setReservedTotal v).lookup m o = s.lookup m o := rfl
@[simp] theorem place_setReservedTotal (v : Nat) (a : BufNo) : (s.setReservedTotal v).place a = s.place a := rfl
@[simp] theorem bufferByte_setReservedTotal (v : Nat) (a : BufNo) (h : Nat) : (s.setReservedTotal v).bufferByte a h = s.bufferByte a h := rfl

/-! ## setWaitQueue -/

@[simp] theorem setWaitQueue_waitQueue (v : List SlotNo) : (s.setWaitQueue v).waitQueue = v := rfl
@[simp] theorem setWaitQueue_phase (v : List SlotNo) : (s.setWaitQueue v).phase = s.phase := rfl
@[simp] theorem setWaitQueue_lastServed (v : List SlotNo) : (s.setWaitQueue v).lastServed = s.lastServed := rfl
@[simp] theorem setWaitQueue_slots (v : List SlotNo) : (s.setWaitQueue v).slots = s.slots := rfl
@[simp] theorem setWaitQueue_freeSlots (v : List SlotNo) : (s.setWaitQueue v).freeSlots = s.freeSlots := rfl
@[simp] theorem setWaitQueue_index (v : List SlotNo) : (s.setWaitQueue v).index = s.index := rfl
@[simp] theorem setWaitQueue_memory (v : List SlotNo) : (s.setWaitQueue v).memory = s.memory := rfl
@[simp] theorem setWaitQueue_places (v : List SlotNo) : (s.setWaitQueue v).places = s.places := rfl
@[simp] theorem setWaitQueue_freeQueue (v : List SlotNo) : (s.setWaitQueue v).freeQueue = s.freeQueue := rfl
@[simp] theorem setWaitQueue_reservedTotal (v : List SlotNo) : (s.setWaitQueue v).reservedTotal = s.reservedTotal := rfl
@[simp] theorem setWaitQueue_floor (v : List SlotNo) : (s.setWaitQueue v).floor = s.floor := rfl
@[simp] theorem setWaitQueue_services (v : List SlotNo) : (s.setWaitQueue v).services = s.services := rfl
@[simp] theorem setWaitQueue_lines (v : List SlotNo) : (s.setWaitQueue v).lines = s.lines := rfl
@[simp] theorem setWaitQueue_ports (v : List SlotNo) : (s.setWaitQueue v).ports = s.ports := rfl
@[simp] theorem setWaitQueue_readData (v : List SlotNo) : (s.setWaitQueue v).readData = s.readData := rfl
@[simp] theorem setWaitQueue_freeCount (v : List SlotNo) : (s.setWaitQueue v).freeCount = s.freeCount := rfl
@[simp] theorem setWaitQueue_pending (v : List SlotNo) : (s.setWaitQueue v).pending = s.pending := rfl
@[simp] theorem port_setWaitQueue (v : List SlotNo) (q : PortNo) : (s.setWaitQueue v).port q = s.port q := rfl
@[simp] theorem line_setWaitQueue (v : List SlotNo) (m : LineNo) : (s.setWaitQueue v).line m = s.line m := rfl
@[simp] theorem entry_setWaitQueue (v : List SlotNo) (d : EntryNo) : (s.setWaitQueue v).entry d = s.entry d := rfl
@[simp] theorem slot_setWaitQueue (v : List SlotNo) (j : SlotNo) : (s.setWaitQueue v).slot j = s.slot j := rfl
@[simp] theorem circuit_setWaitQueue (v : List SlotNo) (j : SlotNo) : (s.setWaitQueue v).circuit j = s.circuit j := rfl
@[simp] theorem lookup_setWaitQueue (v : List SlotNo) (m : LineNo) (o : Byte) : (s.setWaitQueue v).lookup m o = s.lookup m o := rfl
@[simp] theorem place_setWaitQueue (v : List SlotNo) (a : BufNo) : (s.setWaitQueue v).place a = s.place a := rfl
@[simp] theorem bufferByte_setWaitQueue (v : List SlotNo) (a : BufNo) (h : Nat) : (s.setWaitQueue v).bufferByte a h = s.bufferByte a h := rfl

/-! ## setFreeQueue -/

@[simp] theorem setFreeQueue_freeQueue (v : List BufNo) : (s.setFreeQueue v).freeQueue = v := rfl
@[simp] theorem setFreeQueue_phase (v : List BufNo) : (s.setFreeQueue v).phase = s.phase := rfl
@[simp] theorem setFreeQueue_lastServed (v : List BufNo) : (s.setFreeQueue v).lastServed = s.lastServed := rfl
@[simp] theorem setFreeQueue_slots (v : List BufNo) : (s.setFreeQueue v).slots = s.slots := rfl
@[simp] theorem setFreeQueue_freeSlots (v : List BufNo) : (s.setFreeQueue v).freeSlots = s.freeSlots := rfl
@[simp] theorem setFreeQueue_index (v : List BufNo) : (s.setFreeQueue v).index = s.index := rfl
@[simp] theorem setFreeQueue_memory (v : List BufNo) : (s.setFreeQueue v).memory = s.memory := rfl
@[simp] theorem setFreeQueue_places (v : List BufNo) : (s.setFreeQueue v).places = s.places := rfl
@[simp] theorem setFreeQueue_reservedTotal (v : List BufNo) : (s.setFreeQueue v).reservedTotal = s.reservedTotal := rfl
@[simp] theorem setFreeQueue_floor (v : List BufNo) : (s.setFreeQueue v).floor = s.floor := rfl
@[simp] theorem setFreeQueue_waitQueue (v : List BufNo) : (s.setFreeQueue v).waitQueue = s.waitQueue := rfl
@[simp] theorem setFreeQueue_services (v : List BufNo) : (s.setFreeQueue v).services = s.services := rfl
@[simp] theorem setFreeQueue_lines (v : List BufNo) : (s.setFreeQueue v).lines = s.lines := rfl
@[simp] theorem setFreeQueue_ports (v : List BufNo) : (s.setFreeQueue v).ports = s.ports := rfl
@[simp] theorem setFreeQueue_readData (v : List BufNo) : (s.setFreeQueue v).readData = s.readData := rfl
@[simp] theorem setFreeQueue_freeCount (v : List BufNo) : (s.setFreeQueue v).freeCount = s.freeCount := rfl
@[simp] theorem setFreeQueue_pending (v : List BufNo) : (s.setFreeQueue v).pending = s.pending := rfl
@[simp] theorem port_setFreeQueue (v : List BufNo) (q : PortNo) : (s.setFreeQueue v).port q = s.port q := rfl
@[simp] theorem line_setFreeQueue (v : List BufNo) (m : LineNo) : (s.setFreeQueue v).line m = s.line m := rfl
@[simp] theorem entry_setFreeQueue (v : List BufNo) (d : EntryNo) : (s.setFreeQueue v).entry d = s.entry d := rfl
@[simp] theorem slot_setFreeQueue (v : List BufNo) (j : SlotNo) : (s.setFreeQueue v).slot j = s.slot j := rfl
@[simp] theorem circuit_setFreeQueue (v : List BufNo) (j : SlotNo) : (s.setFreeQueue v).circuit j = s.circuit j := rfl
@[simp] theorem lookup_setFreeQueue (v : List BufNo) (m : LineNo) (o : Byte) : (s.setFreeQueue v).lookup m o = s.lookup m o := rfl
@[simp] theorem place_setFreeQueue (v : List BufNo) (a : BufNo) : (s.setFreeQueue v).place a = s.place a := rfl
@[simp] theorem bufferByte_setFreeQueue (v : List BufNo) (a : BufNo) (h : Nat) : (s.setFreeQueue v).bufferByte a h = s.bufferByte a h := rfl

/-! ## setFreeSlots -/

@[simp] theorem setFreeSlots_freeSlots (v : List SlotNo) : (s.setFreeSlots v).freeSlots = v := rfl
@[simp] theorem setFreeSlots_phase (v : List SlotNo) : (s.setFreeSlots v).phase = s.phase := rfl
@[simp] theorem setFreeSlots_lastServed (v : List SlotNo) : (s.setFreeSlots v).lastServed = s.lastServed := rfl
@[simp] theorem setFreeSlots_slots (v : List SlotNo) : (s.setFreeSlots v).slots = s.slots := rfl
@[simp] theorem setFreeSlots_index (v : List SlotNo) : (s.setFreeSlots v).index = s.index := rfl
@[simp] theorem setFreeSlots_memory (v : List SlotNo) : (s.setFreeSlots v).memory = s.memory := rfl
@[simp] theorem setFreeSlots_places (v : List SlotNo) : (s.setFreeSlots v).places = s.places := rfl
@[simp] theorem setFreeSlots_freeQueue (v : List SlotNo) : (s.setFreeSlots v).freeQueue = s.freeQueue := rfl
@[simp] theorem setFreeSlots_reservedTotal (v : List SlotNo) : (s.setFreeSlots v).reservedTotal = s.reservedTotal := rfl
@[simp] theorem setFreeSlots_floor (v : List SlotNo) : (s.setFreeSlots v).floor = s.floor := rfl
@[simp] theorem setFreeSlots_waitQueue (v : List SlotNo) : (s.setFreeSlots v).waitQueue = s.waitQueue := rfl
@[simp] theorem setFreeSlots_services (v : List SlotNo) : (s.setFreeSlots v).services = s.services := rfl
@[simp] theorem setFreeSlots_lines (v : List SlotNo) : (s.setFreeSlots v).lines = s.lines := rfl
@[simp] theorem setFreeSlots_ports (v : List SlotNo) : (s.setFreeSlots v).ports = s.ports := rfl
@[simp] theorem setFreeSlots_readData (v : List SlotNo) : (s.setFreeSlots v).readData = s.readData := rfl
@[simp] theorem setFreeSlots_freeCount (v : List SlotNo) : (s.setFreeSlots v).freeCount = s.freeCount := rfl
@[simp] theorem setFreeSlots_pending (v : List SlotNo) : (s.setFreeSlots v).pending = s.pending := rfl
@[simp] theorem port_setFreeSlots (v : List SlotNo) (q : PortNo) : (s.setFreeSlots v).port q = s.port q := rfl
@[simp] theorem line_setFreeSlots (v : List SlotNo) (m : LineNo) : (s.setFreeSlots v).line m = s.line m := rfl
@[simp] theorem entry_setFreeSlots (v : List SlotNo) (d : EntryNo) : (s.setFreeSlots v).entry d = s.entry d := rfl
@[simp] theorem slot_setFreeSlots (v : List SlotNo) (j : SlotNo) : (s.setFreeSlots v).slot j = s.slot j := rfl
@[simp] theorem circuit_setFreeSlots (v : List SlotNo) (j : SlotNo) : (s.setFreeSlots v).circuit j = s.circuit j := rfl
@[simp] theorem lookup_setFreeSlots (v : List SlotNo) (m : LineNo) (o : Byte) : (s.setFreeSlots v).lookup m o = s.lookup m o := rfl
@[simp] theorem place_setFreeSlots (v : List SlotNo) (a : BufNo) : (s.setFreeSlots v).place a = s.place a := rfl
@[simp] theorem bufferByte_setFreeSlots (v : List SlotNo) (a : BufNo) (h : Nat) : (s.setFreeSlots v).bufferByte a h = s.bufferByte a h := rfl

/-! ## setFloor -/

@[simp] theorem setFloor_floor (v : Nat) : (s.setFloor v).floor = v := rfl
@[simp] theorem setFloor_phase (v : Nat) : (s.setFloor v).phase = s.phase := rfl
@[simp] theorem setFloor_lastServed (v : Nat) : (s.setFloor v).lastServed = s.lastServed := rfl
@[simp] theorem setFloor_slots (v : Nat) : (s.setFloor v).slots = s.slots := rfl
@[simp] theorem setFloor_freeSlots (v : Nat) : (s.setFloor v).freeSlots = s.freeSlots := rfl
@[simp] theorem setFloor_index (v : Nat) : (s.setFloor v).index = s.index := rfl
@[simp] theorem setFloor_memory (v : Nat) : (s.setFloor v).memory = s.memory := rfl
@[simp] theorem setFloor_places (v : Nat) : (s.setFloor v).places = s.places := rfl
@[simp] theorem setFloor_freeQueue (v : Nat) : (s.setFloor v).freeQueue = s.freeQueue := rfl
@[simp] theorem setFloor_reservedTotal (v : Nat) : (s.setFloor v).reservedTotal = s.reservedTotal := rfl
@[simp] theorem setFloor_waitQueue (v : Nat) : (s.setFloor v).waitQueue = s.waitQueue := rfl
@[simp] theorem setFloor_services (v : Nat) : (s.setFloor v).services = s.services := rfl
@[simp] theorem setFloor_lines (v : Nat) : (s.setFloor v).lines = s.lines := rfl
@[simp] theorem setFloor_ports (v : Nat) : (s.setFloor v).ports = s.ports := rfl
@[simp] theorem setFloor_readData (v : Nat) : (s.setFloor v).readData = s.readData := rfl
@[simp] theorem setFloor_freeCount (v : Nat) : (s.setFloor v).freeCount = s.freeCount := rfl
@[simp] theorem setFloor_pending (v : Nat) : (s.setFloor v).pending = s.pending := rfl
@[simp] theorem port_setFloor (v : Nat) (q : PortNo) : (s.setFloor v).port q = s.port q := rfl
@[simp] theorem line_setFloor (v : Nat) (m : LineNo) : (s.setFloor v).line m = s.line m := rfl
@[simp] theorem entry_setFloor (v : Nat) (d : EntryNo) : (s.setFloor v).entry d = s.entry d := rfl
@[simp] theorem slot_setFloor (v : Nat) (j : SlotNo) : (s.setFloor v).slot j = s.slot j := rfl
@[simp] theorem circuit_setFloor (v : Nat) (j : SlotNo) : (s.setFloor v).circuit j = s.circuit j := rfl
@[simp] theorem lookup_setFloor (v : Nat) (m : LineNo) (o : Byte) : (s.setFloor v).lookup m o = s.lookup m o := rfl
@[simp] theorem place_setFloor (v : Nat) (a : BufNo) : (s.setFloor v).place a = s.place a := rfl
@[simp] theorem bufferByte_setFloor (v : Nat) (a : BufNo) (h : Nat) : (s.setFloor v).bufferByte a h = s.bufferByte a h := rfl

/-! ## setLastServed -/

@[simp] theorem setLastServed_lastServed (v : PortNo) : (s.setLastServed v).lastServed = v := rfl
@[simp] theorem setLastServed_phase (v : PortNo) : (s.setLastServed v).phase = s.phase := rfl
@[simp] theorem setLastServed_slots (v : PortNo) : (s.setLastServed v).slots = s.slots := rfl
@[simp] theorem setLastServed_freeSlots (v : PortNo) : (s.setLastServed v).freeSlots = s.freeSlots := rfl
@[simp] theorem setLastServed_index (v : PortNo) : (s.setLastServed v).index = s.index := rfl
@[simp] theorem setLastServed_memory (v : PortNo) : (s.setLastServed v).memory = s.memory := rfl
@[simp] theorem setLastServed_places (v : PortNo) : (s.setLastServed v).places = s.places := rfl
@[simp] theorem setLastServed_freeQueue (v : PortNo) : (s.setLastServed v).freeQueue = s.freeQueue := rfl
@[simp] theorem setLastServed_reservedTotal (v : PortNo) : (s.setLastServed v).reservedTotal = s.reservedTotal := rfl
@[simp] theorem setLastServed_floor (v : PortNo) : (s.setLastServed v).floor = s.floor := rfl
@[simp] theorem setLastServed_waitQueue (v : PortNo) : (s.setLastServed v).waitQueue = s.waitQueue := rfl
@[simp] theorem setLastServed_services (v : PortNo) : (s.setLastServed v).services = s.services := rfl
@[simp] theorem setLastServed_lines (v : PortNo) : (s.setLastServed v).lines = s.lines := rfl
@[simp] theorem setLastServed_ports (v : PortNo) : (s.setLastServed v).ports = s.ports := rfl
@[simp] theorem setLastServed_readData (v : PortNo) : (s.setLastServed v).readData = s.readData := rfl
@[simp] theorem setLastServed_freeCount (v : PortNo) : (s.setLastServed v).freeCount = s.freeCount := rfl
@[simp] theorem setLastServed_pending (v : PortNo) : (s.setLastServed v).pending = s.pending := rfl
@[simp] theorem port_setLastServed (v : PortNo) (q : PortNo) : (s.setLastServed v).port q = s.port q := rfl
@[simp] theorem line_setLastServed (v : PortNo) (m : LineNo) : (s.setLastServed v).line m = s.line m := rfl
@[simp] theorem entry_setLastServed (v : PortNo) (d : EntryNo) : (s.setLastServed v).entry d = s.entry d := rfl
@[simp] theorem slot_setLastServed (v : PortNo) (j : SlotNo) : (s.setLastServed v).slot j = s.slot j := rfl
@[simp] theorem circuit_setLastServed (v : PortNo) (j : SlotNo) : (s.setLastServed v).circuit j = s.circuit j := rfl
@[simp] theorem lookup_setLastServed (v : PortNo) (m : LineNo) (o : Byte) : (s.setLastServed v).lookup m o = s.lookup m o := rfl
@[simp] theorem place_setLastServed (v : PortNo) (a : BufNo) : (s.setLastServed v).place a = s.place a := rfl
@[simp] theorem bufferByte_setLastServed (v : PortNo) (a : BufNo) (h : Nat) : (s.setLastServed v).bufferByte a h = s.bufferByte a h := rfl

/-! ## setReadData -/

@[simp] theorem setReadData_readData (v : ReadData) : (s.setReadData v).readData = v := rfl
@[simp] theorem setReadData_phase (v : ReadData) : (s.setReadData v).phase = s.phase := rfl
@[simp] theorem setReadData_lastServed (v : ReadData) : (s.setReadData v).lastServed = s.lastServed := rfl
@[simp] theorem setReadData_slots (v : ReadData) : (s.setReadData v).slots = s.slots := rfl
@[simp] theorem setReadData_freeSlots (v : ReadData) : (s.setReadData v).freeSlots = s.freeSlots := rfl
@[simp] theorem setReadData_index (v : ReadData) : (s.setReadData v).index = s.index := rfl
@[simp] theorem setReadData_memory (v : ReadData) : (s.setReadData v).memory = s.memory := rfl
@[simp] theorem setReadData_places (v : ReadData) : (s.setReadData v).places = s.places := rfl
@[simp] theorem setReadData_freeQueue (v : ReadData) : (s.setReadData v).freeQueue = s.freeQueue := rfl
@[simp] theorem setReadData_reservedTotal (v : ReadData) : (s.setReadData v).reservedTotal = s.reservedTotal := rfl
@[simp] theorem setReadData_floor (v : ReadData) : (s.setReadData v).floor = s.floor := rfl
@[simp] theorem setReadData_waitQueue (v : ReadData) : (s.setReadData v).waitQueue = s.waitQueue := rfl
@[simp] theorem setReadData_services (v : ReadData) : (s.setReadData v).services = s.services := rfl
@[simp] theorem setReadData_lines (v : ReadData) : (s.setReadData v).lines = s.lines := rfl
@[simp] theorem setReadData_ports (v : ReadData) : (s.setReadData v).ports = s.ports := rfl
@[simp] theorem setReadData_freeCount (v : ReadData) : (s.setReadData v).freeCount = s.freeCount := rfl
@[simp] theorem setReadData_pending (v : ReadData) : (s.setReadData v).pending = s.pending := rfl
@[simp] theorem port_setReadData (v : ReadData) (q : PortNo) : (s.setReadData v).port q = s.port q := rfl
@[simp] theorem line_setReadData (v : ReadData) (m : LineNo) : (s.setReadData v).line m = s.line m := rfl
@[simp] theorem entry_setReadData (v : ReadData) (d : EntryNo) : (s.setReadData v).entry d = s.entry d := rfl
@[simp] theorem slot_setReadData (v : ReadData) (j : SlotNo) : (s.setReadData v).slot j = s.slot j := rfl
@[simp] theorem circuit_setReadData (v : ReadData) (j : SlotNo) : (s.setReadData v).circuit j = s.circuit j := rfl
@[simp] theorem lookup_setReadData (v : ReadData) (m : LineNo) (o : Byte) : (s.setReadData v).lookup m o = s.lookup m o := rfl
@[simp] theorem place_setReadData (v : ReadData) (a : BufNo) : (s.setReadData v).place a = s.place a := rfl
@[simp] theorem bufferByte_setReadData (v : ReadData) (a : BufNo) (h : Nat) : (s.setReadData v).bufferByte a h = s.bufferByte a h := rfl

/-! ## setFreeCount -/

@[simp] theorem setFreeCount_freeCount (v : Nat) : (s.setFreeCount v).freeCount = v := rfl
@[simp] theorem setFreeCount_phase (v : Nat) : (s.setFreeCount v).phase = s.phase := rfl
@[simp] theorem setFreeCount_lastServed (v : Nat) : (s.setFreeCount v).lastServed = s.lastServed := rfl
@[simp] theorem setFreeCount_slots (v : Nat) : (s.setFreeCount v).slots = s.slots := rfl
@[simp] theorem setFreeCount_freeSlots (v : Nat) : (s.setFreeCount v).freeSlots = s.freeSlots := rfl
@[simp] theorem setFreeCount_index (v : Nat) : (s.setFreeCount v).index = s.index := rfl
@[simp] theorem setFreeCount_memory (v : Nat) : (s.setFreeCount v).memory = s.memory := rfl
@[simp] theorem setFreeCount_places (v : Nat) : (s.setFreeCount v).places = s.places := rfl
@[simp] theorem setFreeCount_freeQueue (v : Nat) : (s.setFreeCount v).freeQueue = s.freeQueue := rfl
@[simp] theorem setFreeCount_reservedTotal (v : Nat) : (s.setFreeCount v).reservedTotal = s.reservedTotal := rfl
@[simp] theorem setFreeCount_floor (v : Nat) : (s.setFreeCount v).floor = s.floor := rfl
@[simp] theorem setFreeCount_waitQueue (v : Nat) : (s.setFreeCount v).waitQueue = s.waitQueue := rfl
@[simp] theorem setFreeCount_services (v : Nat) : (s.setFreeCount v).services = s.services := rfl
@[simp] theorem setFreeCount_lines (v : Nat) : (s.setFreeCount v).lines = s.lines := rfl
@[simp] theorem setFreeCount_ports (v : Nat) : (s.setFreeCount v).ports = s.ports := rfl
@[simp] theorem setFreeCount_readData (v : Nat) : (s.setFreeCount v).readData = s.readData := rfl
@[simp] theorem setFreeCount_pending (v : Nat) : (s.setFreeCount v).pending = s.pending := rfl
@[simp] theorem port_setFreeCount (v : Nat) (q : PortNo) : (s.setFreeCount v).port q = s.port q := rfl
@[simp] theorem line_setFreeCount (v : Nat) (m : LineNo) : (s.setFreeCount v).line m = s.line m := rfl
@[simp] theorem entry_setFreeCount (v : Nat) (d : EntryNo) : (s.setFreeCount v).entry d = s.entry d := rfl
@[simp] theorem slot_setFreeCount (v : Nat) (j : SlotNo) : (s.setFreeCount v).slot j = s.slot j := rfl
@[simp] theorem circuit_setFreeCount (v : Nat) (j : SlotNo) : (s.setFreeCount v).circuit j = s.circuit j := rfl
@[simp] theorem lookup_setFreeCount (v : Nat) (m : LineNo) (o : Byte) : (s.setFreeCount v).lookup m o = s.lookup m o := rfl
@[simp] theorem place_setFreeCount (v : Nat) (a : BufNo) : (s.setFreeCount v).place a = s.place a := rfl
@[simp] theorem bufferByte_setFreeCount (v : Nat) (a : BufNo) (h : Nat) : (s.setFreeCount v).bufferByte a h = s.bufferByte a h := rfl

/-! ## setPort -/

@[simp] theorem setPort_phase (p : PortNo) (r : Port) : (s.setPort p r).phase = s.phase := rfl
@[simp] theorem setPort_lastServed (p : PortNo) (r : Port) : (s.setPort p r).lastServed = s.lastServed := rfl
@[simp] theorem setPort_slots (p : PortNo) (r : Port) : (s.setPort p r).slots = s.slots := rfl
@[simp] theorem setPort_freeSlots (p : PortNo) (r : Port) : (s.setPort p r).freeSlots = s.freeSlots := rfl
@[simp] theorem setPort_index (p : PortNo) (r : Port) : (s.setPort p r).index = s.index := rfl
@[simp] theorem setPort_memory (p : PortNo) (r : Port) : (s.setPort p r).memory = s.memory := rfl
@[simp] theorem setPort_places (p : PortNo) (r : Port) : (s.setPort p r).places = s.places := rfl
@[simp] theorem setPort_freeQueue (p : PortNo) (r : Port) : (s.setPort p r).freeQueue = s.freeQueue := rfl
@[simp] theorem setPort_reservedTotal (p : PortNo) (r : Port) : (s.setPort p r).reservedTotal = s.reservedTotal := rfl
@[simp] theorem setPort_floor (p : PortNo) (r : Port) : (s.setPort p r).floor = s.floor := rfl
@[simp] theorem setPort_waitQueue (p : PortNo) (r : Port) : (s.setPort p r).waitQueue = s.waitQueue := rfl
@[simp] theorem setPort_services (p : PortNo) (r : Port) : (s.setPort p r).services = s.services := rfl
@[simp] theorem setPort_lines (p : PortNo) (r : Port) : (s.setPort p r).lines = s.lines := rfl
@[simp] theorem setPort_readData (p : PortNo) (r : Port) : (s.setPort p r).readData = s.readData := rfl
@[simp] theorem setPort_freeCount (p : PortNo) (r : Port) : (s.setPort p r).freeCount = s.freeCount := rfl
@[simp] theorem setPort_pending (p : PortNo) (r : Port) : (s.setPort p r).pending = s.pending := rfl
@[simp] theorem line_setPort (p : PortNo) (r : Port) (m : LineNo) : (s.setPort p r).line m = s.line m := rfl
@[simp] theorem entry_setPort (p : PortNo) (r : Port) (d : EntryNo) : (s.setPort p r).entry d = s.entry d := rfl
@[simp] theorem slot_setPort (p : PortNo) (r : Port) (j : SlotNo) : (s.setPort p r).slot j = s.slot j := rfl
@[simp] theorem circuit_setPort (p : PortNo) (r : Port) (j : SlotNo) : (s.setPort p r).circuit j = s.circuit j := rfl
@[simp] theorem lookup_setPort (p : PortNo) (r : Port) (m : LineNo) (o : Byte) : (s.setPort p r).lookup m o = s.lookup m o := rfl
@[simp] theorem place_setPort (p : PortNo) (r : Port) (a : BufNo) : (s.setPort p r).place a = s.place a := rfl
@[simp] theorem bufferByte_setPort (p : PortNo) (r : Port) (a : BufNo) (h : Nat) : (s.setPort p r).bufferByte a h = s.bufferByte a h := rfl

/-! ## modPort -/

@[simp] theorem modPort_phase (p : PortNo) (f : Port → Port) : (s.modPort p f).phase = s.phase := rfl
@[simp] theorem modPort_lastServed (p : PortNo) (f : Port → Port) : (s.modPort p f).lastServed = s.lastServed := rfl
@[simp] theorem modPort_slots (p : PortNo) (f : Port → Port) : (s.modPort p f).slots = s.slots := rfl
@[simp] theorem modPort_freeSlots (p : PortNo) (f : Port → Port) : (s.modPort p f).freeSlots = s.freeSlots := rfl
@[simp] theorem modPort_index (p : PortNo) (f : Port → Port) : (s.modPort p f).index = s.index := rfl
@[simp] theorem modPort_memory (p : PortNo) (f : Port → Port) : (s.modPort p f).memory = s.memory := rfl
@[simp] theorem modPort_places (p : PortNo) (f : Port → Port) : (s.modPort p f).places = s.places := rfl
@[simp] theorem modPort_freeQueue (p : PortNo) (f : Port → Port) : (s.modPort p f).freeQueue = s.freeQueue := rfl
@[simp] theorem modPort_reservedTotal (p : PortNo) (f : Port → Port) : (s.modPort p f).reservedTotal = s.reservedTotal := rfl
@[simp] theorem modPort_floor (p : PortNo) (f : Port → Port) : (s.modPort p f).floor = s.floor := rfl
@[simp] theorem modPort_waitQueue (p : PortNo) (f : Port → Port) : (s.modPort p f).waitQueue = s.waitQueue := rfl
@[simp] theorem modPort_services (p : PortNo) (f : Port → Port) : (s.modPort p f).services = s.services := rfl
@[simp] theorem modPort_lines (p : PortNo) (f : Port → Port) : (s.modPort p f).lines = s.lines := rfl
@[simp] theorem modPort_readData (p : PortNo) (f : Port → Port) : (s.modPort p f).readData = s.readData := rfl
@[simp] theorem modPort_freeCount (p : PortNo) (f : Port → Port) : (s.modPort p f).freeCount = s.freeCount := rfl
@[simp] theorem modPort_pending (p : PortNo) (f : Port → Port) : (s.modPort p f).pending = s.pending := rfl
@[simp] theorem line_modPort (p : PortNo) (f : Port → Port) (m : LineNo) : (s.modPort p f).line m = s.line m := rfl
@[simp] theorem entry_modPort (p : PortNo) (f : Port → Port) (d : EntryNo) : (s.modPort p f).entry d = s.entry d := rfl
@[simp] theorem slot_modPort (p : PortNo) (f : Port → Port) (j : SlotNo) : (s.modPort p f).slot j = s.slot j := rfl
@[simp] theorem circuit_modPort (p : PortNo) (f : Port → Port) (j : SlotNo) : (s.modPort p f).circuit j = s.circuit j := rfl
@[simp] theorem lookup_modPort (p : PortNo) (f : Port → Port) (m : LineNo) (o : Byte) : (s.modPort p f).lookup m o = s.lookup m o := rfl
@[simp] theorem place_modPort (p : PortNo) (f : Port → Port) (a : BufNo) : (s.modPort p f).place a = s.place a := rfl
@[simp] theorem bufferByte_modPort (p : PortNo) (f : Port → Port) (a : BufNo) (h : Nat) : (s.modPort p f).bufferByte a h = s.bufferByte a h := rfl

/-! ## setLine -/

@[simp] theorem setLine_phase (l : LineNo) (r : Line) : (s.setLine l r).phase = s.phase := rfl
@[simp] theorem setLine_lastServed (l : LineNo) (r : Line) : (s.setLine l r).lastServed = s.lastServed := rfl
@[simp] theorem setLine_slots (l : LineNo) (r : Line) : (s.setLine l r).slots = s.slots := rfl
@[simp] theorem setLine_freeSlots (l : LineNo) (r : Line) : (s.setLine l r).freeSlots = s.freeSlots := rfl
@[simp] theorem setLine_index (l : LineNo) (r : Line) : (s.setLine l r).index = s.index := rfl
@[simp] theorem setLine_memory (l : LineNo) (r : Line) : (s.setLine l r).memory = s.memory := rfl
@[simp] theorem setLine_places (l : LineNo) (r : Line) : (s.setLine l r).places = s.places := rfl
@[simp] theorem setLine_freeQueue (l : LineNo) (r : Line) : (s.setLine l r).freeQueue = s.freeQueue := rfl
@[simp] theorem setLine_reservedTotal (l : LineNo) (r : Line) : (s.setLine l r).reservedTotal = s.reservedTotal := rfl
@[simp] theorem setLine_floor (l : LineNo) (r : Line) : (s.setLine l r).floor = s.floor := rfl
@[simp] theorem setLine_waitQueue (l : LineNo) (r : Line) : (s.setLine l r).waitQueue = s.waitQueue := rfl
@[simp] theorem setLine_services (l : LineNo) (r : Line) : (s.setLine l r).services = s.services := rfl
@[simp] theorem setLine_ports (l : LineNo) (r : Line) : (s.setLine l r).ports = s.ports := rfl
@[simp] theorem setLine_readData (l : LineNo) (r : Line) : (s.setLine l r).readData = s.readData := rfl
@[simp] theorem setLine_freeCount (l : LineNo) (r : Line) : (s.setLine l r).freeCount = s.freeCount := rfl
@[simp] theorem setLine_pending (l : LineNo) (r : Line) : (s.setLine l r).pending = s.pending := rfl
@[simp] theorem port_setLine (l : LineNo) (r : Line) (q : PortNo) : (s.setLine l r).port q = s.port q := rfl
@[simp] theorem entry_setLine (l : LineNo) (r : Line) (d : EntryNo) : (s.setLine l r).entry d = s.entry d := rfl
@[simp] theorem slot_setLine (l : LineNo) (r : Line) (j : SlotNo) : (s.setLine l r).slot j = s.slot j := rfl
@[simp] theorem circuit_setLine (l : LineNo) (r : Line) (j : SlotNo) : (s.setLine l r).circuit j = s.circuit j := rfl
@[simp] theorem lookup_setLine (l : LineNo) (r : Line) (m : LineNo) (o : Byte) : (s.setLine l r).lookup m o = s.lookup m o := rfl
@[simp] theorem place_setLine (l : LineNo) (r : Line) (a : BufNo) : (s.setLine l r).place a = s.place a := rfl
@[simp] theorem bufferByte_setLine (l : LineNo) (r : Line) (a : BufNo) (h : Nat) : (s.setLine l r).bufferByte a h = s.bufferByte a h := rfl

/-! ## modLine -/

@[simp] theorem modLine_phase (l : LineNo) (f : Line → Line) : (s.modLine l f).phase = s.phase := rfl
@[simp] theorem modLine_lastServed (l : LineNo) (f : Line → Line) : (s.modLine l f).lastServed = s.lastServed := rfl
@[simp] theorem modLine_slots (l : LineNo) (f : Line → Line) : (s.modLine l f).slots = s.slots := rfl
@[simp] theorem modLine_freeSlots (l : LineNo) (f : Line → Line) : (s.modLine l f).freeSlots = s.freeSlots := rfl
@[simp] theorem modLine_index (l : LineNo) (f : Line → Line) : (s.modLine l f).index = s.index := rfl
@[simp] theorem modLine_memory (l : LineNo) (f : Line → Line) : (s.modLine l f).memory = s.memory := rfl
@[simp] theorem modLine_places (l : LineNo) (f : Line → Line) : (s.modLine l f).places = s.places := rfl
@[simp] theorem modLine_freeQueue (l : LineNo) (f : Line → Line) : (s.modLine l f).freeQueue = s.freeQueue := rfl
@[simp] theorem modLine_reservedTotal (l : LineNo) (f : Line → Line) : (s.modLine l f).reservedTotal = s.reservedTotal := rfl
@[simp] theorem modLine_floor (l : LineNo) (f : Line → Line) : (s.modLine l f).floor = s.floor := rfl
@[simp] theorem modLine_waitQueue (l : LineNo) (f : Line → Line) : (s.modLine l f).waitQueue = s.waitQueue := rfl
@[simp] theorem modLine_services (l : LineNo) (f : Line → Line) : (s.modLine l f).services = s.services := rfl
@[simp] theorem modLine_ports (l : LineNo) (f : Line → Line) : (s.modLine l f).ports = s.ports := rfl
@[simp] theorem modLine_readData (l : LineNo) (f : Line → Line) : (s.modLine l f).readData = s.readData := rfl
@[simp] theorem modLine_freeCount (l : LineNo) (f : Line → Line) : (s.modLine l f).freeCount = s.freeCount := rfl
@[simp] theorem modLine_pending (l : LineNo) (f : Line → Line) : (s.modLine l f).pending = s.pending := rfl
@[simp] theorem port_modLine (l : LineNo) (f : Line → Line) (q : PortNo) : (s.modLine l f).port q = s.port q := rfl
@[simp] theorem entry_modLine (l : LineNo) (f : Line → Line) (d : EntryNo) : (s.modLine l f).entry d = s.entry d := rfl
@[simp] theorem slot_modLine (l : LineNo) (f : Line → Line) (j : SlotNo) : (s.modLine l f).slot j = s.slot j := rfl
@[simp] theorem circuit_modLine (l : LineNo) (f : Line → Line) (j : SlotNo) : (s.modLine l f).circuit j = s.circuit j := rfl
@[simp] theorem lookup_modLine (l : LineNo) (f : Line → Line) (m : LineNo) (o : Byte) : (s.modLine l f).lookup m o = s.lookup m o := rfl
@[simp] theorem place_modLine (l : LineNo) (f : Line → Line) (a : BufNo) : (s.modLine l f).place a = s.place a := rfl
@[simp] theorem bufferByte_modLine (l : LineNo) (f : Line → Line) (a : BufNo) (h : Nat) : (s.modLine l f).bufferByte a h = s.bufferByte a h := rfl

/-! ## modTx -/

@[simp] theorem modTx_phase (l : LineNo) (f : Transmitter → Transmitter) : (s.modTx l f).phase = s.phase := rfl
@[simp] theorem modTx_lastServed (l : LineNo) (f : Transmitter → Transmitter) : (s.modTx l f).lastServed = s.lastServed := rfl
@[simp] theorem modTx_slots (l : LineNo) (f : Transmitter → Transmitter) : (s.modTx l f).slots = s.slots := rfl
@[simp] theorem modTx_freeSlots (l : LineNo) (f : Transmitter → Transmitter) : (s.modTx l f).freeSlots = s.freeSlots := rfl
@[simp] theorem modTx_index (l : LineNo) (f : Transmitter → Transmitter) : (s.modTx l f).index = s.index := rfl
@[simp] theorem modTx_memory (l : LineNo) (f : Transmitter → Transmitter) : (s.modTx l f).memory = s.memory := rfl
@[simp] theorem modTx_places (l : LineNo) (f : Transmitter → Transmitter) : (s.modTx l f).places = s.places := rfl
@[simp] theorem modTx_freeQueue (l : LineNo) (f : Transmitter → Transmitter) : (s.modTx l f).freeQueue = s.freeQueue := rfl
@[simp] theorem modTx_reservedTotal (l : LineNo) (f : Transmitter → Transmitter) : (s.modTx l f).reservedTotal = s.reservedTotal := rfl
@[simp] theorem modTx_floor (l : LineNo) (f : Transmitter → Transmitter) : (s.modTx l f).floor = s.floor := rfl
@[simp] theorem modTx_waitQueue (l : LineNo) (f : Transmitter → Transmitter) : (s.modTx l f).waitQueue = s.waitQueue := rfl
@[simp] theorem modTx_services (l : LineNo) (f : Transmitter → Transmitter) : (s.modTx l f).services = s.services := rfl
@[simp] theorem modTx_ports (l : LineNo) (f : Transmitter → Transmitter) : (s.modTx l f).ports = s.ports := rfl
@[simp] theorem modTx_readData (l : LineNo) (f : Transmitter → Transmitter) : (s.modTx l f).readData = s.readData := rfl
@[simp] theorem modTx_freeCount (l : LineNo) (f : Transmitter → Transmitter) : (s.modTx l f).freeCount = s.freeCount := rfl
@[simp] theorem modTx_pending (l : LineNo) (f : Transmitter → Transmitter) : (s.modTx l f).pending = s.pending := rfl
@[simp] theorem port_modTx (l : LineNo) (f : Transmitter → Transmitter) (q : PortNo) : (s.modTx l f).port q = s.port q := rfl
@[simp] theorem entry_modTx (l : LineNo) (f : Transmitter → Transmitter) (d : EntryNo) : (s.modTx l f).entry d = s.entry d := rfl
@[simp] theorem slot_modTx (l : LineNo) (f : Transmitter → Transmitter) (j : SlotNo) : (s.modTx l f).slot j = s.slot j := rfl
@[simp] theorem circuit_modTx (l : LineNo) (f : Transmitter → Transmitter) (j : SlotNo) : (s.modTx l f).circuit j = s.circuit j := rfl
@[simp] theorem lookup_modTx (l : LineNo) (f : Transmitter → Transmitter) (m : LineNo) (o : Byte) : (s.modTx l f).lookup m o = s.lookup m o := rfl
@[simp] theorem place_modTx (l : LineNo) (f : Transmitter → Transmitter) (a : BufNo) : (s.modTx l f).place a = s.place a := rfl
@[simp] theorem bufferByte_modTx (l : LineNo) (f : Transmitter → Transmitter) (a : BufNo) (h : Nat) : (s.modTx l f).bufferByte a h = s.bufferByte a h := rfl

/-! ## setEntry -/

@[simp] theorem setEntry_phase (e : EntryNo) (x : ServiceEntry) : (s.setEntry e x).phase = s.phase := rfl
@[simp] theorem setEntry_lastServed (e : EntryNo) (x : ServiceEntry) : (s.setEntry e x).lastServed = s.lastServed := rfl
@[simp] theorem setEntry_slots (e : EntryNo) (x : ServiceEntry) : (s.setEntry e x).slots = s.slots := rfl
@[simp] theorem setEntry_freeSlots (e : EntryNo) (x : ServiceEntry) : (s.setEntry e x).freeSlots = s.freeSlots := rfl
@[simp] theorem setEntry_index (e : EntryNo) (x : ServiceEntry) : (s.setEntry e x).index = s.index := rfl
@[simp] theorem setEntry_memory (e : EntryNo) (x : ServiceEntry) : (s.setEntry e x).memory = s.memory := rfl
@[simp] theorem setEntry_places (e : EntryNo) (x : ServiceEntry) : (s.setEntry e x).places = s.places := rfl
@[simp] theorem setEntry_freeQueue (e : EntryNo) (x : ServiceEntry) : (s.setEntry e x).freeQueue = s.freeQueue := rfl
@[simp] theorem setEntry_reservedTotal (e : EntryNo) (x : ServiceEntry) : (s.setEntry e x).reservedTotal = s.reservedTotal := rfl
@[simp] theorem setEntry_floor (e : EntryNo) (x : ServiceEntry) : (s.setEntry e x).floor = s.floor := rfl
@[simp] theorem setEntry_waitQueue (e : EntryNo) (x : ServiceEntry) : (s.setEntry e x).waitQueue = s.waitQueue := rfl
@[simp] theorem setEntry_lines (e : EntryNo) (x : ServiceEntry) : (s.setEntry e x).lines = s.lines := rfl
@[simp] theorem setEntry_ports (e : EntryNo) (x : ServiceEntry) : (s.setEntry e x).ports = s.ports := rfl
@[simp] theorem setEntry_readData (e : EntryNo) (x : ServiceEntry) : (s.setEntry e x).readData = s.readData := rfl
@[simp] theorem setEntry_freeCount (e : EntryNo) (x : ServiceEntry) : (s.setEntry e x).freeCount = s.freeCount := rfl
@[simp] theorem setEntry_pending (e : EntryNo) (x : ServiceEntry) : (s.setEntry e x).pending = s.pending := rfl
@[simp] theorem port_setEntry (e : EntryNo) (x : ServiceEntry) (q : PortNo) : (s.setEntry e x).port q = s.port q := rfl
@[simp] theorem line_setEntry (e : EntryNo) (x : ServiceEntry) (m : LineNo) : (s.setEntry e x).line m = s.line m := rfl
@[simp] theorem slot_setEntry (e : EntryNo) (x : ServiceEntry) (j : SlotNo) : (s.setEntry e x).slot j = s.slot j := rfl
@[simp] theorem circuit_setEntry (e : EntryNo) (x : ServiceEntry) (j : SlotNo) : (s.setEntry e x).circuit j = s.circuit j := rfl
@[simp] theorem lookup_setEntry (e : EntryNo) (x : ServiceEntry) (m : LineNo) (o : Byte) : (s.setEntry e x).lookup m o = s.lookup m o := rfl
@[simp] theorem place_setEntry (e : EntryNo) (x : ServiceEntry) (a : BufNo) : (s.setEntry e x).place a = s.place a := rfl
@[simp] theorem bufferByte_setEntry (e : EntryNo) (x : ServiceEntry) (a : BufNo) (h : Nat) : (s.setEntry e x).bufferByte a h = s.bufferByte a h := rfl

/-! ## setSlot -/

@[simp] theorem setSlot_phase (i : SlotNo) (x : Slot) : (s.setSlot i x).phase = s.phase := rfl
@[simp] theorem setSlot_lastServed (i : SlotNo) (x : Slot) : (s.setSlot i x).lastServed = s.lastServed := rfl
@[simp] theorem setSlot_freeSlots (i : SlotNo) (x : Slot) : (s.setSlot i x).freeSlots = s.freeSlots := rfl
@[simp] theorem setSlot_index (i : SlotNo) (x : Slot) : (s.setSlot i x).index = s.index := rfl
@[simp] theorem setSlot_memory (i : SlotNo) (x : Slot) : (s.setSlot i x).memory = s.memory := rfl
@[simp] theorem setSlot_places (i : SlotNo) (x : Slot) : (s.setSlot i x).places = s.places := rfl
@[simp] theorem setSlot_freeQueue (i : SlotNo) (x : Slot) : (s.setSlot i x).freeQueue = s.freeQueue := rfl
@[simp] theorem setSlot_reservedTotal (i : SlotNo) (x : Slot) : (s.setSlot i x).reservedTotal = s.reservedTotal := rfl
@[simp] theorem setSlot_floor (i : SlotNo) (x : Slot) : (s.setSlot i x).floor = s.floor := rfl
@[simp] theorem setSlot_waitQueue (i : SlotNo) (x : Slot) : (s.setSlot i x).waitQueue = s.waitQueue := rfl
@[simp] theorem setSlot_services (i : SlotNo) (x : Slot) : (s.setSlot i x).services = s.services := rfl
@[simp] theorem setSlot_lines (i : SlotNo) (x : Slot) : (s.setSlot i x).lines = s.lines := rfl
@[simp] theorem setSlot_ports (i : SlotNo) (x : Slot) : (s.setSlot i x).ports = s.ports := rfl
@[simp] theorem setSlot_readData (i : SlotNo) (x : Slot) : (s.setSlot i x).readData = s.readData := rfl
@[simp] theorem setSlot_freeCount (i : SlotNo) (x : Slot) : (s.setSlot i x).freeCount = s.freeCount := rfl
@[simp] theorem setSlot_pending (i : SlotNo) (x : Slot) : (s.setSlot i x).pending = s.pending := rfl
@[simp] theorem port_setSlot (i : SlotNo) (x : Slot) (q : PortNo) : (s.setSlot i x).port q = s.port q := rfl
@[simp] theorem line_setSlot (i : SlotNo) (x : Slot) (m : LineNo) : (s.setSlot i x).line m = s.line m := rfl
@[simp] theorem entry_setSlot (i : SlotNo) (x : Slot) (d : EntryNo) : (s.setSlot i x).entry d = s.entry d := rfl
@[simp] theorem lookup_setSlot (i : SlotNo) (x : Slot) (m : LineNo) (o : Byte) : (s.setSlot i x).lookup m o = s.lookup m o := rfl
@[simp] theorem place_setSlot (i : SlotNo) (x : Slot) (a : BufNo) : (s.setSlot i x).place a = s.place a := rfl
@[simp] theorem bufferByte_setSlot (i : SlotNo) (x : Slot) (a : BufNo) (h : Nat) : (s.setSlot i x).bufferByte a h = s.bufferByte a h := rfl

/-! ## setCircuit -/

@[simp] theorem setCircuit_phase (i : SlotNo) (c : Option Circuit) : (s.setCircuit i c).phase = s.phase := rfl
@[simp] theorem setCircuit_lastServed (i : SlotNo) (c : Option Circuit) : (s.setCircuit i c).lastServed = s.lastServed := rfl
@[simp] theorem setCircuit_freeSlots (i : SlotNo) (c : Option Circuit) : (s.setCircuit i c).freeSlots = s.freeSlots := rfl
@[simp] theorem setCircuit_index (i : SlotNo) (c : Option Circuit) : (s.setCircuit i c).index = s.index := rfl
@[simp] theorem setCircuit_memory (i : SlotNo) (c : Option Circuit) : (s.setCircuit i c).memory = s.memory := rfl
@[simp] theorem setCircuit_places (i : SlotNo) (c : Option Circuit) : (s.setCircuit i c).places = s.places := rfl
@[simp] theorem setCircuit_freeQueue (i : SlotNo) (c : Option Circuit) : (s.setCircuit i c).freeQueue = s.freeQueue := rfl
@[simp] theorem setCircuit_reservedTotal (i : SlotNo) (c : Option Circuit) : (s.setCircuit i c).reservedTotal = s.reservedTotal := rfl
@[simp] theorem setCircuit_floor (i : SlotNo) (c : Option Circuit) : (s.setCircuit i c).floor = s.floor := rfl
@[simp] theorem setCircuit_waitQueue (i : SlotNo) (c : Option Circuit) : (s.setCircuit i c).waitQueue = s.waitQueue := rfl
@[simp] theorem setCircuit_services (i : SlotNo) (c : Option Circuit) : (s.setCircuit i c).services = s.services := rfl
@[simp] theorem setCircuit_lines (i : SlotNo) (c : Option Circuit) : (s.setCircuit i c).lines = s.lines := rfl
@[simp] theorem setCircuit_ports (i : SlotNo) (c : Option Circuit) : (s.setCircuit i c).ports = s.ports := rfl
@[simp] theorem setCircuit_readData (i : SlotNo) (c : Option Circuit) : (s.setCircuit i c).readData = s.readData := rfl
@[simp] theorem setCircuit_freeCount (i : SlotNo) (c : Option Circuit) : (s.setCircuit i c).freeCount = s.freeCount := rfl
@[simp] theorem setCircuit_pending (i : SlotNo) (c : Option Circuit) : (s.setCircuit i c).pending = s.pending := rfl
@[simp] theorem port_setCircuit (i : SlotNo) (c : Option Circuit) (q : PortNo) : (s.setCircuit i c).port q = s.port q := rfl
@[simp] theorem line_setCircuit (i : SlotNo) (c : Option Circuit) (m : LineNo) : (s.setCircuit i c).line m = s.line m := rfl
@[simp] theorem entry_setCircuit (i : SlotNo) (c : Option Circuit) (d : EntryNo) : (s.setCircuit i c).entry d = s.entry d := rfl
@[simp] theorem lookup_setCircuit (i : SlotNo) (c : Option Circuit) (m : LineNo) (o : Byte) : (s.setCircuit i c).lookup m o = s.lookup m o := rfl
@[simp] theorem place_setCircuit (i : SlotNo) (c : Option Circuit) (a : BufNo) : (s.setCircuit i c).place a = s.place a := rfl
@[simp] theorem bufferByte_setCircuit (i : SlotNo) (c : Option Circuit) (a : BufNo) (h : Nat) : (s.setCircuit i c).bufferByte a h = s.bufferByte a h := rfl

/-! ## modCircuit -/

@[simp] theorem modCircuit_phase (i : SlotNo) (f : Circuit → Circuit) : (s.modCircuit i f).phase = s.phase := rfl
@[simp] theorem modCircuit_lastServed (i : SlotNo) (f : Circuit → Circuit) : (s.modCircuit i f).lastServed = s.lastServed := rfl
@[simp] theorem modCircuit_freeSlots (i : SlotNo) (f : Circuit → Circuit) : (s.modCircuit i f).freeSlots = s.freeSlots := rfl
@[simp] theorem modCircuit_index (i : SlotNo) (f : Circuit → Circuit) : (s.modCircuit i f).index = s.index := rfl
@[simp] theorem modCircuit_memory (i : SlotNo) (f : Circuit → Circuit) : (s.modCircuit i f).memory = s.memory := rfl
@[simp] theorem modCircuit_places (i : SlotNo) (f : Circuit → Circuit) : (s.modCircuit i f).places = s.places := rfl
@[simp] theorem modCircuit_freeQueue (i : SlotNo) (f : Circuit → Circuit) : (s.modCircuit i f).freeQueue = s.freeQueue := rfl
@[simp] theorem modCircuit_reservedTotal (i : SlotNo) (f : Circuit → Circuit) : (s.modCircuit i f).reservedTotal = s.reservedTotal := rfl
@[simp] theorem modCircuit_floor (i : SlotNo) (f : Circuit → Circuit) : (s.modCircuit i f).floor = s.floor := rfl
@[simp] theorem modCircuit_waitQueue (i : SlotNo) (f : Circuit → Circuit) : (s.modCircuit i f).waitQueue = s.waitQueue := rfl
@[simp] theorem modCircuit_services (i : SlotNo) (f : Circuit → Circuit) : (s.modCircuit i f).services = s.services := rfl
@[simp] theorem modCircuit_lines (i : SlotNo) (f : Circuit → Circuit) : (s.modCircuit i f).lines = s.lines := rfl
@[simp] theorem modCircuit_ports (i : SlotNo) (f : Circuit → Circuit) : (s.modCircuit i f).ports = s.ports := rfl
@[simp] theorem modCircuit_readData (i : SlotNo) (f : Circuit → Circuit) : (s.modCircuit i f).readData = s.readData := rfl
@[simp] theorem modCircuit_freeCount (i : SlotNo) (f : Circuit → Circuit) : (s.modCircuit i f).freeCount = s.freeCount := rfl
@[simp] theorem modCircuit_pending (i : SlotNo) (f : Circuit → Circuit) : (s.modCircuit i f).pending = s.pending := rfl
@[simp] theorem port_modCircuit (i : SlotNo) (f : Circuit → Circuit) (q : PortNo) : (s.modCircuit i f).port q = s.port q := rfl
@[simp] theorem line_modCircuit (i : SlotNo) (f : Circuit → Circuit) (m : LineNo) : (s.modCircuit i f).line m = s.line m := rfl
@[simp] theorem entry_modCircuit (i : SlotNo) (f : Circuit → Circuit) (d : EntryNo) : (s.modCircuit i f).entry d = s.entry d := rfl
@[simp] theorem lookup_modCircuit (i : SlotNo) (f : Circuit → Circuit) (m : LineNo) (o : Byte) : (s.modCircuit i f).lookup m o = s.lookup m o := rfl
@[simp] theorem place_modCircuit (i : SlotNo) (f : Circuit → Circuit) (a : BufNo) : (s.modCircuit i f).place a = s.place a := rfl
@[simp] theorem bufferByte_modCircuit (i : SlotNo) (f : Circuit → Circuit) (a : BufNo) (h : Nat) : (s.modCircuit i f).bufferByte a h = s.bufferByte a h := rfl

/-! ## mapNumber -/

@[simp] theorem mapNumber_phase (l : LineNo) (n : Byte) (i : SlotNo) : (s.mapNumber l n i).phase = s.phase := rfl
@[simp] theorem mapNumber_lastServed (l : LineNo) (n : Byte) (i : SlotNo) : (s.mapNumber l n i).lastServed = s.lastServed := rfl
@[simp] theorem mapNumber_slots (l : LineNo) (n : Byte) (i : SlotNo) : (s.mapNumber l n i).slots = s.slots := rfl
@[simp] theorem mapNumber_freeSlots (l : LineNo) (n : Byte) (i : SlotNo) : (s.mapNumber l n i).freeSlots = s.freeSlots := rfl
@[simp] theorem mapNumber_memory (l : LineNo) (n : Byte) (i : SlotNo) : (s.mapNumber l n i).memory = s.memory := rfl
@[simp] theorem mapNumber_places (l : LineNo) (n : Byte) (i : SlotNo) : (s.mapNumber l n i).places = s.places := rfl
@[simp] theorem mapNumber_freeQueue (l : LineNo) (n : Byte) (i : SlotNo) : (s.mapNumber l n i).freeQueue = s.freeQueue := rfl
@[simp] theorem mapNumber_reservedTotal (l : LineNo) (n : Byte) (i : SlotNo) : (s.mapNumber l n i).reservedTotal = s.reservedTotal := rfl
@[simp] theorem mapNumber_floor (l : LineNo) (n : Byte) (i : SlotNo) : (s.mapNumber l n i).floor = s.floor := rfl
@[simp] theorem mapNumber_waitQueue (l : LineNo) (n : Byte) (i : SlotNo) : (s.mapNumber l n i).waitQueue = s.waitQueue := rfl
@[simp] theorem mapNumber_services (l : LineNo) (n : Byte) (i : SlotNo) : (s.mapNumber l n i).services = s.services := rfl
@[simp] theorem mapNumber_lines (l : LineNo) (n : Byte) (i : SlotNo) : (s.mapNumber l n i).lines = s.lines := rfl
@[simp] theorem mapNumber_ports (l : LineNo) (n : Byte) (i : SlotNo) : (s.mapNumber l n i).ports = s.ports := rfl
@[simp] theorem mapNumber_readData (l : LineNo) (n : Byte) (i : SlotNo) : (s.mapNumber l n i).readData = s.readData := rfl
@[simp] theorem mapNumber_freeCount (l : LineNo) (n : Byte) (i : SlotNo) : (s.mapNumber l n i).freeCount = s.freeCount := rfl
@[simp] theorem mapNumber_pending (l : LineNo) (n : Byte) (i : SlotNo) : (s.mapNumber l n i).pending = s.pending := rfl
@[simp] theorem port_mapNumber (l : LineNo) (n : Byte) (i : SlotNo) (q : PortNo) : (s.mapNumber l n i).port q = s.port q := rfl
@[simp] theorem line_mapNumber (l : LineNo) (n : Byte) (i : SlotNo) (m : LineNo) : (s.mapNumber l n i).line m = s.line m := rfl
@[simp] theorem entry_mapNumber (l : LineNo) (n : Byte) (i : SlotNo) (d : EntryNo) : (s.mapNumber l n i).entry d = s.entry d := rfl
@[simp] theorem slot_mapNumber (l : LineNo) (n : Byte) (i : SlotNo) (j : SlotNo) : (s.mapNumber l n i).slot j = s.slot j := rfl
@[simp] theorem circuit_mapNumber (l : LineNo) (n : Byte) (i : SlotNo) (j : SlotNo) : (s.mapNumber l n i).circuit j = s.circuit j := rfl
@[simp] theorem place_mapNumber (l : LineNo) (n : Byte) (i : SlotNo) (a : BufNo) : (s.mapNumber l n i).place a = s.place a := rfl
@[simp] theorem bufferByte_mapNumber (l : LineNo) (n : Byte) (i : SlotNo) (a : BufNo) (h : Nat) : (s.mapNumber l n i).bufferByte a h = s.bufferByte a h := rfl

/-! ## unmapNumber -/

@[simp] theorem unmapNumber_phase (l : LineNo) (n : Byte) : (s.unmapNumber l n).phase = s.phase := rfl
@[simp] theorem unmapNumber_lastServed (l : LineNo) (n : Byte) : (s.unmapNumber l n).lastServed = s.lastServed := rfl
@[simp] theorem unmapNumber_slots (l : LineNo) (n : Byte) : (s.unmapNumber l n).slots = s.slots := rfl
@[simp] theorem unmapNumber_freeSlots (l : LineNo) (n : Byte) : (s.unmapNumber l n).freeSlots = s.freeSlots := rfl
@[simp] theorem unmapNumber_memory (l : LineNo) (n : Byte) : (s.unmapNumber l n).memory = s.memory := rfl
@[simp] theorem unmapNumber_places (l : LineNo) (n : Byte) : (s.unmapNumber l n).places = s.places := rfl
@[simp] theorem unmapNumber_freeQueue (l : LineNo) (n : Byte) : (s.unmapNumber l n).freeQueue = s.freeQueue := rfl
@[simp] theorem unmapNumber_reservedTotal (l : LineNo) (n : Byte) : (s.unmapNumber l n).reservedTotal = s.reservedTotal := rfl
@[simp] theorem unmapNumber_floor (l : LineNo) (n : Byte) : (s.unmapNumber l n).floor = s.floor := rfl
@[simp] theorem unmapNumber_waitQueue (l : LineNo) (n : Byte) : (s.unmapNumber l n).waitQueue = s.waitQueue := rfl
@[simp] theorem unmapNumber_services (l : LineNo) (n : Byte) : (s.unmapNumber l n).services = s.services := rfl
@[simp] theorem unmapNumber_lines (l : LineNo) (n : Byte) : (s.unmapNumber l n).lines = s.lines := rfl
@[simp] theorem unmapNumber_ports (l : LineNo) (n : Byte) : (s.unmapNumber l n).ports = s.ports := rfl
@[simp] theorem unmapNumber_readData (l : LineNo) (n : Byte) : (s.unmapNumber l n).readData = s.readData := rfl
@[simp] theorem unmapNumber_freeCount (l : LineNo) (n : Byte) : (s.unmapNumber l n).freeCount = s.freeCount := rfl
@[simp] theorem unmapNumber_pending (l : LineNo) (n : Byte) : (s.unmapNumber l n).pending = s.pending := rfl
@[simp] theorem port_unmapNumber (l : LineNo) (n : Byte) (q : PortNo) : (s.unmapNumber l n).port q = s.port q := rfl
@[simp] theorem line_unmapNumber (l : LineNo) (n : Byte) (m : LineNo) : (s.unmapNumber l n).line m = s.line m := rfl
@[simp] theorem entry_unmapNumber (l : LineNo) (n : Byte) (d : EntryNo) : (s.unmapNumber l n).entry d = s.entry d := rfl
@[simp] theorem slot_unmapNumber (l : LineNo) (n : Byte) (j : SlotNo) : (s.unmapNumber l n).slot j = s.slot j := rfl
@[simp] theorem circuit_unmapNumber (l : LineNo) (n : Byte) (j : SlotNo) : (s.unmapNumber l n).circuit j = s.circuit j := rfl
@[simp] theorem place_unmapNumber (l : LineNo) (n : Byte) (a : BufNo) : (s.unmapNumber l n).place a = s.place a := rfl
@[simp] theorem bufferByte_unmapNumber (l : LineNo) (n : Byte) (a : BufNo) (h : Nat) : (s.unmapNumber l n).bufferByte a h = s.bufferByte a h := rfl

/-! ## setPlace -/

@[simp] theorem setPlace_phase (b : BufNo) (x : Place) : (s.setPlace b x).phase = s.phase := rfl
@[simp] theorem setPlace_lastServed (b : BufNo) (x : Place) : (s.setPlace b x).lastServed = s.lastServed := rfl
@[simp] theorem setPlace_slots (b : BufNo) (x : Place) : (s.setPlace b x).slots = s.slots := rfl
@[simp] theorem setPlace_freeSlots (b : BufNo) (x : Place) : (s.setPlace b x).freeSlots = s.freeSlots := rfl
@[simp] theorem setPlace_index (b : BufNo) (x : Place) : (s.setPlace b x).index = s.index := rfl
@[simp] theorem setPlace_memory (b : BufNo) (x : Place) : (s.setPlace b x).memory = s.memory := rfl
@[simp] theorem setPlace_freeQueue (b : BufNo) (x : Place) : (s.setPlace b x).freeQueue = s.freeQueue := rfl
@[simp] theorem setPlace_reservedTotal (b : BufNo) (x : Place) : (s.setPlace b x).reservedTotal = s.reservedTotal := rfl
@[simp] theorem setPlace_floor (b : BufNo) (x : Place) : (s.setPlace b x).floor = s.floor := rfl
@[simp] theorem setPlace_waitQueue (b : BufNo) (x : Place) : (s.setPlace b x).waitQueue = s.waitQueue := rfl
@[simp] theorem setPlace_services (b : BufNo) (x : Place) : (s.setPlace b x).services = s.services := rfl
@[simp] theorem setPlace_lines (b : BufNo) (x : Place) : (s.setPlace b x).lines = s.lines := rfl
@[simp] theorem setPlace_ports (b : BufNo) (x : Place) : (s.setPlace b x).ports = s.ports := rfl
@[simp] theorem setPlace_readData (b : BufNo) (x : Place) : (s.setPlace b x).readData = s.readData := rfl
@[simp] theorem setPlace_freeCount (b : BufNo) (x : Place) : (s.setPlace b x).freeCount = s.freeCount := rfl
@[simp] theorem setPlace_pending (b : BufNo) (x : Place) : (s.setPlace b x).pending = s.pending := rfl
@[simp] theorem port_setPlace (b : BufNo) (x : Place) (q : PortNo) : (s.setPlace b x).port q = s.port q := rfl
@[simp] theorem line_setPlace (b : BufNo) (x : Place) (m : LineNo) : (s.setPlace b x).line m = s.line m := rfl
@[simp] theorem entry_setPlace (b : BufNo) (x : Place) (d : EntryNo) : (s.setPlace b x).entry d = s.entry d := rfl
@[simp] theorem slot_setPlace (b : BufNo) (x : Place) (j : SlotNo) : (s.setPlace b x).slot j = s.slot j := rfl
@[simp] theorem circuit_setPlace (b : BufNo) (x : Place) (j : SlotNo) : (s.setPlace b x).circuit j = s.circuit j := rfl
@[simp] theorem lookup_setPlace (b : BufNo) (x : Place) (m : LineNo) (o : Byte) : (s.setPlace b x).lookup m o = s.lookup m o := rfl
@[simp] theorem bufferByte_setPlace (b : BufNo) (x : Place) (a : BufNo) (h : Nat) : (s.setPlace b x).bufferByte a h = s.bufferByte a h := rfl

/-! ## writeBuffer -/

@[simp] theorem writeBuffer_phase (b : BufNo) (k : Nat) (vs : List Byte) : (s.writeBuffer b k vs).phase = s.phase := rfl
@[simp] theorem writeBuffer_lastServed (b : BufNo) (k : Nat) (vs : List Byte) : (s.writeBuffer b k vs).lastServed = s.lastServed := rfl
@[simp] theorem writeBuffer_slots (b : BufNo) (k : Nat) (vs : List Byte) : (s.writeBuffer b k vs).slots = s.slots := rfl
@[simp] theorem writeBuffer_freeSlots (b : BufNo) (k : Nat) (vs : List Byte) : (s.writeBuffer b k vs).freeSlots = s.freeSlots := rfl
@[simp] theorem writeBuffer_index (b : BufNo) (k : Nat) (vs : List Byte) : (s.writeBuffer b k vs).index = s.index := rfl
@[simp] theorem writeBuffer_places (b : BufNo) (k : Nat) (vs : List Byte) : (s.writeBuffer b k vs).places = s.places := rfl
@[simp] theorem writeBuffer_freeQueue (b : BufNo) (k : Nat) (vs : List Byte) : (s.writeBuffer b k vs).freeQueue = s.freeQueue := rfl
@[simp] theorem writeBuffer_reservedTotal (b : BufNo) (k : Nat) (vs : List Byte) : (s.writeBuffer b k vs).reservedTotal = s.reservedTotal := rfl
@[simp] theorem writeBuffer_floor (b : BufNo) (k : Nat) (vs : List Byte) : (s.writeBuffer b k vs).floor = s.floor := rfl
@[simp] theorem writeBuffer_waitQueue (b : BufNo) (k : Nat) (vs : List Byte) : (s.writeBuffer b k vs).waitQueue = s.waitQueue := rfl
@[simp] theorem writeBuffer_services (b : BufNo) (k : Nat) (vs : List Byte) : (s.writeBuffer b k vs).services = s.services := rfl
@[simp] theorem writeBuffer_lines (b : BufNo) (k : Nat) (vs : List Byte) : (s.writeBuffer b k vs).lines = s.lines := rfl
@[simp] theorem writeBuffer_ports (b : BufNo) (k : Nat) (vs : List Byte) : (s.writeBuffer b k vs).ports = s.ports := rfl
@[simp] theorem writeBuffer_readData (b : BufNo) (k : Nat) (vs : List Byte) : (s.writeBuffer b k vs).readData = s.readData := rfl
@[simp] theorem writeBuffer_freeCount (b : BufNo) (k : Nat) (vs : List Byte) : (s.writeBuffer b k vs).freeCount = s.freeCount := rfl
@[simp] theorem writeBuffer_pending (b : BufNo) (k : Nat) (vs : List Byte) : (s.writeBuffer b k vs).pending = s.pending := rfl
@[simp] theorem port_writeBuffer (b : BufNo) (k : Nat) (vs : List Byte) (q : PortNo) : (s.writeBuffer b k vs).port q = s.port q := rfl
@[simp] theorem line_writeBuffer (b : BufNo) (k : Nat) (vs : List Byte) (m : LineNo) : (s.writeBuffer b k vs).line m = s.line m := rfl
@[simp] theorem entry_writeBuffer (b : BufNo) (k : Nat) (vs : List Byte) (d : EntryNo) : (s.writeBuffer b k vs).entry d = s.entry d := rfl
@[simp] theorem slot_writeBuffer (b : BufNo) (k : Nat) (vs : List Byte) (j : SlotNo) : (s.writeBuffer b k vs).slot j = s.slot j := rfl
@[simp] theorem circuit_writeBuffer (b : BufNo) (k : Nat) (vs : List Byte) (j : SlotNo) : (s.writeBuffer b k vs).circuit j = s.circuit j := rfl
@[simp] theorem lookup_writeBuffer (b : BufNo) (k : Nat) (vs : List Byte) (m : LineNo) (o : Byte) : (s.writeBuffer b k vs).lookup m o = s.lookup m o := rfl
@[simp] theorem place_writeBuffer (b : BufNo) (k : Nat) (vs : List Byte) (a : BufNo) : (s.writeBuffer b k vs).place a = s.place a := rfl

/-! ## The queue of commands -/

@[simp] theorem port_with_pending (v : List Instr) (q : PortNo) : { s with pending := v }.port q = s.port q := rfl
@[simp] theorem line_with_pending (v : List Instr) (m : LineNo) : { s with pending := v }.line m = s.line m := rfl
@[simp] theorem entry_with_pending (v : List Instr) (d : EntryNo) : { s with pending := v }.entry d = s.entry d := rfl
@[simp] theorem slot_with_pending (v : List Instr) (j : SlotNo) : { s with pending := v }.slot j = s.slot j := rfl
@[simp] theorem circuit_with_pending (v : List Instr) (j : SlotNo) : { s with pending := v }.circuit j = s.circuit j := rfl
@[simp] theorem lookup_with_pending (v : List Instr) (m : LineNo) (o : Byte) : { s with pending := v }.lookup m o = s.lookup m o := rfl
@[simp] theorem place_with_pending (v : List Instr) (a : BufNo) : { s with pending := v }.place a = s.place a := rfl
@[simp] theorem bufferByte_with_pending (v : List Instr) (a : BufNo) (h : Nat) : { s with pending := v }.bufferByte a h = s.bufferByte a h := rfl

end Sys2Proof.Machine.State
end

