-- ==== Sys2Proof/Laws/Memory.lean ====
section
/-! SUPPORT. The buffer memory: reading after writing, and that every memory operation keeps the canonical form. -/

namespace Sys2Proof.Machine.Memory

theorem read_write (m : List Host.Cell) (a b : Nat) (v : Byte) :
    read (write m a v) b = if b = a then v else read m b :=
  Sparse.get_set a v b m

theorem wf_write {m : List Host.Cell} {a : Nat} {v : Byte} (h : wf m) (ha : a < size) : wf (write m a v) := by
  refine ⟨Sparse.wf_set h.1, fun c hc => ?_⟩
  rcases Sparse.mem_set hc with hc | hc
  · subst hc; exact ha
  · exact h.2 c hc

theorem wf_writeBytes {vs : List Byte} : ∀ {m : List Host.Cell} {a : Nat}, wf m → a + vs.length ≤ size →
    wf (writeBytes m a vs) := by
  induction vs with
  | nil => intro m a h _; exact h
  | cons v vs ih =>
    intro m a h ha
    rw [List.length_cons] at ha
    exact ih (wf_write h (by omega)) (by omega)

/-- Reading after writing several bytes: the byte written at that place, or the old one. -/
theorem read_writeBytes (vs : List Byte) : ∀ (m : List Host.Cell) (a b : Nat),
    read (writeBytes m a vs) b = if a ≤ b then (vs[b - a]?).getD (read m b) else read m b := by
  induction vs with
  | nil => intro m a b; simp [writeBytes]
  | cons v vs ih =>
    intro m a b
    rw [writeBytes, ih]
    rcases Nat.lt_trichotomy b a with h | h | h
    · rw [if_neg (by omega), if_neg (by omega), read_write, if_neg (by omega)]
    · subst h
      rw [if_neg (by omega), if_pos (le_refl b), read_write, if_pos rfl]
      simp
    · rw [if_pos (by omega), if_pos (by omega), read_write, if_neg (by omega)]
      obtain ⟨k, rfl⟩ : ∃ k, b = a + 1 + k := ⟨b - (a + 1), by omega⟩
      have e1 : a + 1 + k - (a + 1) = k := by omega
      have e2 : a + 1 + k - a = k + 1 := by omega
      rw [e1, e2, List.getElem?_cons_succ]

theorem wf_reset : wf State.reset.memory := ⟨Sparse.wf_nil, fun _ h => absurd h List.not_mem_nil⟩

/-- A buffer's bytes lie in the memory. -/
theorem key_le_size (b : BufNo) {k : Nat} (h : k ≤ Config.bufferBytes) : key b k ≤ size := by
  have := b.isLt
  simp only [key, size, Config.bufferBytes] at *
  omega

end Sys2Proof.Machine.Memory

namespace Sys2Proof.Machine.State

theorem writeBuffer_wf {s : State} (h : Memory.wf s.memory) (b : BufNo) (k : Nat) (vs : List Byte) :
    Memory.wf (s.writeBuffer b k vs).memory := by
  by_cases hk : k ≤ Config.bufferBytes
  · refine Memory.wf_writeBytes h ?_
    have hb := b.isLt
    simp only [List.length_take, Memory.key, Memory.size, Config.bufferBytes] at *
    omega
  · have e : Config.bufferBytes - k = 0 := by omega
    simpa only [writeBuffer, e, List.take_zero, Memory.writeBytes] using h

/-- A byte of a buffer after bytes are written in a buffer: the one written there, or the old one. -/
theorem bufferByte_writeBuffer (s : State) (b : BufNo) (k : Nat) (vs : List Byte) (c : BufNo) {j : Nat}
    (hj : j < Config.bufferBytes) :
    (s.writeBuffer b k vs).bufferByte c j
      = if c = b ∧ k ≤ j then (vs[j - k]?).getD (s.bufferByte c j) else s.bufferByte c j := by
  have hb := b.isLt
  have hc := c.isLt
  simp only [bufferByte, writeBuffer, Memory.read_writeBytes, Memory.key, Config.bufferBytes] at *
  by_cases h : c = b
  · subst h
    by_cases hk : k ≤ j
    · have e : c.val * 128 + j - (c.val * 128 + k) = j - k := by omega
      rw [if_pos (by omega), if_pos ⟨rfl, hk⟩, e, List.getElem?_take_of_lt (by omega)]
    · rw [if_neg (by omega), if_neg (fun x => hk x.2)]
  · rw [if_neg (c := c = b ∧ k ≤ j) (fun x => h x.1)]
    have h' : c.val ≠ b.val := fun x => h (Fin.ext x)
    split_ifs with hle
    · rw [List.getElem?_eq_none]
      · rfl
      · rw [List.length_take]; omega
    · rfl

end Sys2Proof.Machine.State
end

