-- ==== Sys2Proof/Laws/Access.lean ====
section
/-! SUPPORT. What each reader of State gives after the update it sees: a port, a line, an entry, a slot, a circuit, a mapping, a place. -/

namespace Sys2Proof.Machine.State

variable (s : State)

/-! ## Ports, lines, service entries -/

@[simp] theorem port_setPort_same (p : PortNo) (r : Port) : (s.setPort p r).port p = r := by simp [port, setPort]

theorem port_setPort_ne {p q : PortNo} (h : q ≠ p) (r : Port) : (s.setPort p r).port q = s.port q := by
  simp only [port, setPort, Fin.getElem_fin]
  rw [Vector.getElem_set_ne]
  exact fun e => h (Fin.ext e.symm)

@[simp] theorem port_modPort_same (p : PortNo) (f : Port → Port) : (s.modPort p f).port p = f (s.port p) := by
  simp [modPort]

theorem port_modPort_ne {p q : PortNo} (h : q ≠ p) (f : Port → Port) : (s.modPort p f).port q = s.port q := by
  rw [modPort, port_setPort_ne s h]

@[simp] theorem line_setLine_same (l : LineNo) (r : Line) : (s.setLine l r).line l = r := by simp [line, setLine]

theorem line_setLine_ne {l m : LineNo} (h : m ≠ l) (r : Line) : (s.setLine l r).line m = s.line m := by
  simp only [line, setLine, Fin.getElem_fin]
  rw [Vector.getElem_set_ne]
  exact fun e => h (Fin.ext e.symm)

@[simp] theorem line_modLine_same (l : LineNo) (f : Line → Line) : (s.modLine l f).line l = f (s.line l) := by
  simp [modLine]

theorem line_modLine_ne {l m : LineNo} (h : m ≠ l) (f : Line → Line) : (s.modLine l f).line m = s.line m := by
  rw [modLine, line_setLine_ne s h]

@[simp] theorem line_modTx_same (l : LineNo) (f : Transmitter → Transmitter) :
    (s.modTx l f).line l = { s.line l with tx := f (s.line l).tx } := by
  simp [modTx]

theorem line_modTx_ne {l m : LineNo} (h : m ≠ l) (f : Transmitter → Transmitter) :
    (s.modTx l f).line m = s.line m := by
  rw [modTx, line_modLine_ne s h]

@[simp] theorem entry_setEntry_same (e : EntryNo) (x : ServiceEntry) : (s.setEntry e x).entry e = x := by
  simp [entry, setEntry]

theorem entry_setEntry_ne {e d : EntryNo} (h : d ≠ e) (x : ServiceEntry) : (s.setEntry e x).entry d = s.entry d := by
  simp only [entry, setEntry, Fin.getElem_fin]
  rw [Vector.getElem_set_ne]
  exact fun e => h (Fin.ext e.symm)

/-! ## Slots and circuits -/

theorem slot_setSlot (i j : SlotNo) (x : Slot) : (s.setSlot i x).slot j = if j = i then x else s.slot j := by
  simp only [slot, setSlot]
  rw [Sparse.get_set]
  simp only [Fin.val_inj]

@[simp] theorem slot_setSlot_same (i : SlotNo) (x : Slot) : (s.setSlot i x).slot i = x := by simp [slot_setSlot]

theorem slot_setSlot_ne {i j : SlotNo} (h : j ≠ i) (x : Slot) : (s.setSlot i x).slot j = s.slot j := by
  simp [slot_setSlot, h]

@[simp] theorem circuit_setCircuit_same (i : SlotNo) (c : Option Circuit) : (s.setCircuit i c).circuit i = c := by
  simp [setCircuit, circuit]

theorem circuit_setCircuit_ne {i j : SlotNo} (h : j ≠ i) (c : Option Circuit) :
    (s.setCircuit i c).circuit j = s.circuit j := by
  simp [setCircuit, circuit, slot_setSlot_ne s h]

@[simp] theorem circuit_modCircuit_same (i : SlotNo) (f : Circuit → Circuit) :
    (s.modCircuit i f).circuit i = (s.circuit i).map f := by
  simp [modCircuit]

theorem circuit_modCircuit_ne {i j : SlotNo} (h : j ≠ i) (f : Circuit → Circuit) :
    (s.modCircuit i f).circuit j = s.circuit j := by
  rw [modCircuit, circuit_setCircuit_ne s h]

/-- Writing a record leaves every generation alone. -/
@[simp] theorem generation_setCircuit (i j : SlotNo) (c : Option Circuit) :
    ((s.setCircuit i c).slot j).generation = (s.slot j).generation := by
  rw [setCircuit, slot_setSlot]
  split_ifs with h
  · rw [h]
  · rfl

@[simp] theorem generation_modCircuit (i j : SlotNo) (f : Circuit → Circuit) :
    ((s.modCircuit i f).slot j).generation = (s.slot j).generation := by simp [modCircuit]

theorem slot_setCircuit_ne {i j : SlotNo} (h : j ≠ i) (c : Option Circuit) : (s.setCircuit i c).slot j = s.slot j :=
  slot_setSlot_ne s h _

theorem slot_modCircuit_ne {i j : SlotNo} (h : j ≠ i) (f : Circuit → Circuit) : (s.modCircuit i f).slot j = s.slot j :=
  slot_setSlot_ne s h _

/-! ## The index map -/

theorem indexKey_inj {l m : LineNo} {n o : Byte} : indexKey l n = indexKey m o ↔ l = m ∧ n = o := by
  have hn := n.isLt
  have ho := o.isLt
  constructor
  · intro h
    simp only [indexKey] at h
    exact ⟨Fin.ext (by omega), BitVec.eq_of_toNat_eq (by omega)⟩
  · rintro ⟨rfl, rfl⟩; rfl

theorem lookup_mapNumber (l m : LineNo) (n o : Byte) (i : SlotNo) :
    (s.mapNumber l n i).lookup m o = if m = l ∧ o = n then some i else s.lookup m o := by
  simp only [lookup, mapNumber]
  rw [Sparse.find_insert]
  simp only [id_eq, indexKey_inj]

theorem lookup_unmapNumber (l m : LineNo) (n o : Byte) :
    (s.unmapNumber l n).lookup m o = if m = l ∧ o = n then none else s.lookup m o := by
  simp only [lookup, unmapNumber]
  rw [Sparse.find_erase]
  simp only [indexKey_inj]

/-! ## Places -/

theorem place_setPlace (b c : BufNo) (x : Place) : (s.setPlace b x).place c = if c = b then x else s.place c := by
  simp only [place, setPlace]
  rw [Sparse.get_set]
  simp only [Fin.val_inj]

@[simp] theorem place_setPlace_same (b : BufNo) (x : Place) : (s.setPlace b x).place b = x := by simp [place_setPlace]

theorem place_setPlace_ne {b c : BufNo} (h : c ≠ b) (x : Place) : (s.setPlace b x).place c = s.place c := by
  simp [place_setPlace, h]

end Sys2Proof.Machine.State
end

