-- ==== Sys2Proof/Laws/Keeps.lean ====
section
/-! SUPPORT. Which parts of State each shared operation keeps. -/

namespace Sys2Proof.Machine

namespace Keeps

variable {xs ys : List Part} {s t u : State}

theorem refl (xs : List Part) (s : State) : Keeps xs s s := fun x _ => by cases x <;> rfl

theorem trans (h : Keeps xs s t) (k : Keeps xs t u) : Keeps xs s u := fun x hx => by
  have a := h x hx
  have b := k x hx
  cases x <;> exact Eq.trans b a

theorem mono (h : Keeps xs s t) (hxy : xs ⊆ ys) : Keeps ys s t := fun x hx => h x fun hm => hx (hxy hm)

/-- Two steps, each keeping its own parts, keep what both keep. -/
theorem both {zs : List Part} (h : Keeps xs s t) (k : Keeps ys t u) (hx : xs ⊆ zs) (hy : ys ⊆ zs) : Keeps zs s u :=
  (h.mono hx).trans (k.mono hy)

theorem at_phase (h : Keeps xs s t) (hx : .phase ∉ xs) : t.phase = s.phase := h .phase hx
theorem at_lastServed (h : Keeps xs s t) (hx : .lastServed ∉ xs) : t.lastServed = s.lastServed := h .lastServed hx
theorem at_slots (h : Keeps xs s t) (hx : .slots ∉ xs) : t.slots = s.slots := h .slots hx
theorem at_freeSlots (h : Keeps xs s t) (hx : .freeSlots ∉ xs) : t.freeSlots = s.freeSlots := h .freeSlots hx
theorem at_index (h : Keeps xs s t) (hx : .index ∉ xs) : t.index = s.index := h .index hx
theorem at_memory (h : Keeps xs s t) (hx : .memory ∉ xs) : t.memory = s.memory := h .memory hx
theorem at_places (h : Keeps xs s t) (hx : .places ∉ xs) : t.places = s.places := h .places hx
theorem at_freeQueue (h : Keeps xs s t) (hx : .freeQueue ∉ xs) : t.freeQueue = s.freeQueue := h .freeQueue hx
theorem at_reservedTotal (h : Keeps xs s t) (hx : .reservedTotal ∉ xs) : t.reservedTotal = s.reservedTotal :=
  h .reservedTotal hx
theorem at_floor (h : Keeps xs s t) (hx : .floor ∉ xs) : t.floor = s.floor := h .floor hx
theorem at_waitQueue (h : Keeps xs s t) (hx : .waitQueue ∉ xs) : t.waitQueue = s.waitQueue := h .waitQueue hx
theorem at_services (h : Keeps xs s t) (hx : .services ∉ xs) : t.services = s.services := h .services hx
theorem at_lines (h : Keeps xs s t) (hx : .lines ∉ xs) : t.lines = s.lines := h .lines hx
theorem at_ports (h : Keeps xs s t) (hx : .ports ∉ xs) : t.ports = s.ports := h .ports hx
theorem at_readData (h : Keeps xs s t) (hx : .readData ∉ xs) : t.readData = s.readData := h .readData hx
theorem at_freeCount (h : Keeps xs s t) (hx : .freeCount ∉ xs) : t.freeCount = s.freeCount := h .freeCount hx
theorem at_pending (h : Keeps xs s t) (hx : .pending ∉ xs) : t.pending = s.pending := h .pending hx

/-- A fold of operations that each keep the same parts keeps them. -/
theorem foldl {β : Type} {f : State → β → State} (hf : ∀ v b, Keeps xs v (f v b)) (bs : List β) :
    ∀ s, Keeps xs s (bs.foldl f s) := by
  induction bs with
  | nil => exact refl xs
  | cons b bs ih => exact fun s => (hf s b).trans (ih _)

end Keeps

namespace State

variable (s : State)

/-! ## The single updates -/

theorem keeps_setPort (p : PortNo) (r : Port) : Keeps [.ports] s (s.setPort p r) := fun x hx => by
  cases x <;> first | rfl | simp at hx
theorem keeps_modPort (p : PortNo) (f : Port → Port) : Keeps [.ports] s (s.modPort p f) := s.keeps_setPort p _
theorem keeps_setLine (l : LineNo) (r : Line) : Keeps [.lines] s (s.setLine l r) := fun x hx => by
  cases x <;> first | rfl | simp at hx
theorem keeps_modLine (l : LineNo) (f : Line → Line) : Keeps [.lines] s (s.modLine l f) := s.keeps_setLine l _
theorem keeps_modTx (l : LineNo) (f : Transmitter → Transmitter) : Keeps [.lines] s (s.modTx l f) := s.keeps_setLine l _
theorem keeps_setEntry (e : EntryNo) (x : ServiceEntry) : Keeps [.services] s (s.setEntry e x) := fun y hy => by
  cases y <;> first | rfl | simp at hy
theorem keeps_setSlot (i : SlotNo) (x : Slot) : Keeps [.slots] s (s.setSlot i x) := fun y hy => by
  cases y <;> first | rfl | simp at hy
theorem keeps_setCircuit (i : SlotNo) (c : Option Circuit) : Keeps [.slots] s (s.setCircuit i c) := s.keeps_setSlot i _
theorem keeps_modCircuit (i : SlotNo) (f : Circuit → Circuit) : Keeps [.slots] s (s.modCircuit i f) :=
  s.keeps_setSlot i _
theorem keeps_mapNumber (l : LineNo) (n : Byte) (i : SlotNo) : Keeps [.index] s (s.mapNumber l n i) := fun y hy => by
  cases y <;> first | rfl | simp at hy
theorem keeps_unmapNumber (l : LineNo) (n : Byte) : Keeps [.index] s (s.unmapNumber l n) := fun y hy => by
  cases y <;> first | rfl | simp at hy
theorem keeps_setPlace (b : BufNo) (x : Place) : Keeps [.places] s (s.setPlace b x) := fun y hy => by
  cases y <;> first | rfl | simp at hy
theorem keeps_writeBuffer (b : BufNo) (k : Nat) (vs : List Byte) : Keeps [.memory] s (s.writeBuffer b k vs) :=
  fun y hy => by cases y <;> first | rfl | simp at hy
theorem keeps_setReservedTotal (v : Nat) : Keeps [.reservedTotal] s (s.setReservedTotal v) := fun y hy => by
  cases y <;> first | rfl | simp at hy
theorem keeps_setWaitQueue (v : List SlotNo) : Keeps [.waitQueue] s (s.setWaitQueue v) := fun y hy => by
  cases y <;> first | rfl | simp at hy
theorem keeps_setFreeQueue (v : List BufNo) : Keeps [.freeQueue] s (s.setFreeQueue v) := fun y hy => by
  cases y <;> first | rfl | simp at hy
theorem keeps_setFreeSlots (v : List SlotNo) : Keeps [.freeSlots] s (s.setFreeSlots v) := fun y hy => by
  cases y <;> first | rfl | simp at hy
theorem keeps_setFloor (v : Nat) : Keeps [.floor] s (s.setFloor v) := fun y hy => by
  cases y <;> first | rfl | simp at hy
theorem keeps_setLastServed (v : PortNo) : Keeps [.lastServed] s (s.setLastServed v) := fun y hy => by
  cases y <;> first | rfl | simp at hy
theorem keeps_setReadData (v : ReadData) : Keeps [.readData] s (s.setReadData v) := fun y hy => by
  cases y <;> first | rfl | simp at hy
theorem keeps_setFreeCount (v : Nat) : Keeps [.freeCount] s (s.setFreeCount v) := fun y hy => by
  cases y <;> first | rfl | simp at hy
theorem keeps_leaveWait (i : SlotNo) : Keeps [.waitQueue] s (s.leaveWait i) := s.keeps_setWaitQueue _

/-! ## Owed control, timers, attention -/

theorem keeps_owe (i : SlotNo) (k : OwedKind) : Keeps [.slots, .lines] s (s.owe i k) := by
  unfold owe
  split
  · exact .refl _ s
  · exact (s.keeps_setCircuit i _).both (keeps_modTx _ _ _) (by decide) (by decide)

theorem keeps_dropOwed (i : SlotNo) (k : OwedKind) : Keeps [.slots, .lines] s (s.dropOwed i k) := by
  unfold dropOwed
  split
  · exact .refl _ s
  · dsimp only
    split
    · exact (s.keeps_setCircuit i _).both (keeps_modTx _ _ _) (by decide) (by decide)
    · exact (s.keeps_setCircuit i _).mono (by decide)

theorem keeps_startTimer (i : SlotNo) (p : Purpose) : Keeps [.slots] s (s.startTimer i p) := s.keeps_modCircuit i _
theorem keeps_stopTimer (i : SlotNo) : Keeps [.slots] s (s.stopTimer i) := s.keeps_modCircuit i _
theorem keeps_joinAttention (p : PortNo) (i : SlotNo) : Keeps [.ports] s (s.joinAttention p i) := s.keeps_modPort p _
theorem keeps_leaveAttention (p : PortNo) (i : SlotNo) : Keeps [.ports] s (s.leaveAttention p i) := s.keeps_modPort p _
theorem keeps_clearConditions (i : SlotNo) : Keeps [.slots] s (s.clearConditions i) := s.keeps_modCircuit i _

theorem keeps_raise (i : SlotNo) (x : Conditions) : Keeps [.slots, .ports] s (s.raise i x) := by
  unfold raise
  split
  · exact .refl _ s
  · split
    · exact .refl _ s
    · dsimp only
      split
      · exact (s.keeps_setCircuit i _).both (keeps_joinAttention _ _ _) (by decide) (by decide)
      · exact (s.keeps_setCircuit i _).mono (by decide)

theorem keeps_leaveOwner (i : SlotNo) : Keeps [.slots, .ports] s (s.leaveOwner i) := by
  unfold leaveOwner
  split
  · exact .refl _ s
  · split
    · exact .refl _ s
    · exact (s.keeps_leaveAttention _ i).both (keeps_clearConditions _ _) (by decide) (by decide)

theorem keeps_judgeAtnOf (p : PortNo) : Keeps [.ports] s (s.judgeAtnOf p) := s.keeps_modPort p _

theorem keeps_judgeAtn : Keeps [.ports] s s.judgeAtn :=
  (((s.keeps_judgeAtnOf 0).trans (keeps_judgeAtnOf _ 1)).trans (keeps_judgeAtnOf _ 2)).trans (keeps_judgeAtnOf _ 3)

/-! ## The pool -/

theorem keeps_grantOne (i : SlotNo) (rest : List SlotNo) :
    Keeps [.slots, .lines, .reservedTotal, .waitQueue] s (s.grantOne i rest) := by
  have h : Keeps [.slots, .lines, .reservedTotal, .waitQueue] s
      ((((s.setReservedTotal (s.reservedTotal + 1)).setWaitQueue rest).modCircuit i
        fun c => { c with reserved := c.reserved + 1, receiveEdge := c.receiveEdge + 1 }).owe i .credit) := by
    refine Keeps.trans ?_ ((keeps_owe _ i _).mono (by decide))
    refine Keeps.trans ?_ ((keeps_modCircuit _ i _).mono (by decide))
    exact (s.keeps_setReservedTotal _).both (keeps_setWaitQueue _ _) (by decide) (by decide)
  unfold grantOne
  dsimp only
  split
  · exact h.both (keeps_setWaitQueue _ _) (List.Subset.refl _) (by decide)
  · exact h

theorem keeps_serveTimes (n : Nat) : ∀ s, Keeps [.slots, .lines, .reservedTotal, .waitQueue] s (serveTimes n s) := by
  induction n with
  | zero => exact fun s => .refl _ s
  | succ n ih =>
    intro s
    rw [serveTimes]
    split
    · exact .refl _ s
    · exact (s.keeps_grantOne _ _).trans (ih _)

theorem keeps_serveWait : Keeps [.slots, .lines, .reservedTotal, .waitQueue] s s.serveWait := keeps_serveTimes _ s

theorem keeps_joinWait (i : SlotNo) : Keeps [.slots, .lines, .reservedTotal, .waitQueue] s (s.joinWait i) := by
  unfold joinWait
  split
  · exact .refl _ s
  · exact (s.keeps_setWaitQueue _).both (keeps_serveWait _) (by decide) (List.Subset.refl _)

theorem keeps_joinWaitIfShort (i : SlotNo) :
    Keeps [.slots, .lines, .reservedTotal, .waitQueue] s (s.joinWaitIfShort i) := by
  unfold joinWaitIfShort
  split
  · exact s.keeps_joinWait i
  · exact .refl _ s

theorem keeps_reserve (i : SlotNo) (n : Nat) : Keeps [.slots, .reservedTotal] s (s.reserve i n) :=
  (s.keeps_setReservedTotal _).both (keeps_modCircuit _ i _) (by decide) (by decide)

theorem keeps_releaseReservations (i : SlotNo) :
    Keeps [.slots, .lines, .reservedTotal, .waitQueue] s (s.releaseReservations i) := by
  unfold releaseReservations
  split
  · exact .refl _ s
  · exact ((s.keeps_setReservedTotal _).both (keeps_setCircuit _ i _) (by decide) (by decide)).both
      (keeps_serveWait _) (List.Subset.refl _) (List.Subset.refl _)

theorem keeps_returnBuffer (b : BufNo) : Keeps [.places, .freeQueue] s (s.returnBuffer b) :=
  (s.keeps_setFreeQueue _).both (keeps_setPlace _ b _) (by decide) (by decide)

theorem keeps_returnBuffers (bs : List BufNo) : Keeps [.places, .freeQueue] s (s.returnBuffers bs) :=
  Keeps.foldl keeps_returnBuffer bs s

theorem keeps_returnCircuitBuffers (i : SlotNo) :
    Keeps [.slots, .lines, .reservedTotal, .waitQueue, .places, .freeQueue] s (s.returnCircuitBuffers i) := by
  unfold returnCircuitBuffers
  split
  · exact .refl _ s
  · exact ((s.keeps_setCircuit i _).both (keeps_returnBuffers _ _) (by decide) (by decide)).both (keeps_serveWait _)
      (List.Subset.refl _) (by decide)

/-! ## Readiness, stall, replies, allocation -/

theorem keeps_settleReady (i : SlotNo) : Keeps [.lines] s (s.settleReady i) := by
  unfold settleReady
  split
  · exact .refl _ s
  · split
    · exact s.keeps_modTx _ _
    · exact .refl _ s

theorem keeps_settleStall (i : SlotNo) : Keeps [.slots] s (s.settleStall i) := by
  unfold settleStall
  split
  · exact .refl _ s
  · split
    · exact s.keeps_startTimer _ _
    · exact .refl _ s

theorem keeps_offerReply (l : LineNo) (r : Reply) : Keeps [.lines] s (s.offerReply l r) := s.keeps_modTx l _

theorem keeps_allocate {s t : State} {c : Circuit} {i : SlotNo} (h : s.allocate c = some (i, t)) :
    Keeps [.slots, .freeSlots, .index] s t := by
  unfold allocate at h
  split at h
  · simp at h
  · simp only [Option.some.injEq, Prod.mk.injEq] at h
    obtain ⟨rfl, rfl⟩ := h
    exact ((s.keeps_setFreeSlots _).both (keeps_setSlot _ _ _) (by decide) (by decide)).both (keeps_mapNumber _ _ _ _)
      (List.Subset.refl _) (by decide)

/-! ## Ends of circuits -/

theorem keeps_lowerLive (o : Origin) : Keeps [.services] s (s.lowerLive o) := by
  cases o with
  | localCall => exact .refl _ s
  | remoteCall e => exact s.keeps_setEntry e _

theorem keeps_enterClosing (i : SlotNo) (cause : Byte) :
    Keeps [.slots, .lines, .reservedTotal, .waitQueue] s (s.enterClosing i cause) := by
  unfold enterClosing
  split
  · exact .refl _ s
  · dsimp only
    refine Keeps.trans ?_ ((keeps_owe _ i .close).mono (by decide))
    refine Keeps.trans ?_ ((keeps_modCircuit _ i _).mono (by decide))
    refine Keeps.trans ?_ (keeps_releaseReservations _ i)
    refine Keeps.trans ?_ ((keeps_leaveWait _ i).mono (by decide))
    exact (s.keeps_setCircuit i _).both (keeps_modTx _ _ _) (by decide) (by decide)

theorem keeps_endSteps (i : SlotNo) :
    Keeps [.slots, .lines, .reservedTotal, .waitQueue, .index, .services] s (s.endSteps i) := by
  unfold endSteps
  split
  · exact .refl _ s
  · dsimp only
    refine Keeps.trans ?_ ((keeps_modCircuit _ i _).mono (by decide))
    refine Keeps.trans ?_ ((keeps_releaseReservations _ i).mono (by decide))
    refine Keeps.trans ?_ ((keeps_modTx _ _ _).mono (by decide))
    refine Keeps.trans ?_ ((keeps_leaveWait _ i).mono (by decide))
    exact (s.keeps_unmapNumber _ _).both (keeps_lowerLive _ _) (by decide) (by decide)

theorem keeps_endRecord (i : SlotNo) (cause : Byte) (side : Side) (m : Option Confirmation) :
    Keeps [.slots, .lines, .reservedTotal, .waitQueue, .index, .services] s (s.endRecord i cause side m) := by
  unfold endRecord
  exact (s.keeps_modCircuit i _).both (keeps_endSteps _ i) (by decide) (by decide)

theorem keeps_enterEnded (i : SlotNo) (cause : Byte) (side : Side) (m : Option Confirmation) :
    Keeps [.slots, .lines, .reservedTotal, .waitQueue, .index, .services, .ports] s (s.enterEnded i cause side m) := by
  unfold enterEnded
  exact (s.keeps_endRecord i cause side m).both (keeps_raise _ i _) (by decide) (by decide)

theorem keeps_freeSlot (i : SlotNo) : Keeps [.slots, .freeSlots] s (s.freeSlot i) := by
  unfold freeSlot
  exact (s.keeps_setCircuit i none).both (keeps_setFreeSlots _ _) (by decide) (by decide)

/-- The parts that ending circuits may change: every part but these is kept by all that follows. -/
def directoryParts : List Part :=
  [.slots, .lines, .reservedTotal, .waitQueue, .index, .services, .ports, .places, .freeQueue, .freeSlots]

theorem keeps_directFree (i : SlotNo) : Keeps directoryParts s (s.directFree i) := by
  unfold directFree
  refine Keeps.trans ?_ ((keeps_freeSlot _ i).mono (by decide))
  refine Keeps.trans ?_ ((keeps_leaveOwner _ i).mono (by decide))
  exact (s.keeps_endSteps i).both (keeps_returnCircuitBuffers _ i) (by decide) (by decide)

theorem keeps_endClosing (i : SlotNo) (m : Confirmation) : Keeps directoryParts s (s.endClosing i m) := by
  unfold endClosing
  split
  · exact .refl _ s
  · split
    · exact (s.keeps_enterEnded i _ _ _).mono (by decide)
    · exact s.keeps_directFree i
    · exact .refl _ s

theorem keeps_putLine (l : LineNo) (f : Line → Line) : Keeps [.lines] s (s.putLine l f) := s.keeps_modLine l _
theorem keeps_countDiscard (l : LineNo) : Keeps [.lines] s (s.countDiscard l) := s.keeps_modLine l _

theorem keeps_endByTeardown (cause : Byte) (i : SlotNo) : Keeps directoryParts s (endByTeardown cause s i) := by
  unfold endByTeardown
  split
  · exact .refl _ s
  · split
    · exact s.keeps_directFree i
    · exact (s.keeps_enterEnded i _ _ _).mono (by decide)
    · exact (s.keeps_enterEnded i _ _ _).mono (by decide)

theorem keeps_teardown (l : LineNo) (cause : Byte) : Keeps directoryParts s (s.teardown l cause) := by
  have h : Keeps directoryParts s
      (((s.mappedSlots l).foldl (endByTeardown cause)
        (s.setWaitQueue (s.waitQueue.filter fun i => i ∉ s.mappedSlots l))).modLine l fun r =>
          { r with tx := { data := afterTeardown r.tx.staged.isSome r.state } }) := by
    refine Keeps.trans ?_ ((keeps_modLine _ l _).mono (by decide))
    exact ((s.keeps_setWaitQueue _).mono (by decide)).trans (Keeps.foldl (fun v i => keeps_endByTeardown v cause i) _ _)
  unfold teardown
  dsimp only
  split
  · exact h.trans (((keeps_countDiscard _ l).trans (keeps_modLine _ l _)).mono (by decide))
  · exact h

/-! ## Arrivals -/

theorem keeps_admitCall (l : LineNo) (n service edge : Byte) : Keeps directoryParts s (s.admitCall l n service edge) := by
  have refused : ∀ cause, Keeps directoryParts s (s.refuseCall l n cause) := fun _ =>
    (s.keeps_offerReply l _).mono (by decide)
  unfold admitCall
  split
  · exact refused _
  · split
    · exact refused _
    · split
      · exact refused _
      · unfold admitOffer
        split
        · exact refused _
        · rename_i h
          refine Keeps.trans ((keeps_allocate h).mono (by decide)) ?_
          refine Keeps.trans ?_ ((keeps_raise _ _ _).mono (by decide))
          exact (keeps_setEntry _ _ _).both (keeps_startTimer _ _ _) (by decide) (by decide)
    · split
      · exact refused _
      · unfold admitAccept
        split
        · exact refused _
        · rename_i h
          refine Keeps.trans ((keeps_allocate h).mono (by decide)) ?_
          refine Keeps.trans ?_ ((keeps_joinWaitIfShort _ _).mono (by decide))
          refine Keeps.trans ?_ ((keeps_raise _ _ _).mono (by decide))
          refine Keeps.trans ?_ ((keeps_owe _ _ _).mono (by decide))
          exact (keeps_setEntry _ _ _).both (keeps_reserve _ _ _) (by decide) (by decide)

theorem keeps_collide (i : SlotNo) (l : LineNo) (n service edge : Byte) :
    Keeps directoryParts s (s.collide i l n service edge) := by
  unfold collide
  split
  · dsimp only
    refine Keeps.trans ?_ (keeps_admitCall _ _ _ _ _)
    refine Keeps.trans ?_ ((keeps_owe _ _ _).mono (by decide))
    refine Keeps.trans ?_ ((keeps_modCircuit _ _ _).mono (by decide))
    exact (s.keeps_unmapNumber _ _).both (keeps_mapNumber _ _ _ _) (by decide) (by decide)
  · split
    · refine Keeps.trans ?_ ((keeps_raise _ _ _).mono (by decide))
      exact ((s.keeps_endRecord _ _ _ _).mono (by decide)).trans (keeps_admitCall _ _ _ _ _)
    · exact ((s.keeps_enterEnded _ _ _ _).mono (by decide)).trans (keeps_admitCall _ _ _ _ _)

theorem keeps_openArrives (l : LineNo) (n a b : Byte) : Keeps directoryParts s (s.openArrives l n a b) := by
  unfold openArrives
  split
  · exact s.keeps_admitCall l n a b
  · split
    · split
      · exact s.keeps_collide _ _ _ _ _
      · exact .refl _ s
    · exact (s.keeps_owe _ _).mono (by decide)
    · exact (s.keeps_owe _ _).mono (by decide)
    · exact .refl _ s

theorem keeps_strayArrives (l : LineNo) (n : Byte) (k : FrameKind) : Keeps [.lines] s (s.strayArrives l n k) := by
  unfold strayArrives
  split <;> first | exact s.keeps_offerReply l _ | exact .refl _ s

theorem keeps_grantArrives (l : LineNo) (n a : Byte) : Keeps directoryParts s (s.grantArrives l n a) := by
  unfold grantArrives
  split
  · exact (s.keeps_strayArrives l n _).mono (by decide)
  · split
    · dsimp only
      refine Keeps.trans ?_ ((keeps_settleStall _ _).mono (by decide))
      refine Keeps.trans ?_ ((keeps_settleReady _ _).mono (by decide))
      refine Keeps.trans ?_ ((keeps_joinWaitIfShort _ _).mono (by decide))
      refine Keeps.trans ?_ ((keeps_raise _ _ _).mono (by decide))
      refine Keeps.trans ?_ ((keeps_modCircuit _ _ _).mono (by decide))
      exact (s.keeps_stopTimer _).both (keeps_dropOwed _ _ _) (by decide) (by decide)
    · exact .refl _ s

theorem keeps_refuseArrives (l : LineNo) (n a : Byte) : Keeps directoryParts s (s.refuseArrives l n a) := by
  unfold refuseArrives
  split
  · exact (s.keeps_strayArrives l n _).mono (by decide)
  · split
    · exact (s.keeps_enterEnded _ _ _ _).mono (by decide)
    · exact .refl _ s

theorem keeps_takeCarry (i : SlotNo) (b : BufNo) (rest : List BufNo) (m : Bool) (vs : List Byte) :
    Keeps (.memory :: directoryParts) s (s.takeCarry i b rest m vs) := by
  unfold takeCarry
  dsimp only
  refine Keeps.trans ?_ ((keeps_joinWaitIfShort _ _).mono (by decide))
  refine Keeps.trans ?_ ((keeps_owe _ _ _).mono (by decide))
  refine Keeps.trans ?_ ((keeps_raise _ _ _).mono (by decide))
  refine Keeps.trans ?_ ((keeps_modCircuit _ _ _).mono (by decide))
  refine Keeps.trans ?_ ((keeps_writeBuffer _ _ _ _).mono (by decide))
  refine Keeps.trans ?_ ((keeps_setPlace _ _ _).mono (by decide))
  exact (s.keeps_setFreeQueue _).both (keeps_setReservedTotal _ _) (by decide) (by decide)

theorem keeps_settleTimer (i : SlotNo) (n : Nat) : Keeps [.slots] s (s.settleTimer i n) := by
  unfold settleTimer
  split
  · exact .refl _ s
  · repeat' split
    all_goals first | exact .refl _ s | exact s.keeps_startTimer _ _ | exact s.keeps_stopTimer _

theorem keeps_settleDrain (i : SlotNo) :
    Keeps [.slots, .lines, .reservedTotal, .waitQueue] s (s.settleDrain i) := by
  unfold settleDrain
  split
  · exact .refl _ s
  · split
    · split
      · exact s.keeps_enterClosing i _
      · exact .refl _ s
    · exact .refl _ s

theorem keeps_settleCredit (i : SlotNo) (n : Nat) (e : Bool) :
    Keeps [.slots, .lines, .reservedTotal, .waitQueue] s (s.settleCredit i n e) := by
  have h : Keeps [.slots] s (if 0 < n || e then s.modCircuit i fun c => { c with retry := 0 } else s) := by
    split
    · exact s.keeps_modCircuit i _
    · exact .refl _ s
  unfold settleCredit
  dsimp only
  refine Keeps.trans ?_ (keeps_settleDrain _ i)
  refine Keeps.trans ?_ ((keeps_settleReady _ i).mono (by decide))
  refine Keeps.trans ?_ ((keeps_settleTimer _ i n).mono (by decide))
  exact h.both (keeps_dropOwed _ i _) (by decide) (by decide)

theorem keeps_acknowledge (i : SlotNo) (c : Circuit) (n : Nat) (a : Seq) :
    Keeps directoryParts s (s.acknowledge i c n a) := by
  unfold acknowledge
  dsimp only
  have h : Keeps directoryParts s
      ((((s.setCircuit i (some { c with unacked := c.unacked.drop n, ackBase := a })).returnBuffers
        ((c.unacked.take n).map (·.entry.buffer))).serveWait).modCircuit i
          fun x => { x with delivered := min Config.countMax (x.delivered + n) }) := by
    refine Keeps.trans ?_ ((keeps_modCircuit _ i _).mono (by decide))
    refine Keeps.trans ?_ ((keeps_serveWait _).mono (by decide))
    exact (s.keeps_setCircuit i _).both (keeps_returnBuffers _ _) (by decide) (by decide)
  split
  · exact h.trans ((keeps_raise _ i _).mono (by decide))
  · exact h

theorem keeps_creditArrives (l : LineNo) (n a b : Byte) : Keeps directoryParts s (s.creditArrives l n a b) := by
  unfold creditArrives
  split
  · exact (s.keeps_strayArrives l n _).mono (by decide)
  · dsimp only
    repeat' split
    · exact (s.keeps_settleCredit _ _ _).mono (by decide)
    · exact (s.keeps_enterClosing _ _).mono (by decide)
    · refine Keeps.trans ?_ ((keeps_settleCredit _ _ _ _).mono (by decide))
      exact (s.keeps_acknowledge _ _ _ _).trans ((keeps_modCircuit _ _ _).mono (by decide))
    · exact .refl _ s

theorem keeps_askArrives (l : LineNo) (n : Byte) : Keeps [.slots, .lines] s (s.askArrives l n) := by
  unfold askArrives
  split
  · exact (s.keeps_strayArrives l n _).mono (by decide)
  · split
    · exact s.keeps_owe _ _
    · exact .refl _ s

theorem keeps_closeArrives (l : LineNo) (n a : Byte) : Keeps directoryParts s (s.closeArrives l n a) := by
  unfold closeArrives
  split
  · exact (s.keeps_strayArrives l n _).mono (by decide)
  · split
    · exact (s.keeps_endClosing _ _).trans ((keeps_offerReply _ _ _).mono (by decide))
    · exact .refl _ s
    · exact ((s.keeps_enterEnded _ _ _ _).mono (by decide)).trans ((keeps_offerReply _ _ _).mono (by decide))

theorem keeps_closedArrives (l : LineNo) (n : Byte) : Keeps directoryParts s (s.closedArrives l n) := by
  unfold closedArrives
  split
  · exact (s.keeps_strayArrives l n _).mono (by decide)
  · split
    · exact s.keeps_endClosing _ _
    · exact .refl _ s

/-! ## The transmitter -/

theorem keeps_stage (l : LineNo) (f : Frame) (m : Bool) (n : Option Noted) : Keeps [.lines] s (s.stage l f m n) :=
  s.keeps_modTx l _

theorem keeps_selectControl (l : LineNo) (n : Nat) : ∀ s, Keeps [.slots, .lines] s (selectControl l n s) := by
  induction n with
  | zero => exact fun s => .refl _ s
  | succ n ih =>
    intro s
    rw [selectControl]
    split
    · exact .refl _ s
    · split
      · exact ((s.keeps_modTx l _).mono (by decide)).trans (ih _)
      · split
        · exact ((s.keeps_setCircuit _ _).both (keeps_modTx _ l _) (by decide) (by decide)).trans (ih _)
        · exact ((s.keeps_setCircuit _ _).both (keeps_modTx _ l _) (by decide) (by decide)).trans
            ((keeps_stage _ _ _ _ _).mono (by decide))

theorem keeps_stageData (l : LineNo) (i : SlotNo) (rest : List SlotNo) :
    Keeps [.slots, .lines, .places] s (s.stageData l i rest) := by
  have h0 : Keeps [.slots, .lines, .places] s (s.modTx l fun t => { t with ring := rest }) :=
    (s.keeps_modTx l _).mono (by decide)
  unfold stageData
  dsimp only
  split
  · exact h0
  · split
    · exact h0
    · split
      · refine Keeps.trans ?_ ((keeps_modTx _ l _).mono (by decide))
        refine Keeps.trans ?_ ((keeps_stage _ l _ _ _).mono (by decide))
        exact h0.trans ((keeps_setCircuit _ _ _).both (keeps_setPlace _ _ _) (by decide) (by decide))
      · refine Keeps.trans ?_ ((keeps_stage _ l _ _ _).mono (by decide))
        exact h0.trans ((keeps_setCircuit _ _ _).both (keeps_setPlace _ _ _) (by decide) (by decide))

theorem keeps_select (l : LineNo) : Keeps [.slots, .lines, .places] s (s.select l) := by
  have h : Keeps [.slots, .lines, .places] s (selectControl l (s.line l).tx.control.length s) :=
    (keeps_selectControl l _ s).mono (by decide)
  unfold select
  dsimp only
  split
  · exact h
  · split
    · exact h.trans ((keeps_modTx _ l _).both (keeps_stage _ l _ _ _) (by decide) (by decide))
    · exact h.trans (keeps_stageData _ l _ _)
    · exact h.trans ((keeps_modTx _ l _).mono (by decide))

theorem keeps_complete (x : Staged) : Keeps [.slots] s (s.complete x) := by
  unfold complete
  split
  · exact .refl _ s
  · split
    · exact .refl _ s
    · split
      · unfold applyCompletion
        repeat' split
        all_goals first | exact .refl _ s | exact s.keeps_startTimer _ _
      · exact .refl _ s

end State

end Sys2Proof.Machine
end

