-- ==== Sys2Proof/Laws/Ops.lean ====
section
/-! SUPPORT. What each shared operation does, said once: owed control, timers, attention, the pool, the ends of circuits. -/

namespace Sys2Proof.Machine

/-! ## Queues -/

theorem mem_leave {q : List SlotNo} {i j : SlotNo} : j ∈ leave q i ↔ j ∈ q ∧ j ≠ i := by simp [leave]

theorem mem_joinTail {q : List SlotNo} {i j : SlotNo} : j ∈ joinTail q i ↔ j ∈ q ∨ j = i := by
  unfold joinTail
  split_ifs with h
  · constructor
    · exact .inl
    · rintro (h' | rfl)
      · exact h'
      · exact h
  · simp

/-- Joining the tail adds at most one entry, behind the others. -/
theorem joinTail_eq (q : List SlotNo) (i : SlotNo) : joinTail q i = q ++ (if i ∈ q then [] else [i]) := by
  unfold joinTail; split_ifs <;> simp

namespace State

variable {s : State} {i j : SlotNo} {c : Circuit}

/-! ## The readers through the bookkeeping of queues -/

@[simp] theorem circuit_leaveWait : (s.leaveWait i).circuit j = s.circuit j := rfl
@[simp] theorem slot_leaveWait : (s.leaveWait i).slot j = s.slot j := rfl
@[simp] theorem line_leaveWait (l : LineNo) : (s.leaveWait i).line l = s.line l := rfl
@[simp] theorem waitQueue_leaveWait : (s.leaveWait i).waitQueue = leave s.waitQueue i := rfl

theorem circuit_modCircuit (f : Circuit → Circuit) :
    (s.modCircuit i f).circuit j = if j = i then (s.circuit j).map f else s.circuit j := by
  split_ifs with h
  · subst h; simp
  · exact circuit_modCircuit_ne s h f

theorem circuit_setCircuit (x : Option Circuit) :
    (s.setCircuit i x).circuit j = if j = i then x else s.circuit j := by
  split_ifs with h
  · subst h; simp
  · exact circuit_setCircuit_ne s h x

/-! ## Owed control -/

theorem owe_eq (h : s.circuit i = some c) (k : OwedKind) :
    s.owe i k = (s.setCircuit i (some { c with owed := c.owed.put k true })).modTx c.line
      fun t => { t with control := joinTail t.control i } := by
  simp only [owe, h]

theorem owe_none (h : s.circuit i = none) (k : OwedKind) : s.owe i k = s := by simp only [owe, h]

theorem circuit_owe (k : OwedKind) :
    (s.owe i k).circuit j
      = if j = i then (s.circuit j).map fun c => { c with owed := c.owed.put k true } else s.circuit j := by
  cases h : s.circuit i with
  | none =>
    rw [owe_none h]
    split_ifs with hj
    · subst hj; simp [h]
    · rfl
  | some c =>
    rw [owe_eq h, circuit_modTx, circuit_setCircuit]
    split_ifs with hj
    · subst hj; simp [h]
    · rfl

@[simp] theorem generation_owe (k : OwedKind) : ((s.owe i k).slot j).generation = (s.slot j).generation := by
  unfold owe; split <;> simp

theorem line_owe (h : s.circuit i = some c) (k : OwedKind) (l : LineNo) :
    (s.owe i k).line l
      = if l = c.line then { s.line l with tx := { (s.line l).tx with control := joinTail (s.line l).tx.control i } }
        else s.line l := by
  rw [owe_eq h]
  split_ifs with hl
  · subst hl; simp
  · rw [line_modTx_ne _ hl]; simp

theorem slot_owe_ne (h : j ≠ i) (k : OwedKind) : (s.owe i k).slot j = s.slot j := by
  unfold owe
  split
  · rfl
  · rw [slot_modTx, slot_setCircuit_ne _ h]

theorem circuit_dropOwed (k : OwedKind) :
    (s.dropOwed i k).circuit j
      = if j = i then (s.circuit j).map fun c => { c with owed := c.owed.put k false } else s.circuit j := by
  unfold dropOwed
  split
  · rename_i h
    split_ifs with hj
    · subst hj; simp [h]
    · rfl
  · rename_i c h
    have key : (s.setCircuit i (some { c with owed := c.owed.put k false })).circuit j
        = if j = i then (s.circuit j).map fun c => { c with owed := c.owed.put k false } else s.circuit j := by
      rw [circuit_setCircuit]
      split_ifs with hj
      · subst hj; simp [h]
      · rfl
    dsimp only
    split
    · rw [circuit_modTx]; exact key
    · exact key

@[simp] theorem generation_dropOwed (k : OwedKind) :
    ((s.dropOwed i k).slot j).generation = (s.slot j).generation := by
  unfold dropOwed
  split
  · rfl
  · dsimp only; split <;> simp

theorem line_dropOwed (h : s.circuit i = some c) (k : OwedKind) (l : LineNo) :
    (s.dropOwed i k).line l
      = if l = c.line ∧ c.owed.put k false = {} then
          { s.line l with tx := { (s.line l).tx with control := leave (s.line l).tx.control i } }
        else s.line l := by
  simp only [dropOwed, h, Owed.isEmpty, decide_eq_true_eq]
  by_cases he : c.owed.put k false = {}
  · rw [if_pos he]
    by_cases hl : l = c.line
    · subst hl
      rw [if_pos ⟨rfl, he⟩, line_modTx_same, line_setCircuit]
    · rw [if_neg fun e => hl e.1, line_modTx_ne _ hl, line_setCircuit]
  · rw [if_neg he, if_neg fun e => he e.2, line_setCircuit]

/-! ## Timers, conditions, attention -/

theorem circuit_startTimer (p : Purpose) :
    (s.startTimer i p).circuit j
      = if j = i then (s.circuit j).map fun c => { c with timer := some ⟨p, (s.line c.line).config.duration p⟩ }
        else s.circuit j := circuit_modCircuit _

theorem circuit_stopTimer :
    (s.stopTimer i).circuit j
      = if j = i then (s.circuit j).map fun c => { c with timer := none } else s.circuit j := circuit_modCircuit _

theorem circuit_clearConditions :
    (s.clearConditions i).circuit j
      = if j = i then (s.circuit j).map fun c => { c with conditions := {}, delivered := 0 } else s.circuit j :=
  circuit_modCircuit _

@[simp] theorem circuit_joinAttention (p : PortNo) : (s.joinAttention p i).circuit j = s.circuit j := rfl
@[simp] theorem circuit_leaveAttention (p : PortNo) : (s.leaveAttention p i).circuit j = s.circuit j := rfl
@[simp] theorem slot_joinAttention (p : PortNo) : (s.joinAttention p i).slot j = s.slot j := rfl
@[simp] theorem slot_leaveAttention (p : PortNo) : (s.leaveAttention p i).slot j = s.slot j := rfl

/-- Conditions raised: the record's set grows, when it has an owner. -/
theorem circuit_raise (x : Conditions) :
    (s.raise i x).circuit j
      = if j = i then (s.circuit j).map fun c =>
          if c.owner.isSome then { c with conditions := c.conditions.union x } else c
        else s.circuit j := by
  unfold raise
  split
  · rename_i h
    split_ifs with hj
    · subst hj; simp [h]
    · rfl
  · rename_i c h
    split
    · rename_i ho
      split_ifs with hj
      · subst hj; simp [h, ho]
      · rfl
    · rename_i p ho
      have key : (s.setCircuit i (some { c with conditions := c.conditions.union x })).circuit j
          = if j = i then (s.circuit j).map fun c =>
              if c.owner.isSome then { c with conditions := c.conditions.union x } else c
            else s.circuit j := by
        rw [circuit_setCircuit]
        split_ifs with hj
        · subst hj; simp [h, ho]
        · rfl
      dsimp only
      split
      · rw [circuit_joinAttention]; exact key
      · exact key

@[simp] theorem generation_raise (x : Conditions) : ((s.raise i x).slot j).generation = (s.slot j).generation := by
  unfold raise
  split
  · rfl
  · split
    · rfl
    · dsimp only; split <;> simp

@[simp] theorem circuit_judgeAtn : s.judgeAtn.circuit j = s.circuit j := by
  have := (s.keeps_judgeAtn).at_slots (by decide)
  simp only [circuit, slot, this]

@[simp] theorem slot_judgeAtn : s.judgeAtn.slot j = s.slot j := by
  have := (s.keeps_judgeAtn).at_slots (by decide)
  simp only [slot, this]

/-! ## Grants -/

end State

theorem Circuit.granted_zero (c : Circuit) : c.granted 0 = c := rfl

theorem Owed.put_put (o : Owed) (k : OwedKind) (v w : Bool) : (o.put k v).put k w = o.put k w := by
  cases k <;> rfl

theorem Circuit.granted_add (c : Circuit) (m n : Nat) : (c.granted m).granted n = c.granted (m + n) := by
  unfold Circuit.granted
  by_cases hm : m = 0
  · subst hm; simp
  · by_cases hn : n = 0
    · subst hn; simp
    · have : m + n ≠ 0 := by omega
      simp only [if_neg hm, if_neg hn, if_neg this, Owed.put_put, BitVec.ofNat_add, Nat.add_assoc, BitVec.add_assoc]

/-- Grants between two states, one after another. -/
theorem granted_then {s t u : State} {j : SlotNo} {m n : Nat} (h : t.circuit j = (s.circuit j).map (·.granted m))
    (k : u.circuit j = (t.circuit j).map (·.granted n)) : u.circuit j = (s.circuit j).map (·.granted (m + n)) := by
  rw [k, h, Option.map_map]
  congr 1
  funext c
  exact Circuit.granted_add c m n

/-- A circuit granted reservations in the midst of other grants. -/
theorem State.gains.within {s a b t : State} {j : SlotNo} (h : a.gains b j) {m n : Nat}
    (h1 : a.circuit j = (s.circuit j).map (·.granted m)) (h2 : t.circuit j = (b.circuit j).map (·.granted n)) :
    s.gains t j := by
  obtain ⟨c, k, hc, hk, hb⟩ := h
  rw [hc] at h1
  obtain ⟨d, hd, rfl⟩ := Option.map_eq_some_iff.1 h1.symm
  refine ⟨d, m + k + n, hd, by omega, ?_⟩
  rw [h2, hb, Option.map_some, Circuit.granted_add, Circuit.granted_add, Nat.add_assoc]

theorem granted_none {s t : State} {j : SlotNo} (h : t.circuit j = s.circuit j) :
    t.circuit j = (s.circuit j).map (·.granted 0) := by
  rw [h]; cases s.circuit j <;> rfl

namespace Served

variable {s t u : State}

theorem refl (s : State) : Served s s where
  keeps := .refl _ s
  circuits j := ⟨0, by simp [Circuit.granted_zero], fun _ => rfl⟩
  generations _ := rfl
  lines l := ⟨[], by simp⟩
  waiting _ h := h
  standing _ _ h := .inl h

/-- What stood on a control queue stands there after service. -/
theorem staying (h : Served s t) {l : LineNo} {j : SlotNo} (hj : j ∈ (s.line l).tx.control) :
    j ∈ (t.line l).tx.control := by
  obtain ⟨more, -, hm⟩ := h.lines l
  rw [hm]
  exact List.mem_append_left _ hj

theorem trans (h : Served s t) (k : Served t u) : Served s u where
  keeps := h.keeps.trans k.keeps
  circuits j := by
    obtain ⟨m, hm, hm0⟩ := h.circuits j
    obtain ⟨n, hn, hn0⟩ := k.circuits j
    refine ⟨m + n, ?_, fun hj => ?_⟩
    · rw [hn, hm, Option.map_map]
      congr 1
      funext c
      exact Circuit.granted_add c m n
    · rw [hm0 hj, hn0 fun hjt => hj (h.waiting j hjt)]
  generations j := (k.generations j).trans (h.generations j)
  lines l := by
    obtain ⟨x, hx0, hx⟩ := h.lines l
    obtain ⟨y, hy0, hy⟩ := k.lines l
    refine ⟨x ++ y, fun j hj => ?_, by rw [hy, hx]; simp⟩
    obtain ⟨m, hm, -⟩ := h.circuits j
    obtain ⟨n, hn, -⟩ := k.circuits j
    rcases List.mem_append.1 hj with hj | hj
    · exact ⟨(hx0 j hj).1, (hx0 j hj).2.within (granted_none rfl) hn⟩
    · exact ⟨h.waiting j (hy0 j hj).1, (hy0 j hj).2.within hm (granted_none rfl)⟩
  waiting j hj := h.waiting j (k.waiting j hj)
  standing j c hc := (h.standing j c hc).elim (k.standing j c) fun hj => .inr (k.staying hj)

end Served

namespace State

variable {s : State} {i j : SlotNo} {c : Circuit}

/-- One grant to the circuit at the head of the queue is service. -/
theorem served_grantOne {rest : List SlotNo} (hq : s.waitQueue = i :: rest) : Served s (s.grantOne i rest) := by
  have hc : ∀ j, ((((s.setReservedTotal (s.reservedTotal + 1)).setWaitQueue rest).modCircuit i
      fun c => { c with reserved := c.reserved + 1, receiveEdge := c.receiveEdge + 1 }).owe i .credit).circuit j
      = if j = i then (s.circuit j).map (·.granted 1) else s.circuit j := by
    intro j
    rw [circuit_owe, circuit_modCircuit]
    split_ifs with h
    · rw [Option.map_map]; rfl
    · rfl
  have hg : ∀ j, (((((s.setReservedTotal (s.reservedTotal + 1)).setWaitQueue rest).modCircuit i
      fun c => { c with reserved := c.reserved + 1, receiveEdge := c.receiveEdge + 1 }).owe i .credit).slot j).generation
      = (s.slot j).generation := by intro j; rw [generation_owe, generation_modCircuit]; rfl
  have hi : i ∈ s.waitQueue := by rw [hq]; exact List.mem_cons_self
  have hl : ∀ l, ∃ more, (∀ j ∈ more, j = i ∧ (s.circuit i).isSome) ∧ ((((s.setReservedTotal (s.reservedTotal + 1)).setWaitQueue rest).modCircuit i
      fun c => { c with reserved := c.reserved + 1, receiveEdge := c.receiveEdge + 1 }).owe i .credit).line l
      = { s.line l with tx := { (s.line l).tx with control := (s.line l).tx.control ++ more } } := by
    intro l
    cases h : s.circuit i with
    | none =>
      refine ⟨[], by simp, ?_⟩
      rw [owe_none (by rw [circuit_modCircuit_same]; simp [h])]
      simp
    | some c =>
      have h' : (((s.setReservedTotal (s.reservedTotal + 1)).setWaitQueue rest).modCircuit i
          fun c => { c with reserved := c.reserved + 1, receiveEdge := c.receiveEdge + 1 }).circuit i
          = some { c with reserved := c.reserved + 1, receiveEdge := c.receiveEdge + 1 } := by
        rw [circuit_modCircuit_same]; simp [h]
      rw [line_owe h']
      split_ifs with hl
      · refine ⟨_, fun j hj => ?_, by rw [joinTail_eq]; rfl⟩
        split_ifs at hj
        · exact absurd hj List.not_mem_nil
        · exact ⟨List.mem_singleton.1 hj, rfl⟩
      · exact ⟨[], by simp, by simp⟩
  have hs : ∀ c, s.circuit i = some c → i ∈ (((((s.setReservedTotal (s.reservedTotal + 1)).setWaitQueue rest).modCircuit i
      fun c => { c with reserved := c.reserved + 1, receiveEdge := c.receiveEdge + 1 }).owe i .credit).line
      c.line).tx.control := by
    intro c h
    have h' : (((s.setReservedTotal (s.reservedTotal + 1)).setWaitQueue rest).modCircuit i
        fun c => { c with reserved := c.reserved + 1, receiveEdge := c.receiveEdge + 1 }).circuit i
        = some { c with reserved := c.reserved + 1, receiveEdge := c.receiveEdge + 1 } := by
      rw [circuit_modCircuit_same]; simp [h]
    rw [line_owe h', if_pos rfl]
    exact mem_joinTail.2 (.inr rfl)
  have hw : ((((s.setReservedTotal (s.reservedTotal + 1)).setWaitQueue rest).modCircuit i
      fun c => { c with reserved := c.reserved + 1, receiveEdge := c.receiveEdge + 1 }).owe i .credit).waitQueue = rest := by
    rw [(keeps_owe _ i .credit).at_waitQueue (by decide)]; rfl
  have e : ∀ j, (s.grantOne i rest).circuit j = if j = i then (s.circuit j).map (·.granted 1) else s.circuit j := by
    intro j
    unfold grantOne
    dsimp only
    split
    · rw [circuit_setWaitQueue]; exact hc j
    · exact hc j
  have hcirc : ∀ j, ∃ n, (s.grantOne i rest).circuit j = (s.circuit j).map (·.granted n) ∧ (j ∉ s.waitQueue → n = 0) := by
    intro j
    rw [e]
    split_ifs with h
    · exact ⟨1, rfl, fun hj => absurd (by rw [hq, h]; simp) hj⟩
    · exact ⟨0, by simp [Circuit.granted_zero], fun _ => rfl⟩
  refine ⟨s.keeps_grantOne i rest, hcirc, fun j => ?_, fun l => ?_, fun j hj => ?_, fun j c h => ?_⟩
  · unfold grantOne
    dsimp only
    split
    · rw [slot_setWaitQueue]; exact hg j
    · exact hg j
  · obtain ⟨more, h0, hmore⟩ := hl l
    refine ⟨more, fun j hj => ?_, ?_⟩
    · obtain ⟨rfl, hs'⟩ := h0 j hj
      obtain ⟨c, hc'⟩ := Option.isSome_iff_exists.1 hs'
      exact ⟨hi, c, 1, hc', Nat.one_pos, by rw [e, if_pos rfl, hc']; rfl⟩
    unfold grantOne
    dsimp only
    split
    · rw [line_setWaitQueue]; exact hmore
    · exact hmore
  · rw [hq]
    unfold grantOne at hj
    dsimp only at hj
    split at hj
    · simp only [hw] at hj
      rcases List.mem_append.1 hj with h | h
      · exact List.mem_cons_of_mem _ h
      · rw [List.mem_singleton.1 h]; exact List.mem_cons_self
    · rw [hw] at hj
      exact List.mem_cons_of_mem _ hj
  · rw [e]
    split_ifs with hji
    · right
      subst hji
      unfold grantOne
      dsimp only
      split
      · rw [line_setWaitQueue]; exact hs c h
      · exact hs c h
    · exact .inl h

theorem served_serveTimes (n : Nat) : ∀ s : State, Served s (serveTimes n s) := by
  induction n with
  | zero => exact fun s => .refl s
  | succ n ih =>
    intro s
    rw [serveTimes]
    split
    · exact .refl s
    · rename_i i rest hq
      exact (served_grantOne hq).trans (ih _)

theorem served_serveWait (s : State) : Served s s.serveWait := served_serveTimes _ s

/-- With nothing available the pool grants nothing. -/
theorem serveWait_of_unavailable (h : s.available = 0) : s.serveWait = s := by rw [serveWait, h, serveTimes]

/-- With nothing available a circuit that joins the queue waits there. -/
theorem joinWait_of_unavailable (h : s.available = 0) : s.joinWait i = s.setWaitQueue (joinTail s.waitQueue i) := by
  unfold joinWait joinTail
  split_ifs with hw
  · rfl
  · exact serveWait_of_unavailable h

/-- A circuit that does not stand on the queue is granted nothing. -/
theorem circuit_serveWait_of_not_mem (h : i ∉ s.waitQueue) : s.serveWait.circuit i = s.circuit i := by
  obtain ⟨n, hn, h0⟩ := (served_serveWait s).circuits i
  rw [hn, h0 h]
  simp [Circuit.granted_zero]

/-! ## Reservations -/

theorem circuit_reserve (n : Nat) :
    (s.reserve i n).circuit j
      = if j = i then (s.circuit j).map fun c =>
          { c with reserved := min n s.available, receiveEdge := BitVec.ofNat 5 (min n s.available) }
        else s.circuit j := circuit_modCircuit _

theorem releaseReservations_eq (h : s.circuit i = some c) :
    s.releaseReservations i
      = ((s.setReservedTotal (s.reservedTotal - c.reserved)).setCircuit i (some { c with reserved := 0 })).serveWait := by
  simp only [releaseReservations, h]

/-- A circuit off the wait queue gives back its reservations and keeps all else. -/
theorem circuit_releaseReservations (hw : i ∉ s.waitQueue) :
    (s.releaseReservations i).circuit i = (s.circuit i).map fun c => { c with reserved := 0 } := by
  cases h : s.circuit i with
  | none => simp [releaseReservations, h]
  | some c =>
    rw [releaseReservations_eq h, circuit_serveWait_of_not_mem]
    · simp
    · exact hw

/-! ## Entering CLOSING -/

/-- A circuit that enters CLOSING: its state, no timer, no retries, nothing reserved, and CLOSE alone owed (R24). -/
theorem circuit_enterClosing (cause : Byte) :
    (s.enterClosing i cause).circuit i = (s.circuit i).map fun c =>
      { c with state := .closing cause, timer := none, retry := 0, reserved := 0, owed := { close := true } } := by
  cases h : s.circuit i with
  | none => simp [enterClosing, h]
  | some c =>
    simp only [enterClosing, h]
    rw [circuit_owe, if_pos rfl, circuit_modCircuit, if_pos rfl, circuit_releaseReservations]
    · simp
      rfl
    · simp [mem_leave]

/-! ## Ending -/

theorem circuit_lowerLive (o : Origin) : (s.lowerLive o).circuit j = s.circuit j := by cases o <;> rfl

/-- A circuit taken out by R14: nothing reserved, no timer, nothing owed. -/
theorem circuit_endSteps :
    (s.endSteps i).circuit i = (s.circuit i).map fun c => { c with reserved := 0, timer := none, owed := {} } := by
  cases h : s.circuit i with
  | none => simp [endSteps, h]
  | some c =>
    simp only [endSteps, h]
    rw [circuit_modCircuit, if_pos rfl, circuit_releaseReservations]
    · simp [circuit_lowerLive, h]
    · rw [(keeps_modTx _ _ _).at_waitQueue (by decide)]
      simp [mem_leave]

/-- An owned circuit that enters ENDED (R14). -/
theorem circuit_enterEnded (h : s.circuit i = some c) (p : PortNo) (ho : c.owner = some p) (cause : Byte) (side : Side)
    (m : Option Confirmation) :
    (s.enterEnded i cause side m).circuit i = some
      { c with
        state := .ended cause side m
        reserved := 0
        timer := none
        owed := {}
        conditions := c.conditions.union { ended := true } } := by
  unfold enterEnded endRecord
  rw [circuit_raise, if_pos rfl, circuit_endSteps, circuit_modCircuit, if_pos rfl]
  simp [h, ho]

theorem circuit_freeSlot : (s.freeSlot i).circuit i = none := by
  show (s.setCircuit i none).circuit i = none
  simp

theorem circuit_directFree : (s.directFree i).circuit i = none := circuit_freeSlot

end State

/-! ## Events at one circuit -/

namespace ActsOn

variable {i : SlotNo} {l : LineNo} {s t u : State}

theorem refl (i : SlotNo) (l : LineNo) (s : State) : ActsOn i l s s where
  others j _ := ⟨0, by simp [Circuit.granted_zero], fun _ => rfl⟩
  generations _ := rfl
  waiting j h := .inr h
  otherLines m _ := ⟨[], by simp, by simp⟩
  staying _ _ _ h := h
  standing _ _ _ h := .inl h

theorem trans (h : ActsOn i l s t) (k : ActsOn i l t u) : ActsOn i l s u where
  others j hj := by
    obtain ⟨m, hm, hm0⟩ := h.others j hj
    obtain ⟨n, hn, hn0⟩ := k.others j hj
    refine ⟨m + n, ?_, fun hw => ?_⟩
    · rw [hn, hm, Option.map_map]
      congr 1
      funext c
      exact Circuit.granted_add c m n
    · rw [hm0 hw, hn0 fun ht => (h.waiting j ht).elim hj hw]
  generations j := (k.generations j).trans (h.generations j)
  waiting j hj := (k.waiting j hj).elim .inl (h.waiting j)
  otherLines m hm := by
    obtain ⟨x, hx0, hx⟩ := h.otherLines m hm
    obtain ⟨y, hy0, hy⟩ := k.otherLines m hm
    refine ⟨x ++ y, fun j hj => ?_, by rw [hy, hx]; simp⟩
    by_cases hji : j = i
    · exact .inl hji
    obtain ⟨a, ha, -⟩ := h.others j hji
    obtain ⟨b, hb, -⟩ := k.others j hji
    rcases List.mem_append.1 hj with hj | hj
    · obtain ⟨h1, h2⟩ := (hx0 j hj).resolve_left hji
      exact .inr ⟨h1, h2.within (granted_none rfl) hb⟩
    · obtain ⟨h1, h2⟩ := (hy0 j hj).resolve_left hji
      exact .inr ⟨(h.waiting j h1).resolve_left hji, h2.within ha (granted_none rfl)⟩
  staying m j hj hm := k.staying m j hj (h.staying m j hj hm)
  standing j c hj hc := (h.standing j c hj hc).elim (k.standing j c hj) fun hm => .inr (k.staying _ j hj hm)

theorem of_served (h : Served s t) (i : SlotNo) (l : LineNo) : ActsOn i l s t where
  others j _ := h.circuits j
  generations := h.generations
  waiting j hj := .inr (h.waiting j hj)
  otherLines m _ := by
    obtain ⟨x, hx0, hx⟩ := h.lines m
    exact ⟨x, fun j hj => .inr (hx0 j hj), hx⟩
  staying _ _ _ hj := h.staying hj
  standing j c _ hc := h.standing j c hc

/-- An update that keeps slots, lines and the wait queue acts on nothing. -/
theorem of_keeps {xs : List Part} (h : Keeps xs s t) (i : SlotNo) (l : LineNo) (h1 : .slots ∉ xs) (h2 : .lines ∉ xs)
    (h3 : .waitQueue ∉ xs) : ActsOn i l s t := by
  have e1 := h.at_slots h1
  have e2 := h.at_lines h2
  have e3 := h.at_waitQueue h3
  refine ⟨fun j _ => ⟨0, ?_, fun _ => rfl⟩, fun j => ?_, fun j hj => .inr (e3 ▸ hj), fun m _ => ⟨[], by simp, ?_⟩,
    fun m j _ hj => ?_, fun j c _ hc => .inl ?_⟩
  · simp [State.circuit, State.slot, e1, Circuit.granted_zero]
  · simp [State.slot, e1]
  · simp [State.line, e2]
  · rwa [State.line, e2]
  · rwa [State.circuit, State.slot, e1]

theorem setCircuit (c : Option Circuit) : ActsOn i l s (s.setCircuit i c) where
  others j hj := ⟨0, by simp [State.circuit_setCircuit_ne _ hj, Circuit.granted_zero], fun _ => rfl⟩
  generations j := State.generation_setCircuit s i j c
  waiting j h := .inr h
  otherLines m _ := ⟨[], by simp, by simp⟩
  staying _ _ _ h := h
  standing j _ hj h := .inl (by rw [State.circuit_setCircuit_ne _ hj]; exact h)

theorem modCircuit (f : Circuit → Circuit) : ActsOn i l s (s.modCircuit i f) := setCircuit _

/-- A change of the line's control queue that no other circuit loses its place by, of its ring and of its stray queue. -/
theorem modTx (control : List SlotNo → List SlotNo) (ring : List SlotNo → List SlotNo) (stray : List Reply → List Reply)
    (hc : ∀ q j, j ≠ i → j ∈ q → j ∈ control q) :
    ActsOn i l s (s.modTx l fun t => { t with control := control t.control, ring := ring t.ring, stray := stray t.stray }) where
  others j _ := ⟨0, by simp [Circuit.granted_zero], fun _ => rfl⟩
  generations _ := rfl
  waiting j h := .inr h
  otherLines m hm := ⟨[], by simp, by simp [State.line_modTx_ne _ hm]⟩
  staying m j hj h := by
    by_cases hm : m = l
    · subst hm; rw [State.line_modTx_same]; exact hc _ j hj h
    · rw [State.line_modTx_ne _ hm]; exact h
  standing _ _ _ h := .inl h

theorem setWaitQueue {q : List SlotNo} (h : ∀ j ∈ q, j = i ∨ j ∈ s.waitQueue) : ActsOn i l s (s.setWaitQueue q) where
  others j _ := ⟨0, by simp [Circuit.granted_zero], fun _ => rfl⟩
  generations _ := rfl
  waiting j hj := h j hj
  otherLines m _ := ⟨[], by simp, by simp⟩
  staying _ _ _ h := h
  standing _ _ _ h := .inl h

/-- A circuit granted reservations between two events at slot i. -/
theorem gains {a b : State} {j : SlotNo} (h : ActsOn i l s a) (k : ActsOn i l b t) (hj : j ≠ i) (hab : a.gains b j) :
    s.gains t j := by
  obtain ⟨m, hm, -⟩ := h.others j hj
  obtain ⟨n, hn, -⟩ := k.others j hj
  exact hab.within hm hn

theorem leaveWait : ActsOn i l s (s.leaveWait i) := setWaitQueue fun _ hj => .inr (mem_leave.1 hj).1

theorem serveWait : ActsOn i l s s.serveWait := of_served (State.served_serveWait s) i l

end ActsOn

namespace Queued

variable {i : SlotNo} {l : LineNo} {s t u : State} {own : Prop} {control : List SlotNo → List SlotNo} {ring : List SlotNo}
  {stray : List Reply}

/-- An event at slot i that leaves its line alone may follow. -/
theorem after (h : Queued i l s t own control ring stray) (k : ActsOn i l t u) (e : u.line l = t.line l) :
    Queued i l s u own control ring stray := by
  obtain ⟨more, h0, hm⟩ := h
  refine ⟨more, fun j hj => (h0 j hj).imp id fun ⟨h1, h2, h3⟩ => ⟨h1, h2, ?_⟩, by rw [e, hm]⟩
  exact (ActsOn.refl i l s).gains k h1 h3

/-- An event at slot i that changes the queues of its line may come before. -/
theorem before (k : ActsOn i l s t) {c₀ r₀ : List SlotNo} {y₀ : List Reply}
    (e : t.line l = { s.line l with tx := { (s.line l).tx with control := c₀, ring := r₀, stray := y₀ } })
    (h : Queued i l t u own control ring stray) : Queued i l s u own control ring stray := by
  obtain ⟨more, h0, hm⟩ := h
  refine ⟨more, fun j hj => (h0 j hj).imp id fun ⟨h1, h2, h3⟩ => ⟨h1, (k.waiting j h2).resolve_left h1, ?_⟩, by rw [hm, e]⟩
  exact k.gains (ActsOn.refl i l u) h1 h3

/-- The ring and the stray reply queue may be changed afterwards. -/
theorem modTx (h : Queued i l s t own control ring stray) (f : List SlotNo → List SlotNo) (g : List Reply → List Reply) :
    Queued i l s (t.modTx l fun x => { x with ring := f x.ring, stray := g x.stray }) own control (f ring) (g stray) := by
  obtain ⟨more, h0, hm⟩ := h
  refine ⟨more, fun j hj => (h0 j hj).imp id fun ⟨h1, h2, h3⟩ => ⟨h1, h2, ?_⟩, by rw [State.line_modTx_same, hm]⟩
  exact (ActsOn.refl i l s).gains (ActsOn.modTx id f g fun _ _ _ h => h) h1 h3

end Queued

namespace State

variable {s : State} {i : SlotNo} {l : LineNo} {c : Circuit}

theorem actsOn_owe (hl : ∀ c, s.circuit i = some c → c.line = l) (k : OwedKind) : ActsOn i l s (s.owe i k) := by
  cases h : s.circuit i with
  | none => rw [owe_none h]; exact .refl i l s
  | some c =>
    rw [owe_eq h, hl c h]
    exact (ActsOn.setCircuit _).trans (ActsOn.modTx (fun q => joinTail q i) id id fun _ _ _ h => mem_joinTail.2 (.inl h))

theorem actsOn_dropOwed (hl : ∀ c, s.circuit i = some c → c.line = l) (k : OwedKind) :
    ActsOn i l s (s.dropOwed i k) := by
  unfold dropOwed
  split
  · exact .refl i l s
  · rename_i c h
    dsimp only
    split
    · rw [hl c h]
      exact (ActsOn.setCircuit _).trans (ActsOn.modTx (fun q => leave q i) id id fun _ _ h k => mem_leave.2 ⟨k, h⟩)
    · exact ActsOn.setCircuit _

theorem actsOn_raise (x : Conditions) : ActsOn i l s (s.raise i x) := by
  unfold raise
  split
  · exact .refl i l s
  · split
    · exact .refl i l s
    · dsimp only
      split
      · exact (ActsOn.setCircuit _).trans (ActsOn.of_keeps (keeps_joinAttention _ _ _) i l (by decide) (by decide) (by decide))
      · exact ActsOn.setCircuit _

theorem actsOn_leaveOwner : ActsOn i l s (s.leaveOwner i) := by
  unfold leaveOwner
  split
  · exact .refl i l s
  · split
    · exact .refl i l s
    · exact (ActsOn.of_keeps (keeps_leaveAttention _ _ _) i l (by decide) (by decide) (by decide)).trans
        (ActsOn.modCircuit _)

theorem actsOn_joinWait : ActsOn i l s (s.joinWait i) := by
  unfold joinWait
  split
  · exact .refl i l s
  · refine (ActsOn.setWaitQueue fun j hj => ?_).trans .serveWait
    rcases List.mem_append.1 hj with h | h
    · exact .inr h
    · exact .inl (List.mem_singleton.1 h)

theorem actsOn_joinWaitIfShort : ActsOn i l s (s.joinWaitIfShort i) := by
  unfold joinWaitIfShort
  split
  · exact actsOn_joinWait
  · exact .refl i l s

theorem actsOn_reserve (n : Nat) : ActsOn i l s (s.reserve i n) :=
  (ActsOn.of_keeps (keeps_setReservedTotal _ _) i l (by decide) (by decide) (by decide)).trans (ActsOn.modCircuit _)

theorem actsOn_releaseReservations : ActsOn i l s (s.releaseReservations i) := by
  unfold releaseReservations
  split
  · exact .refl i l s
  · exact ((ActsOn.of_keeps (keeps_setReservedTotal _ _) i l (by decide) (by decide) (by decide)).trans
      (ActsOn.setCircuit _)).trans .serveWait

theorem actsOn_returnCircuitBuffers : ActsOn i l s (s.returnCircuitBuffers i) := by
  unfold returnCircuitBuffers
  split
  · exact .refl i l s
  · exact ((ActsOn.setCircuit _).trans
      (ActsOn.of_keeps (keeps_returnBuffers _ _) i l (by decide) (by decide) (by decide))).trans .serveWait

theorem actsOn_offerReply (r : Reply) : ActsOn i l s (s.offerReply l r) :=
  ActsOn.modTx id id (fun q => offered q r) fun _ _ _ h => h

theorem actsOn_settleReady (hl : ∀ c, s.circuit i = some c → c.line = l) : ActsOn i l s (s.settleReady i) := by
  unfold settleReady
  split
  · exact .refl i l s
  · rename_i c h
    split
    · rw [hl c h]; exact ActsOn.modTx id (fun q => joinTail q i) id fun _ _ _ h => h
    · exact .refl i l s

theorem actsOn_settleStall : ActsOn i l s (s.settleStall i) := by
  unfold settleStall
  split
  · exact .refl i l s
  · split
    · exact ActsOn.modCircuit _
    · exact .refl i l s

theorem actsOn_enterClosing (hl : ∀ c, s.circuit i = some c → c.line = l) (cause : Byte) :
    ActsOn i l s (s.enterClosing i cause) := by
  cases h : s.circuit i with
  | none => simp only [enterClosing, h]; exact .refl i l s
  | some c =>
    obtain rfl := hl c h
    simp only [enterClosing, h]
    have h0 : ActsOn i c.line s ((((s.setCircuit i (some { c with state := .closing cause })).modTx c.line
        fun t => { t with ring := leave t.ring i }).leaveWait i).releaseReservations i) :=
      (((ActsOn.setCircuit _).trans (ActsOn.modTx id (fun q => leave q i) id fun _ _ _ h => h)).trans .leaveWait).trans
        actsOn_releaseReservations
    refine (h0.trans (ActsOn.modCircuit _)).trans (actsOn_owe (fun d hd => ?_) .close)
    rw [circuit_modCircuit, if_pos rfl, circuit_releaseReservations (by simp [mem_leave])] at hd
    simp only [circuit_leaveWait, circuit_modTx, circuit_setCircuit_same, Option.map_some, Option.some.injEq] at hd
    exact hd ▸ rfl

theorem actsOn_endSteps (hl : ∀ c, s.circuit i = some c → c.line = l) : ActsOn i l s (s.endSteps i) := by
  cases h : s.circuit i with
  | none => simp only [endSteps, h]; exact .refl i l s
  | some c =>
    obtain rfl := hl c h
    simp only [endSteps, h]
    refine ActsOn.trans ?_ (ActsOn.modCircuit _)
    refine ActsOn.trans ?_ actsOn_releaseReservations
    refine ActsOn.trans ?_ (ActsOn.modTx (fun q => leave q i) (fun q => leave q i) id fun _ _ h k => mem_leave.2 ⟨k, h⟩)
    refine ActsOn.trans ?_ .leaveWait
    exact ActsOn.of_keeps ((s.keeps_unmapNumber _ _).both (zs := [.index, .services]) (keeps_lowerLive _ _)
      (by decide) (by decide)) i _ (by decide) (by decide) (by decide)

theorem actsOn_enterEnded (hl : ∀ c, s.circuit i = some c → c.line = l) (cause : Byte) (side : Side)
    (m : Option Confirmation) : ActsOn i l s (s.enterEnded i cause side m) := by
  unfold enterEnded endRecord
  refine ActsOn.trans (ActsOn.trans (ActsOn.modCircuit _) (actsOn_endSteps fun d hd => ?_)) (actsOn_raise _)
  rw [circuit_modCircuit, if_pos rfl] at hd
  obtain ⟨c, hc, rfl⟩ := Option.map_eq_some_iff.1 hd
  exact hl c hc

theorem actsOn_freeSlot : ActsOn i l s (s.freeSlot i) :=
  (ActsOn.setCircuit _).trans (ActsOn.of_keeps (keeps_setFreeSlots _ _) i l (by decide) (by decide) (by decide))

theorem actsOn_directFree (hl : ∀ c, s.circuit i = some c → c.line = l) : ActsOn i l s (s.directFree i) :=
  (((actsOn_endSteps hl).trans actsOn_returnCircuitBuffers).trans actsOn_leaveOwner).trans actsOn_freeSlot

theorem actsOn_endClosing (hl : ∀ c, s.circuit i = some c → c.line = l) (m : Confirmation) :
    ActsOn i l s (s.endClosing i m) := by
  unfold endClosing
  split
  · exact .refl i l s
  · split
    · exact actsOn_enterEnded hl _ _ _
    · exact actsOn_directFree hl
    · exact .refl i l s

theorem actsOn_judgeAtn : ActsOn i l s s.judgeAtn :=
  ActsOn.of_keeps s.keeps_judgeAtn i l (by decide) (by decide) (by decide)

end State

end Sys2Proof.Machine
end

