-- ==== Sys2Proof/Laws/Ends.lean ====
section
/-! SUPPORT. What the ends of circuits do to the index map, the service table, the queues, the buffers and the free slots. -/

namespace Sys2Proof.Machine.State

variable {s : State} {i : SlotNo} {c : Circuit}

/-! ## Readers through operations that keep their part -/

theorem lookup_of_keeps {xs : List Part} {t : State} (h : Keeps xs s t) (hx : .index ∉ xs) (l : LineNo) (n : Byte) :
    t.lookup l n = s.lookup l n := by simp only [lookup, h.at_index hx]

theorem entry_of_keeps {xs : List Part} {t : State} (h : Keeps xs s t) (hx : .services ∉ xs) (e : EntryNo) :
    t.entry e = s.entry e := by simp only [entry, h.at_services hx]

theorem place_of_keeps {xs : List Part} {t : State} (h : Keeps xs s t) (hx : .places ∉ xs) (b : BufNo) :
    t.place b = s.place b := by simp only [place, h.at_places hx]

theorem port_of_keeps {xs : List Part} {t : State} (h : Keeps xs s t) (hx : .ports ∉ xs) (p : PortNo) :
    t.port p = s.port p := by simp only [port, h.at_ports hx]

theorem line_of_keeps {xs : List Part} {t : State} (h : Keeps xs s t) (hx : .lines ∉ xs) (l : LineNo) :
    t.line l = s.line l := by simp only [line, h.at_lines hx]

theorem slot_of_keeps {xs : List Part} {t : State} (h : Keeps xs s t) (hx : .slots ∉ xs) (j : SlotNo) :
    t.slot j = s.slot j := by simp only [slot, h.at_slots hx]

theorem circuit_of_keeps {xs : List Part} {t : State} (h : Keeps xs s t) (hx : .slots ∉ xs) (j : SlotNo) :
    t.circuit j = s.circuit j := by simp only [circuit, slot_of_keeps h hx]

theorem bufferByte_of_keeps {xs : List Part} {t : State} (h : Keeps xs s t) (hx : .memory ∉ xs) (b : BufNo) (k : Nat) :
    t.bufferByte b k = s.bufferByte b k := by simp only [bufferByte, h.at_memory hx]

theorem available_of_keeps {xs : List Part} {t : State} (h : Keeps xs s t) (h1 : .freeQueue ∉ xs)
    (h2 : .reservedTotal ∉ xs) : t.available = s.available := by
  simp only [available, h.at_freeQueue h1, h.at_reservedTotal h2]

/-! ## Leaving the data phase: the queues the circuit is off -/

theorem waitQueue_serveWait_subset (s : State) : ∀ j ∈ s.serveWait.waitQueue, j ∈ s.waitQueue :=
  (served_serveWait s).waiting

theorem waitQueue_releaseReservations : ∀ j ∈ (s.releaseReservations i).waitQueue, j ∈ s.waitQueue := by
  cases h : s.circuit i with
  | none => simp [releaseReservations, h]
  | some c =>
    rw [releaseReservations_eq h]
    intro j hj
    have := waitQueue_serveWait_subset _ j hj
    rwa [setCircuit_waitQueue, setReservedTotal_waitQueue] at this

theorem not_mem_waitQueue_enterClosing (h : s.circuit i = some c) (cause : Byte) :
    i ∉ (s.enterClosing i cause).waitQueue := by
  simp only [enterClosing, h]
  rw [(keeps_owe _ i .close).at_waitQueue (by decide), modCircuit_waitQueue]
  intro hi
  have := waitQueue_releaseReservations i hi
  simp [mem_leave] at this

theorem not_mem_waitQueue_endSteps (h : s.circuit i = some c) : i ∉ (s.endSteps i).waitQueue := by
  simp only [endSteps, h]
  rw [modCircuit_waitQueue]
  intro hi
  have := waitQueue_releaseReservations i hi
  rw [modTx_waitQueue] at this
  simp [mem_leave] at this

/-- When reservations are given back, circuits that waited for credit join control queues; the rings and the stray reply queues do
not change. -/
theorem line_releaseReservations (l : LineNo) :
    ∃ more, (∀ j ∈ more, j ∈ s.waitQueue ∧ (j ≠ i → s.gains (s.releaseReservations i) j)) ∧ (s.releaseReservations i).line l
      = { s.line l with tx := { (s.line l).tx with control := (s.line l).tx.control ++ more } } := by
  cases h : s.circuit i with
  | none => exact ⟨[], by simp, by simp [releaseReservations, h]⟩
  | some c =>
    rw [releaseReservations_eq h]
    obtain ⟨more, h0, hm⟩ := (served_serveWait ((s.setReservedTotal (s.reservedTotal - c.reserved)).setCircuit i
      (some { c with reserved := 0 }))).lines l
    refine ⟨more, fun j hj => ⟨(h0 j hj).1, fun hji => (h0 j hj).2.within (m := 0) (granted_none ?_) (granted_none rfl)⟩,
      by rw [hm]; simp⟩
    rw [circuit_setCircuit_ne _ hji]; rfl

theorem line_returnCircuitBuffers (l : LineNo) :
    ∃ more, (∀ j ∈ more, j ∈ s.waitQueue ∧ (j ≠ i → s.gains (s.returnCircuitBuffers i) j)) ∧ (s.returnCircuitBuffers i).line l
      = { s.line l with tx := { (s.line l).tx with control := (s.line l).tx.control ++ more } } := by
  cases h : s.circuit i with
  | none => exact ⟨[], by simp, by simp [returnCircuitBuffers, h]⟩
  | some c =>
    simp only [returnCircuitBuffers, h]
    obtain ⟨more, h0, hm⟩ := (served_serveWait ((s.setCircuit i
      (some { c with transmit := [], unacked := [], receive := [] })).returnBuffers c.buffers)).lines l
    refine ⟨more, fun j hj => ⟨?_, fun hji => (h0 j hj).2.within (m := 0) (granted_none ?_) (granted_none rfl)⟩, ?_⟩
    · have := (h0 j hj).1
      rwa [(keeps_returnBuffers _ _).at_waitQueue (by decide)] at this
    · rw [circuit_of_keeps (keeps_returnBuffers _ _) (by decide), circuit_setCircuit_ne _ hji]
    · rw [hm, line_of_keeps (keeps_returnBuffers _ _) (by decide)]; simp

/-- The lines when a circuit enters CLOSING (R24, R12): it leaves its line's ring and joins the control queue's tail, behind the
circuits that are granted the reservations it gives back. -/
theorem queued_enterClosing (h : s.circuit i = some c) (cause : Byte) :
    Queued i c.line s (s.enterClosing i cause) False (fun more => joinTail ((s.line c.line).tx.control ++ more) i)
      (leave (s.line c.line).tx.ring i) (s.line c.line).tx.stray := by
  simp only [enterClosing, h]
  obtain ⟨more, h0, hm⟩ := line_releaseReservations (s := ((s.setCircuit i (some { c with state := .closing cause })).modTx
    c.line fun t => { t with ring := leave t.ring i }).leaveWait i) (i := i) c.line
  have hc := circuit_releaseReservations (s := ((s.setCircuit i (some { c with state := .closing cause })).modTx
    c.line fun t => { t with ring := leave t.ring i }).leaveWait i) (i := i) (by simp [mem_leave])
  refine ⟨more, fun j hj => ?_, ?_⟩
  · obtain ⟨h1, h2⟩ := mem_leave.1 (h0 j hj).1
    refine .inr ⟨h2, h1, ((h0 j hj).2 h2).within (m := 0) (n := 0) (granted_none ?_) (granted_none ?_)⟩
    · simp [circuit_setCircuit_ne _ h2]
    · rw [circuit_owe, if_neg h2, circuit_modCircuit, if_neg h2]
  rw [line_owe (c := { c with state := .closing cause, reserved := 0, timer := none, retry := 0, owed := {} })]
  · rw [if_pos rfl, line_modCircuit, hm, line_leaveWait, line_modTx_same, line_setCircuit]
  · rw [circuit_modCircuit, if_pos rfl, hc]
    simp

/-- The lines when a circuit is taken out by R14: it leaves its line's control queue and ring, and the circuits granted the
reservations it gives back join control queues. -/
theorem queued_endSteps (h : s.circuit i = some c) :
    Queued i c.line s (s.endSteps i) False (fun more => leave (s.line c.line).tx.control i ++ more)
      (leave (s.line c.line).tx.ring i) (s.line c.line).tx.stray := by
  simp only [endSteps, h]
  obtain ⟨more, h0, hm⟩ := line_releaseReservations (s := (((s.unmapNumber c.line c.number).lowerLive c.origin).leaveWait
    i).modTx c.line fun t => { t with control := leave t.control i, ring := leave t.ring i }) (i := i) c.line
  refine ⟨more, fun j hj => ?_, ?_⟩
  · have := (h0 j hj).1
    rw [modTx_waitQueue, waitQueue_leaveWait, (keeps_lowerLive _ _).at_waitQueue (by decide)] at this
    obtain ⟨h1, h2⟩ := mem_leave.1 this
    refine .inr ⟨h2, h1, ((h0 j hj).2 h2).within (m := 0) (n := 0) (granted_none ?_) (granted_none ?_)⟩
    · rw [circuit_modTx, circuit_leaveWait, circuit_lowerLive]; rfl
    · rw [circuit_modCircuit, if_neg h2]
  · rw [line_modCircuit, hm, line_modTx_same, line_leaveWait, line_of_keeps (keeps_lowerLive _ _) (by decide)]
    rfl

theorem tx_enterClosing (h : s.circuit i = some c) (cause : Byte) :
    i ∈ ((s.enterClosing i cause).line c.line).tx.control ∧ i ∉ ((s.enterClosing i cause).line c.line).tx.ring := by
  obtain ⟨more, -, hm⟩ := queued_enterClosing h cause
  rw [hm]
  exact ⟨mem_joinTail.2 (.inr rfl), fun hi => (mem_leave.1 hi).2 rfl⟩

/-! ## R14 -/

theorem lookup_endSteps (h : s.circuit i = some c) (l : LineNo) (n : Byte) :
    (s.endSteps i).lookup l n = if l = c.line ∧ n = c.number then none else s.lookup l n := by
  simp only [endSteps, h]
  rw [lookup_modCircuit, lookup_of_keeps (keeps_releaseReservations _ i) (by decide), lookup_modTx,
    lookup_of_keeps (keeps_leaveWait _ i) (by decide), lookup_of_keeps (keeps_lowerLive _ _) (by decide),
    lookup_unmapNumber]

theorem entry_lowerLive (o : Origin) (e : EntryNo) :
    (s.lowerLive o).entry e = if o = .remoteCall e then (s.entry e).lowered else s.entry e := by
  cases o with
  | localCall => simp [lowerLive]
  | remoteCall d =>
    by_cases hd : d = e
    · subst hd; simp [lowerLive]
    · rw [if_neg (by simp [hd]), lowerLive, entry_setEntry_ne _ (Ne.symm hd)]

theorem entry_endSteps (h : s.circuit i = some c) (e : EntryNo) :
    (s.endSteps i).entry e = if c.origin = .remoteCall e then (s.entry e).lowered else s.entry e := by
  simp only [endSteps, h]
  rw [entry_modCircuit, entry_of_keeps (keeps_releaseReservations _ i) (by decide), entry_modTx,
    entry_of_keeps (keeps_leaveWait _ i) (by decide), entry_lowerLive]
  rfl

/-! ## Buffers -/

theorem freeQueue_returnBuffers (bs : List BufNo) : ∀ s : State, (s.returnBuffers bs).freeQueue = s.freeQueue ++ bs := by
  induction bs with
  | nil => intro s; simp [returnBuffers]
  | cons b bs ih =>
    intro s
    show ((s.returnBuffer b).returnBuffers bs).freeQueue = _
    rw [ih, returnBuffer, setPlace_freeQueue, setFreeQueue_freeQueue, List.append_assoc]
    rfl

theorem place_returnBuffers (bs : List BufNo) : ∀ (s : State) (b : BufNo),
    (s.returnBuffers bs).place b = if b ∈ bs then .free else s.place b := by
  induction bs with
  | nil => intro s b; simp [returnBuffers]
  | cons a bs ih =>
    intro s b
    show ((s.returnBuffer a).returnBuffers bs).place b = _
    rw [ih, returnBuffer, place_setPlace, place_setFreeQueue]
    by_cases h1 : b ∈ bs
    · simp [h1]
    · by_cases h2 : b = a <;> simp [h1, h2]

theorem freeQueue_returnCircuitBuffers (h : s.circuit i = some c) :
    (s.returnCircuitBuffers i).freeQueue = s.freeQueue ++ c.buffers := by
  simp only [returnCircuitBuffers, h]
  rw [(keeps_serveWait _).at_freeQueue (by decide), freeQueue_returnBuffers, setCircuit_freeQueue]

theorem place_returnCircuitBuffers (h : s.circuit i = some c) (b : BufNo) :
    (s.returnCircuitBuffers i).place b = if b ∈ c.buffers then .free else s.place b := by
  simp only [returnCircuitBuffers, h]
  rw [place_of_keeps (keeps_serveWait _) (by decide), place_returnBuffers, place_setCircuit]

/-- A circuit off the wait queue that has given back its buffers: its three lists are empty and all else stays. -/
theorem circuit_returnCircuitBuffers (h : s.circuit i = some c) (hw : i ∉ s.waitQueue) :
    (s.returnCircuitBuffers i).circuit i = some { c with transmit := [], unacked := [], receive := [] } := by
  simp only [returnCircuitBuffers, h]
  rw [circuit_serveWait_of_not_mem, circuit_of_keeps (keeps_returnBuffers _ _) (by decide), circuit_setCircuit_same]
  rw [(keeps_returnBuffers _ _).at_waitQueue (by decide)]
  exact hw

/-! ## R15 -/

theorem port_leaveAttention (p q : PortNo) :
    (s.leaveAttention p i).port q
      = if q = p then
          { s.port q with
            attention := leave (s.port q).attention i
            holdoff := if (leave (s.port q).attention i).isEmpty then .absent else (s.port q).holdoff }
        else s.port q := by
  unfold leaveAttention
  by_cases h : q = p
  · subst h; rw [if_pos rfl, port_modPort_same]
  · rw [if_neg h, port_modPort_ne _ h]

theorem port_leaveOwner (h : s.circuit i = some c) (q : PortNo) :
    (s.leaveOwner i).port q
      = if c.owner = some q then
          { s.port q with
            attention := leave (s.port q).attention i
            holdoff := if (leave (s.port q).attention i).isEmpty then .absent else (s.port q).holdoff }
        else s.port q := by
  cases ho : c.owner with
  | none => simp [leaveOwner, h, ho]
  | some p =>
    simp only [leaveOwner, h, ho, clearConditions, port_modCircuit, port_leaveAttention, Option.some.injEq,
      eq_comm (a := q)]

theorem freeSlots_freeSlot : (s.freeSlot i).freeSlots = s.freeSlots ++ [i] := rfl

/-- Everything that direct return to FREE does to the parts that name the circuit (R15). -/
theorem directFree_spec (h : s.circuit i = some c) :
    (s.directFree i).circuit i = none
      ∧ (s.directFree i).freeSlots = s.freeSlots ++ [i]
      ∧ (∀ m o, (s.directFree i).lookup m o = if m = c.line ∧ o = c.number then none else s.lookup m o)
      ∧ (∀ e, (s.directFree i).entry e = if c.origin = .remoteCall e then (s.entry e).lowered else s.entry e)
      ∧ (s.directFree i).freeQueue = s.freeQueue ++ c.buffers
      ∧ (∀ b, (s.directFree i).place b = if b ∈ c.buffers then .free else s.place b)
      ∧ (∀ q, (s.directFree i).port q
          = if c.owner = some q then
              { s.port q with
                attention := leave (s.port q).attention i
                holdoff := if (leave (s.port q).attention i).isEmpty then .absent else (s.port q).holdoff }
            else s.port q) := by
  have h1 : (s.endSteps i).circuit i = some { c with reserved := 0, timer := none, owed := {} } := by
    rw [circuit_endSteps, h]; rfl
  have h2 := circuit_returnCircuitBuffers h1 (not_mem_waitQueue_endSteps h)
  have k3 := keeps_leaveOwner ((s.endSteps i).returnCircuitBuffers i) i
  have k4 := keeps_freeSlot (((s.endSteps i).returnCircuitBuffers i).leaveOwner i) i
  have k2 := keeps_returnCircuitBuffers (s.endSteps i) i
  have k1 := s.keeps_endSteps i
  refine ⟨circuit_directFree, ?_, fun m o => ?_, fun e => ?_, ?_, fun b => ?_, fun q => ?_⟩
  · rw [directFree, freeSlots_freeSlot, k3.at_freeSlots (by decide), k2.at_freeSlots (by decide),
      k1.at_freeSlots (by decide)]
  · rw [directFree, lookup_of_keeps k4 (by decide), lookup_of_keeps k3 (by decide), lookup_of_keeps k2 (by decide),
      lookup_endSteps h]
  · rw [directFree, entry_of_keeps k4 (by decide), entry_of_keeps k3 (by decide), entry_of_keeps k2 (by decide),
      entry_endSteps h]
  · rw [directFree, k4.at_freeQueue (by decide), k3.at_freeQueue (by decide), freeQueue_returnCircuitBuffers h1,
      k1.at_freeQueue (by decide)]
    rfl
  · rw [directFree, place_of_keeps k4 (by decide), place_of_keeps k3 (by decide), place_returnCircuitBuffers h1,
      place_of_keeps k1 (by decide)]
    rfl
  · rw [directFree, port_of_keeps k4 (by decide), port_leaveOwner h2, port_of_keeps k2 (by decide),
      port_of_keeps k1 (by decide)]

/-! ## What the ends do to lines: control queues and rings alone -/

/-- Between two states every line differs in its control queue and its ring at most. -/
def QueuesOnly (s t : State) : Prop :=
  ∀ m, ∃ control ring, t.line m = { s.line m with tx := { (s.line m).tx with control := control, ring := ring } }

namespace QueuesOnly

theorem refl (s : State) : QueuesOnly s s := fun m => ⟨(s.line m).tx.control, (s.line m).tx.ring, rfl⟩

theorem trans {s t u : State} (h : QueuesOnly s t) (k : QueuesOnly t u) : QueuesOnly s u := fun m => by
  obtain ⟨a, b, h1⟩ := h m
  obtain ⟨a', b', h2⟩ := k m
  exact ⟨a', b', by rw [h2, h1]⟩

theorem of_keeps {s t : State} {xs : List Part} (h : Keeps xs s t) (hx : .lines ∉ xs) : QueuesOnly s t := fun m =>
  ⟨(s.line m).tx.control, (s.line m).tx.ring, by rw [line_of_keeps h hx]⟩

theorem of_served {s t : State} (h : Served s t) : QueuesOnly s t := fun m => by
  obtain ⟨more, -, hm⟩ := h.lines m
  exact ⟨_, (s.line m).tx.ring, hm⟩

theorem modTx (s : State) (l : LineNo) (f g : List SlotNo → List SlotNo) :
    QueuesOnly s (s.modTx l fun t => { t with control := f t.control, ring := g t.ring }) := fun m => by
  by_cases h : m = l
  · subst h; exact ⟨_, _, line_modTx_same _ _ _⟩
  · exact ⟨(s.line m).tx.control, (s.line m).tx.ring, by rw [line_modTx_ne _ h]⟩

theorem stray {s t : State} (h : QueuesOnly s t) (m : LineNo) : (t.line m).tx.stray = (s.line m).tx.stray := by
  obtain ⟨a, b, h1⟩ := h m
  rw [h1]

end QueuesOnly

theorem queuesOnly_releaseReservations : QueuesOnly s (s.releaseReservations i) := fun m => by
  obtain ⟨more, -, hm⟩ := line_releaseReservations (s := s) (i := i) m
  exact ⟨_, (s.line m).tx.ring, hm⟩

theorem queuesOnly_owe (k : OwedKind) : QueuesOnly s (s.owe i k) := by
  cases h : s.circuit i with
  | none => rw [owe_none h]; exact .refl s
  | some c =>
    rw [owe_eq h]
    exact (QueuesOnly.of_keeps (keeps_setCircuit _ _ _) (by decide)).trans
      (QueuesOnly.modTx _ _ (fun q => joinTail q i) id)

theorem queuesOnly_endSteps : QueuesOnly s (s.endSteps i) := by
  cases h : s.circuit i with
  | none => simp only [endSteps, h]; exact .refl s
  | some c =>
    simp only [endSteps, h]
    refine QueuesOnly.trans ?_ (QueuesOnly.of_keeps (keeps_modCircuit _ i _) (by decide))
    refine QueuesOnly.trans ?_ queuesOnly_releaseReservations
    refine QueuesOnly.trans ?_ (QueuesOnly.modTx _ _ (fun q => leave q i) fun q => leave q i)
    refine QueuesOnly.trans ?_ (QueuesOnly.of_keeps (keeps_leaveWait _ i) (by decide))
    exact QueuesOnly.of_keeps ((s.keeps_unmapNumber _ _).both (zs := [.index, .services]) (keeps_lowerLive _ _)
      (by decide) (by decide)) (by decide)

theorem queuesOnly_enterEnded (cause : Byte) (side : Side) (m : Option Confirmation) :
    QueuesOnly s (s.enterEnded i cause side m) := by
  unfold enterEnded endRecord
  exact ((QueuesOnly.of_keeps (keeps_modCircuit _ i _) (by decide)).trans queuesOnly_endSteps).trans
    (QueuesOnly.of_keeps (keeps_raise _ i _) (by decide))

theorem queuesOnly_returnCircuitBuffers : QueuesOnly s (s.returnCircuitBuffers i) := by
  unfold returnCircuitBuffers
  split
  · exact .refl s
  · exact ((QueuesOnly.of_keeps (keeps_setCircuit _ i _) (by decide)).trans
      (QueuesOnly.of_keeps (keeps_returnBuffers _ _) (by decide))).trans (.of_served (served_serveWait _))

theorem queuesOnly_directFree : QueuesOnly s (s.directFree i) :=
  ((queuesOnly_endSteps.trans queuesOnly_returnCircuitBuffers).trans
    (QueuesOnly.of_keeps (keeps_leaveOwner _ i) (by decide))).trans
    (QueuesOnly.of_keeps (keeps_freeSlot _ i) (by decide))

theorem queuesOnly_endClosing (m : Confirmation) : QueuesOnly s (s.endClosing i m) := by
  unfold endClosing
  split
  · exact .refl s
  · split
    · exact queuesOnly_enterEnded _ _ _
    · exact queuesOnly_directFree
    · exact .refl s

theorem stray_offerReply (l m : LineNo) (r : Reply) :
    ((s.offerReply l r).line m).tx.stray
      = if m = l then offered (s.line m).tx.stray r else (s.line m).tx.stray := by
  unfold offerReply
  by_cases h : m = l
  · subst h; rw [if_pos rfl, line_modTx_same]
  · rw [if_neg h, line_modTx_ne _ h]

/-! ## ATN -/

/-- Judging the ATN outputs writes each port's level and nothing else. -/
theorem port_judgeAtn (s : State) (q : PortNo) : s.judgeAtn.port q = { s.port q with atn := s.atnLevel q } := by
  have lv : ∀ (t : State) (p r : PortNo), (t.judgeAtnOf p).atnLevel r = t.atnLevel r := by
    intro t p r
    have hp : ∀ q, (t.judgeAtnOf p).port q = { t.port q with atn := if q = p then t.atnLevel p else (t.port q).atn } := by
      intro q
      unfold judgeAtnOf
      by_cases h : q = p
      · subst h; simp
      · rw [port_modPort_ne _ h]; simp [h]
    have hc : ∀ i, (t.judgeAtnOf p).conditionsOf i = t.conditionsOf i := fun i => rfl
    have hl : (t.judgeAtnOf p).anyChanged = t.anyChanged := rfl
    simp only [atnLevel, urgentOn, hp, hc, hl]
  have one : ∀ (t : State) (p q : PortNo), (t.judgeAtnOf p).port q
      = { t.port q with atn := if q = p then t.atnLevel q else (t.port q).atn } := by
    intro t p q
    unfold judgeAtnOf
    by_cases h : q = p
    · subst h; simp
    · rw [port_modPort_ne _ h]; simp [h]
  unfold judgeAtn
  simp only [one, lv]
  have hq : q = 0 ∨ q = 1 ∨ q = 2 ∨ q = 3 := by revert q; decide
  rcases hq with h | h | h | h <;> subst h <;> simp

/-- After a judgement every ATN output is at its level (R178, R179). -/
theorem atn_judgeAtn (s : State) (q : PortNo) : (s.judgeAtn.port q).atn = s.judgeAtn.atnLevel q := by
  rw [port_judgeAtn]
  have hc : ∀ i, s.judgeAtn.conditionsOf i = s.conditionsOf i := fun i => by simp only [conditionsOf, circuit_judgeAtn]
  have hl : s.judgeAtn.anyChanged = s.anyChanged := by
    simp only [anyChanged, line_of_keeps s.keeps_judgeAtn (by decide)]
  simp only [atnLevel, urgentOn, port_judgeAtn, hc, hl]

/-! ## The control queues that service joins -/

variable {j : SlotNo}

theorem control_owe (k : OwedKind) (l : LineNo) (h : j ∈ ((s.owe i k).line l).tx.control) :
    j ∈ (s.line l).tx.control ∨ j = i := by
  cases hc : s.circuit i with
  | none => rw [owe_none hc] at h; exact .inl h
  | some c =>
    rw [line_owe hc] at h
    split_ifs at h
    · exact mem_joinTail.1 h
    · exact .inl h

theorem control_serveTimes (n : Nat) (l : LineNo) : ∀ s : State, j ∈ ((serveTimes n s).line l).tx.control →
    j ∈ (s.line l).tx.control ∨ j ∈ s.waitQueue := by
  induction n with
  | zero => exact fun s h => .inl h
  | succ n ih =>
    intro s h
    rw [serveTimes] at h
    split at h
    · exact .inl h
    · rename_i i rest hq
      have hw := (served_grantOne hq).waiting j
      have hc : j ∈ ((s.grantOne i rest).line l).tx.control → j ∈ (s.line l).tx.control ∨ j = i := by
        intro h
        have h' : j ∈ (((((s.setReservedTotal (s.reservedTotal + 1)).setWaitQueue rest).modCircuit i
            fun c => { c with reserved := c.reserved + 1, receiveEdge := c.receiveEdge + 1 }).owe i .credit).line
            l).tx.control := by
          unfold grantOne at h
          dsimp only at h
          split at h
          · exact h
          · exact h
        have := control_owe _ l h'
        exact this
      rcases ih _ h with h | h
      · rcases hc h with h | h
        · exact .inl h
        · exact .inr (by rw [hq, h]; exact List.mem_cons_self)
      · exact .inr (hw h)

/-- Service puts no circuit on a control queue but those that waited for credit. -/
theorem control_serveWait (l : LineNo) (h : j ∈ (s.serveWait.line l).tx.control) :
    j ∈ (s.line l).tx.control ∨ j ∈ s.waitQueue := control_serveTimes _ l s h

theorem control_releaseReservations (l : LineNo) (h : j ∈ ((s.releaseReservations i).line l).tx.control) :
    j ∈ (s.line l).tx.control ∨ j ∈ s.waitQueue := by
  cases hc : s.circuit i with
  | none => simp only [releaseReservations, hc] at h; exact .inl h
  | some c =>
    rw [releaseReservations_eq hc] at h
    have := control_serveWait l h
    exact this

/-- A circuit that R14 takes out stands on no queue of its line's transmitter. -/
theorem tx_endSteps (h : s.circuit i = some c) :
    i ∉ ((s.endSteps i).line c.line).tx.control ∧ i ∉ ((s.endSteps i).line c.line).tx.ring := by
  simp only [endSteps, h, line_modCircuit]
  constructor
  · intro hi
    rcases control_releaseReservations _ hi with hi | hi
    · rw [line_modTx_same] at hi; simp [mem_leave] at hi
    · rw [modTx_waitQueue] at hi; simp [mem_leave] at hi
  · obtain ⟨more, -, hm⟩ := line_releaseReservations (s := (((s.unmapNumber c.line c.number).lowerLive c.origin).leaveWait
      i).modTx c.line fun t => { t with control := leave t.control i, ring := leave t.ring i }) (i := i) c.line
    rw [hm, line_modTx_same]
    simp [mem_leave]

theorem tx_enterEnded (h : s.circuit i = some c) (cause : Byte) (side : Side) (x : Option Confirmation) :
    i ∉ ((s.enterEnded i cause side x).line c.line).tx.control
      ∧ i ∉ ((s.enterEnded i cause side x).line c.line).tx.ring := by
  unfold enterEnded endRecord
  rw [line_of_keeps (keeps_raise _ _ _) (by decide)]
  exact tx_endSteps (c := { c with state := .ended cause side x }) (by rw [circuit_modCircuit_same, h]; rfl)

/-! ## Joining the credit wait queue when short -/

theorem joinWaitIfShort_of_not_short (h : s.circuit i = some c) (hc : c.short = false) : s.joinWaitIfShort i = s := by
  simp [joinWaitIfShort, h, hc]

theorem joinWaitIfShort_of_unavailable (h : s.circuit i = some c) (hc : c.short = true) (ha : s.available = 0) :
    s.joinWaitIfShort i = s.setWaitQueue (joinTail s.waitQueue i) := by
  simp [joinWaitIfShort, h, hc, joinWait_of_unavailable ha]

/-- A circuit that joins when short may be granted reservations, and circuits that wait for credit may join control queues, unless it
is not short or nothing is available. -/
theorem joinWaitIfShort_spec (h : s.circuit i = some c) :
    ∃ g, (s.joinWaitIfShort i).circuit i = some (c.granted g)
      ∧ (∀ l, ∃ more, (∀ j ∈ more, j = i ∧ 0 < g ∨ j ≠ i ∧ j ∈ s.waitQueue ∧ s.gains (s.joinWaitIfShort i) j)
          ∧ (s.joinWaitIfShort i).line l
            = { s.line l with tx := { (s.line l).tx with control := (s.line l).tx.control ++ more } }
          ∧ (c.short = false ∨ s.available = 0 → more = []))
      ∧ (c.short = false ∨ s.available = 0 → g = 0) := by
  have stays : ∀ t : State, t.circuit i = some c → (∀ l, t.line l = s.line l) →
      ∃ g, t.circuit i = some (c.granted g)
        ∧ (∀ l, ∃ more, (∀ j ∈ more, j = i ∧ 0 < g ∨ j ≠ i ∧ j ∈ s.waitQueue ∧ s.gains t j)
            ∧ t.line l = { s.line l with tx := { (s.line l).tx with control := (s.line l).tx.control ++ more } }
            ∧ (c.short = false ∨ s.available = 0 → more = []))
        ∧ (c.short = false ∨ s.available = 0 → g = 0) := fun t ht hl =>
    ⟨0, ht, fun l => ⟨[], by simp, by rw [hl l]; simp, fun _ => rfl⟩, fun _ => rfl⟩
  cases hs : c.short with
  | false => rw [joinWaitIfShort_of_not_short h hs]; simpa [hs] using stays s h fun _ => rfl
  | true =>
    by_cases ha : s.available = 0
    · rw [joinWaitIfShort_of_unavailable h hs ha]
      simpa [hs] using stays (s.setWaitQueue (joinTail s.waitQueue i)) h fun _ => rfl
    · by_cases hm : i ∈ s.waitQueue
      · have e : s.joinWaitIfShort i = s := by simp [joinWaitIfShort, h, hs, joinWait, hm]
        rw [e]
        simpa [hs] using stays s h fun _ => rfl
      · have e : s.joinWaitIfShort i = (s.setWaitQueue (s.waitQueue ++ [i])).serveWait := by
          simp [joinWaitIfShort, h, hs, joinWait, hm]
        rw [e]
        have S := served_serveWait (s.setWaitQueue (s.waitQueue ++ [i]))
        obtain ⟨g, hg, _⟩ := S.circuits i
        refine ⟨g, by rw [hg, circuit_setWaitQueue, h]; rfl, fun l => ?_, fun x => by simp [ha] at x⟩
        obtain ⟨more, h0, hmore⟩ := S.lines l
        refine ⟨more, fun j hj => ?_, by rw [hmore, line_setWaitQueue], fun x => by simp [ha] at x⟩
        obtain ⟨hw, hg'⟩ := h0 j hj
        by_cases hji : j = i
        · subst hji
          obtain ⟨d, n, hd, hn, hd'⟩ := hg'
          rw [circuit_setWaitQueue, h] at hd
          cases hd
          refine .inl ⟨rfl, Nat.pos_of_ne_zero fun e => ?_⟩
          rw [hg, circuit_setWaitQueue, h, e, Option.map_some, Option.some.injEq] at hd'
          have := congrArg Circuit.reserved hd'
          unfold Circuit.granted at this
          rw [if_pos rfl, if_neg (by omega)] at this
          simp only at this
          omega
        · rw [setWaitQueue_waitQueue, List.mem_append, List.mem_singleton] at hw
          exact .inr ⟨hji, hw.resolve_right hji, hg'.within (m := 0) (granted_none rfl) (granted_none rfl)⟩

/-- One grant to a circuit that alone stands on the queue. -/
theorem grantOne_alone (h : s.circuit i = some c) :
    (s.grantOne i []).circuit i = some (c.granted 1)
      ∧ (s.grantOne i []).waitQueue = (if c.reserved + 1 < c.target then [i] else [])
      ∧ (s.grantOne i []).reservedTotal = s.reservedTotal + 1 := by
  obtain ⟨u, hu⟩ : ∃ u, u = (((s.setReservedTotal (s.reservedTotal + 1)).setWaitQueue []).modCircuit i
    fun c => { c with reserved := c.reserved + 1, receiveEdge := c.receiveEdge + 1 }).owe i .credit := ⟨_, rfl⟩
  have hc : u.circuit i = some (c.granted 1) := by
    rw [hu, circuit_owe, if_pos rfl, circuit_modCircuit_same, circuit_setWaitQueue, circuit_setReservedTotal, h]
    rfl
  have hw : u.waitQueue = [] := by rw [hu, (keeps_owe _ _ _).at_waitQueue (by decide)]; rfl
  have hr : u.reservedTotal = s.reservedTotal + 1 := by rw [hu, (keeps_owe _ _ _).at_reservedTotal (by decide)]; rfl
  have hs : (u.circuit i).any Circuit.short = decide (c.reserved + 1 < c.target) := by rw [hc]; rfl
  unfold grantOne
  simp only [← hu, hs, decide_eq_true_eq]
  split_ifs
  · exact ⟨hc, by simp [hw], hr⟩
  · exact ⟨hc, hw, hr⟩

/-- The pool serves a queue on which one circuit stands: it is granted its shortfall, as far as buffers are available (R66, R88). -/
theorem serveTimes_alone (n : Nat) : ∀ (s : State) (c : Circuit), s.waitQueue = [i] → s.circuit i = some c →
    c.reserved < c.target →
    (serveTimes n s).circuit i = some (c.granted (min n (c.target - c.reserved)))
      ∧ (serveTimes n s).waitQueue = (if n < c.target - c.reserved then [i] else [])
      ∧ (serveTimes n s).reservedTotal = s.reservedTotal + min n (c.target - c.reserved) := by
  induction n with
  | zero => intro s c hq hc hs; simp [serveTimes, hq, hc, Circuit.granted_zero]; omega
  | succ n ih =>
    intro s c hq hc hs
    rw [serveTimes, hq]
    obtain ⟨g1, g2, g3⟩ := grantOne_alone hc
    by_cases hm : c.reserved + 1 < c.target
    · obtain ⟨e1, e2, e3⟩ := ih _ _ (by rw [g2, if_pos hm]) g1 hm
      have r1 : (c.granted 1).reserved = c.reserved + 1 := rfl
      have r2 : (c.granted 1).target = c.target := rfl
      rw [r1, r2] at e1 e2 e3
      refine ⟨?_, ?_, ?_⟩
      · rw [e1, Circuit.granted_add]; congr 2; omega
      · rw [e2]; congr 1; simp only [eq_iff_iff]; omega
      · rw [e3, g3]; omega
    · have hd : c.target - c.reserved = 1 := by omega
      have e : serveTimes n (s.grantOne i []) = s.grantOne i [] := by
        cases n with
        | zero => rfl
        | succ n => rw [serveTimes, g2, if_neg hm]
      dsimp only
      rw [e, hd]
      refine ⟨by rw [g1]; congr 2; omega, by rw [g2, if_neg hm, if_neg (by omega)], by rw [g3]; omega⟩

/-- A circuit that is short joins an empty credit wait queue and is served there. -/
theorem joinWaitIfShort_alone (h : s.circuit i = some c) (hs : c.reserved < c.target) (hq : s.waitQueue = []) :
    (s.joinWaitIfShort i).circuit i = some (c.granted (min s.available (c.target - c.reserved)))
      ∧ (s.joinWaitIfShort i).waitQueue = (if s.available < c.target - c.reserved then [i] else [])
      ∧ (s.joinWaitIfShort i).reservedTotal = s.reservedTotal + min s.available (c.target - c.reserved) := by
  have e : s.joinWaitIfShort i = serveTimes s.available (s.setWaitQueue [i]) := by
    simp [joinWaitIfShort, h, Circuit.short, hs, joinWait, hq, serveWait, available]
  rw [e]
  exact serveTimes_alone _ _ _ rfl h hs
/-! ## The lines when circuits end -/

theorem queued_enterEnded (h : s.circuit i = some c) (cause : Byte) (side : Side) (x : Option Confirmation) :
    Queued i c.line s (s.enterEnded i cause side x) False (fun more => leave (s.line c.line).tx.control i ++ more)
      (leave (s.line c.line).tx.ring i) (s.line c.line).tx.stray := by
  obtain ⟨more, h0, hm⟩ := queued_endSteps (s := s.modCircuit i fun c => { c with state := .ended cause side x })
    (i := i) (c := { c with state := .ended cause side x }) (by rw [circuit_modCircuit_same, h]; rfl)
  refine ⟨more, fun j hj => ?_, ?_⟩
  · obtain ⟨h1, h2, h3⟩ := (h0 j hj).resolve_left fun e => e.2
    refine .inr ⟨h1, h2, h3.within (m := 0) (n := 0) (granted_none ?_) (granted_none ?_)⟩
    · rw [circuit_modCircuit, if_neg h1]
    · unfold enterEnded endRecord
      rw [circuit_raise, if_neg h1]
  unfold enterEnded endRecord
  rw [line_of_keeps (keeps_raise _ _ _) (by decide), hm]
  rfl

theorem queued_directFree (h : s.circuit i = some c) :
    Queued i c.line s (s.directFree i) False (fun more => leave (s.line c.line).tx.control i ++ more)
      (leave (s.line c.line).tx.ring i) (s.line c.line).tx.stray := by
  obtain ⟨more, h0, hm⟩ := queued_endSteps h
  obtain ⟨more', h0', hm'⟩ := line_returnCircuitBuffers (s := s.endSteps i) (i := i) c.line
  have hl : ∀ d, s.circuit i = some d → d.line = c.line := fun d hd => by rw [h] at hd; cases hd; rfl
  have a1 : ActsOn i c.line s (s.endSteps i) := actsOn_endSteps hl
  have a2 : ActsOn i c.line (s.endSteps i) (s.directFree i) :=
    (actsOn_returnCircuitBuffers.trans actsOn_leaveOwner).trans actsOn_freeSlot
  have a3 : ActsOn i c.line ((s.endSteps i).returnCircuitBuffers i) (s.directFree i) :=
    actsOn_leaveOwner.trans actsOn_freeSlot
  refine ⟨more ++ more', fun j hj => ?_, ?_⟩
  · rcases List.mem_append.1 hj with hj | hj
    · obtain ⟨h1, h2, h3⟩ := (h0 j hj).resolve_left fun e => e.2
      exact .inr ⟨h1, h2, (ActsOn.refl i c.line s).gains a2 h1 h3⟩
    · have hji : j ≠ i := fun e => not_mem_waitQueue_endSteps h (e ▸ (h0' j hj).1)
      exact .inr ⟨hji, (a1.waiting j (h0' j hj).1).resolve_left hji, a1.gains a3 hji ((h0' j hj).2 hji)⟩
  · unfold directFree
    rw [line_of_keeps (keeps_freeSlot _ _) (by decide), line_of_keeps (keeps_leaveOwner _ _) (by decide), hm', hm]
    simp

/-- The end of a CLOSING circuit, owned or orphan (R47, R48, R49). -/
theorem queued_endClosing (h : s.circuit i = some c) {cause : Byte} (hs : c.state = .closing cause) (x : Confirmation) :
    Queued i c.line s (s.endClosing i x) False (fun more => leave (s.line c.line).tx.control i ++ more)
      (leave (s.line c.line).tx.ring i) (s.line c.line).tx.stray := by
  cases ho : c.owner with
  | none => simp only [endClosing, h, hs, ho]; exact queued_directFree h
  | some p => simp only [endClosing, h, hs, ho]; exact queued_enterEnded h _ _ _

end Sys2Proof.Machine.State
end

