-- ==== Sys2Proof/Laws/Attention.lean ====
section
/-! SUPPORT. What raising conditions, ending circuits and judging ATN do to the ports. -/

namespace Sys2Proof.Machine

/-- Between two states every port differs in its attention list, holdoff timer and ATN output at most. -/
def AttentionOnly (s t : State) : Prop :=
  ∀ q, t.port q = { s.port q with
    attention := (t.port q).attention, holdoff := (t.port q).holdoff, atn := (t.port q).atn }

namespace AttentionOnly

theorem refl (s : State) : AttentionOnly s s := fun _ => rfl

theorem trans {s t u : State} (h : AttentionOnly s t) (k : AttentionOnly t u) : AttentionOnly s u := fun q => by
  conv_lhs => rw [k q, h q]

theorem of_keeps {s t : State} {xs : List Part} (h : Keeps xs s t) (hx : .ports ∉ xs) : AttentionOnly s t := fun q => by
  rw [State.port_of_keeps h hx]

theorem foldl {β : Type} {f : State → β → State} (hf : ∀ v i, AttentionOnly v (f v i)) (bs : List β) :
    ∀ s, AttentionOnly s (bs.foldl f s) := by
  induction bs with
  | nil => exact refl
  | cons b bs ih => exact fun s => (hf s b).trans (ih _)

end AttentionOnly

namespace State

variable {s t : State} {i : SlotNo} {c : Circuit}

theorem port_joinAttention (p q : PortNo) :
    (s.joinAttention p i).port q = if q = p then (s.port q).joinedBy i else s.port q := by
  unfold joinAttention
  by_cases h : q = p
  · subst h; rw [if_pos rfl, port_modPort_same]; simp [Port.joinedBy, Bool.and_eq_true]
  · rw [if_neg h, port_modPort_ne _ h]

/-- A raise at an owned circuit: its owner's list is joined when nothing was pending (R172). -/
theorem port_raise (h : s.circuit i = some c) {p : PortNo} (ho : c.owner = some p) (x : Conditions) (q : PortNo) :
    (s.raise i x).port q = if c.owner = some q ∧ c.conditions = {} then (s.port q).joinedBy i else s.port q := by
  simp only [raise, h, ho, Conditions.isEmpty]
  by_cases hc : c.conditions = {}
  · simp only [hc, decide_true, if_true, port_joinAttention, port_setCircuit, and_true, Option.some.injEq, eq_comm (a := q)]
  · simp [hc]

theorem attentionOnly_raise (x : Conditions) : AttentionOnly s (s.raise i x) := by
  cases h : s.circuit i with
  | none => simp only [raise, h]; exact .refl s
  | some c =>
    cases ho : c.owner with
    | none => simp only [raise, h, ho]; exact .refl s
    | some p =>
      intro q
      rw [port_raise h ho]
      split_ifs <;> rfl

theorem attentionOnly_leaveOwner : AttentionOnly s (s.leaveOwner i) := by
  cases h : s.circuit i with
  | none => simp only [leaveOwner, h]; exact .refl s
  | some c =>
    intro q
    rw [port_leaveOwner h]
    split_ifs <;> rfl

theorem attentionOnly_judgeAtn : AttentionOnly s s.judgeAtn := fun q => by rw [port_judgeAtn]

theorem attentionOnly_enterEnded (cause : Byte) (side : Side) (m : Option Confirmation) :
    AttentionOnly s (s.enterEnded i cause side m) :=
  ((AttentionOnly.of_keeps (keeps_modCircuit s i _) (by decide)).trans
    (AttentionOnly.of_keeps (keeps_endSteps _ i) (by decide))).trans (attentionOnly_raise _)

theorem attentionOnly_directFree : AttentionOnly s (s.directFree i) :=
  (((AttentionOnly.of_keeps (keeps_endSteps s i) (by decide)).trans
    (AttentionOnly.of_keeps (keeps_returnCircuitBuffers _ i) (by decide))).trans attentionOnly_leaveOwner).trans
    (AttentionOnly.of_keeps (keeps_freeSlot _ i) (by decide))

theorem attentionOnly_endByTeardown (cause : Byte) (v : State) (i : SlotNo) :
    AttentionOnly v (endByTeardown cause v i) := by
  unfold endByTeardown
  split
  · exact .refl v
  · split
    · exact attentionOnly_directFree
    · exact attentionOnly_enterEnded _ _ _
    · exact attentionOnly_enterEnded _ _ _

theorem attentionOnly_teardown (l : LineNo) (cause : Byte) : AttentionOnly s (s.teardown l cause) := by
  unfold teardown
  dsimp only
  have h := AttentionOnly.foldl (attentionOnly_endByTeardown cause) (s.mappedSlots l)
    (s.setWaitQueue (s.waitQueue.filter fun i => i ∉ s.mappedSlots l))
  split
  · exact h
  · exact h

/-- An owned circuit that enters ENDED: its owner's list is joined when nothing was pending. -/
theorem port_enterEnded (h : s.circuit i = some c) {p : PortNo} (ho : c.owner = some p) (cause : Byte) (side : Side)
    (m : Option Confirmation) (q : PortNo) :
    (s.enterEnded i cause side m).port q
      = if c.owner = some q ∧ c.conditions = {} then (s.port q).joinedBy i else s.port q := by
  have h1 : ((s.modCircuit i fun c => { c with state := .ended cause side m }).endSteps i).circuit i
      = some { c with state := .ended cause side m, reserved := 0, timer := none, owed := {} } := by
    rw [circuit_endSteps, circuit_modCircuit_same, h]; rfl
  unfold enterEnded endRecord
  rw [port_raise h1 ho, port_of_keeps (keeps_endSteps _ i) (by decide), port_modCircuit]

/-! ## Judgements -/

/-- Judging changes no level. -/
@[simp] theorem atnLevel_judgeAtn (q : PortNo) : s.judgeAtn.atnLevel q = s.atnLevel q := by
  rw [← atn_judgeAtn, port_judgeAtn]

theorem judged_judgeAtn (h : t.ports = s.ports) : s.judged t.judgeAtn := fun q => by
  rw [port_judgeAtn, atnLevel_judgeAtn]
  simp only [port, h]

theorem attends_judgeAtn (h : ∀ q, t.port q
    = if c.owner = some q ∧ c.conditions = {} then (s.port q).joinedBy i else s.port q) : s.attends t.judgeAtn i c :=
  fun q => by rw [port_judgeAtn, atnLevel_judgeAtn, h q]

end State

end Sys2Proof.Machine
end

