-- ==== Sys2Proof/Laws/Teardown.lean ====
section
/-! SUPPORT. Events that deal with several circuits in turn: which slots they name, what a pass over them does, line teardown. -/

namespace Sys2Proof.Machine

/-! ## Lists of slots -/

/-- Two ascending lists of slots with the same members are equal. -/
theorem slots_ext {a b : List SlotNo} (ha : a.Pairwise fun x y => x.val < y.val) (hb : b.Pairwise fun x y => x.val < y.val)
    (h : ∀ i, i ∈ a ↔ i ∈ b) : a = b := by
  have : Std.Irrefl fun x y : SlotNo => x.val < y.val := ⟨fun x => Nat.lt_irrefl _⟩
  exact ha.eq_of_mem_iff hb (fun i => h i)

namespace State

variable {s : State} {i j : SlotNo}

/-! ## The slots whose record meets a test -/

/-- A listed slot with its record; canonical form makes the listing the slot's own. -/
theorem mem_slots_iff (h : Sparse.wf Fin.val {} s.slots) {x : Slot} :
    (i, x) ∈ s.slots ↔ s.slot i = x ∧ x ≠ {} := by
  have key : ∀ m : List (SlotNo × Slot), Sparse.wf Fin.val {} m →
      ((i, x) ∈ m ↔ Sparse.get Fin.val {} i m = x ∧ x ≠ {}) := by
    intro m
    induction m with
    | nil =>
      intro _
      constructor
      · intro h; cases h
      · rintro ⟨rfl, h⟩; exact absurd rfl h
    | cons e m ih =>
      intro hm
      have hm' : Sparse.wf Fin.val {} m := ⟨(List.pairwise_cons.1 hm.1).2, fun e he => hm.2 e (List.mem_cons_of_mem _ he)⟩
      have ih := ih hm'
      by_cases he : e.1.val = i.val
      · have hg : Sparse.get Fin.val {} i.val (e :: m) = e.2 := by simp [Sparse.get, Sparse.find, he]
        rw [hg]
        constructor
        · intro hx
          rcases List.mem_cons.1 hx with hx | hx
          · subst hx; exact ⟨rfl, hm.2 _ List.mem_cons_self⟩
          · have := (List.pairwise_cons.1 hm.1).1 _ hx
            simp only at this
            omega
        · rintro ⟨rfl, _⟩
          have : (i, e.2) = e := Prod.ext (Fin.ext he.symm) rfl
          rw [this]; exact List.mem_cons_self
      · have hg : Sparse.get Fin.val {} i.val (e :: m) = Sparse.get Fin.val {} i.val m := by
          simp [Sparse.get, Sparse.find, he]
        rw [hg, ← ih]
        constructor
        · intro hx
          rcases List.mem_cons.1 hx with hx | hx
          · exact absurd (by rw [← hx]) he
          · exact hx
        · exact List.mem_cons_of_mem _
  exact key s.slots h

/-- The slots whose record meets a test. -/
theorem mem_slotsWhere (h : Sparse.wf Fin.val {} s.slots) {test : Circuit → Bool} :
    i ∈ s.slotsWhere test ↔ ∃ c, s.circuit i = some c ∧ test c = true := by
  simp only [slotsWhere, List.mem_map, List.mem_filter]
  constructor
  · rintro ⟨⟨k, x⟩, ⟨hm, hx⟩, rfl⟩
    have := ((mem_slots_iff h).1 hm).1
    cases hc : x.circuit with
    | none => simp [hc] at hx
    | some c => exact ⟨c, by simp only [circuit, this, hc], by simpa [hc] using hx⟩
  · rintro ⟨c, hc, ht⟩
    refine ⟨(i, s.slot i), ⟨(mem_slots_iff h).2 ⟨rfl, fun e => ?_⟩, ?_⟩, rfl⟩
    · simp [circuit, e] at hc
    · simp only [circuit] at hc
      simp [hc, ht]

theorem slotsWhere_rising (h : Sparse.wf Fin.val {} s.slots) (test : Circuit → Bool) :
    (s.slotsWhere test).Pairwise fun x y => x.val < y.val := by
  have h1 : (s.slots.filter fun e => match e.2.circuit with | some c => test c | none => false).Pairwise
      fun x y => x.1.val < y.1.val := h.1.filter _
  exact List.pairwise_map.2 h1

/-- Each slot is named once. -/
theorem slotsWhere_nodup (h : Sparse.wf Fin.val {} s.slots) (test : Circuit → Bool) : (s.slotsWhere test).Nodup := by
  exact (slotsWhere_rising h test).imp fun {a b} hab e => absurd (congrArg Fin.val e) (by omega)

/-- The slots that meet two tests are those of the one filtered by the other. -/
theorem slotsWhere_and (h : Sparse.wf Fin.val {} s.slots) (f g : Circuit → Bool) :
    s.slotsWhere (fun c => f c && g c) = (s.slotsWhere f).filter fun i => (s.circuit i).any g := by
  refine slots_ext (slotsWhere_rising h _) ((slotsWhere_rising h _).filter _) fun i => ?_
  rw [List.mem_filter, mem_slotsWhere h, mem_slotsWhere h]
  constructor
  · rintro ⟨c, hc, ht⟩
    rw [Bool.and_eq_true] at ht
    exact ⟨⟨c, hc, ht.1⟩, by rw [hc]; exact ht.2⟩
  · rintro ⟨⟨c, hc, ht⟩, hg⟩
    rw [hc] at hg
    exact ⟨c, hc, by rw [ht, Bool.true_and]; exact hg⟩

end State

/-! ## A pass over several slots -/

/-- What an event at the circuit in slot i does elsewhere: grants at most. -/
structure ActsAt (i : SlotNo) (s t : State) : Prop where
  others : ∀ j, j ≠ i → ∃ n, t.circuit j = (s.circuit j).map (·.granted n) ∧ (j ∉ s.waitQueue → n = 0)
  generations : ∀ j, (t.slot j).generation = (s.slot j).generation
  waiting : ∀ j ∈ t.waitQueue, j = i ∨ j ∈ s.waitQueue
  staying : ∀ m j, j ≠ i → j ∈ (s.line m).tx.control → j ∈ (t.line m).tx.control
  standing : ∀ j c, j ≠ i → s.circuit j = some c → t.circuit j = some c ∨ j ∈ (t.line c.line).tx.control

theorem ActsOn.at {i : SlotNo} {l : LineNo} {s t : State} (h : ActsOn i l s t) : ActsAt i s t :=
  ⟨h.others, h.generations, h.waiting, h.staying, h.standing⟩

/-! Grants change the reserved count, the receive edge and owed control of a record, and nothing else. -/

section

variable (c : Circuit) (n : Nat)

theorem granted_state : (c.granted n).state = c.state := by unfold Circuit.granted; split_ifs <;> rfl
theorem granted_line : (c.granted n).line = c.line := by unfold Circuit.granted; split_ifs <;> rfl
theorem granted_number : (c.granted n).number = c.number := by unfold Circuit.granted; split_ifs <;> rfl
theorem granted_owner : (c.granted n).owner = c.owner := by unfold Circuit.granted; split_ifs <;> rfl
theorem granted_origin : (c.granted n).origin = c.origin := by unfold Circuit.granted; split_ifs <;> rfl
theorem granted_conditions : (c.granted n).conditions = c.conditions := by unfold Circuit.granted; split_ifs <;> rfl
theorem granted_buffers : (c.granted n).buffers = c.buffers := by unfold Circuit.granted; split_ifs <;> rfl

end

/-- A pass over distinct slots: a circuit off the list is granted reservations at most, and one on it is granted some, dealt with
in some state, and then granted some. -/
structure Passed (f : State → SlotNo → State) (bs : List SlotNo) (s t : State) : Prop where
  others : ∀ j, j ∉ bs → ∃ n, t.circuit j = (s.circuit j).map (·.granted n) ∧ (j ∉ s.waitQueue → n = 0)
  each : ∀ j ∈ bs, ∃ u m n, u.circuit j = (s.circuit j).map (·.granted m)
    ∧ (j ∉ s.waitQueue → m = 0 ∧ j ∉ u.waitQueue)
    ∧ t.circuit j = ((f u j).circuit j).map (·.granted n) ∧ (j ∉ (f u j).waitQueue → n = 0)
  generations : ∀ j, (t.slot j).generation = (s.slot j).generation
  waiting : ∀ j ∈ t.waitQueue, j ∈ bs ∨ j ∈ s.waitQueue

theorem granted_map_map (x : Option Circuit) (m n : Nat) :
    (x.map (·.granted m)).map (·.granted n) = x.map (·.granted (m + n)) := by
  rw [Option.map_map]
  congr 1
  funext c
  exact Circuit.granted_add c m n

theorem granted_map_zero (x : Option Circuit) : x.map (·.granted 0) = x := by
  cases x <;> rfl

theorem Passed.foldl {f : State → SlotNo → State} (hf : ∀ v i, ActsAt i v (f v i)) : ∀ (bs : List SlotNo), bs.Nodup →
    ∀ s, Passed f bs s (bs.foldl f s)
  | [], _, s => ⟨fun j _ => ⟨0, (granted_map_zero _).symm, fun _ => rfl⟩, fun _ h => absurd h List.not_mem_nil,
      fun _ => rfl, fun _ h => .inr h⟩
  | b :: bs, hn, s => by
    have hb := (List.nodup_cons.1 hn).1
    have hs := hf s b
    have ih := Passed.foldl hf bs (List.nodup_cons.1 hn).2 (f s b)
    refine ⟨fun j hj => ?_, fun j hj => ?_, fun j => ?_, fun j hj => ?_⟩
    · rw [List.mem_cons, not_or] at hj
      obtain ⟨m, hm, hm0⟩ := hs.others j hj.1
      obtain ⟨n, hn, hn0⟩ := ih.others j hj.2
      refine ⟨m + n, ?_, fun hw => ?_⟩
      · rw [List.foldl_cons, hn, hm, granted_map_map]
      · rw [hm0 hw, hn0 fun h => (hs.waiting j h).elim hj.1 hw]
    · by_cases hjb : j = b
      · subst hjb
        obtain ⟨n, hn, hn0⟩ := ih.others j hb
        exact ⟨s, 0, n, (granted_map_zero _).symm, fun hw => ⟨rfl, hw⟩, hn, hn0⟩
      · have hj' := (List.mem_cons.1 hj).resolve_left hjb
        obtain ⟨k, hk, hk0⟩ := hs.others j hjb
        obtain ⟨u, m, n, hu, hw, ht, hn⟩ := ih.each j hj'
        refine ⟨u, k + m, n, ?_, fun h => ?_, ht, hn⟩
        · rw [hu, hk, granted_map_map]
        · have hnw : j ∉ (f s b).waitQueue := fun x => (hs.waiting j x).elim hjb h
          exact ⟨by rw [hk0 h, (hw hnw).1], (hw hnw).2⟩
    · exact (ih.generations j).trans (hs.generations j)
    · rcases ih.waiting j hj with h | h
      · exact .inl (List.mem_cons_of_mem _ h)
      · rcases hs.waiting j h with h | h
        · exact .inl (by rw [h]; exact List.mem_cons_self)
        · exact .inr h

/-- What a pass does to a part that dealing with one circuit changes by the record alone: the same changes, in order, by the records
as they were before the pass. -/
theorem foldl_reader {α : Type} {f : State → SlotNo → State} (hf : ∀ v i, ActsAt i v (f v i)) (R : State → α)
    (g : Option Circuit → SlotNo → α → α) (hR : ∀ v i, R (f v i) = g (v.circuit i) i (R v))
    (hg : ∀ c n i a, g (some (Circuit.granted c n)) i a = g (some c) i a) : ∀ bs : List SlotNo, bs.Nodup → ∀ s,
    R (bs.foldl f s) = bs.foldl (fun a i => g (s.circuit i) i a) (R s)
  | [], _, _ => rfl
  | b :: bs, hn, s => by
    rw [List.foldl_cons, List.foldl_cons, foldl_reader hf R g hR hg bs (List.nodup_cons.1 hn).2, hR]
    refine List.foldl_ext _ _ _ fun a j hj => ?_
    obtain ⟨n, h, -⟩ := (hf s b).others j fun e => (List.nodup_cons.1 hn).1 (e ▸ hj)
    rw [h]
    cases s.circuit j with
    | none => rfl
    | some c => exact hg c n j a

/-- Changes that add to the end of a list. -/
theorem foldl_append {α β : Type} (h : β → List α) (bs : List β) : ∀ a, bs.foldl (fun a i => a ++ h i) a = a ++ bs.flatMap h := by
  induction bs with
  | nil => simp
  | cons b bs ih => intro a; rw [List.foldl_cons, ih, List.flatMap_cons, List.append_assoc]

/-- Changes made at the members that pass a test. -/
theorem foldl_filter_if {α β : Type} (test : β → Bool) (g : α → β → α) (bs : List β) : ∀ a,
    bs.foldl (fun a i => if test i then g a i else a) a = (bs.filter test).foldl g a := by
  induction bs with
  | nil => exact fun _ => rfl
  | cons b bs ih =>
    intro a
    rw [List.foldl_cons, ih, List.filter_cons]
    split_ifs <;> rfl

/-- Lists joined for the members that pass a test alone. -/
theorem flatMap_if {α β : Type} (test : β → Bool) (h : β → List α) (bs : List β) :
    (bs.flatMap fun i => if test i then h i else []) = (bs.filter test).flatMap h := by
  induction bs with
  | nil => rfl
  | cons b bs ih => rw [List.flatMap_cons, List.filter_cons, ih]; split_ifs <;> simp

/-- A value that is replaced at every member whose list holds b. -/
theorem foldl_if_mem {α β γ : Type} [DecidableEq γ] (b : γ) (x : α) (h : β → List γ) (bs : List β) : ∀ a,
    bs.foldl (fun a i => if b ∈ h i then x else a) a = if b ∈ bs.flatMap h then x else a := by
  induction bs with
  | nil => intro a; simp
  | cons y bs ih =>
    intro a
    rw [List.foldl_cons, ih]
    by_cases h1 : b ∈ bs.flatMap h <;> by_cases h2 : b ∈ h y <;>
      simp only [List.flatMap_cons, List.mem_append, h1, h2, if_true, if_false, or_true, or_false]

/-- Changes that change nothing. -/
theorem foldl_same {α β : Type} {g : α → β → α} {bs : List β} (h : ∀ i ∈ bs, ∀ a, g a i = a) : ∀ a, bs.foldl g a = a := by
  induction bs with
  | nil => exact fun _ => rfl
  | cons b bs ih =>
    intro a
    rw [List.foldl_cons, h b List.mem_cons_self]
    exact ih (fun i hi => h i (List.mem_cons_of_mem _ hi)) a

/-- The same change again and again. -/
theorem foldl_iterate {α β : Type} (g : α → α) (bs : List β) : ∀ a, bs.foldl (fun a _ => g a) a = g^[bs.length] a := by
  induction bs with
  | nil => exact fun _ => rfl
  | cons b bs ih => intro a; rw [List.foldl_cons, ih, List.length_cons, Function.iterate_succ_apply]

/-- A circuit that a pass does not deal with keeps its place on a control queue. -/
theorem control_foldl {f : State → SlotNo → State} (hf : ∀ v i, ActsAt i v (f v i)) (bs : List SlotNo) :
    ∀ (v : State) (m : LineNo) (i : SlotNo), i ∉ bs → i ∈ (v.line m).tx.control → i ∈ ((bs.foldl f v).line m).tx.control := by
  induction bs with
  | nil => exact fun _ _ _ _ h => h
  | cons b bs ih =>
    intro v m i hn h
    rw [List.mem_cons, not_or] at hn
    exact ih _ m i hn.2 ((hf v b).staying m i hn.1 h)

/-- A circuit that a pass does not deal with keeps its record, or stands on its line's control queue. -/
theorem standing_foldl {f : State → SlotNo → State} (hf : ∀ v i, ActsAt i v (f v i)) (bs : List SlotNo) :
    ∀ (v : State) (i : SlotNo) (c : Circuit), i ∉ bs → v.circuit i = some c →
      (bs.foldl f v).circuit i = some c ∨ i ∈ ((bs.foldl f v).line c.line).tx.control := by
  induction bs with
  | nil => exact fun _ _ _ _ h => .inl h
  | cons b bs ih =>
    intro v i c hn h
    rw [List.mem_cons, not_or] at hn
    rcases (hf v b).standing i c hn.1 h with h' | h'
    · exact ih _ i c hn.2 h'
    · exact .inr (control_foldl hf bs _ _ i hn.2 h')

/-! ## The lines and the wait queue that ends leave -/

/-- No circuit joins the credit wait queue, those off this list of slots are granted reservations at most, and those granted may join
the control queues of lines other than l. -/
structure Grows (bs : List SlotNo) (l : LineNo) (s t : State) : Prop where
  waiting : ∀ j ∈ t.waitQueue, j ∈ s.waitQueue
  others : ∀ j, j ∉ bs → ∃ n, t.circuit j = (s.circuit j).map (·.granted n)
  lines : ∀ m, m ≠ l → ∃ more, (∀ j ∈ more, j ∈ s.waitQueue ∧ (j ∉ bs → s.gains t j)) ∧ t.line m
    = { s.line m with tx := { (s.line m).tx with control := (s.line m).tx.control ++ more } }

namespace Grows

variable {bs : List SlotNo} {l : LineNo} {s t u : State} {i : SlotNo}

theorem refl (bs : List SlotNo) (l : LineNo) (s : State) : Grows bs l s s :=
  ⟨fun _ h => h, fun _ _ => ⟨0, granted_none rfl⟩, fun _ _ => ⟨[], by simp, by simp⟩⟩

theorem trans (h : Grows bs l s t) (k : Grows bs l t u) : Grows bs l s u where
  waiting j hj := h.waiting j (k.waiting j hj)
  others j hj := by
    obtain ⟨m, hm⟩ := h.others j hj
    obtain ⟨n, hn⟩ := k.others j hj
    exact ⟨m + n, granted_then hm hn⟩
  lines m hm := by
    obtain ⟨x, hx0, hx⟩ := h.lines m hm
    obtain ⟨y, hy0, hy⟩ := k.lines m hm
    refine ⟨x ++ y, fun j hj => ?_, by rw [hy, hx]; simp⟩
    rcases List.mem_append.1 hj with hj | hj
    · refine ⟨(hx0 j hj).1, fun hb => ?_⟩
      obtain ⟨n, hn⟩ := k.others j hb
      exact ((hx0 j hj).2 hb).within (granted_none rfl) hn
    · refine ⟨h.waiting j (hy0 j hj).1, fun hb => ?_⟩
      obtain ⟨m, hm⟩ := h.others j hb
      exact ((hy0 j hj).2 hb).within hm (granted_none rfl)

theorem of_served (h : Served s t) : Grows bs l s t where
  waiting := h.waiting
  others j _ := by
    obtain ⟨n, hn, -⟩ := h.circuits j
    exact ⟨n, hn⟩
  lines m _ := by
    obtain ⟨x, hx0, hx⟩ := h.lines m
    exact ⟨x, fun j hj => ⟨(hx0 j hj).1, fun _ => (hx0 j hj).2⟩, hx⟩

theorem of_keeps {xs : List Part} (h : Keeps xs s t) (h1 : .lines ∉ xs) (h2 : .waitQueue ∉ xs) (h3 : .slots ∉ xs) :
    Grows bs l s t :=
  ⟨fun j hj => by rwa [h.at_waitQueue h2] at hj, fun j _ => ⟨0, granted_none (State.circuit_of_keeps h h3 j)⟩,
    fun m _ => ⟨[], by simp, by rw [State.line_of_keeps h h1]; simp⟩⟩

theorem modTx (f : Transmitter → Transmitter) : Grows bs l s (s.modTx l f) :=
  ⟨fun _ h => h, fun _ _ => ⟨0, granted_none rfl⟩, fun m hm => ⟨[], by simp, by rw [State.line_modTx_ne _ hm]; simp⟩⟩

theorem leaveWait : Grows bs l s (s.leaveWait i) :=
  ⟨fun _ h => (mem_leave.1 h).1, fun _ _ => ⟨0, granted_none rfl⟩, fun _ _ => ⟨[], by simp, by simp⟩⟩

/-- A change of the record of a circuit on the list. -/
theorem setCircuit (hi : i ∈ bs) (c : Option Circuit) : Grows bs l s (s.setCircuit i c) :=
  ⟨fun _ h => h, fun j hj => ⟨0, granted_none (State.circuit_setCircuit_ne s (fun e : j = i => hj (e ▸ hi)) c)⟩,
    fun _ _ => ⟨[], by simp, by simp⟩⟩

theorem modCircuit (hi : i ∈ bs) (f : Circuit → Circuit) : Grows bs l s (s.modCircuit i f) := setCircuit hi _

theorem raise (hi : i ∈ bs) (x : Conditions) : Grows bs l s (s.raise i x) := by
  unfold State.raise
  split
  · exact .refl bs l s
  · split
    · exact .refl bs l s
    · dsimp only
      split
      · exact (Grows.setCircuit hi _).trans (.of_keeps (State.keeps_joinAttention _ _ _) (by decide) (by decide) (by decide))
      · exact .setCircuit hi _

theorem releaseReservations (hi : i ∈ bs) : Grows bs l s (s.releaseReservations i) := by
  unfold State.releaseReservations
  split
  · exact .refl bs l s
  · exact ((Grows.of_keeps (State.keeps_setReservedTotal _ _) (by decide) (by decide) (by decide)).trans
      (.setCircuit hi _)).trans (.of_served (State.served_serveWait _))

theorem returnCircuitBuffers (hi : i ∈ bs) : Grows bs l s (s.returnCircuitBuffers i) := by
  unfold State.returnCircuitBuffers
  split
  · exact .refl bs l s
  · exact ((Grows.setCircuit hi _).trans (.of_keeps (State.keeps_returnBuffers _ _) (by decide) (by decide)
      (by decide))).trans (.of_served (State.served_serveWait _))

theorem endSteps (hi : i ∈ bs) (hl : ∀ c, s.circuit i = some c → c.line = l) : Grows bs l s (s.endSteps i) := by
  cases h : s.circuit i with
  | none => simp only [State.endSteps, h]; exact .refl bs l s
  | some c =>
    obtain rfl := hl c h
    simp only [State.endSteps, h]
    refine Grows.trans ?_ (.modCircuit hi _)
    refine Grows.trans ?_ (.releaseReservations hi)
    refine Grows.trans ?_ (.modTx _)
    refine Grows.trans ?_ .leaveWait
    exact .of_keeps ((s.keeps_unmapNumber _ _).both (zs := [.index, .services]) (State.keeps_lowerLive _ _)
      (by decide) (by decide)) (by decide) (by decide) (by decide)

theorem enterEnded (hi : i ∈ bs) (hl : ∀ c, s.circuit i = some c → c.line = l) (cause : Byte) (side : Side)
    (x : Option Confirmation) : Grows bs l s (s.enterEnded i cause side x) := by
  unfold State.enterEnded State.endRecord
  refine ((Grows.modCircuit hi _).trans (.endSteps hi fun d hd => ?_)).trans (.raise hi _)
  rw [State.circuit_modCircuit_same] at hd
  obtain ⟨c, hc, rfl⟩ := Option.map_eq_some_iff.1 hd
  exact hl c hc

theorem leaveOwner (hi : i ∈ bs) : Grows bs l s (s.leaveOwner i) := by
  unfold State.leaveOwner
  split
  · exact .refl bs l s
  · split
    · exact .refl bs l s
    · exact (Grows.of_keeps (State.keeps_leaveAttention _ _ _) (by decide) (by decide) (by decide)).trans (.modCircuit hi _)

theorem directFree (hi : i ∈ bs) (hl : ∀ c, s.circuit i = some c → c.line = l) : Grows bs l s (s.directFree i) :=
  (((Grows.endSteps hi hl).trans (.returnCircuitBuffers hi)).trans (.leaveOwner hi)).trans
    ((Grows.setCircuit hi none).trans (.of_keeps (State.keeps_setFreeSlots _ _) (by decide) (by decide) (by decide)))

end Grows

/-! ## Mappings that a pass removes -/

/-- No key is added to the index map between two states. -/
def OnlyUnmaps (s t : State) : Prop := ∀ m o, t.lookup m o = none ∨ t.lookup m o = s.lookup m o

namespace OnlyUnmaps

theorem refl (s : State) : OnlyUnmaps s s := fun _ _ => .inr rfl

theorem trans {s t u : State} (h : OnlyUnmaps s t) (k : OnlyUnmaps t u) : OnlyUnmaps s u := fun m o => by
  rcases k m o with e | e
  · exact .inl e
  · rw [e]; exact h m o

theorem of_keeps {s t : State} {xs : List Part} (h : Keeps xs s t) (hx : .index ∉ xs) : OnlyUnmaps s t := fun m o =>
  .inr (State.lookup_of_keeps h hx m o)

theorem none {s t : State} (h : OnlyUnmaps s t) {m : LineNo} {o : Byte} (e : s.lookup m o = Option.none) :
    t.lookup m o = Option.none := by
  rcases h m o with e' | e'
  · exact e'
  · rw [e', e]

theorem foldl {f : State → SlotNo → State} (hf : ∀ v i, OnlyUnmaps v (f v i)) (bs : List SlotNo) :
    ∀ s, OnlyUnmaps s (bs.foldl f s) := by
  induction bs with
  | nil => exact refl
  | cons b bs ih => exact fun s => (hf s b).trans (ih _)

end OnlyUnmaps

namespace State

variable {s : State} {i : SlotNo} {c : Circuit}

theorem onlyUnmaps_endSteps : OnlyUnmaps s (s.endSteps i) := fun m o => by
  cases h : s.circuit i with
  | none => right; simp only [endSteps, h]
  | some c => rw [lookup_endSteps h]; split_ifs <;> simp

theorem lookup_enterEnded (h : s.circuit i = some c) (cause : Byte) (side : Side) (x : Option Confirmation) (m : LineNo)
    (o : Byte) : (s.enterEnded i cause side x).lookup m o = if m = c.line ∧ o = c.number then none else s.lookup m o := by
  unfold enterEnded endRecord
  rw [lookup_of_keeps (keeps_raise _ _ _) (by decide), lookup_endSteps (c := { c with state := .ended cause side x })]
  · rw [lookup_modCircuit]
  · rw [circuit_modCircuit_same, h]; rfl

theorem onlyUnmaps_enterEnded (cause : Byte) (side : Side) (x : Option Confirmation) :
    OnlyUnmaps s (s.enterEnded i cause side x) :=
  ((OnlyUnmaps.of_keeps (keeps_modCircuit s i _) (by decide)).trans onlyUnmaps_endSteps).trans
    (OnlyUnmaps.of_keeps (keeps_raise _ _ _) (by decide))

theorem onlyUnmaps_directFree : OnlyUnmaps s (s.directFree i) :=
  ((onlyUnmaps_endSteps.trans (OnlyUnmaps.of_keeps (keeps_returnCircuitBuffers _ i) (by decide))).trans
    (OnlyUnmaps.of_keeps (keeps_leaveOwner _ i) (by decide))).trans
    (OnlyUnmaps.of_keeps (keeps_freeSlot _ i) (by decide))

theorem not_mem_waitQueue_endRecord (h : s.circuit i = some c) (cause : Byte) (side : Side) (x : Option Confirmation) :
    i ∉ (s.endRecord i cause side x).waitQueue := by
  unfold endRecord
  exact not_mem_waitQueue_endSteps (c := { c with state := .ended cause side x }) (by
    rw [circuit_modCircuit_same, h]; rfl)

theorem not_mem_waitQueue_enterEnded (h : s.circuit i = some c) (cause : Byte) (side : Side) (x : Option Confirmation) :
    i ∉ (s.enterEnded i cause side x).waitQueue := by
  unfold enterEnded
  rw [(keeps_raise _ _ _).at_waitQueue (by decide)]
  exact not_mem_waitQueue_endRecord h cause side x

/-! ## Teardown (R117) -/

theorem endByTeardown_none (cause : Byte) (h : s.circuit i = none) : endByTeardown cause s i = s := by
  simp only [endByTeardown, h]

theorem endByTeardown_orphan (cause : Byte) (h : s.circuit i = some c) {x : Byte} (hs : c.state = .closing x)
    (ho : c.owner = none) : endByTeardown cause s i = s.directFree i := by
  simp only [endByTeardown, h, hs, ho]

theorem endByTeardown_owned (cause : Byte) (h : s.circuit i = some c) {p : PortNo} (ho : c.owner = some p) :
    endByTeardown cause s i
      = s.enterEnded i cause .localEnd (if c.state.name = .closing then some .unconfirmed else none) := by
  simp only [endByTeardown, h, ho]
  cases hs : c.state <;> simp [CircuitState.name]

theorem actsAt_endByTeardown (cause : Byte) (v : State) (i : SlotNo) : ActsAt i v (endByTeardown cause v i) := by
  cases h : v.circuit i with
  | none => rw [endByTeardown_none cause h]; exact (ActsOn.refl i 0 v).at
  | some c =>
    have hl : ∀ d, v.circuit i = some d → d.line = c.line := fun d hd => by rw [h] at hd; cases hd; rfl
    unfold endByTeardown
    simp only [h]
    split
    · exact (actsOn_directFree hl).at
    · exact (actsOn_enterEnded hl _ _ _).at
    · exact (actsOn_enterEnded hl _ _ _).at

theorem onlyUnmaps_endByTeardown (cause : Byte) (v : State) (i : SlotNo) : OnlyUnmaps v (endByTeardown cause v i) := by
  unfold endByTeardown
  split
  · exact .refl v
  · split
    · exact onlyUnmaps_directFree
    · exact onlyUnmaps_enterEnded _ _ _
    · exact onlyUnmaps_enterEnded _ _ _

theorem queuesOnly_endByTeardown (cause : Byte) (v : State) (i : SlotNo) : QueuesOnly v (endByTeardown cause v i) := by
  unfold endByTeardown
  split
  · exact .refl v
  · split
    · exact queuesOnly_directFree
    · exact queuesOnly_enterEnded _ _ _
    · exact queuesOnly_enterEnded _ _ _

theorem queuesOnly_foldl {f : State → SlotNo → State} (hf : ∀ v i, QueuesOnly v (f v i)) (bs : List SlotNo) :
    ∀ s, QueuesOnly s (bs.foldl f s) := by
  induction bs with
  | nil => exact QueuesOnly.refl
  | cons b bs ih => exact fun s => (hf s b).trans (ih _)

theorem lookup_endByTeardown (cause : Byte) (h : s.circuit i = some c) :
    (endByTeardown cause s i).lookup c.line c.number = none := by
  unfold endByTeardown
  simp only [h]
  split
  · rw [(directFree_spec h).2.2.1, if_pos ⟨rfl, rfl⟩]
  · rw [lookup_enterEnded h, if_pos ⟨rfl, rfl⟩]
  · rw [lookup_enterEnded h, if_pos ⟨rfl, rfl⟩]

/-- After a pass over slots that include one with a circuit, that circuit's number is held no more. -/
theorem lookup_foldl_endByTeardown (cause : Byte) (l : LineNo) (n : Byte) : ∀ (bs : List SlotNo) (s : State) (i : SlotNo),
    bs.Nodup → i ∈ bs → (∃ c, s.circuit i = some c ∧ c.line = l ∧ c.number = n) →
    (bs.foldl (endByTeardown cause) s).lookup l n = none
  | [], _, _, _, h, _ => absurd h List.not_mem_nil
  | b :: bs, s, i, hn, hi, ⟨c, hc, hl, hm⟩ => by
    rw [List.foldl_cons]
    by_cases hib : i = b
    · subst hib
      refine (OnlyUnmaps.foldl (onlyUnmaps_endByTeardown cause) bs _).none ?_
      rw [← hl, ← hm]
      exact lookup_endByTeardown cause hc
    · obtain ⟨k, hk, _⟩ := (actsAt_endByTeardown cause s b).others i hib
      refine lookup_foldl_endByTeardown cause l n bs _ i (List.nodup_cons.1 hn).2
        ((List.mem_cons.1 hi).resolve_left hib) ⟨c.granted k, by rw [hk, hc]; rfl, ?_, ?_⟩
      · unfold Circuit.granted; split_ifs <;> exact hl
      · unfold Circuit.granted; split_ifs <;> exact hm

/-- Whether a record is an orphan's: CLOSING, without an owner. -/
def isOrphan (x : Option Circuit) : Bool := x.any fun c => c.state.name = .closing && c.owner.isNone

theorem isOrphan_granted (c : Circuit) (n : Nat) : isOrphan (some (c.granted n)) = isOrphan (some c) := by
  simp only [isOrphan, Option.any_some, granted_state, granted_owner]

theorem endByTeardown_cases (cause : Byte) (h : s.circuit i = some c) :
    isOrphan (some c) = true ∧ endByTeardown cause s i = s.directFree i
      ∨ isOrphan (some c) = false ∧ ∃ m, endByTeardown cause s i = s.enterEnded i cause .localEnd m := by
  simp only [endByTeardown, h]
  cases hs : c.state <;> cases ho : c.owner <;> simp [isOrphan, hs, ho, CircuitState.name]

theorem lookup_endByTeardown_eq (cause : Byte) (m : LineNo) (o : Byte) (v : State) (i : SlotNo) :
    (endByTeardown cause v i).lookup m o = match v.circuit i with
      | none => v.lookup m o
      | some c => if m = c.line ∧ o = c.number then none else v.lookup m o := by
  cases h : v.circuit i with
  | none => rw [endByTeardown_none cause h]
  | some c =>
    rcases endByTeardown_cases cause h with ⟨-, e⟩ | ⟨-, x, e⟩
    · rw [e, (directFree_spec h).2.2.1]
    · rw [e, lookup_enterEnded h]

theorem freeSlots_endByTeardown (cause : Byte) (v : State) (i : SlotNo) :
    (endByTeardown cause v i).freeSlots = v.freeSlots ++ if isOrphan (v.circuit i) then [i] else [] := by
  cases h : v.circuit i with
  | none => rw [endByTeardown_none cause h]; simp [isOrphan]
  | some c =>
    rcases endByTeardown_cases cause h with ⟨ho, e⟩ | ⟨ho, x, e⟩
    · rw [e, (directFree_spec h).2.1, ho, if_pos rfl]
    · rw [e, (keeps_enterEnded _ i _ _ _).at_freeSlots (by decide), ho, if_neg (by simp), List.append_nil]

theorem freeQueue_endByTeardown (cause : Byte) (v : State) (i : SlotNo) :
    (endByTeardown cause v i).freeQueue
      = v.freeQueue ++ if isOrphan (v.circuit i) then ((v.circuit i).map Circuit.buffers).getD [] else [] := by
  cases h : v.circuit i with
  | none => rw [endByTeardown_none cause h]; simp [isOrphan]
  | some c =>
    rcases endByTeardown_cases cause h with ⟨ho, e⟩ | ⟨ho, x, e⟩
    · rw [e, (directFree_spec h).2.2.2.2.1, ho, if_pos rfl]; rfl
    · rw [e, (keeps_enterEnded _ i _ _ _).at_freeQueue (by decide), ho, if_neg (by simp), List.append_nil]

theorem place_endByTeardown (cause : Byte) (b : BufNo) (v : State) (i : SlotNo) :
    (endByTeardown cause v i).place b
      = if b ∈ (if isOrphan (v.circuit i) then ((v.circuit i).map Circuit.buffers).getD [] else []) then .free
        else v.place b := by
  cases h : v.circuit i with
  | none => rw [endByTeardown_none cause h]; simp [isOrphan]
  | some c =>
    rcases endByTeardown_cases cause h with ⟨ho, e⟩ | ⟨ho, x, e⟩
    · rw [e, (directFree_spec h).2.2.2.2.2.1, ho, if_pos rfl]; rfl
    · rw [e, place_of_keeps (keeps_enterEnded _ i _ _ _) (by decide), ho]; simp

theorem entry_enterEnded (h : s.circuit i = some c) (cause : Byte) (side : Side) (x : Option Confirmation) (e : EntryNo) :
    (s.enterEnded i cause side x).entry e = if c.origin = .remoteCall e then (s.entry e).lowered else s.entry e := by
  unfold enterEnded endRecord
  rw [entry_of_keeps (keeps_raise _ _ _) (by decide), entry_endSteps (c := { c with state := .ended cause side x })]
  · rw [entry_modCircuit]
  · rw [circuit_modCircuit_same, h]; rfl

theorem entry_endByTeardown (cause : Byte) (e : EntryNo) (v : State) (i : SlotNo) :
    (endByTeardown cause v i).entry e
      = if (v.circuit i).any (fun c => c.origin = .remoteCall e) then (v.entry e).lowered else v.entry e := by
  cases h : v.circuit i with
  | none => rw [endByTeardown_none cause h]; simp
  | some c =>
    rcases endByTeardown_cases cause h with ⟨-, x⟩ | ⟨-, y, x⟩
    · rw [x, (directFree_spec h).2.2.2.1]; simp
    · rw [x, entry_enterEnded h]; simp

theorem port_endByTeardown (cause : Byte) (q : PortNo) (v : State) (i : SlotNo) :
    (endByTeardown cause v i).port q
      = if (v.circuit i).any (fun c => c.owner = some q && c.conditions.isEmpty) then (v.port q).joinedBy i
        else v.port q := by
  cases h : v.circuit i with
  | none => rw [endByTeardown_none cause h]; simp
  | some c =>
    rcases endByTeardown_cases cause h with ⟨ho, e⟩ | ⟨-, x, e⟩
    · have ho : c.owner = none := by simp [isOrphan] at ho; exact ho.2
      rw [e, (directFree_spec h).2.2.2.2.2.2, ho]; simp [ho]
    · rw [e]
      cases ho : c.owner with
      | none =>
        unfold enterEnded
        have hr : ((v.endRecord i cause .localEnd x).circuit i).map (·.owner) = some none := by
          unfold endRecord
          rw [circuit_endSteps, circuit_modCircuit_same, h]; simp [ho]
        have : (v.endRecord i cause .localEnd x).raise i { ended := true } = v.endRecord i cause .localEnd x := by
          obtain ⟨d, hd, hd'⟩ := Option.map_eq_some_iff.1 hr
          simp only [raise, hd, hd']
        rw [this, port_of_keeps (keeps_endRecord v i _ _ _) (by decide)]; simp [ho]
      | some p => rw [port_enterEnded h ho]; simp [ho, Conditions.isEmpty]

theorem grows_foldl_endByTeardown (l : LineNo) (cause : Byte) (cs : List SlotNo) : ∀ (bs : List SlotNo) (s : State),
    bs.Nodup → bs ⊆ cs → (∀ i ∈ bs, ∀ c, s.circuit i = some c → c.line = l) →
    Grows cs l s (bs.foldl (endByTeardown cause) s)
  | [], s, _, _, _ => .refl cs l s
  | b :: bs, s, hn, hs, hl => by
    have hb : ∀ c, s.circuit b = some c → c.line = l := hl b List.mem_cons_self
    have hbc : b ∈ cs := hs List.mem_cons_self
    have one : Grows cs l s (endByTeardown cause s b) := by
      cases h : s.circuit b with
      | none => rw [endByTeardown_none cause h]; exact .refl cs l s
      | some c =>
        rcases endByTeardown_cases cause h with ⟨-, e⟩ | ⟨-, x, e⟩
        · rw [e]; exact .directFree hbc hb
        · rw [e]; exact .enterEnded hbc hb _ _ _
    refine one.trans (grows_foldl_endByTeardown l cause cs bs _ (List.nodup_cons.1 hn).2
      (fun i hi => hs (List.mem_cons_of_mem _ hi)) fun i hi c hc => ?_)
    obtain ⟨n, h, -⟩ := (actsAt_endByTeardown cause s b).others i fun e => (List.nodup_cons.1 hn).1 (e ▸ hi)
    rw [h] at hc
    obtain ⟨d, hd, rfl⟩ := Option.map_eq_some_iff.1 hc
    rw [granted_line]
    exact hl i (List.mem_cons_of_mem _ hi) d hd

/-- The circuits, the index map and the lines after the second step of R117. -/
theorem teardown_circuits (l : LineNo) (cause : Byte) (j : SlotNo) :
    (s.teardown l cause).circuit j = ((s.mappedSlots l).foldl (endByTeardown cause)
      (s.setWaitQueue (s.waitQueue.filter fun i => i ∉ s.mappedSlots l))).circuit j := by
  unfold teardown
  dsimp only
  split <;> rfl

theorem teardown_lookup (l : LineNo) (cause : Byte) (m : LineNo) (o : Byte) :
    (s.teardown l cause).lookup m o = ((s.mappedSlots l).foldl (endByTeardown cause)
      (s.setWaitQueue (s.waitQueue.filter fun i => i ∉ s.mappedSlots l))).lookup m o := by
  unfold teardown
  dsimp only
  split <;> rfl

/-- The parts that the last two steps of R117 do not change. -/
theorem teardown_keeps_tail (l : LineNo) (cause : Byte) : Keeps [.lines]
    ((s.mappedSlots l).foldl (endByTeardown cause) (s.setWaitQueue (s.waitQueue.filter fun i => i ∉ s.mappedSlots l)))
    (s.teardown l cause) := by
  unfold teardown
  dsimp only
  split
  · exact ((keeps_modLine _ _ _).trans (keeps_modLine _ _ _)).trans (keeps_modLine _ _ _)
  · exact keeps_modLine _ _ _

/-- The last two steps of R117 are the torn-down line's alone. -/
theorem line_teardown_tail (l : LineNo) (cause : Byte) {m : LineNo} (hm : m ≠ l) : (s.teardown l cause).line m
    = ((s.mappedSlots l).foldl (endByTeardown cause)
      (s.setWaitQueue (s.waitQueue.filter fun i => i ∉ s.mappedSlots l))).line m := by
  unfold teardown
  dsimp only
  split
  · rw [line_modLine_ne _ hm, countDiscard, line_modLine_ne _ hm, line_modLine_ne _ hm]
  · rw [line_modLine_ne _ hm]

/-- What a teardown does to circuits, to their numbers, slots and buffers, and to attention lists (R117, steps 1 and 2). -/
theorem tornDown_teardown (h : Sparse.wf Fin.val {} s.slots) (l : LineNo) (cause : Byte) :
    TornDown l cause s (s.teardown l cause) := by
  obtain ⟨v, hv⟩ : ∃ v, v = s.setWaitQueue (s.waitQueue.filter fun i => i ∉ s.mappedSlots l) := ⟨_, rfl⟩
  have hvc : ∀ j, v.circuit j = s.circuit j := fun j => by rw [hv]; rfl
  have hvl : ∀ m o, v.lookup m o = s.lookup m o := fun m o => by rw [hv]; rfl
  have hvw : ∀ j, j ∈ v.waitQueue ↔ j ∈ s.waitQueue ∧ j ∉ s.mappedSlots l := fun j => by
    rw [hv]; simp
  have hmem : ∀ i, i ∈ s.mappedSlots l ↔ ∃ c, s.circuit i = some c ∧ c.line = l ∧ c.mapped = true := by
    intro i
    rw [mappedSlots, mem_slotsWhere h]
    simp [Bool.and_eq_true]
  have pass := Passed.foldl (actsAt_endByTeardown cause) (s.mappedSlots l) (slotsWhere_nodup h _) v
  have hc : ∀ j, (s.teardown l cause).circuit j = ((s.mappedSlots l).foldl (endByTeardown cause) v).circuit j := by
    intro j; rw [teardown_circuits, hv]
  have each : ∀ i c, s.circuit i = some c → c.line = l → c.mapped = true → ∃ u : State, ∃ n, u.circuit i = some c
      ∧ (s.teardown l cause).circuit i = ((endByTeardown cause u i).circuit i).map (·.granted n)
      ∧ (i ∉ (endByTeardown cause u i).waitQueue → n = 0) := by
    intro i c h1 h2 h3
    have hi := (hmem i).2 ⟨c, h1, h2, h3⟩
    obtain ⟨u, m, n, hu, hw, ht, hn⟩ := pass.each i hi
    have hnw : i ∉ v.waitQueue := fun x => ((hvw i).1 x).2 hi
    refine ⟨u, n, ?_, by rw [hc, ht], hn⟩
    rw [hu, (hw hnw).1, granted_map_zero, hvc, h1]
  have tail := teardown_keeps_tail (s := s) l cause
  rw [← hv] at tail
  have grows := grows_foldl_endByTeardown l cause (s.mappedSlots l) (s.mappedSlots l) v (slotsWhere_nodup h _)
      (List.Subset.refl _) fun i hi c hc => by
    obtain ⟨d, hd, hl, -⟩ := (hmem i).1 hi
    rw [hvc, hd] at hc; cases hc; exact hl
  have orphans : (s.mappedSlots l).filter (fun i => isOrphan (v.circuit i)) = s.orphansOn l := by
    rw [orphansOn, mappedWhere, slotsWhere_and h]
    simp only [hvc, mappedSlots, isOrphan]
  have buffers : ((s.mappedSlots l).flatMap fun i =>
      if isOrphan (v.circuit i) then ((v.circuit i).map Circuit.buffers).getD [] else []) = s.buffersIn (s.orphansOn l) := by
    rw [flatMap_if (fun i => isOrphan (v.circuit i)) fun i => ((v.circuit i).map Circuit.buffers).getD [], orphans, buffersIn]
    simp only [hvc]
  have acts := actsAt_endByTeardown cause
  have nodup : (s.mappedSlots l).Nodup := slotsWhere_nodup h _
  refine ⟨fun i c x h1 h2 h3 h4 => ?_, fun i c p h1 h2 h3 h4 => ?_, fun i c h1 h2 h3 => ?_, fun i c h1 h2 => ?_,
    fun i hi => ?_, fun i => ?_, fun m o hmo => ?_, fun m hm => ?_, fun j hj => ?_, fun i c h1 h2 => ?_, ?_, ?_,
    fun b => ?_, fun e => ?_, fun q => ?_⟩
  · obtain ⟨u, n, hu, ht, _⟩ := each i c h1 h2 (by simp [Circuit.mapped, h3, CircuitState.name])
    rw [ht, endByTeardown_orphan cause hu h3 h4, circuit_directFree]
    rfl
  · obtain ⟨u, n, hu, ht, hn⟩ := each i c h1 h2 h3
    rw [endByTeardown_owned cause hu h4] at ht hn
    rw [ht, hn (not_mem_waitQueue_enterEnded hu _ _ _), granted_map_zero, circuit_enterEnded hu p h4]
  · rw [teardown_lookup, ← hv, ← h2]
    refine lookup_foldl_endByTeardown cause c.line c.number _ v i (slotsWhere_nodup h _) ?_ ⟨c, by rw [hvc, h1], rfl, rfl⟩
    rw [h2]
    exact (hmem i).2 ⟨c, h1, h2, h3⟩
  · have hi : i ∉ s.mappedSlots l := fun hi => by
      obtain ⟨d, hd, hd1, hd2⟩ := (hmem i).1 hi
      rw [h1] at hd; cases hd
      rcases h2 with h2 | h2
      · exact h2 hd1
      · rw [hd2] at h2; cases h2
    obtain ⟨n, hn, hn0⟩ := pass.others i hi
    refine ⟨n, by rw [hc, hn, hvc, h1]; rfl, fun hw => hn0 fun x => hw ((hvw i).1 x).1⟩
  · have : i ∉ s.mappedSlots l := fun h' => by
      obtain ⟨c, hc, -⟩ := (hmem i).1 h'
      rw [hi] at hc; cases hc
    obtain ⟨n, hn, -⟩ := pass.others i this
    rw [hc, hn, hvc, hi]; rfl
  · rw [slot_of_keeps tail (by decide), pass.generations, hv]; rfl
  · rw [lookup_of_keeps tail (by decide), foldl_reader acts (fun v => v.lookup m o)
      (fun x _ a => match x with | none => a | some c => if m = c.line ∧ o = c.number then none else a)
      (lookup_endByTeardown_eq cause m o) (fun c n _ _ => by simp only [granted_line, granted_number]) _ nodup, hvl]
    refine foldl_same (fun b hb a => ?_) _
    obtain ⟨c, hc, h1, h2⟩ := (hmem b).1 hb
    rw [hvc, hc]
    exact if_neg (by rw [h1]; exact hmo b c hc h1 h2)
  · obtain ⟨more, h0, hmore⟩ := grows.lines m hm
    refine ⟨more, fun j hj => ?_, ?_⟩
    · obtain ⟨h1, h2⟩ := (hvw j).1 (h0 j hj).1
      exact ⟨h1, ((h0 j hj).2 h2).within (granted_none (by rw [hvc])) (granted_none (by
        rw [circuit_of_keeps tail (by decide)]))⟩
    rw [line_teardown_tail l cause hm, ← hv, hmore, hv]; rfl
  · rw [tail.at_waitQueue (by decide)] at hj
    exact (hvw j).1 (grows.waiting j hj)
  · rw [hc, line_teardown_tail l cause h2, ← hv]
    refine standing_foldl acts _ v i c (fun hi => ?_) ((hvc i).trans h1)
    obtain ⟨d, hd, hl, -⟩ := (hmem i).1 hi
    rw [h1] at hd; cases hd
    exact h2 hl
  · rw [tail.at_freeSlots (by decide), foldl_reader acts State.freeSlots
      (fun x i a => a ++ if isOrphan x then [i] else []) (freeSlots_endByTeardown cause)
      (fun c n _ _ => by rw [isOrphan_granted]) _ nodup, foldl_append, ← orphans, hv]
    rw [flatMap_if (fun i => isOrphan ((s.setWaitQueue _).circuit i)) fun i => [i], List.flatMap_singleton']
    rfl
  · rw [tail.at_freeQueue (by decide), foldl_reader acts State.freeQueue
      (fun x _ a => a ++ if isOrphan x then (x.map Circuit.buffers).getD [] else []) (freeQueue_endByTeardown cause)
      (fun c n _ _ => by rw [isOrphan_granted, Option.map_some, granted_buffers]; rfl) _ nodup, foldl_append, ← buffers, hv]
    rfl
  · rw [place_of_keeps tail (by decide), foldl_reader acts (fun v => v.place b)
      (fun x _ a => if b ∈ (if isOrphan x then (x.map Circuit.buffers).getD [] else []) then .free else a)
      (place_endByTeardown cause b)
      (fun c n _ _ => by rw [isOrphan_granted, Option.map_some, granted_buffers]; rfl) _ nodup, ← buffers]
    rw [foldl_if_mem b Place.free fun i => if isOrphan (v.circuit i) then ((v.circuit i).map Circuit.buffers).getD [] else [], hv]
    rfl
  · rw [entry_of_keeps tail (by decide), foldl_reader acts (fun v => v.entry e)
      (fun x _ a => if x.any (fun c => c.origin = .remoteCall e) then a.lowered else a) (entry_endByTeardown cause e)
      (fun c n _ _ => by rw [Option.any_some, granted_origin]; rfl) _ nodup,
      foldl_filter_if (fun i => (v.circuit i).any fun c => c.origin = .remoteCall e) (fun a _ => ServiceEntry.lowered a),
      foldl_iterate, mappedWhere, slotsWhere_and h]
    simp only [hvc]
    rw [hv]; rfl
  · have : (s.teardown l cause).port q = (s.mappedWhere l fun c => c.owner = some q && c.conditions.isEmpty).foldl
        Port.joinedBy (s.port q) := by
      rw [port_of_keeps tail (by decide), foldl_reader acts (fun v => v.port q)
        (fun x i a => if x.any (fun c => c.owner = some q && c.conditions.isEmpty) then a.joinedBy i else a)
        (port_endByTeardown cause q) (fun c n _ _ => by simp only [Option.any_some, granted_owner, granted_conditions]) _ nodup,
        foldl_filter_if (fun i => (v.circuit i).any fun c => c.owner = some q && c.conditions.isEmpty) Port.joinedBy,
        mappedWhere, slotsWhere_and h]
      simp only [hvc]
      rw [hv]; rfl
    rw [this]
    exact ⟨rfl, rfl⟩

/-- What a teardown does to its own line (R117, steps 3 and 4; R118, R144). -/
theorem line_teardown_same (l : LineNo) (cause : Byte) :
    (s.teardown l cause).line l
      = { s.line l with
          tx := { staged := none, control := [], stray := [], ring := []
                  data := afterTeardown (s.line l).tx.staged.isSome (s.line l).state }
          discards := match (s.line l).receiver with
            | .frame _ => min Config.countMax ((s.line l).discards + 1)
            | _ => (s.line l).discards
          receiver := match (s.line l).receiver with
            | .frame _ => .hunt
            | x => x } := by
  obtain ⟨control, ring, hq⟩ := queuesOnly_foldl (queuesOnly_endByTeardown cause) (s.mappedSlots l)
    (s.setWaitQueue (s.waitQueue.filter fun i => i ∉ s.mappedSlots l)) l
  rw [line_setWaitQueue] at hq
  unfold teardown
  dsimp only
  simp only [line_modLine_same, hq]
  cases hr : (s.line l).receiver with
  | off => simp only [line_modLine_same, hq]; rw [hr]
  | hunt => simp only [line_modLine_same, hq]; rw [hr]
  | frame x => simp only [countDiscard, line_modLine_same, hq]

/-- Every other line keeps all but its control queue and its ring. -/
theorem line_teardown_ne (l : LineNo) (cause : Byte) {m : LineNo} (hm : m ≠ l) :
    ∃ control ring, (s.teardown l cause).line m
      = { s.line m with tx := { (s.line m).tx with control := control, ring := ring } } := by
  obtain ⟨control, ring, hq⟩ := queuesOnly_foldl (queuesOnly_endByTeardown cause) (s.mappedSlots l)
    (s.setWaitQueue (s.waitQueue.filter fun i => i ∉ s.mappedSlots l)) m
  rw [line_setWaitQueue] at hq
  refine ⟨control, ring, ?_⟩
  unfold teardown
  dsimp only
  split
  · rw [line_modLine_ne _ hm, countDiscard, line_modLine_ne _ hm, line_modLine_ne _ hm, hq]
  · rw [line_modLine_ne _ hm, hq]

end State

/-- What a teardown does is done as well between states that agree with its own on all but the torn-down line and the arbiter. -/
theorem TornDown.between {l : LineNo} {cause : Byte} {s s' u t : State} (h : TornDown l cause s' u) (hs : Keeps [.lines] s s')
    (hsl : ∀ m, m ≠ l → s'.line m = s.line m) (hu : Keeps [.lines, .ports, .lastServed] u t)
    (hul : ∀ m, m ≠ l → t.line m = u.line m)
    (hp : ∀ q, (t.port q).attention = (u.port q).attention ∧ (t.port q).holdoff = (u.port q).holdoff) :
    TornDown l cause s t := by
  have e1 : ∀ j, s'.circuit j = s.circuit j := fun j => State.circuit_of_keeps hs (by decide) j
  have e2 : ∀ j, t.circuit j = u.circuit j := fun j => State.circuit_of_keeps hu (by decide) j
  have e3 : ∀ f, s'.slotsWhere f = s.slotsWhere f := fun f => by simp only [State.slotsWhere, hs.at_slots (by decide)]
  have e4 : ∀ f, s'.mappedWhere l f = s.mappedWhere l f := fun f => e3 _
  have e5 : s'.orphansOn l = s.orphansOn l := e4 _
  have e6 : s'.mappedSlots l = s.mappedSlots l := e3 _
  have e7 : ∀ bs, s'.buffersIn bs = s.buffersIn bs := fun bs => by simp only [State.buffersIn, e1]
  have e8 : ∀ m o, s'.lookup m o = s.lookup m o := fun m o => State.lookup_of_keeps hs (by decide) m o
  have e9 : ∀ m o, t.lookup m o = u.lookup m o := fun m o => State.lookup_of_keeps hu (by decide) m o
  refine ⟨?_, ?_, ?_, ?_, ?_, ?_, ?_, ?_, ?_, ?_, ?_, ?_, ?_, ?_, ?_⟩
  · intro i c x
    have := h.orphans i c x
    rwa [e1, ← e2] at this
  · intro i c p
    have := h.owned i c p
    rwa [e1, ← e2] at this
  · intro i c
    have := h.unmapped i c
    rwa [e1, ← e9] at this
  · intro i c
    have := h.others i c
    rwa [e1, ← e2, hs.at_waitQueue (by decide)] at this
  · intro i
    have := h.frees i
    rwa [e1, ← e2] at this
  · intro i
    have := h.generations i
    rwa [State.slot_of_keeps hs (by decide), ← State.slot_of_keeps hu (by decide)] at this
  · intro m o
    have := h.otherNumbers m o
    simp only [e1, e8, ← e9] at this
    exact this
  · intro m hm
    obtain ⟨x, h0, hx⟩ := h.otherLines m hm
    refine ⟨x, fun j hj => ⟨?_, (h0 j hj).2.within (granted_none (e1 j)) (granted_none (e2 j))⟩, ?_⟩
    · have := (h0 j hj).1
      rwa [hs.at_waitQueue (by decide)] at this
    · rw [hul m hm, hx, hsl m hm]
  · intro j hj
    have := h.waiting j
    rw [hu.at_waitQueue (by decide)] at hj
    rw [hs.at_waitQueue (by decide), e6] at this
    exact this hj
  · intro i c h1 h2
    have := h.standing i c ((e1 i).trans h1) h2
    rwa [← e2, ← hul c.line h2] at this
  · rw [hu.at_freeSlots (by decide), h.freeSlots, hs.at_freeSlots (by decide), e5]
  · rw [hu.at_freeQueue (by decide), h.freeQueue, hs.at_freeQueue (by decide), e5, e7]
  · intro b
    rw [State.place_of_keeps hu (by decide), h.places, State.place_of_keeps hs (by decide)]
    simp only [e5, e7]
  · intro e
    rw [State.entry_of_keeps hu (by decide), h.entries, State.entry_of_keeps hs (by decide), e4]
  · intro q
    have := h.lists q
    rw [(hp q).1, (hp q).2, this.1, this.2, e4, State.port_of_keeps hs (by decide)]
    exact ⟨rfl, rfl⟩

end Sys2Proof.Machine
end

