-- ==== Sys2Proof/Laws/Backed.lean ====
section
/-! SUPPORT. The account of reservations, slots and waiting circuits: every shared operation keeps it, and a reservation is always backed. -/

namespace Sys2Proof.Machine.State

/-- A circuit that may stand on the credit wait queue (R86): it is in OPEN or DRAINING, and, if `q` is asked for, it is short. -/
def MayWait (q : Prop) (c : Circuit) : Prop := c.state.inData = true ∧ (q → c.reserved < c.target)

/-- The account (Machine.State.backed), with what holds of quiet and of waiting circuits left open at one slot, if one is named:
that slot is in the middle of an operation. That waiting circuits are short is part of it if `q` is asked for. -/
structure Backed (q : Prop) (x : Option SlotNo) (s : State) : Prop where
  total : s.reservedSum = s.reservedTotal
  room : s.reservedTotal ≤ s.freeQueue.length
  once : s.waitQueue.Nodup
  waiting : ∀ i ∈ s.waitQueue, ∃ c, s.circuit i = some c ∧ (x = some i ∨ MayWait q c)
  quiet : ∀ i c, x ≠ some i → s.circuit i = some c →
    c.state = .offered ∨ c.state.name = .closing ∨ c.state.name = .ended → c.reserved = 0
  free : s.freeSlots.Nodup ∧ ∀ i ∈ s.freeSlots, s.circuit i = none
  counted : ∀ i c, s.circuit i = some c → c.delivered ≤ Config.countMax

theorem backed_iff {s : State} : s.backed ↔ Backed False none s := by
  constructor
  · intro h
    exact ⟨h.total, h.room, h.waiting.1, fun i hi => by
      obtain ⟨c, hc, hd⟩ := h.waiting.2 i hi; exact ⟨c, hc, .inr ⟨hd, False.elim⟩⟩, fun i c _ => h.quiet i c, h.free, h.counted⟩
  · intro h
    exact ⟨h.total, h.room, ⟨h.once, fun i hi => by
      obtain ⟨c, hc, hd⟩ := h.waiting i hi; exact ⟨c, hc, (hd.resolve_left (by simp)).1⟩⟩,
      fun i c => h.quiet i c (by simp), h.free, h.counted⟩

/-- The account with short waiting circuits is the account, and that its waiting circuits are short. -/
theorem backed_true_iff {s : State} :
    Backed True none s ↔ s.backed ∧ ∀ i ∈ s.waitQueue, ∀ c, s.circuit i = some c → c.reserved < c.target := by
  constructor
  · intro h
    refine ⟨⟨h.total, h.room, ⟨h.once, fun i hi => ?_⟩, fun i c => h.quiet i c (by simp), h.free, h.counted⟩, fun i hi c hc => ?_⟩
    · obtain ⟨c, hc, hd⟩ := h.waiting i hi; exact ⟨c, hc, (hd.resolve_left (by simp)).1⟩
    · obtain ⟨d, hd, hw⟩ := h.waiting i hi
      rw [hc] at hd; cases hd
      exact (hw.resolve_left (by simp)).2 trivial
  · rintro ⟨h, hs⟩
    exact ⟨h.total, h.room, h.waiting.1, fun i hi => by
      obtain ⟨c, hc, hd⟩ := h.waiting.2 i hi; exact ⟨c, hc, .inr ⟨hd, fun _ => hs i hi c hc⟩⟩,
      fun i c _ => h.quiet i c, h.free, h.counted⟩

variable {q : Prop} {x : Option SlotNo} {s t : State} {i : SlotNo} {c d : Circuit}

/-! ## The sum -/

theorem reservedSum_congr (h : ∀ j, t.circuit j = s.circuit j) : t.reservedSum = s.reservedSum := by
  unfold reservedSum; exact Finset.sum_congr rfl fun j _ => by rw [h j]

/-- The sum after one circuit has changed. -/
theorem reservedSum_update (h : ∀ j, j ≠ i → t.circuit j = s.circuit j) :
    t.reservedSum + ((s.circuit i).map (·.reserved)).getD 0 = s.reservedSum + ((t.circuit i).map (·.reserved)).getD 0 := by
  unfold reservedSum
  rw [← Finset.add_sum_erase _ _ (Finset.mem_univ i), ← Finset.add_sum_erase _ _ (Finset.mem_univ i)]
  have e : ∑ j ∈ Finset.univ.erase i, ((t.circuit j).map (·.reserved)).getD 0
      = ∑ j ∈ Finset.univ.erase i, ((s.circuit j).map (·.reserved)).getD 0 :=
    Finset.sum_congr rfl fun j hj => by rw [h j (Finset.ne_of_mem_erase hj)]
  rw [e]
  omega

theorem le_reservedSum (h : s.circuit i = some c) : c.reserved ≤ s.reservedSum := by
  unfold reservedSum
  rw [← Finset.add_sum_erase _ _ (Finset.mem_univ i), h]
  exact Nat.le_add_right _ _

/-! ## What keeps the account -/

/-- An operation that keeps the five parts the account is about keeps it. -/
theorem Backed.of_keeps {xs : List Part} (h : Backed q x s) (k : Keeps xs s t) (h1 : .slots ∉ xs) (h2 : .freeSlots ∉ xs)
    (h3 : .freeQueue ∉ xs) (h4 : .reservedTotal ∉ xs) (h5 : .waitQueue ∉ xs) : Backed q x t := by
  have e : ∀ j, t.circuit j = s.circuit j := circuit_of_keeps k h1
  refine ⟨?_, ?_, ?_, fun i hi => ?_, fun i c hx hc => ?_, ⟨?_, fun i hi => ?_⟩, fun i c hc => ?_⟩
  · rw [reservedSum_congr e, k.at_reservedTotal h4, h.total]
  · rw [k.at_reservedTotal h4, k.at_freeQueue h3]; exact h.room
  · rw [k.at_waitQueue h5]; exact h.once
  · rw [k.at_waitQueue h5] at hi; rw [e]; exact h.waiting i hi
  · rw [e] at hc; exact h.quiet i c hx hc
  · rw [k.at_freeSlots h2]; exact h.free.1
  · rw [k.at_freeSlots h2] at hi; rw [e]; exact h.free.2 i hi
  · rw [e] at hc; exact h.counted i c hc

/-- Everything holds of the open slot after all: it is off the wait queue, and quiet circuits hold nothing. -/
theorem Backed.close (h : Backed q (some i) s) (hw : i ∉ s.waitQueue) (hc : ∀ c, s.circuit i = some c →
    c.state = .offered ∨ c.state.name = .closing ∨ c.state.name = .ended → c.reserved = 0) : Backed q x s where
  total := h.total
  room := h.room
  once := h.once
  waiting j hj := by
    obtain ⟨c, hc, hd⟩ := h.waiting j hj
    refine ⟨c, hc, hd.imp (fun e => ?_) id⟩
    cases e; exact absurd hj hw
  quiet j c _ hj hst := by
    by_cases e : j = i
    · subst e; exact hc c hj hst
    · exact h.quiet j c (fun e' => e (by cases e'; rfl)) hj hst
  free := h.free
  counted := h.counted

/-- Opening a slot. -/
theorem Backed.open (h : Backed q none s) (i : SlotNo) : Backed q (some i) s where
  total := h.total
  room := h.room
  once := h.once
  waiting j hj := by
    obtain ⟨c, hc, hd⟩ := h.waiting j hj
    exact ⟨c, hc, .inr (hd.resolve_left (by simp))⟩
  quiet j c _ hj := h.quiet j c (by simp) hj
  free := h.free
  counted := h.counted

/-- A record written with the reservations it had, when what holds of it goes on to hold. -/
theorem Backed.setCircuit (h : Backed q x s) (hc : s.circuit i = some c) (hr : d.reserved = c.reserved)
    (hd : x = some i ∨ (MayWait q c → MayWait q d))
    (hq : x = some i ∨ (d.state = .offered ∨ d.state.name = .closing ∨ d.state.name = .ended → d.reserved = 0))
    (hn : d.delivered ≤ Config.countMax) : Backed q x (s.setCircuit i (some d)) := by
  have e := reservedSum_update (s := s) (t := s.setCircuit i (some d)) (i := i) fun j hj => circuit_setCircuit_ne s hj _
  rw [hc, circuit_setCircuit_same] at e
  simp only [Option.map_some, Option.getD_some, hr, Nat.add_right_cancel_iff] at e
  refine ⟨e.trans h.total, h.room, h.once, fun j hj => ?_, fun j y hx hy hst => ?_, ⟨h.free.1, fun j hj => ?_⟩,
    fun j y hy => ?_⟩
  · obtain ⟨y, hy, hy'⟩ := h.waiting j hj
    rw [circuit_setCircuit]
    split_ifs with hji
    · subst hji
      rw [hc] at hy; cases hy
      exact ⟨d, rfl, hd.elim .inl fun f => hy'.imp id f⟩
    · exact ⟨y, hy, hy'⟩
  · rw [circuit_setCircuit] at hy
    split_ifs at hy with hji
    · subst hji; cases hy
      exact hq.elim (fun e => absurd e hx) fun f => f hst
    · exact h.quiet j y hx hy hst
  · rw [circuit_setCircuit]
    split_ifs with hji
    · subst hji; have := h.free.2 j hj; rw [hc] at this; cases this
    · exact h.free.2 j hj
  · rw [circuit_setCircuit] at hy
    split_ifs at hy with hji
    · cases hy; exact hn
    · exact h.counted j y hy

/-- A change of a record that leaves its state, its reservations, its target and its delivered count alone. -/
theorem Backed.modCircuit (h : Backed q x s) (f : Circuit → Circuit) (hs : ∀ c, (f c).state = c.state)
    (hr : ∀ c, (f c).reserved = c.reserved) (ht : ∀ c, (f c).target = c.target)
    (hn : ∀ c, c.delivered ≤ Config.countMax → (f c).delivered ≤ Config.countMax) :
    Backed q x (s.modCircuit i f) := by
  cases hc : s.circuit i with
  | none =>
    have e : ∀ j, (s.modCircuit i f).circuit j = s.circuit j := fun j => by
      rw [State.circuit_modCircuit]
      split_ifs with hj
      · subst hj; rw [hc]; rfl
      · rfl
    refine ⟨(reservedSum_congr e).trans h.total, h.room, h.once, fun j hj => by rw [e]; exact h.waiting j hj,
      fun j y hx hy => h.quiet j y hx (by rw [← e]; exact hy), ⟨h.free.1, fun j hj => by rw [e]; exact h.free.2 j hj⟩,
      fun j y hy => h.counted j y (by rw [← e]; exact hy)⟩
  | some c =>
    unfold State.modCircuit
    rw [hc]
    refine h.setCircuit hc (hr c) (.inr fun e => ⟨by rw [hs]; exact e.1, fun y => by rw [hr, ht]; exact e.2 y⟩) ?_
      (hn c (h.counted i c hc))
    by_cases hx : x = some i
    · exact .inl hx
    · refine .inr fun hst => ?_
      rw [hs] at hst
      rw [hr]; exact h.quiet i c hx hc hst

theorem Backed.owe (h : Backed q x s) (k : OwedKind) : Backed q x (s.owe i k) := by
  cases hc : s.circuit i with
  | none => rw [owe_none hc]; exact h
  | some c =>
    have e : (s.setCircuit i (some { c with owed := c.owed.put k true }))
        = s.modCircuit i fun c => { c with owed := c.owed.put k true } := by
      unfold State.modCircuit; rw [hc]; rfl
    have h1 : Backed q x (s.modCircuit i fun c => { c with owed := c.owed.put k true }) :=
      h.modCircuit _ (fun _ => rfl) (fun _ => rfl) (fun _ => rfl) fun _ e => e
    rw [owe_eq hc, e]
    exact h1.of_keeps (keeps_modTx _ _ _) (by decide) (by decide) (by decide) (by decide) (by decide)

theorem Backed.dropOwed (h : Backed q x s) (k : OwedKind) : Backed q x (s.dropOwed i k) := by
  unfold State.dropOwed
  split
  · exact h
  · rename_i c hc
    have e : (s.setCircuit i (some { c with owed := c.owed.put k false }))
        = s.modCircuit i fun c => { c with owed := c.owed.put k false } := by
      unfold State.modCircuit; rw [hc]; rfl
    have h1 : Backed q x (s.setCircuit i (some { c with owed := c.owed.put k false })) := by
      rw [e]; exact h.modCircuit _ (fun _ => rfl) (fun _ => rfl) (fun _ => rfl) fun _ e => e
    dsimp only
    split
    · exact h1.of_keeps (keeps_modTx _ _ _) (by decide) (by decide) (by decide) (by decide) (by decide)
    · exact h1

theorem Backed.startTimer (h : Backed q x s) (p : Purpose) : Backed q x (s.startTimer i p) :=
  h.modCircuit _ (fun _ => rfl) (fun _ => rfl) (fun _ => rfl) fun _ e => e

theorem Backed.stopTimer (h : Backed q x s) : Backed q x (s.stopTimer i) :=
  h.modCircuit _ (fun _ => rfl) (fun _ => rfl) (fun _ => rfl) fun _ e => e

theorem Backed.clearConditions (h : Backed q x s) : Backed q x (s.clearConditions i) :=
  h.modCircuit _ (fun _ => rfl) (fun _ => rfl) (fun _ => rfl) fun _ _ => Nat.zero_le _

theorem Backed.modPort (h : Backed q x s) (p : PortNo) (f : Port → Port) : Backed q x (s.modPort p f) :=
  h.of_keeps (keeps_modPort _ p f) (by decide) (by decide) (by decide) (by decide) (by decide)

theorem Backed.modLine (h : Backed q x s) (l : LineNo) (f : Line → Line) : Backed q x (s.modLine l f) :=
  h.of_keeps (keeps_modLine _ l f) (by decide) (by decide) (by decide) (by decide) (by decide)

theorem Backed.modTx (h : Backed q x s) (l : LineNo) (f : Transmitter → Transmitter) : Backed q x (s.modTx l f) :=
  h.of_keeps (keeps_modTx _ l f) (by decide) (by decide) (by decide) (by decide) (by decide)

theorem Backed.judgeAtn (h : Backed q x s) : Backed q x s.judgeAtn :=
  h.of_keeps (keeps_judgeAtn _) (by decide) (by decide) (by decide) (by decide) (by decide)

theorem Backed.offerReply (h : Backed q x s) (l : LineNo) (r : Reply) : Backed q x (s.offerReply l r) := h.modTx l _

theorem Backed.setPlace (h : Backed q x s) (b : BufNo) (y : Place) : Backed q x (s.setPlace b y) :=
  h.of_keeps (keeps_setPlace _ b y) (by decide) (by decide) (by decide) (by decide) (by decide)

theorem Backed.raise (h : Backed q x s) (y : Conditions) : Backed q x (s.raise i y) := by
  unfold State.raise
  split
  · exact h
  · rename_i c hc
    split
    · exact h
    · have e : (s.setCircuit i (some { c with conditions := c.conditions.union y }))
          = s.modCircuit i fun c => { c with conditions := c.conditions.union y } := by
        unfold State.modCircuit; rw [hc]; rfl
      have h1 : Backed q x (s.setCircuit i (some { c with conditions := c.conditions.union y })) := by
        rw [e]; exact h.modCircuit _ (fun _ => rfl) (fun _ => rfl) (fun _ => rfl) fun _ e => e
      dsimp only
      split
      · exact h1.modPort _ _
      · exact h1

theorem Backed.leaveOwner (h : Backed q x s) : Backed q x (s.leaveOwner i) := by
  unfold State.leaveOwner
  split
  · exact h
  · split
    · exact h
    · exact Backed.clearConditions (h.modPort _ _)

theorem Backed.settleReady (h : Backed q x s) : Backed q x (s.settleReady i) :=
  h.of_keeps (keeps_settleReady _ i) (by decide) (by decide) (by decide) (by decide) (by decide)

theorem Backed.settleStall (h : Backed q x s) : Backed q x (s.settleStall i) := by
  unfold State.settleStall
  split
  · exact h
  · split
    · exact h.startTimer _
    · exact h

/-! ## The wait queue and grants -/

theorem Backed.setWaitQueue (h : Backed q x s) {w : List SlotNo} (hn : w.Nodup)
    (hq : ∀ j ∈ w, ∃ c, s.circuit j = some c ∧ (x = some j ∨ MayWait q c)) : Backed q x (s.setWaitQueue w) :=
  ⟨h.total, h.room, hn, hq, h.quiet, h.free, h.counted⟩

theorem Backed.leaveWait (h : Backed q x s) : Backed q x (s.leaveWait i) :=
  h.setWaitQueue (h.once.filter _) fun j hj => h.waiting j (mem_leave.1 hj).1

theorem available_pos (h : 0 < s.available) : s.reservedTotal + 1 ≤ s.freeQueue.length := by
  unfold available at h; omega

/-- A circuit in OPEN or DRAINING is none of the quiet ones. -/
theorem not_quiet (h : c.state.inData = true) : ¬ (c.state = .offered ∨ c.state.name = .closing ∨ c.state.name = .ended) := by
  cases hs : c.state <;> simp [hs, CircuitState.inData, CircuitState.name] at h ⊢

theorem Backed.grantOne {rest : List SlotNo} (h : Backed q x s) (hq : s.waitQueue = i :: rest) (ha : 0 < s.available) :
    Backed q x (s.grantOne i rest) := by
  have hw := h.once
  rw [hq] at hw
  obtain ⟨hni, hnr⟩ := List.nodup_cons.1 hw
  obtain ⟨c, hc, hcd⟩ := h.waiting i (by rw [hq]; exact List.mem_cons_self)
  obtain ⟨u, hu⟩ : ∃ u, u = ((s.setReservedTotal (s.reservedTotal + 1)).setWaitQueue rest).modCircuit i
    fun c => { c with reserved := c.reserved + 1, receiveEdge := c.receiveEdge + 1 } := ⟨_, rfl⟩
  have huc : u.circuit i = some { c with reserved := c.reserved + 1, receiveEdge := c.receiveEdge + 1 } := by
    rw [hu, circuit_modCircuit_same]; simp [hc]
  have hun : ∀ j, j ≠ i → u.circuit j = s.circuit j := fun j hj => by rw [hu, circuit_modCircuit_ne _ hj]; rfl
  have e := reservedSum_update hun
  rw [hc, huc] at e
  simp only [Option.map_some, Option.getD_some] at e
  have hub : Backed q x u := by
    refine ⟨?_, ?_, ?_, fun j hj => ?_, fun j y hx hy hst => ?_, ⟨?_, fun j hj => ?_⟩, fun j y hy => ?_⟩
    · have ht : u.reservedTotal = s.reservedTotal + 1 := by rw [hu]; rfl
      have := h.total
      omega
    · rw [hu, modCircuit_reservedTotal, setWaitQueue_reservedTotal, setReservedTotal_reservedTotal]
      exact available_pos ha
    · rw [hu]; exact hnr
    · have hj' : j ∈ rest := by rw [hu] at hj; exact hj
      rw [hun j fun e => hni (e ▸ hj')]
      exact h.waiting j (by rw [hq]; exact List.mem_cons_of_mem _ hj')
    · by_cases hj : j = i
      · subst hj
        rw [huc] at hy; cases hy
        have hd := hcd.resolve_left hx
        exact absurd hst (not_quiet hd.1)
      · rw [hun j hj] at hy; exact h.quiet j y hx hy hst
    · rw [hu]; exact h.free.1
    · have hj' : j ∈ s.freeSlots := by rw [hu] at hj; exact hj
      by_cases hji : j = i
      · subst hji; have := h.free.2 j hj'; rw [hc] at this; cases this
      · rw [hun j hji]; exact h.free.2 j hj'
    · by_cases hj : j = i
      · subst hj
        rw [huc] at hy; cases hy
        exact h.counted j c hc
      · rw [hun j hj] at hy; exact h.counted j y hy
  have hv := hub.owe (i := i) .credit
  have hvw : (u.owe i .credit).waitQueue = rest := by
    rw [(keeps_owe u i .credit).at_waitQueue (by decide), hu]; rfl
  unfold State.grantOne
  dsimp only
  rw [← hu]
  split
  · rename_i hs
    rw [circuit_owe, if_pos rfl, huc] at hs
    simp only [Option.map_some, Option.any_some, Circuit.short, decide_eq_true_eq] at hs
    refine hv.setWaitQueue ?_ fun j hj => ?_
    · rw [hvw]; exact List.nodup_append.2 ⟨hnr, by simp, by
        intro a ha' b hb e; rw [List.mem_singleton.1 hb] at e; exact hni (e ▸ ha')⟩
    · rcases List.mem_append.1 hj with hj | hj
      · exact hv.waiting j hj
      · rw [List.mem_singleton.1 hj, circuit_owe, if_pos rfl, huc]
        exact ⟨_, rfl, hcd.imp id fun y => ⟨y.1, fun _ => hs⟩⟩
  · exact hv

theorem available_grantOne {rest : List SlotNo} : (s.grantOne i rest).available = s.available - 1 := by
  have h1 : (s.grantOne i rest).freeQueue = s.freeQueue := (s.keeps_grantOne i rest).at_freeQueue (by decide)
  have h2 : (s.grantOne i rest).reservedTotal = s.reservedTotal + 1 := by
    unfold State.grantOne
    dsimp only
    split
    · rw [setWaitQueue_reservedTotal, (keeps_owe _ i .credit).at_reservedTotal (by decide)]; rfl
    · rw [(keeps_owe _ i .credit).at_reservedTotal (by decide)]; rfl
  unfold available
  rw [h1, h2]
  omega

theorem Backed.serveTimes (n : Nat) : ∀ s : State, n ≤ s.available → Backed q x s → Backed q x (State.serveTimes n s) := by
  induction n with
  | zero => exact fun _ _ h => h
  | succ n ih =>
    intro s hn h
    rw [State.serveTimes]
    split
    · exact h
    · rename_i i rest hq
      exact ih _ (by rw [available_grantOne]; omega) (h.grantOne hq (by omega))

theorem Backed.serveWait (h : Backed q x s) : Backed q x s.serveWait := Backed.serveTimes _ s (le_refl _) h

theorem Backed.joinWait (h : Backed q x s) (hc : s.circuit i = some c) (hd : MayWait q c) :
    Backed q x (s.joinWait i) := by
  unfold State.joinWait
  split_ifs with hm
  · exact h
  · refine Backed.serveWait (h.setWaitQueue ?_ fun j hj => ?_)
    · exact List.nodup_append.2 ⟨h.once, by simp, by
        intro a ha b hb e; rw [List.mem_singleton.1 hb] at e; exact hm (e ▸ ha)⟩
    · rcases List.mem_append.1 hj with hj | hj
      · exact h.waiting j hj
      · rw [List.mem_singleton.1 hj]; exact ⟨c, hc, .inr hd⟩

theorem Backed.joinWaitIfShort (h : Backed q x s) (hc : s.circuit i = some c) (hd : c.state.inData = true) :
    Backed q x (s.joinWaitIfShort i) := by
  unfold State.joinWaitIfShort
  split
  · rename_i hs
    rw [hc] at hs
    simp only [Option.any_some, Circuit.short, decide_eq_true_eq] at hs
    exact h.joinWait hc ⟨hd, fun _ => hs⟩
  · exact h

/-- A waiting or other circuit in OPEN or DRAINING whose target is set: short of it, it joins the wait queue, and else it leaves (R74). -/
theorem Backed.retarget (h : Backed q none s) (hc : s.circuit i = some c) (hd : c.state.inData = true) (n : Nat) :
    (c.reserved < n → Backed q none ((s.modCircuit i fun x => { x with target := n }).joinWait i))
      ∧ Backed q none ((s.modCircuit i fun x => { x with target := n }).leaveWait i) := by
  have e : (s.modCircuit i fun x => { x with target := n }) = s.setCircuit i (some { c with target := n }) := by
    unfold State.modCircuit; rw [hc]; rfl
  rw [e]
  refine ⟨fun hn => ?_, ?_⟩
  · have h1 : Backed q none (s.setCircuit i (some { c with target := n })) :=
      h.setCircuit hc rfl (.inr fun y => ⟨y.1, fun _ => hn⟩) (.inr (h.quiet i c (by simp) hc)) (h.counted i c hc)
    exact h1.joinWait (circuit_setCircuit_same _ _ _) ⟨hd, fun _ => hn⟩
  · have h1 : Backed q (some i) (s.setCircuit i (some { c with target := n })) :=
      (h.open i).setCircuit hc rfl (.inl rfl) (.inl rfl) (h.counted i c hc)
    refine (h1.leaveWait (i := i)).close (fun hi => (mem_leave.1 hi).2 rfl) fun y hy hst => ?_
    have : y = { c with target := n } := by
      have e2 : ((s.setCircuit i (some { c with target := n })).leaveWait i).circuit i = some { c with target := n } :=
        circuit_setCircuit_same _ _ _
      rw [e2] at hy; exact (Option.some.inj hy).symm
    subst this
    exact h.quiet i c (by simp) hc hst

/-! ## Reservations -/

/-- A direct reservation by a circuit that holds none, may hold some and does not wait. -/
theorem Backed.reserve (h : Backed q x s) (hc : s.circuit i = some c) (h0 : c.reserved = 0)
    (hq : ¬ (c.state = .offered ∨ c.state.name = .closing ∨ c.state.name = .ended)) (hw : i ∉ s.waitQueue) (n : Nat) :
    Backed q x (s.reserve i n) := by
  have hui : (s.reserve i n).circuit i
      = some { c with reserved := min n s.available, receiveEdge := BitVec.ofNat 5 (min n s.available) } := by
    rw [circuit_reserve, if_pos rfl, hc]; rfl
  have hun : ∀ j, j ≠ i → (s.reserve i n).circuit j = s.circuit j := fun j hj => by rw [circuit_reserve, if_neg hj]
  have e := reservedSum_update hun
  rw [hc, hui] at e
  simp only [Option.map_some, Option.getD_some, h0, Nat.add_zero] at e
  have ht : (s.reserve i n).reservedTotal = s.reservedTotal + min n s.available := rfl
  have hroom := h.room
  refine ⟨by rw [e, ht, h.total], ?_, h.once, fun j hj => ?_, fun j y hx hy hst => ?_, ⟨h.free.1, fun j hj => ?_⟩,
    fun j y hy => ?_⟩
  · rw [ht]
    show _ ≤ s.freeQueue.length
    unfold available
    omega
  · rw [hun j fun e => hw (e ▸ hj)]; exact h.waiting j hj
  · by_cases hji : j = i
    · subst hji; rw [hui] at hy; cases hy; exact absurd hst hq
    · rw [hun j hji] at hy; exact h.quiet j y hx hy hst
  · by_cases hji : j = i
    · subst hji; have := h.free.2 j hj; rw [hc] at this; cases this
    · rw [hun j hji]; exact h.free.2 j hj
  · by_cases hji : j = i
    · subst hji; rw [hui] at hy; cases hy; exact h.counted j c hc
    · rw [hun j hji] at hy; exact h.counted j y hy

theorem Backed.releaseReservations (h : Backed q x s) : Backed q x (s.releaseReservations i) := by
  cases hc : s.circuit i with
  | none => simp only [State.releaseReservations, hc]; exact h
  | some c =>
    rw [releaseReservations_eq hc]
    refine Backed.serveWait ?_
    obtain ⟨u, hu⟩ : ∃ u, u = (s.setReservedTotal (s.reservedTotal - c.reserved)).setCircuit i
      (some { c with reserved := 0 }) := ⟨_, rfl⟩
    have hui : u.circuit i = some { c with reserved := 0 } := by rw [hu, circuit_setCircuit_same]
    have hun : ∀ j, j ≠ i → u.circuit j = s.circuit j := fun j hj => by rw [hu, circuit_setCircuit_ne _ hj]; rfl
    have e := reservedSum_update hun
    rw [hc, hui] at e
    simp only [Option.map_some, Option.getD_some, Nat.add_zero] at e
    have ht : u.reservedTotal = s.reservedTotal - c.reserved := by rw [hu]; rfl
    have hroom := h.room
    have htot := h.total
    rw [← hu]
    refine ⟨by rw [ht]; omega, ?_, by rw [hu]; exact h.once, fun j hj => ?_, fun j y hx hy hst => ?_,
      ⟨by rw [hu]; exact h.free.1, fun j hj => ?_⟩, fun j y hy => ?_⟩
    · rw [ht, hu]
      show _ ≤ s.freeQueue.length
      omega
    · have hj' : j ∈ s.waitQueue := by rw [hu] at hj; exact hj
      by_cases hji : j = i
      · subst hji
        obtain ⟨y, hy, hy'⟩ := h.waiting j hj'
        rw [hc] at hy; cases hy
        exact ⟨_, hui, hy'.imp id fun z => ⟨z.1, fun y => Nat.lt_of_le_of_lt (Nat.zero_le _) (z.2 y)⟩⟩
      · rw [hun j hji]; exact h.waiting j hj'
    · by_cases hji : j = i
      · subst hji; rw [hui] at hy; cases hy; rfl
      · rw [hun j hji] at hy; exact h.quiet j y hx hy hst
    · have hj' : j ∈ s.freeSlots := by rw [hu] at hj; exact hj
      by_cases hji : j = i
      · subst hji; have := h.free.2 j hj'; rw [hc] at this; cases this
      · rw [hun j hji]; exact h.free.2 j hj'
    · by_cases hji : j = i
      · subst hji; rw [hui] at hy; cases hy; exact h.counted j c hc
      · rw [hun j hji] at hy; exact h.counted j y hy

/-! ## Buffers -/

theorem Backed.grow (h : Backed q x s) (bs : List BufNo) : Backed q x (s.setFreeQueue (s.freeQueue ++ bs)) := by
  refine ⟨h.total, ?_, h.once, h.waiting, h.quiet, h.free, h.counted⟩
  have := h.room
  rw [setFreeQueue_reservedTotal, setFreeQueue_freeQueue, List.length_append]
  omega

theorem Backed.returnBuffer (h : Backed q x s) (b : BufNo) : Backed q x (s.returnBuffer b) := (h.grow [b]).setPlace b _

theorem Backed.returnBuffers (bs : List BufNo) : ∀ s : State, Backed q x s → Backed q x (s.returnBuffers bs) := by
  induction bs with
  | nil => exact fun _ h => h
  | cons b bs ih => exact fun s h => ih _ (h.returnBuffer b)

theorem Backed.returnCircuitBuffers (h : Backed q x s) : Backed q x (s.returnCircuitBuffers i) := by
  unfold State.returnCircuitBuffers
  split
  · exact h
  · rename_i c hc
    have e : (s.setCircuit i (some { c with transmit := [], unacked := [], receive := [] }))
        = s.modCircuit i fun c => { c with transmit := [], unacked := [], receive := [] } := by
      unfold State.modCircuit; rw [hc]; rfl
    have h1 : Backed q x (s.modCircuit i fun c => { c with transmit := [], unacked := [], receive := [] }) :=
      h.modCircuit _ (fun _ => rfl) (fun _ => rfl) (fun _ => rfl) fun _ e => e
    rw [e]
    exact (Backed.returnBuffers _ _ h1).serveWait

/-! ## Slots -/

/-- A slot whose circuit holds nothing and waits for nothing becomes FREE. -/
theorem Backed.freeSlot (h : Backed q x s) (hc : s.circuit i = some c) (h0 : c.reserved = 0) (hw : i ∉ s.waitQueue) :
    Backed q x (s.freeSlot i) := by
  have hui : (s.freeSlot i).circuit i = none := circuit_freeSlot
  have hun : ∀ j, j ≠ i → (s.freeSlot i).circuit j = s.circuit j := fun j hj => circuit_setCircuit_ne s hj none
  have e := reservedSum_update hun
  rw [hc, hui] at e
  simp only [Option.map_some, Option.getD_some, Option.map_none, Option.getD_none, h0, Nat.add_zero] at e
  have hif : i ∉ s.freeSlots := fun hi => by have := h.free.2 i hi; rw [hc] at this; cases this
  refine ⟨e.trans h.total, h.room, h.once, fun j hj => ?_, fun j y hx hy hst => ?_, ⟨?_, fun j hj => ?_⟩, fun j y hy => ?_⟩
  · rw [hun j fun e => hw (e ▸ hj)]; exact h.waiting j hj
  · by_cases hji : j = i
    · subst hji; rw [hui] at hy; cases hy
    · rw [hun j hji] at hy; exact h.quiet j y hx hy hst
  · rw [freeSlots_freeSlot]
    exact List.nodup_append.2 ⟨h.free.1, by simp, by
      intro a ha b hb e; rw [List.mem_singleton.1 hb] at e; exact hif (e ▸ ha)⟩
  · by_cases hji : j = i
    · subst hji; exact hui
    · rw [hun j hji]
      rw [freeSlots_freeSlot] at hj
      rcases List.mem_append.1 hj with hj | hj
      · exact h.free.2 j hj
      · exact absurd (List.mem_singleton.1 hj) hji
  · by_cases hji : j = i
    · subst hji; rw [hui] at hy; cases hy
    · rw [hun j hji] at hy; exact h.counted j y hy

/-- A slot allocated to a record that holds nothing yet. -/
theorem Backed.allocate (h : Backed q x s) (ha : s.allocate c = some (i, t)) (h0 : c.reserved = 0)
    (hn : c.delivered ≤ Config.countMax) : Backed q x t ∧ t.circuit i = some c ∧ i ∉ t.waitQueue := by
  unfold State.allocate at ha
  split at ha
  · cases ha
  · rename_i j rest hf
    simp only [Option.some.injEq, Prod.mk.injEq] at ha
    obtain ⟨rfl, rfl⟩ := ha
    have hfree := h.free
    rw [hf] at hfree
    obtain ⟨hnd, hrest⟩ := List.nodup_cons.1 hfree.1
    have hjn : s.circuit j = none := hfree.2 j List.mem_cons_self
    obtain ⟨u, hu⟩ : ∃ u, u = ((s.setFreeSlots rest).setSlot j ⟨(s.slot j).generation + 1, some c⟩).mapNumber c.line
      c.number j := ⟨_, rfl⟩
    have hui : u.circuit j = some c := by
      rw [hu, circuit_mapNumber]; unfold circuit; rw [slot_setSlot_same]
    have hun : ∀ k, k ≠ j → u.circuit k = s.circuit k := fun k hk => by
      rw [hu, circuit_mapNumber]; unfold circuit; rw [slot_setSlot_ne _ hk]; rfl
    have e := reservedSum_update hun
    rw [hjn, hui] at e
    simp only [Option.map_some, Option.getD_some, Option.map_none, Option.getD_none, h0, Nat.add_zero] at e
    rw [← hu]
    refine ⟨⟨?_, ?_, by rw [hu]; exact h.once, fun k hk => ?_, fun k y hx hy hst => ?_, ⟨by rw [hu]; exact hrest,
      fun k hk => ?_⟩, fun k y hy => ?_⟩, hui, fun hj => ?_⟩
    · rw [e, h.total, hu]; rfl
    · rw [hu]; exact h.room
    · have hk' : k ∈ s.waitQueue := by rw [hu] at hk; exact hk
      obtain ⟨y, hy, hy'⟩ := h.waiting k hk'
      rw [hun k fun e => by rw [e, hjn] at hy; cases hy]
      exact ⟨y, hy, hy'⟩
    · by_cases hkj : k = j
      · subst hkj; rw [hui] at hy; cases hy; exact h0
      · rw [hun k hkj] at hy; exact h.quiet k y hx hy hst
    · have hk' : k ∈ rest := by rw [hu] at hk; exact hk
      rw [hun k fun e => hnd (e ▸ hk')]
      exact hfree.2 k (List.mem_cons_of_mem _ hk')
    · by_cases hkj : k = j
      · subst hkj; rw [hui] at hy; cases hy; exact hn
      · rw [hun k hkj] at hy; exact h.counted k y hy
    · obtain ⟨y, hy, -⟩ := h.waiting j (by rw [hu] at hj; exact hj)
      rw [hjn] at hy; cases hy

/-! ## Ends -/

theorem Backed.enterClosing (h : Backed q none s) (cause : Byte) : Backed q none (s.enterClosing i cause) := by
  cases hc : s.circuit i with
  | none => simp only [State.enterClosing, hc]; exact h
  | some c =>
    have hb : Backed q (some i) (s.enterClosing i cause) := by
      have b1 : Backed q (some i) (s.setCircuit i (some { c with state := .closing cause })) :=
        (h.open i).setCircuit hc rfl (.inl rfl) (.inl rfl) (h.counted i c hc)
      have b4 := (((b1.modTx c.line fun t => { t with ring := leave t.ring i }).leaveWait
        (i := i)).releaseReservations (i := i)).modCircuit (i := i) (fun x => { x with timer := none, retry := 0, owed := {} })
        (fun _ => rfl) (fun _ => rfl) (fun _ => rfl) fun _ e => e
      have b5 := b4.owe (i := i) .close
      simp only [State.enterClosing, hc]
      exact b5
    refine hb.close (not_mem_waitQueue_enterClosing hc cause) fun d hd => ?_
    rw [circuit_enterClosing, hc] at hd
    cases hd; exact fun _ => rfl

theorem Backed.endSteps (h : Backed q x s) : Backed q x (s.endSteps i) := by
  unfold State.endSteps
  split
  · exact h
  · dsimp only
    refine Backed.modCircuit ?_ _ (fun _ => rfl) (fun _ => rfl) (fun _ => rfl) fun _ e => e
    refine Backed.releaseReservations (Backed.modTx (Backed.leaveWait ?_) _ _)
    exact h.of_keeps ((s.keeps_unmapNumber _ _).both (zs := [.index, .services]) (keeps_lowerLive _ _) (by decide)
      (by decide)) (by decide) (by decide) (by decide) (by decide) (by decide)

theorem Backed.endRecord (h : Backed q none s) (cause : Byte) (side : Side) (m : Option Confirmation) :
    Backed q none (s.endRecord i cause side m) := by
  cases hc : s.circuit i with
  | none =>
    have e : s.modCircuit i (fun c => { c with state := .ended cause side m }) = s.setCircuit i none := by
      unfold State.modCircuit; rw [hc]; rfl
    have hn : (s.setCircuit i none).circuit i = none := circuit_setCircuit_same _ _ _
    have e2 : ∀ j, (s.setCircuit i none).circuit j = s.circuit j := fun j => by
      rw [circuit_setCircuit]; split_ifs with hj
      · subst hj; exact hc.symm
      · rfl
    unfold State.endRecord
    rw [e]
    simp only [State.endSteps, hn]
    exact ⟨(reservedSum_congr e2).trans h.total, h.room, h.once, fun j hj => by rw [e2]; exact h.waiting j hj,
      fun j y hx hy => h.quiet j y hx (by rw [← e2]; exact hy), ⟨h.free.1, fun j hj => by rw [e2]; exact h.free.2 j hj⟩,
      fun j y hy => h.counted j y (by rw [← e2]; exact hy)⟩
  | some c =>
    have hb : Backed q (some i) (s.endRecord i cause side m) := by
      have e : s.modCircuit i (fun c => { c with state := .ended cause side m })
          = s.setCircuit i (some { c with state := .ended cause side m }) := by unfold State.modCircuit; rw [hc]; rfl
      have b1 : Backed q (some i) (s.setCircuit i (some { c with state := .ended cause side m })) :=
        (h.open i).setCircuit hc rfl (.inl rfl) (.inl rfl) (h.counted i c hc)
      unfold State.endRecord
      rw [e]
      exact b1.endSteps (i := i)
    refine hb.close (not_mem_waitQueue_endRecord hc cause side m) fun d hd => ?_
    unfold State.endRecord at hd
    rw [circuit_endSteps, circuit_modCircuit_same, hc] at hd
    simp only [Option.map_some, Option.some.injEq] at hd
    subst hd
    exact fun _ => rfl

theorem Backed.enterEnded (h : Backed q none s) (cause : Byte) (side : Side) (m : Option Confirmation) :
    Backed q none (s.enterEnded i cause side m) := (h.endRecord cause side m).raise _

theorem Backed.directFree (h : Backed q none s) (hc : s.circuit i = some c) : Backed q none (s.directFree i) := by
  have h1 : (s.endSteps i).circuit i = some { c with reserved := 0, timer := none, owed := {} } := by
    rw [circuit_endSteps, hc]; rfl
  have hw1 := not_mem_waitQueue_endSteps hc
  have h2 := circuit_returnCircuitBuffers h1 hw1
  have hw2 : i ∉ ((s.endSteps i).returnCircuitBuffers i).waitQueue := fun hi => by
    simp only [State.returnCircuitBuffers, h1] at hi
    have := waitQueue_serveWait_subset _ _ hi
    rw [(keeps_returnBuffers _ _).at_waitQueue (by decide)] at this
    exact hw1 this
  have b3 : Backed q none (((s.endSteps i).returnCircuitBuffers i).leaveOwner i) :=
    h.endSteps.returnCircuitBuffers.leaveOwner
  have hc3 : ∃ d, (((s.endSteps i).returnCircuitBuffers i).leaveOwner i).circuit i = some d ∧ d.reserved = 0 := by
    simp only [State.leaveOwner, h2]
    split
    · exact ⟨_, h2, rfl⟩
    · exact ⟨_, by rw [circuit_clearConditions, if_pos rfl, circuit_leaveAttention, h2]; rfl, rfl⟩
  obtain ⟨d, hd, hd0⟩ := hc3
  unfold State.directFree
  refine b3.freeSlot hd hd0 ?_
  rw [(keeps_leaveOwner _ i).at_waitQueue (by decide)]
  exact hw2

theorem Backed.endClosing (h : Backed q none s) (m : Confirmation) : Backed q none (s.endClosing i m) := by
  unfold State.endClosing
  split
  · exact h
  · rename_i c hc
    split
    · exact h.enterEnded _ _ _
    · exact h.directFree hc
    · exact h

theorem Backed.endByTeardown (h : Backed q none s) (cause : Byte) : Backed q none (endByTeardown cause s i) := by
  unfold State.endByTeardown
  split
  · exact h
  · rename_i c hc
    split
    · exact h.directFree hc
    · exact h.enterEnded _ _ _
    · exact h.enterEnded _ _ _

theorem Backed.foldl {f : State → SlotNo → State} (hf : ∀ v b, Backed q none v → Backed q none (f v b)) (bs : List SlotNo) :
    ∀ s : State, Backed q none s → Backed q none (bs.foldl f s) := by
  induction bs with
  | nil => exact fun _ h => h
  | cons b bs ih => exact fun s h => ih _ (hf s b h)

theorem Backed.teardown (h : Backed q none s) (l : LineNo) (cause : Byte) : Backed q none (s.teardown l cause) := by
  have h1 : Backed q none ((s.mappedSlots l).foldl (State.endByTeardown cause)
      (s.setWaitQueue (s.waitQueue.filter fun i => i ∉ s.mappedSlots l))) := by
    refine Backed.foldl (fun v b hv => hv.endByTeardown cause) _ _ (h.setWaitQueue (h.once.filter _) fun j hj => ?_)
    exact h.waiting j (List.mem_of_mem_filter hj)
  unfold State.teardown
  dsimp only
  split
  · exact ((h1.modLine _ _).modLine _ _).modLine _ _
  · exact h1.modLine _ _

/-! ## A frame in order finds its buffer (R83) -/

/-- A circuit that holds a reservation is backed by a buffer of the free queue. -/
theorem Backed.freeQueue_ne_nil (h : Backed q x s) (hc : s.circuit i = some c) (hr : 0 < c.reserved) :
    s.freeQueue ≠ [] := fun e => by
  have h1 := le_reservedSum hc
  have h2 := h.total
  have h3 := h.room
  rw [e, List.length_nil] at h3
  omega

theorem Backed.takeCarry {b : BufNo} {rest : List BufNo} (h : Backed q none s) (hc : s.circuit i = some c)
    (hd : c.state.inData = true) (hr : 0 < c.reserved) (hq : s.freeQueue = b :: rest) (m : Bool) (vs : List Byte) :
    Backed q none (s.takeCarry i b rest m vs) := by
  obtain ⟨u, hu⟩ : ∃ u, u = ((((s.setFreeQueue rest).setReservedTotal (s.reservedTotal - 1)).setPlace b
    (.receive i)).writeBuffer b 0 vs).modCircuit i fun c =>
      { c with
        receive := c.receive ++ [⟨b, vs.length, m⟩]
        nextExpected := c.nextExpected + 1
        reserved := c.reserved - 1 } := ⟨_, rfl⟩
  have hui : u.circuit i = some { c with
      receive := c.receive ++ [⟨b, vs.length, m⟩]
      nextExpected := c.nextExpected + 1
      reserved := c.reserved - 1 } := by
    rw [hu, circuit_modCircuit_same]; simp [hc]
  have hun : ∀ j, j ≠ i → u.circuit j = s.circuit j := fun j hj => by rw [hu, circuit_modCircuit_ne _ hj]; rfl
  have e := reservedSum_update hun
  rw [hc, hui] at e
  simp only [Option.map_some, Option.getD_some] at e
  have h1 := le_reservedSum hc
  have h2 := h.total
  have h3 := h.room
  rw [hq, List.length_cons] at h3
  have ht : u.reservedTotal = s.reservedTotal - 1 := by rw [hu]; rfl
  have hub : Backed q none u := by
    refine ⟨by rw [ht]; omega, ?_, by rw [hu]; exact h.once, fun j hj => ?_, fun j y hx hy hst => ?_,
      ⟨by rw [hu]; exact h.free.1, fun j hj => ?_⟩, fun j y hy => ?_⟩
    · rw [ht, hu]
      show _ ≤ rest.length
      omega
    · have hj' : j ∈ s.waitQueue := by rw [hu] at hj; exact hj
      by_cases hji : j = i
      · subst hji
        obtain ⟨y, hy, hy'⟩ := h.waiting j hj'
        rw [hc] at hy; cases hy
        exact ⟨_, hui, .inr ⟨hd, fun z => Nat.lt_of_le_of_lt (Nat.sub_le _ _) ((hy'.resolve_left (by simp)).2 z)⟩⟩
      · rw [hun j hji]; exact h.waiting j hj'
    · by_cases hji : j = i
      · subst hji; rw [hui] at hy; cases hy
        have := h.quiet j c (by simp) hc hst
        omega
      · rw [hun j hji] at hy; exact h.quiet j y hx hy hst
    · have hj' : j ∈ s.freeSlots := by rw [hu] at hj; exact hj
      by_cases hji : j = i
      · subst hji; have := h.free.2 j hj'; rw [hc] at this; cases this
      · rw [hun j hji]; exact h.free.2 j hj'
    · by_cases hji : j = i
      · subst hji; rw [hui] at hy; cases hy; exact h.counted j c hc
      · rw [hun j hji] at hy; exact h.counted j y hy
  have hv := (hub.raise (i := i) { data := true }).owe (i := i) .credit
  obtain ⟨d, hd1, hd2⟩ : ∃ d, ((u.raise i { data := true }).owe i .credit).circuit i = some d ∧ d.state = c.state := by
    rw [circuit_owe, if_pos rfl, circuit_raise, if_pos rfl, hui]
    exact ⟨_, rfl, by dsimp only; split <;> rfl⟩
  unfold State.takeCarry
  dsimp only
  rw [← hu]
  exact hv.joinWaitIfShort hd1 (by rw [hd2]; exact hd)

/-! ## Arrivals -/

theorem Backed.setEntry (h : Backed q x s) (e : EntryNo) (y : ServiceEntry) : Backed q x (s.setEntry e y) :=
  h.of_keeps (keeps_setEntry _ e y) (by decide) (by decide) (by decide) (by decide) (by decide)

theorem Backed.unmapNumber (h : Backed q x s) (l : LineNo) (n : Byte) : Backed q x (s.unmapNumber l n) :=
  h.of_keeps (keeps_unmapNumber _ l n) (by decide) (by decide) (by decide) (by decide) (by decide)

theorem Backed.mapNumber (h : Backed q x s) (l : LineNo) (n : Byte) (j : SlotNo) : Backed q x (s.mapNumber l n j) :=
  h.of_keeps (keeps_mapNumber _ l n j) (by decide) (by decide) (by decide) (by decide) (by decide)

/-- A circuit opened by an admission or an ACCEPT: its reservation, its GRANT and its place on the wait queue. -/
theorem Backed.openWith (h : Backed q none s) (hc : s.circuit i = some c) (h0 : c.reserved = 0) (hs : c.state = .opened)
    (hw : i ∉ s.waitQueue) (n : Nat) (y : Conditions) :
    Backed q none (((s.reserve i n).owe i .grant).joinWaitIfShort i)
      ∧ Backed q none ((((s.reserve i n).owe i .grant).raise i y).joinWaitIfShort i) := by
  have h1 := (h.reserve hc h0 (by simp [hs, CircuitState.name]) hw n).owe (i := i) .grant
  obtain ⟨d, hd, hds⟩ : ∃ d, ((s.reserve i n).owe i .grant).circuit i = some d ∧ d.state = .opened := by
    rw [circuit_owe, if_pos rfl, circuit_reserve, if_pos rfl, hc]; exact ⟨_, rfl, hs⟩
  refine ⟨h1.joinWaitIfShort hd (by rw [hds]; rfl), ?_⟩
  obtain ⟨e, he, hes⟩ : ∃ e, (((s.reserve i n).owe i .grant).raise i y).circuit i = some e ∧ e.state = .opened := by
    rw [circuit_raise, if_pos rfl, hd]
    exact ⟨_, rfl, by dsimp only; split <;> exact hds⟩
  exact (h1.raise y).joinWaitIfShort he (by rw [hes]; rfl)

theorem Backed.admitCall (h : Backed q none s) (l : LineNo) (n service edge : Byte) :
    Backed q none (s.admitCall l n service edge) := by
  have refused : ∀ cause, Backed q none (s.refuseCall l n cause) := fun _ => h.offerReply l _
  unfold State.admitCall
  split
  · exact refused _
  · split
    · exact refused _
    · split
      · exact refused _
      · unfold State.admitOffer
        split
        · exact refused _
        · rename_i ha
          obtain ⟨h1, -, -⟩ := h.allocate ha rfl (Nat.zero_le _)
          exact ((h1.setEntry _ _).startTimer _).raise _
    · split
      · exact refused _
      · unfold State.admitAccept
        split
        · exact refused _
        · rename_i i t ha
          obtain ⟨h1, h2, hw⟩ := h.allocate ha rfl (Nat.zero_le _)
          exact ((h1.setEntry _ _).openWith (by rw [circuit_setEntry]; exact h2) rfl rfl hw _ _).2

theorem Backed.collide (h : Backed q none s) (l : LineNo) (n service edge : Byte) :
    Backed q none (s.collide i l n service edge) := by
  unfold State.collide
  split
  · rename_i m _
    have h1 := ((h.unmapNumber l n).mapNumber l m i).modCircuit (i := i)
      (fun c => { c with number := m, timer := none, retry := 0 }) (fun _ => rfl) (fun _ => rfl) (fun _ => rfl) fun _ e => e
    exact (h1.owe (i := i) .openCall).admitCall _ _ _ _
  · split
    · exact ((h.endRecord _ _ _).admitCall _ _ _ _).raise _
    · exact (h.enterEnded _ _ _).admitCall _ _ _ _

theorem Backed.openArrives (h : Backed q none s) (l : LineNo) (n a b : Byte) : Backed q none (s.openArrives l n a b) := by
  unfold State.openArrives
  split
  · exact h.admitCall _ _ _ _
  · split
    · split
      · exact h.collide _ _ _ _
      · exact h
    · exact h.owe _
    · exact h.owe _
    · exact h

theorem Backed.strayArrives (h : Backed q none s) (l : LineNo) (n : Byte) (k : FrameKind) :
    Backed q none (s.strayArrives l n k) := by
  unfold State.strayArrives
  split <;> first | exact h.offerReply _ _ | exact h

theorem arrivalAt_circuit {l : LineNo} {n : Byte} (h : s.arrivalAt l n = some (i, c)) : s.circuit i = some c := by
  unfold State.arrivalAt at h
  split at h
  · cases h
  · obtain ⟨d, hd, e⟩ := Option.map_eq_some_iff.1 h
    cases e; exact hd

theorem Backed.grantArrives (h : Backed q none s) (l : LineNo) (n a : Byte) : Backed q none (s.grantArrives l n a) := by
  unfold State.grantArrives
  split
  · exact h.strayArrives _ _ _
  · rename_i i c harr
    have hc := arrivalAt_circuit harr
    split
    · rename_i hs
      dsimp only
      obtain ⟨u, hu⟩ : ∃ u, u = (s.stopTimer i).dropOwed i .openCall := ⟨_, rfl⟩
      have hub : Backed q none u := by rw [hu]; exact h.stopTimer.dropOwed _
      obtain ⟨d, hd, hds, hdr, hdn⟩ : ∃ d, u.circuit i = some d ∧ d.state = .calling ∧ d.reserved = c.reserved
          ∧ d.delivered = c.delivered := by
        rw [hu, circuit_dropOwed, if_pos rfl, circuit_stopTimer, if_pos rfl, hc]
        exact ⟨_, rfl, hs, rfl, rfl⟩
      obtain ⟨v, hv⟩ : ∃ v, v = u.modCircuit i fun x =>
        { x with farEdge := a.setWidth 5, state := .opened, retry := 0 } := ⟨_, rfl⟩
      have hvb : Backed q none v := by
        have e : u.modCircuit i (fun x => { x with farEdge := a.setWidth 5, state := .opened, retry := 0 })
            = u.setCircuit i (some { d with farEdge := a.setWidth 5, state := .opened, retry := 0 }) := by
          unfold State.modCircuit; rw [hd]; rfl
        rw [hv, e]
        exact hub.setCircuit hd rfl (.inr fun y => by rw [MayWait, hds] at y; cases y.1) (.inr fun f => by simp [CircuitState.name] at f)
          (hub.counted i d hd)
      obtain ⟨e, he, hes⟩ : ∃ e, (v.raise i { connected := true }).circuit i = some e ∧ e.state = .opened := by
        rw [circuit_raise, if_pos rfl, hv, circuit_modCircuit_same, hd]
        exact ⟨_, rfl, by dsimp only; split <;> rfl⟩
      rw [← hu, ← hv]
      exact ((Backed.joinWaitIfShort (hvb.raise _) he (by rw [hes]; rfl)).settleReady).settleStall
    · exact h

theorem Backed.refuseArrives (h : Backed q none s) (l : LineNo) (n a : Byte) : Backed q none (s.refuseArrives l n a) := by
  unfold State.refuseArrives
  split
  · exact h.strayArrives _ _ _
  · split
    · exact h.enterEnded _ _ _
    · exact h

theorem Backed.settleTimer (h : Backed q none s) (n : Nat) : Backed q none (s.settleTimer i n) := by
  unfold State.settleTimer
  split
  · exact h
  · repeat' split
    all_goals first | exact h | exact h.startTimer _ | exact h.stopTimer

theorem Backed.settleDrain (h : Backed q none s) : Backed q none (s.settleDrain i) := by
  unfold State.settleDrain
  split
  · exact h
  · split
    · split
      · exact h.enterClosing _
      · exact h
    · exact h

theorem Backed.settleCredit (h : Backed q none s) (n : Nat) (e : Bool) : Backed q none (s.settleCredit i n e) := by
  have h1 : Backed q none (if 0 < n || e then s.modCircuit i fun c => { c with retry := 0 } else s) := by
    split
    · exact h.modCircuit _ (fun _ => rfl) (fun _ => rfl) (fun _ => rfl) fun _ e => e
    · exact h
  exact (((h1.dropOwed .ask).settleTimer n).settleReady).settleDrain

theorem Backed.acknowledge (h : Backed q none s) (hc : s.circuit i = some c) (n : Nat) (a : Seq) :
    Backed q none (s.acknowledge i c n a) := by
  have e : s.setCircuit i (some { c with unacked := c.unacked.drop n, ackBase := a })
      = s.modCircuit i fun c => { c with unacked := c.unacked.drop n, ackBase := a } := by
    unfold State.modCircuit; rw [hc]; rfl
  have h1 : Backed q none (s.modCircuit i fun c => { c with unacked := c.unacked.drop n, ackBase := a }) :=
    h.modCircuit _ (fun _ => rfl) (fun _ => rfl) (fun _ => rfl) fun _ e => e
  have h2 := (Backed.returnBuffers ((c.unacked.take n).map (·.entry.buffer)) _ h1).serveWait
  have h3 := h2.modCircuit (i := i) (fun x => { x with delivered := min Config.countMax (x.delivered + n) })
    (fun _ => rfl) (fun _ => rfl) (fun _ => rfl) fun _ _ => Nat.min_le_left _ _
  unfold State.acknowledge
  dsimp only
  rw [e]
  split
  · exact h3.raise _
  · exact h3

theorem Backed.creditArrives (h : Backed q none s) (l : LineNo) (n a b : Byte) :
    Backed q none (s.creditArrives l n a b) := by
  unfold State.creditArrives
  split
  · exact h.strayArrives _ _ _
  · rename_i i c harr
    have hc := arrivalAt_circuit harr
    dsimp only
    split
    · split
      · exact h.settleCredit _ _
      · split
        · exact h.enterClosing _
        · have h1 := (h.acknowledge hc (distance c.ackBase (a.setWidth 5)) (a.setWidth 5)).modCircuit (i := i)
            (fun x => { x with farEdge := farEdgeAfter x.farEdge (a.setWidth 5) (b.setWidth 5) }) (fun _ => rfl)
            (fun _ => rfl) (fun _ => rfl) fun _ e => e
          exact h1.settleCredit _ _
    · exact h

theorem Backed.askArrives (h : Backed q none s) (l : LineNo) (n : Byte) : Backed q none (s.askArrives l n) := by
  unfold State.askArrives
  split
  · exact h.strayArrives _ _ _
  · split
    · exact h.owe _
    · exact h

theorem Backed.closeArrives (h : Backed q none s) (l : LineNo) (n a : Byte) : Backed q none (s.closeArrives l n a) := by
  unfold State.closeArrives
  split
  · exact h.strayArrives _ _ _
  · split
    · exact (h.endClosing _).offerReply _ _
    · exact h
    · exact (h.enterEnded _ _ _).offerReply _ _

theorem Backed.closedArrives (h : Backed q none s) (l : LineNo) (n : Byte) : Backed q none (s.closedArrives l n) := by
  unfold State.closedArrives
  split
  · exact h.strayArrives _ _ _
  · split
    · exact h.endClosing _
    · exact h

/-! ## The transmitter -/

theorem Backed.setOwed (h : Backed q none s) (hc : s.circuit i = some c) (o : Owed) :
    Backed q none (s.setCircuit i (some { c with owed := o })) :=
  h.setCircuit hc rfl (.inr fun e => e) (.inr fun e => h.quiet i c (by simp) hc e) (h.counted i c hc)

theorem Backed.selectControl (l : LineNo) (n : Nat) : ∀ s : State, Backed q none s →
    Backed q none (State.selectControl l n s) := by
  induction n with
  | zero => exact fun _ h => h
  | succ n ih =>
    intro s h
    rw [State.selectControl]
    split
    · exact h
    · split
      · exact ih _ (h.modTx _ _)
      · rename_i hc
        split
        · exact ih _ ((h.setOwed hc _).modTx _ _)
        · exact ((h.setOwed hc _).modTx _ _).modTx _ _

theorem Backed.stageData (h : Backed q none s) (l : LineNo) (rest : List SlotNo) : Backed q none (s.stageData l i rest) := by
  have h0 : Backed q none (s.modTx l fun t => { t with ring := rest }) := h.modTx _ _
  unfold State.stageData
  dsimp only
  split
  · exact h0
  · rename_i c hc
    split
    · exact h0
    · rename_i e es _
      have h1 : Backed q none ((s.modTx l fun t => { t with ring := rest }).setCircuit i
          (some { c with transmit := es, unacked := c.unacked ++ [⟨c.nextSend, e⟩], nextSend := c.nextSend + 1 })) :=
        h0.setCircuit hc rfl (.inr fun e => e) (.inr fun e => h.quiet i c (by simp) hc e) (h.counted i c hc)
      split
      · exact ((h1.setPlace _ _).modTx _ _).modTx _ _
      · exact (h1.setPlace _ _).modTx _ _

theorem Backed.select (h : Backed q none s) (l : LineNo) : Backed q none (s.select l) := by
  have h1 := Backed.selectControl l (s.line l).tx.control.length s h
  unfold State.select
  dsimp only
  split
  · exact h1
  · split
    · exact (h1.modTx _ _).modTx _ _
    · exact h1.stageData _ _
    · exact h1.modTx _ _

theorem Backed.complete (h : Backed q none s) (y : Staged) : Backed q none (s.complete y) := by
  unfold State.complete
  split
  · exact h
  · split
    · exact h
    · split
      · unfold State.applyCompletion
        repeat' split
        all_goals first | exact h | exact h.startTimer _
      · exact h

/-! ## PORT-RESET -/

theorem Backed.orphan (h : Backed q none s) : Backed q none (s.orphan i) := by
  unfold State.orphan
  split
  · exact h
  · rename_i c hc
    have hown : ∀ u : State, Backed q none u → Backed q none (u.modCircuit i fun x => { x with owner := none }) :=
      fun u hu => hu.modCircuit _ (fun _ => rfl) (fun _ => rfl) (fun _ => rfl) fun _ e => e
    split
    · exact (h.offerReply _ _).directFree (by rw [State.offerReply, circuit_modTx]; exact hc)
    · exact hown _ h
    · rename_i hs
      have hw : i ∉ s.waitQueue := fun hi => by
        obtain ⟨d, hd, hdd⟩ := h.waiting i hi
        rw [hc] at hd; cases hd
        have := (hdd.resolve_left (by simp)).1
        rw [hs] at this; cases this
      refine (h.returnCircuitBuffers (i := i)).freeSlot (circuit_returnCircuitBuffers hc hw)
        (h.quiet i c (by simp) hc (.inr (.inr (by rw [hs]; rfl)))) fun hi => ?_
      simp only [State.returnCircuitBuffers, hc] at hi
      have := waitQueue_serveWait_subset _ _ hi
      rw [(keeps_returnBuffers _ _).at_waitQueue (by decide)] at this
      exact hw this
    · exact (hown _ (h.enterClosing _)).returnCircuitBuffers

theorem Backed.resetPort (h : Backed q none s) (p : PortNo) : Backed q none (s.resetPort p) := by
  unfold State.resetPort
  dsimp only
  refine Backed.judgeAtn (Backed.foldl (fun _ _ hv => hv.orphan) _ _ ?_)
  unfold State.returnClaimed
  refine Backed.serveWait (Backed.returnBuffers _ _ ?_)
  unfold State.emptyAttention
  exact (Backed.foldl (fun _ _ hv => hv.clearConditions) _ _ (h.modPort _ _)).modPort _ _

end Sys2Proof.Machine.State
end

