-- ==== Sys2Proof/Laws/Commands.lean ====
section
/-! SUPPORT. How a command is taken and completed: the arbiter's taking, the checks on a handle, and what finishing a command does. -/

namespace Sys2Proof.Machine

/-- A command that is taken is applied whole to its port's arguments, and completes. -/
theorem takeCommand_of_taken {s : State} {p : PortNo} {code : Byte} (h : s.taken p code) (body : Body) :
    takeCommand code body s = .next (s.conclude p (body p (s.port p).args s)) := by
  obtain ⟨h1, h2, h3⟩ := h
  simp [takeCommand, State.takes, h1, h2, h3]

/-- A command's outcome is always a next state: the one it had, or the body concluded at the port it was taken from. -/
theorem takeCommand_cases (code : Byte) (body : Body) (s : State) :
    takeCommand code body s = .next s
      ∨ ∃ p, s.taken p code ∧ takeCommand code body s = .next (s.conclude p (body p (s.port p).args s)) := by
  by_cases h1 : s.phase = .running
  · cases h2 : s.nextPort with
    | none => left; simp [takeCommand, State.takes, h1, h2]
    | some p =>
      by_cases h3 : (s.port p).command = code
      · exact .inr ⟨p, ⟨h1, h2, h3⟩, takeCommand_of_taken ⟨h1, h2, h3⟩ body⟩
      · left; simp [takeCommand, State.takes, h1, h2, h3]
  · left; simp [takeCommand, State.takes, h1]

@[simp] theorem require_true (code : ResultCode) : require true code = .ok () := rfl
@[simp] theorem require_false (code : ResultCode) : require false code = .error code := rfl

theorem require_of {b : Bool} (h : b = true) (code : ResultCode) : require b code = .ok () := by rw [h]; rfl

theorem lineArg_of {w : Word} {l : LineNo} (h : w.toNat = l.val) : lineArg w = .ok l := by
  unfold lineArg
  rw [dif_pos (h ▸ l.isLt)]
  exact congrArg _ (Fin.ext h)

theorem bufferArg_of {w : Word} {b : BufNo} (h : w.toNat = b.val) : bufferArg w = .ok b := by
  unfold bufferArg
  rw [dif_pos (h ▸ b.isLt)]
  exact congrArg _ (Fin.ext h)

theorem entryArg_of {v : Nat} {e : EntryNo} (h : v = e.val) : entryArg v = .ok e := by
  unfold entryArg
  rw [dif_pos (h ▸ e.isLt)]
  exact congrArg _ (Fin.ext h)

theorem portArg_of {v : Nat} {p : PortNo} (h : v = p.val) : portArg v = .ok p := by
  unfold portArg
  rw [dif_pos (h ▸ p.isLt)]
  exact congrArg _ (Fin.ext h)

/-- A field in the low bits of a word that its number fits. -/
theorem inBits_low {hi v : Nat} (h : v < 2 ^ (hi + 1)) : inBits hi 0 v = BitVec.ofNat 32 v := by
  simp [inBits, Nat.mod_eq_of_lt h]

/-- A command that is taken and passes its checks completes with OK. -/
theorem next_of_ok {s t : State} {p : PortNo} {code : Byte} {body : Body} {words : Results} (h : s.taken p code)
    (hb : body p (s.port p).args s = .ok (t, words)) :
    takeCommand code body s = .next (t.finish p .ok words) := by
  rw [takeCommand_of_taken h, hb]; rfl

/-- A command that is taken and fails a check completes with that check's code. -/
theorem next_of_error {s : State} {p : PortNo} {code : Byte} {body : Body} {r : ResultCode} (h : s.taken p code)
    (hb : body p (s.port p).args s = .error r) : takeCommand code body s = .next (s.finish p r {}) := by
  rw [takeCommand_of_taken h, hb]; rfl

namespace State

variable {s : State} {p : PortNo} {i : SlotNo} {c : Circuit} {w : Word}

theorem handle_lt (s : State) (i : SlotNo) : s.handle i < 4096 := by
  have h1 := (s.slot i).generation.isLt
  have h2 := i.isLt
  simp only [handle, handleValue]
  omega

/-- The handle of a circuit decodes into its slot and generation (R4). -/
theorem handleArg_of_handle (h : w.toNat = s.handle i) : handleArg w = .ok (i, (s.slot i).generation) := by
  have h1 := (s.slot i).generation.isLt
  have h2 := i.isLt
  have e1 : w.toNat % 256 = i.val := by rw [h, handle, handleValue]; omega
  have e2 : w.toNat / 256 = (s.slot i).generation.toNat := by rw [h, handle, handleValue]; omega
  have h3 : w.toNat < 4096 := h ▸ s.handle_lt i
  unfold handleArg
  rw [if_neg (by omega), dif_pos (by omega)]
  refine congrArg _ (Prod.ext (Fin.ext e1) ?_)
  simp only [e2, BitVec.ofNat_toNat, BitVec.setWidth_eq]

theorem handleArg_of_names (h : s.namesOwn w p i c) : handleArg w = .ok (i, (s.slot i).generation) :=
  handleArg_of_handle h.1

theorem named_of_names (h : s.namesOwn w p i c) : s.named (i, (s.slot i).generation) = .ok c := by
  simp [named, h.2.1]

theorem ownedCircuit_of_names (h : s.namesOwn w p i c) : s.ownedCircuit p (i, (s.slot i).generation) = .ok c := by
  simp only [ownedCircuit, named_of_names h, bind, Except.bind, ownedBy, h.2.2, decide_true, require_true, pure,
    Except.pure]

/-- Finishing a command writes its port's slot and the arbiter's last port, and nothing else. -/
theorem keeps_finish (s : State) (p : PortNo) (code : ResultCode) (words : Results) :
    Keeps [.ports, .lastServed] s (s.finish p code words) :=
  (s.keeps_modPort p _).both (keeps_setLastServed _ _) (by decide) (by decide)

@[simp] theorem finish_lastServed (code : ResultCode) (words : Results) : (s.finish p code words).lastServed = p := rfl
@[simp] theorem circuit_finish (code : ResultCode) (words : Results) :
    (s.finish p code words).circuit i = s.circuit i := rfl
@[simp] theorem slot_finish (code : ResultCode) (words : Results) : (s.finish p code words).slot i = s.slot i := rfl
@[simp] theorem line_finish (code : ResultCode) (words : Results) (l : LineNo) :
    (s.finish p code words).line l = s.line l := rfl
@[simp] theorem lookup_finish (code : ResultCode) (words : Results) (l : LineNo) (n : Byte) :
    (s.finish p code words).lookup l n = s.lookup l n := rfl
@[simp] theorem entry_finish (code : ResultCode) (words : Results) (e : EntryNo) :
    (s.finish p code words).entry e = s.entry e := rfl
@[simp] theorem place_finish (code : ResultCode) (words : Results) (b : BufNo) :
    (s.finish p code words).place b = s.place b := rfl
@[simp] theorem bufferByte_finish (code : ResultCode) (words : Results) (b : BufNo) (k : Nat) :
    (s.finish p code words).bufferByte b k = s.bufferByte b k := rfl

@[simp] theorem port_finish_same (code : ResultCode) (words : Results) :
    (s.finish p code words).port p = { s.port p with status := .done, result := code, results := words } := by
  rw [finish, port_setLastServed, port_modPort_same]

theorem port_finish_ne {q : PortNo} (h : q ≠ p) (code : ResultCode) (words : Results) :
    (s.finish p code words).port q = s.port q := by
  rw [finish, port_setLastServed, port_modPort_ne s h]

/-- A state whose ports are those of s, finished for p, answers p as s would. -/
theorem answers_finish {t : State} (h : t.ports = s.ports) (code : ResultCode) (words : Results) :
    s.answers (t.finish p code words) p code words := by
  have hp : ∀ q, t.port q = s.port q := fun q => by simp [port, h]
  exact ⟨rfl, by rw [port_finish_same, hp], fun q hq => by rw [port_finish_ne hq, hp]⟩

theorem fails_finish (s : State) (p : PortNo) (code : ResultCode) : s.fails (s.finish p code {}) p code :=
  ⟨answers_finish rfl code {}, s.keeps_finish p code {}⟩

/-- A state whose ports differ from those of s in attention alone answers p as s would, but for attention. -/
theorem answersWithAttention_finish {t : State} {words : Results}
    (h : ∀ q, t.port q = { s.port q with
      attention := (t.port q).attention, holdoff := (t.port q).holdoff, atn := (t.port q).atn }) :
    s.answersWithAttention (t.finish p .ok words) p words := by
  refine ⟨rfl, ?_, fun q hq => ?_⟩
  · rw [port_finish_same]
    conv_lhs => rw [h p]
  · rw [port_finish_ne hq]; exact h q

/-- Finishing a command does not change the level an ATN output is judged to have. -/
theorem atnLevel_finish (code : ResultCode) (words : Results) (q : PortNo) :
    (s.finish p code words).atnLevel q = s.atnLevel q := by
  have hc : ∀ i, (s.finish p code words).conditionsOf i = s.conditionsOf i := fun i => rfl
  have hl : (s.finish p code words).anyChanged = s.anyChanged := rfl
  have hp : (s.finish p code words).port q = { s.port q with
      status := ((s.finish p code words).port q).status
      result := ((s.finish p code words).port q).result
      results := ((s.finish p code words).port q).results } := by
    by_cases h : q = p
    · subst h; rw [port_finish_same]
    · rw [port_finish_ne h]
  simp only [atnLevel, urgentOn, hc, hl]
  rw [hp]

theorem actsOn_finish {l : LineNo} (code : ResultCode) (words : Results) : ActsOn i l s (s.finish p code words) :=
  ActsOn.of_keeps (s.keeps_finish p code words) i l (by decide) (by decide) (by decide)

end State

/-- A command's effect, then its finish. -/
theorem Keeps.finish {xs : List Part} {s u : State} (h : Keeps xs s u) (p : PortNo) (code : ResultCode)
    (words : Results) : Keeps (.ports :: .lastServed :: xs) s (u.finish p code words) :=
  h.both (State.keeps_finish _ _ _ _) (fun _ hx => by simp [hx]) (fun _ hx => by simp at hx ⊢; tauto)

theorem inData_of {c : Circuit} (h : c.state = .opened ∨ ∃ x, c.state = .draining x) : c.state.inData = true := by
  rcases h with h | ⟨x, h⟩ <;> simp [h, CircuitState.inData]

end Sys2Proof.Machine
end

