-- ==== Sys2Proof/Laws/Bodies.lean ====
section
/-! SUPPORT. What the body of each command can answer when its checks pass, said once; and how a predicate passes through a command. -/

namespace Sys2Proof.Machine

/-! ## Checks -/

theorem bind_ok {α β : Type} {x : Except ResultCode α} {f : α → Except ResultCode β} {b : β} (h : x.bind f = .ok b) :
    ∃ a, x = .ok a ∧ f a = .ok b := by
  cases x with
  | error e => cases h
  | ok a => exact ⟨a, rfl, h⟩

theorem pure_ok {α : Type} {a b : α} (h : (pure a : Except ResultCode α) = .ok b) : a = b := by cases h; rfl

theorem require_ok {b : Bool} {r : ResultCode} {u : Unit} (h : require b r = .ok u) : b = true := by
  cases b with
  | true => rfl
  | false => cases h

theorem ownedCircuit_ok {s : State} {p : PortNo} {h : SlotNo × Generation} {c : Circuit}
    (e : s.ownedCircuit p h = .ok c) : s.circuit h.1 = some c ∧ c.owner = some p := by
  unfold State.ownedCircuit at e
  obtain ⟨d, h1, e⟩ := bind_ok e
  obtain ⟨_, h2, e⟩ := bind_ok e
  obtain rfl := pure_ok e
  refine ⟨?_, by simpa using require_ok h2⟩
  unfold State.named at h1
  split at h1
  · cases h1
  · split at h1
    · cases h1; assumption
    · cases h1

/-! ## The bodies: each answers one state, built from the state before -/

section

variable {p : PortNo} {a : Args} {s t : State} {w : Results}

theorem callBody_ok (h : callBody p a s = .ok (t, w)) :
    ∃ l n i u, s.allocate (Circuit.start .calling l n p .localCall (a.a1.setWidth 8) 0 a.a2.toNat) = some (i, u)
      ∧ t = (u.reserve i a.a2.toNat).owe i .openCall := by
  unfold callBody at h
  iterate 5 obtain ⟨_, -, h⟩ := bind_ok h
  split at h
  · cases h
  · split at h
    · cases h
    · cases pure_ok h; exact ⟨_, _, _, _, ‹_›, rfl⟩

theorem acceptBody_ok (h : acceptBody p a s = .ok (t, w)) :
    ∃ i c, s.circuit i = some c ∧ c.state = .offered
      ∧ t = (((s.modCircuit i fun x => { x with
          timer := none, target := a.a1.toNat, state := .opened, retry := 0 }).reserve i a.a1.toNat).owe i
            .grant).joinWaitIfShort i := by
  unfold acceptBody at h
  iterate 2 obtain ⟨_, -, h⟩ := bind_ok h
  obtain ⟨c, h1, h⟩ := bind_ok h
  obtain ⟨_, h2, h⟩ := bind_ok h
  cases pure_ok h
  exact ⟨_, c, (ownedCircuit_ok h1).1, by simpa using require_ok h2, rfl⟩

theorem refuseBody_ok (h : refuseBody p a s = .ok (t, w)) :
    ∃ i c, s.circuit i = some c
      ∧ t = ((s.offerReply c.line ⟨c.number, .refuse, a.a1.setWidth 8⟩).directFree i).judgeAtn := by
  unfold refuseBody at h
  iterate 2 obtain ⟨_, -, h⟩ := bind_ok h
  obtain ⟨c, h1, h⟩ := bind_ok h
  obtain ⟨_, -, h⟩ := bind_ok h
  cases pure_ok h
  exact ⟨_, c, (ownedCircuit_ok h1).1, rfl⟩

theorem closeBody_ok (h : closeBody p a s = .ok (t, w)) :
    ∃ i c, s.circuit i = some c
      ∧ (t = s.enterClosing i (a.a2.setWidth 8)
        ∨ c.state = .opened ∧ t = s.modCircuit i fun x => { x with state := .draining (a.a2.setWidth 8) }) := by
  unfold closeBody at h
  iterate 3 obtain ⟨_, -, h⟩ := bind_ok h
  obtain ⟨c, h1, h⟩ := bind_ok h
  dsimp only at h
  split at h
  · obtain ⟨_, h2, h⟩ := bind_ok h
    split at h
    · cases pure_ok h; exact ⟨_, c, (ownedCircuit_ok h1).1, .inl rfl⟩
    · cases pure_ok h; exact ⟨_, c, (ownedCircuit_ok h1).1, .inr ⟨by simpa using require_ok h2, rfl⟩⟩
  · obtain ⟨_, -, h⟩ := bind_ok h
    cases pure_ok h; exact ⟨_, c, (ownedCircuit_ok h1).1, .inl rfl⟩

theorem sendBody_ok (h : sendBody p a s = .ok (t, w)) :
    ∃ i b e, t = (((s.setPlace b (.transmit i)).modCircuit i fun x =>
      { x with transmit := x.transmit ++ [e] }).settleReady i).settleStall i := by
  unfold sendBody at h
  iterate 8 obtain ⟨_, -, h⟩ := bind_ok h
  cases pure_ok h
  exact ⟨_, _, _, rfl⟩

theorem releaseBody_ok (h : releaseBody p a s = .ok (t, w)) :
    ∃ i b rest, t = ((s.modCircuit i fun x => { x with receive := rest }).returnBuffer b).serveWait := by
  unfold releaseBody at h
  iterate 2 obtain ⟨_, -, h⟩ := bind_ok h
  split at h
  · cases h
  · cases pure_ok h; exact ⟨_, _, _, rfl⟩

theorem setCreditBody_ok (h : setCreditBody p a s = .ok (t, w)) :
    ∃ i c, s.circuit i = some c ∧ c.state.inData = true
      ∧ (c.reserved < a.a1.toNat ∧ t = (s.modCircuit i fun x => { x with target := a.a1.toNat }).joinWait i
        ∨ t = (s.modCircuit i fun x => { x with target := a.a1.toNat }).leaveWait i) := by
  unfold setCreditBody at h
  iterate 2 obtain ⟨_, -, h⟩ := bind_ok h
  obtain ⟨c, h1, h⟩ := bind_ok h
  obtain ⟨_, h2, h⟩ := bind_ok h
  dsimp only at h
  refine ⟨_, c, (ownedCircuit_ok h1).1, require_ok h2, ?_⟩
  split at h
  · cases pure_ok h; exact .inl ⟨‹_›, rfl⟩
  · cases pure_ok h; exact .inr rfl

theorem claimBody_ok (h : claimBody p a s = .ok (t, w)) :
    ∃ b rest, s.floor < s.available ∧ s.freeQueue = b :: rest
      ∧ t = ((s.setFreeQueue rest).writeBuffer b 0 (List.replicate Config.bufferBytes 0)).setPlace b (.claimed p) := by
  unfold claimBody at h
  obtain ⟨_, h1, h⟩ := bind_ok h
  split at h
  · cases h
  · cases pure_ok h; exact ⟨_, _, by simpa using require_ok h1, ‹_›, rfl⟩

theorem unclaimBody_ok (h : unclaimBody p a s = .ok (t, w)) : ∃ b, t = (s.returnBuffer b).serveWait := by
  unfold unclaimBody at h
  iterate 2 obtain ⟨_, -, h⟩ := bind_ok h
  cases pure_ok h; exact ⟨_, rfl⟩

theorem poolSetBody_ok (h : poolSetBody p a s = .ok (t, w)) : t = s.setFloor a.a0.toNat := by
  unfold poolSetBody at h
  iterate 2 obtain ⟨_, -, h⟩ := bind_ok h
  cases pure_ok h; rfl

theorem poolQueryBody_ok (h : poolQueryBody p a s = .ok (t, w)) : t = s := by
  unfold poolQueryBody at h; cases h; rfl

theorem serviceSetBody_ok (h : serviceSetBody p a s = .ok (t, w)) : ∃ e x, t = s.setEntry e x := by
  unfold serviceSetBody at h
  iterate 5 obtain ⟨_, -, h⟩ := bind_ok h
  cases pure_ok h; exact ⟨_, _, rfl⟩

theorem serviceClearBody_ok (h : serviceClearBody p a s = .ok (t, w)) : ∃ e x, t = s.setEntry e x := by
  unfold serviceClearBody at h
  iterate 2 obtain ⟨_, -, h⟩ := bind_ok h
  cases pure_ok h; exact ⟨_, _, rfl⟩

theorem serviceQueryBody_ok (h : serviceQueryBody p a s = .ok (t, w)) : t = s := by
  unfold serviceQueryBody at h
  obtain ⟨_, -, h⟩ := bind_ok h
  cases pure_ok h; rfl

theorem lineSetBody_ok (h : lineSetBody p a s = .ok (t, w)) :
    ∃ l g, configArg a.a1 a.a2 = .ok g ∧ (s.line l).state = .disabled
      ∧ t = s.modLine l fun r => { r with config := g } := by
  unfold lineSetBody at h
  iterate 2 obtain ⟨_, -, h⟩ := bind_ok h
  obtain ⟨g, h1, h⟩ := bind_ok h
  obtain ⟨_, h2, h⟩ := bind_ok h
  cases pure_ok h; exact ⟨_, g, h1, by simpa using require_ok h2, rfl⟩

theorem lineEnableBody_ok (h : lineEnableBody p a s = .ok (t, w)) :
    ∃ l, (s.line l).state = .disabled ∧ t = s.modLine l Line.enabled := by
  unfold lineEnableBody at h
  iterate 2 obtain ⟨_, -, h⟩ := bind_ok h
  obtain ⟨_, h2, h⟩ := bind_ok h
  cases pure_ok h; exact ⟨_, by simpa using require_ok h2, rfl⟩

theorem lineDisableBody_ok (h : lineDisableBody p a s = .ok (t, w)) : ∃ l, t = s.disableLine l := by
  unfold lineDisableBody at h
  iterate 2 obtain ⟨_, -, h⟩ := bind_ok h
  cases pure_ok h; exact ⟨_, rfl⟩

theorem lineQueryBody_ok (h : lineQueryBody p a s = .ok (t, w)) :
    ∃ l n, t = s.setFreeCount n ∨ t = (s.setFreeCount n).modLine l fun r => { r with discards := 0, losses := 0 } := by
  unfold lineQueryBody at h
  obtain ⟨_, -, h⟩ := bind_ok h
  obtain ⟨l, -, h⟩ := bind_ok h
  obtain ⟨_, -, h⟩ := bind_ok h
  cases pure_ok h
  refine ⟨l, s.freeCount + 1, ?_⟩
  split
  · exact .inr rfl
  · exact .inl rfl

theorem lineTakeBody_ok (h : lineTakeBody p a s = .ok (t, w)) :
    ∃ l, t = (s.putLine l fun x => { x with reported := x.level }).judgeAtn := by
  unfold lineTakeBody at h
  iterate 2 obtain ⟨_, -, h⟩ := bind_ok h
  cases pure_ok h; exact ⟨_, rfl⟩

theorem queryBody_ok (h : queryBody p a s = .ok (t, w)) : t = s := by
  unfold queryBody at h
  iterate 3 obtain ⟨_, -, h⟩ := bind_ok h
  cases pure_ok h; rfl

theorem retireBody_ok (h : retireBody p a s = .ok (t, w)) :
    ∃ i c, s.circuit i = some c ∧ c.state.name = .ended
      ∧ t = (((s.returnCircuitBuffers i).leaveOwner i).freeSlot i).judgeAtn := by
  unfold retireBody at h
  obtain ⟨_, -, h⟩ := bind_ok h
  obtain ⟨c, h1, h⟩ := bind_ok h
  obtain ⟨_, h2, h⟩ := bind_ok h
  cases pure_ok h
  exact ⟨_, c, (ownedCircuit_ok h1).1, by simpa using require_ok h2, rfl⟩

theorem takeBody_ok (h : takeBody p a s = .ok (t, w)) :
    ∃ i, t = ((s.leaveAttention p i).clearConditions i).judgeAtn := by
  unfold takeBody takeAccount at h
  iterate 2 obtain ⟨_, -, h⟩ := bind_ok h
  cases pure_ok h; exact ⟨_, rfl⟩

theorem takeNextBody_ok (h : takeNextBody p a s = .ok (t, w)) :
    ∃ i, t = ((s.leaveAttention p i).clearConditions i).judgeAtn := by
  unfold takeNextBody takeAccount at h
  split at h
  · cases h
  · split at h
    · cases h
    · cases h; exact ⟨_, rfl⟩

theorem portSetBody_ok (h : portSetBody p a s = .ok (t, w)) : ∃ f, t = (s.modPort p f).judgeAtn := by
  unfold portSetBody at h
  iterate 2 obtain ⟨_, -, h⟩ := bind_ok h
  cases pure_ok h; exact ⟨_, rfl⟩

end

/-! ## A predicate through the outcomes -/

/-- An outcome is no refusal: it is a next state that meets a predicate, or a fault that meets another. -/
def Outcome.meets (F : Fault → Prop) (P : State → Prop) : Outcome → Prop
  | .next t => P t
  | .fault f => F f
  | .refused _ => False

theorem Outcome.meets.next {F : Fault → Prop} {P : State → Prop} {o : Outcome} (h : Outcome.meets F P o) {t : State}
    (e : o = .next t) : P t := by subst e; exact h

/-- When no fault meets the predicate, the outcome is a next state. -/
theorem Outcome.meets.exists {P : State → Prop} {o : Outcome} (h : Outcome.meets (fun _ => False) P o) :
    ∃ t, o = .next t ∧ P t := by
  cases o with
  | next t => exact ⟨t, rfl, h⟩
  | fault f => exact h.elim
  | refused r => exact h.elim

section

variable {F : Fault → Prop} {P : State → Prop} {s : State}

/-- A command that is taken keeps a predicate that finishing keeps and that its body's answer meets. -/
theorem meets_takeCommand (h : P s) (hf : ∀ u p r w, P u → P (State.finish u p r w)) (code : Byte) {body : Body}
    (hb : ∀ p a t w, body p a s = .ok (t, w) → P t) : Outcome.meets F P (takeCommand code body s) := by
  unfold takeCommand
  split
  · exact h
  · unfold State.conclude
    split
    · exact (hf _ _ _ _ h)
    · rename_i e; exact (hf _ _ _ _ (hb _ _ _ _ e))

/-- What bits at a receiver do is a change of the receiver and then frames handed over and frames counted: a predicate that these keep
is kept. -/
theorem meets_takeEndings (hf : ∀ (u : State) l f, P u → Outcome.meets F P (u.frameArrives l f))
    (hd : ∀ (u : State) l, P u → P (u.countDiscard l)) (l : LineNo) (es : List Ending) :
    ∀ s, P s → Outcome.meets F P (State.takeEndings s l es) := by
  induction es with
  | nil => exact fun _ h => h
  | cons e es ih =>
    intro s h
    cases e with
    | closed content =>
      have key : Outcome.meets F P (s.closeContent l content) := by
        unfold State.closeContent
        repeat' split
        · exact hf _ _ _ h
        · exact hd _ _ h
        · exact hd _ _ h
      rw [State.takeEndings]
      split
      · rename_i e; exact ih _ (key.next e)
      · exact key
    | aborted content =>
      rw [State.takeEndings]
      refine ih _ ?_
      split
      · exact h
      · exact hd _ _ h

theorem meets_takeBits (hf : ∀ (u : State) l f, P u → Outcome.meets F P (u.frameArrives l f))
    (hr : ∀ (u : State) l x, (u.line l).receiver ≠ .off → x ≠ .off → P u → P (u.setReceiver l x))
    (hd : ∀ (u : State) l, P u → P (u.countDiscard l)) (h : P s) (l : LineNo) (bits : List Bool) :
    Outcome.meets F P (s.takeBits l bits) := by
  have key : ∀ x, (s.line l).receiver ≠ .off → Outcome.meets F P (s.settleReceiver l x) := fun x hx => by
    refine meets_takeEndings hf hd l _ _ (hr s l _ hx ?_ h)
    split <;> simp
  unfold State.takeBits
  split
  · split
    · exact h
    · rename_i e; exact key _ (by rw [e]; simp)
    · rename_i e; exact key _ (by rw [e]; simp)
  · exact h

theorem meets_receive (hf : ∀ (u : State) l f, P u → Outcome.meets F P (u.frameArrives l f))
    (hr : ∀ (u : State) l x, (u.line l).receiver ≠ .off → x ≠ .off → P u → P (u.setReceiver l x))
    (hd : ∀ (u : State) l, P u → P (u.countDiscard l)) (h : P s) (l : LineNo) (f : Frame) :
    Outcome.meets F P (s.receive l f) := by
  have key := meets_takeBits hf hr hd h l flagBits
  unfold State.receive
  split
  · split
    · rename_i t e
      have ht := key.next e
      unfold State.closeFields
      split
      · exact hf _ _ _ ht
      · exact hd _ _ ht
    · exact key
  · exact h

/-- An expiry keeps a predicate that the rule keeps at the circuit it meets, its timer stopped. -/
theorem meets_expire (h : P s) (i : SlotNo) (p : Purpose) {rule : Circuit → State → State}
    (hr : ∀ c, s.circuit i = some c → P (rule c (s.stopTimer i))) : Outcome.meets F P (s.expire i p rule) := by
  unfold State.expire
  split
  · split
    · exact h
    · rename_i c e
      split
      · exact (hr c e)
      · exact h
  · exact h

end

end Sys2Proof.Machine
end

