-- ==== Sys2Proof/Laws/Canonical.lean ====
section
/-! SUPPORT. Every shared operation keeps the canonical form of the maps of State. -/

namespace Sys2Proof.Machine.State

variable {s t : State}

/-- An operation that keeps the four maps keeps their form. -/
theorem canonical_of_keeps {xs : List Part} (h : s.canonical) (k : Keeps xs s t) (h1 : .memory ∉ xs) (h2 : .slots ∉ xs)
    (h3 : .places ∉ xs) (h4 : .index ∉ xs) : t.canonical :=
  ⟨by rw [k.at_memory h1]; exact h.memory, by rw [k.at_slots h2]; exact h.slots, by rw [k.at_places h3]; exact h.places,
    by rw [k.at_index h4]; exact h.index⟩

/-! ## The single updates -/

@[simp] theorem canonical_setPort (h : s.canonical) (p : PortNo) (r : Port) : (s.setPort p r).canonical :=
  ⟨h.memory, h.slots, h.places, h.index⟩
@[simp] theorem canonical_modPort (h : s.canonical) (p : PortNo) (f : Port → Port) : (s.modPort p f).canonical :=
  ⟨h.memory, h.slots, h.places, h.index⟩
@[simp] theorem canonical_modLine (h : s.canonical) (l : LineNo) (f : Line → Line) : (s.modLine l f).canonical :=
  ⟨h.memory, h.slots, h.places, h.index⟩
@[simp] theorem canonical_modTx (h : s.canonical) (l : LineNo) (f : Transmitter → Transmitter) :
    (s.modTx l f).canonical := ⟨h.memory, h.slots, h.places, h.index⟩
@[simp] theorem canonical_setEntry (h : s.canonical) (e : EntryNo) (x : ServiceEntry) : (s.setEntry e x).canonical :=
  ⟨h.memory, h.slots, h.places, h.index⟩
@[simp] theorem canonical_setReservedTotal (h : s.canonical) (n : Nat) : (s.setReservedTotal n).canonical :=
  ⟨h.memory, h.slots, h.places, h.index⟩
@[simp] theorem canonical_setWaitQueue (h : s.canonical) (q : List SlotNo) : (s.setWaitQueue q).canonical :=
  ⟨h.memory, h.slots, h.places, h.index⟩
@[simp] theorem canonical_setFreeQueue (h : s.canonical) (q : List BufNo) : (s.setFreeQueue q).canonical :=
  ⟨h.memory, h.slots, h.places, h.index⟩
@[simp] theorem canonical_setFreeSlots (h : s.canonical) (q : List SlotNo) : (s.setFreeSlots q).canonical :=
  ⟨h.memory, h.slots, h.places, h.index⟩
@[simp] theorem canonical_setFloor (h : s.canonical) (n : Nat) : (s.setFloor n).canonical :=
  ⟨h.memory, h.slots, h.places, h.index⟩
@[simp] theorem canonical_setLastServed (h : s.canonical) (p : PortNo) : (s.setLastServed p).canonical :=
  ⟨h.memory, h.slots, h.places, h.index⟩
@[simp] theorem canonical_setReadData (h : s.canonical) (x : ReadData) : (s.setReadData x).canonical :=
  ⟨h.memory, h.slots, h.places, h.index⟩
@[simp] theorem canonical_setFreeCount (h : s.canonical) (n : Nat) : (s.setFreeCount n).canonical :=
  ⟨h.memory, h.slots, h.places, h.index⟩
@[simp] theorem canonical_setSlot (h : s.canonical) (i : SlotNo) (x : Slot) : (s.setSlot i x).canonical :=
  ⟨h.memory, Sparse.wf_set h.slots, h.places, h.index⟩
@[simp] theorem canonical_setCircuit (h : s.canonical) (i : SlotNo) (c : Option Circuit) :
    (s.setCircuit i c).canonical := canonical_setSlot h i _
@[simp] theorem canonical_modCircuit (h : s.canonical) (i : SlotNo) (f : Circuit → Circuit) :
    (s.modCircuit i f).canonical := canonical_setSlot h i _
@[simp] theorem canonical_mapNumber (h : s.canonical) (l : LineNo) (n : Byte) (i : SlotNo) :
    (s.mapNumber l n i).canonical := ⟨h.memory, h.slots, h.places, Sparse.rising_insert h.index⟩
@[simp] theorem canonical_unmapNumber (h : s.canonical) (l : LineNo) (n : Byte) : (s.unmapNumber l n).canonical :=
  ⟨h.memory, h.slots, h.places, Sparse.rising_erase h.index⟩
@[simp] theorem canonical_setPlace (h : s.canonical) (b : BufNo) (x : Place) : (s.setPlace b x).canonical :=
  ⟨h.memory, h.slots, Sparse.wf_set h.places, h.index⟩
@[simp] theorem canonical_writeBuffer (h : s.canonical) (b : BufNo) (k : Nat) (vs : List Byte) :
    (s.writeBuffer b k vs).canonical := ⟨writeBuffer_wf h.memory b k vs, h.slots, h.places, h.index⟩

/-! ## The shared operations -/

theorem canonical_foldl {β : Type} {f : State → β → State} (hf : ∀ v b, v.canonical → (f v b).canonical) (bs : List β) :
    ∀ s : State, s.canonical → (bs.foldl f s).canonical := by
  induction bs with
  | nil => exact fun _ h => h
  | cons b bs ih => exact fun s h => ih _ (hf s b h)

@[simp] theorem canonical_owe (h : s.canonical) (i : SlotNo) (k : OwedKind) : (s.owe i k).canonical := by
  unfold owe; split <;> simp [h]
@[simp] theorem canonical_dropOwed (h : s.canonical) (i : SlotNo) (k : OwedKind) : (s.dropOwed i k).canonical := by
  unfold dropOwed; dsimp only; repeat' split
  all_goals simp [h]
@[simp] theorem canonical_startTimer (h : s.canonical) (i : SlotNo) (p : Purpose) : (s.startTimer i p).canonical :=
  canonical_modCircuit h i _
@[simp] theorem canonical_stopTimer (h : s.canonical) (i : SlotNo) : (s.stopTimer i).canonical :=
  canonical_modCircuit h i _
@[simp] theorem canonical_joinAttention (h : s.canonical) (p : PortNo) (i : SlotNo) : (s.joinAttention p i).canonical :=
  canonical_modPort h p _
@[simp] theorem canonical_leaveAttention (h : s.canonical) (p : PortNo) (i : SlotNo) :
    (s.leaveAttention p i).canonical := canonical_modPort h p _
@[simp] theorem canonical_clearConditions (h : s.canonical) (i : SlotNo) : (s.clearConditions i).canonical :=
  canonical_modCircuit h i _
@[simp] theorem canonical_raise (h : s.canonical) (i : SlotNo) (x : Conditions) : (s.raise i x).canonical := by
  unfold raise; dsimp only; repeat' split
  all_goals simp [h]
@[simp] theorem canonical_leaveOwner (h : s.canonical) (i : SlotNo) : (s.leaveOwner i).canonical := by
  unfold leaveOwner; repeat' split
  all_goals simp [h]
@[simp] theorem canonical_judgeAtn (h : s.canonical) : s.judgeAtn.canonical :=
  canonical_of_keeps h s.keeps_judgeAtn (by decide) (by decide) (by decide) (by decide)

@[simp] theorem canonical_grantOne (h : s.canonical) (i : SlotNo) (rest : List SlotNo) :
    (s.grantOne i rest).canonical := by
  unfold grantOne; dsimp only; split
  all_goals simp (maxDischargeDepth := 9) [h]
@[simp] theorem canonical_serveTimes (n : Nat) : ∀ s : State, s.canonical → (serveTimes n s).canonical := by
  induction n with
  | zero => exact fun _ h => h
  | succ n ih => intro s h; rw [serveTimes]; split <;> simp [h, ih]
@[simp] theorem canonical_serveWait (h : s.canonical) : s.serveWait.canonical := canonical_serveTimes _ s h
@[simp] theorem canonical_joinWait (h : s.canonical) (i : SlotNo) : (s.joinWait i).canonical := by
  unfold joinWait; split <;> simp [h]
@[simp] theorem canonical_leaveWait (h : s.canonical) (i : SlotNo) : (s.leaveWait i).canonical :=
  canonical_setWaitQueue h _
@[simp] theorem canonical_joinWaitIfShort (h : s.canonical) (i : SlotNo) : (s.joinWaitIfShort i).canonical := by
  unfold joinWaitIfShort; split <;> simp [h]
@[simp] theorem canonical_reserve (h : s.canonical) (i : SlotNo) (n : Nat) : (s.reserve i n).canonical := by
  unfold reserve; simp [h]
@[simp] theorem canonical_releaseReservations (h : s.canonical) (i : SlotNo) :
    (s.releaseReservations i).canonical := by
  unfold releaseReservations; split
  all_goals simp (maxDischargeDepth := 9) [h]
@[simp] theorem canonical_returnBuffer (h : s.canonical) (b : BufNo) : (s.returnBuffer b).canonical := by
  unfold returnBuffer; simp [h]
@[simp] theorem canonical_returnBuffers (h : s.canonical) (bs : List BufNo) : (s.returnBuffers bs).canonical :=
  canonical_foldl (fun _ b hv => canonical_returnBuffer hv b) bs s h
@[simp] theorem canonical_returnCircuitBuffers (h : s.canonical) (i : SlotNo) :
    (s.returnCircuitBuffers i).canonical := by
  unfold returnCircuitBuffers; split
  all_goals simp (maxDischargeDepth := 9) [h]
@[simp] theorem canonical_settleReady (h : s.canonical) (i : SlotNo) : (s.settleReady i).canonical :=
  canonical_of_keeps h (s.keeps_settleReady i) (by decide) (by decide) (by decide) (by decide)
@[simp] theorem canonical_settleStall (h : s.canonical) (i : SlotNo) : (s.settleStall i).canonical := by
  unfold settleStall; repeat' split
  all_goals simp [h]
@[simp] theorem canonical_offerReply (h : s.canonical) (l : LineNo) (r : Reply) : (s.offerReply l r).canonical :=
  canonical_modTx h l _
theorem canonical_allocate {c : Circuit} {i : SlotNo} (h : s.canonical) (ha : s.allocate c = some (i, t)) :
    t.canonical := by
  unfold allocate at ha
  split at ha
  · cases ha
  · simp only [Option.some.injEq, Prod.mk.injEq] at ha
    obtain ⟨rfl, rfl⟩ := ha
    simp (maxDischargeDepth := 9) [h]
@[simp] theorem canonical_lowerLive (h : s.canonical) (o : Origin) : (s.lowerLive o).canonical := by
  unfold lowerLive; split <;> simp [h]
@[simp] theorem canonical_enterClosing (h : s.canonical) (i : SlotNo) (cause : Byte) :
    (s.enterClosing i cause).canonical := by
  unfold enterClosing; split
  all_goals simp (maxDischargeDepth := 12) [h]
@[simp] theorem canonical_endSteps (h : s.canonical) (i : SlotNo) : (s.endSteps i).canonical := by
  unfold endSteps; split
  all_goals simp (maxDischargeDepth := 12) [h]
@[simp] theorem canonical_endRecord (h : s.canonical) (i : SlotNo) (cause : Byte) (side : Side)
    (m : Option Confirmation) : (s.endRecord i cause side m).canonical := by
  unfold endRecord; simp (maxDischargeDepth := 9) [h]
@[simp] theorem canonical_enterEnded (h : s.canonical) (i : SlotNo) (cause : Byte) (side : Side)
    (m : Option Confirmation) : (s.enterEnded i cause side m).canonical := by
  unfold enterEnded; simp [h]
@[simp] theorem canonical_freeSlot (h : s.canonical) (i : SlotNo) : (s.freeSlot i).canonical := by
  unfold freeSlot; simp [h]
@[simp] theorem canonical_directFree (h : s.canonical) (i : SlotNo) : (s.directFree i).canonical := by
  unfold directFree; simp (maxDischargeDepth := 9) [h]
@[simp] theorem canonical_endClosing (h : s.canonical) (i : SlotNo) (m : Confirmation) :
    (s.endClosing i m).canonical := by
  unfold endClosing; repeat' split
  all_goals simp [h]
@[simp] theorem canonical_putLine (h : s.canonical) (l : LineNo) (f : Line → Line) : (s.putLine l f).canonical :=
  canonical_modLine h l _
@[simp] theorem canonical_countDiscard (h : s.canonical) (l : LineNo) : (s.countDiscard l).canonical :=
  canonical_modLine h l _
theorem canonical_endByTeardown (cause : Byte) (v : State) (i : SlotNo) (h : v.canonical) :
    (endByTeardown cause v i).canonical := by
  unfold endByTeardown; repeat' split
  all_goals simp [h]
@[simp] theorem canonical_teardown (h : s.canonical) (l : LineNo) (cause : Byte) : (s.teardown l cause).canonical := by
  have h2 := canonical_foldl (canonical_endByTeardown cause) (s.mappedSlots l)
    (s.setWaitQueue (s.waitQueue.filter fun i => i ∉ s.mappedSlots l)) (canonical_setWaitQueue h _)
  unfold teardown; dsimp only; split
  · exact canonical_modLine (canonical_countDiscard (canonical_modLine h2 _ _) _) _ _
  · exact canonical_modLine h2 _ _

/-! ## Arrivals -/

@[simp] theorem canonical_admit (h : s.canonical) (l : LineNo) (n service edge : Byte) :
    (s.admitCall l n service edge).canonical := by
  unfold admitCall refuseCall admitOffer admitAccept refuseCall
  repeat' split
  all_goals first
    | simp [h]
    | (rename_i ha; simp (maxDischargeDepth := 12) [canonical_allocate h ha])
@[simp] theorem canonical_collide (h : s.canonical) (i : SlotNo) (l : LineNo) (n service edge : Byte) :
    (s.collide i l n service edge).canonical := by
  unfold collide; dsimp only; repeat' split
  all_goals simp (maxDischargeDepth := 12) [h]
@[simp] theorem canonical_openArrives (h : s.canonical) (l : LineNo) (n a b : Byte) :
    (s.openArrives l n a b).canonical := by
  unfold openArrives; repeat' split
  all_goals simp [h]
@[simp] theorem canonical_strayArrives (h : s.canonical) (l : LineNo) (n : Byte) (k : FrameKind) :
    (s.strayArrives l n k).canonical := by
  unfold strayArrives; split
  all_goals simp [h]
@[simp] theorem canonical_grantArrives (h : s.canonical) (l : LineNo) (n a : Byte) :
    (s.grantArrives l n a).canonical := by
  unfold grantArrives; dsimp only; repeat' split
  all_goals simp (maxDischargeDepth := 12) [h]
@[simp] theorem canonical_refuseArrives (h : s.canonical) (l : LineNo) (n a : Byte) :
    (s.refuseArrives l n a).canonical := by
  unfold refuseArrives; repeat' split
  all_goals simp [h]
@[simp] theorem canonical_violate (h : s.canonical) (i : SlotNo) : (s.violate i).canonical :=
  canonical_enterClosing h i _
@[simp] theorem canonical_takeCarry (h : s.canonical) (i : SlotNo) (b : BufNo) (rest : List BufNo) (m : Bool)
    (vs : List Byte) : (s.takeCarry i b rest m vs).canonical := by
  unfold takeCarry; simp (maxDischargeDepth := 14) [h]
@[simp] theorem canonical_settleTimer (h : s.canonical) (i : SlotNo) (n : Nat) : (s.settleTimer i n).canonical := by
  unfold settleTimer; repeat' split
  all_goals simp [h]
@[simp] theorem canonical_settleDrain (h : s.canonical) (i : SlotNo) : (s.settleDrain i).canonical := by
  unfold settleDrain; repeat' split
  all_goals simp [h]
@[simp] theorem canonical_settleCredit (h : s.canonical) (i : SlotNo) (n : Nat) (e : Bool) :
    (s.settleCredit i n e).canonical := by
  unfold settleCredit; dsimp only; split
  all_goals simp (maxDischargeDepth := 9) [h]
@[simp] theorem canonical_acknowledge (h : s.canonical) (i : SlotNo) (c : Circuit) (n : Nat) (a : Seq) :
    (s.acknowledge i c n a).canonical := by
  unfold acknowledge; dsimp only; split
  all_goals simp (maxDischargeDepth := 9) [h]
@[simp] theorem canonical_creditArrives (h : s.canonical) (l : LineNo) (n a b : Byte) :
    (s.creditArrives l n a b).canonical := by
  unfold creditArrives; dsimp only; repeat' split
  all_goals simp (maxDischargeDepth := 9) [h]
@[simp] theorem canonical_askArrives (h : s.canonical) (l : LineNo) (n : Byte) : (s.askArrives l n).canonical := by
  unfold askArrives; repeat' split
  all_goals simp [h]
@[simp] theorem canonical_closeArrives (h : s.canonical) (l : LineNo) (n a : Byte) :
    (s.closeArrives l n a).canonical := by
  unfold closeArrives; repeat' split
  all_goals simp [h]
@[simp] theorem canonical_closedArrives (h : s.canonical) (l : LineNo) (n : Byte) :
    (s.closedArrives l n).canonical := by
  unfold closedArrives; repeat' split
  all_goals simp [h]

/-! ## The transmitter -/

@[simp] theorem canonical_stage (h : s.canonical) (l : LineNo) (f : Frame) (m : Bool) (n : Option Noted) :
    (s.stage l f m n).canonical := canonical_modTx h l _
theorem canonical_selectControl (l : LineNo) (n : Nat) : ∀ s : State, s.canonical → (selectControl l n s).canonical := by
  induction n with
  | zero => exact fun _ h => h
  | succ n ih =>
    intro s h
    rw [selectControl]
    repeat' split
    all_goals first
      | exact h
      | (refine ih _ ?_; simp [h])
      | simp (maxDischargeDepth := 9) [h]
@[simp] theorem canonical_stageData (h : s.canonical) (l : LineNo) (i : SlotNo) (rest : List SlotNo) :
    (s.stageData l i rest).canonical := by
  unfold stageData; dsimp only; repeat' split
  all_goals simp (maxDischargeDepth := 9) [h]
@[simp] theorem canonical_select (h : s.canonical) (l : LineNo) : (s.select l).canonical := by
  have h1 := canonical_selectControl l (s.line l).tx.control.length s h
  unfold select; dsimp only; repeat' split
  all_goals simp [h1]
@[simp] theorem canonical_complete (h : s.canonical) (x : Staged) : (s.complete x).canonical := by
  unfold complete applyCompletion; repeat' split
  all_goals simp [h]

end Sys2Proof.Machine.State
end

