-- ==== Sys2Proof/Laws/Checks.lean ====
section
/-! SUPPORT. The checks of a command's arguments, both ways: what passes is in range, and what is out of range fails with BAD-ARGUMENT. -/

namespace Sys2Proof.Machine

/-- A command that is taken and fails a check changes nothing but its slot. -/
theorem fails_of {s : State} {p : PortNo} {code : Byte} {body : Body} {c : Instr} {r : ResultCode}
    (h : s.taken p code) (hc : exec c s = takeCommand code body s) (hb : body p (s.port p).args s = .error r) :
    ∃ t, exec c s = .next t ∧ s.fails t p r :=
  ⟨_, by rw [hc, takeCommand_of_taken h, hb]; rfl, State.fails_finish s p r⟩

/-- A word in range is the handle of a slot and a generation. -/
theorem handleArg_ok {w : Word} {i : SlotNo} (h1 : w.toNat ≤ 4095) (h2 : w.toNat % 256 = i.val) :
    handleArg w = .ok (i, BitVec.ofNat 4 (w.toNat / 256)) := by
  unfold handleArg
  have := i.isLt
  rw [if_neg (by omega), dif_pos (by omega)]
  congr

/-- The handle argument is a handle, or fails with BAD-ARGUMENT. -/
theorem handleArg_cases (w : Word) : handleArg w = .error .badArgument ∨ ∃ h, handleArg w = .ok h := by
  unfold handleArg; split_ifs <;> simp

/-- The buffer argument is a buffer, or fails with BAD-ARGUMENT. -/
theorem bufferArg_cases (w : Word) : bufferArg w = .error .badArgument ∨ ∃ h, bufferArg w = .ok h := by
  unfold bufferArg; split_ifs <;> simp

/-- A number above 511 names no buffer. -/
theorem bufferArg_bad {w : Word} (h : 511 < w.toNat) : bufferArg w = .error .badArgument := by
  unfold bufferArg; rw [dif_neg (by omega)]

/-- A number above 7 names no line. -/
theorem lineArg_bad {w : Word} (h : 7 < w.toNat) : lineArg w = .error .badArgument := by
  unfold lineArg; rw [dif_neg (by omega)]

/-- The line argument is a line, or fails with BAD-ARGUMENT. -/
theorem lineArg_cases (w : Word) : lineArg w = .error .badArgument ∨ ∃ h, lineArg w = .ok h := by
  unfold lineArg; split_ifs <;> simp

/-- A number above 23 names no service entry. -/
theorem entryArg_bad {w : Nat} (h : 23 < w) : entryArg w = .error .badArgument := by
  unfold entryArg; rw [dif_neg (by omega)]

/-- The entry argument is an entry, or fails with BAD-ARGUMENT. -/
theorem entryArg_cases (w : Nat) : entryArg w = .error .badArgument ∨ ∃ h, entryArg w = .ok h := by
  unfold entryArg; split_ifs <;> simp

/-- The causes a client may give. -/
theorem clientCause_iff (n : Nat) (w : Word) : clientCause n w = true ↔ (w.toNat = n ∨ 16 ≤ w.toNat ∧ w.toNat ≤ 255) := by
  simp [clientCause]

/-- The service code argument is a code or any code, or fails with BAD-ARGUMENT. -/
theorem codeArg_cases (w : Word) : codeArg w = .error .badArgument ∨ ∃ o, codeArg w = .ok o ∧ (match o with
      | none => w = 0xFFFFFFFF#32
      | some x => w.toNat = x.toNat) := by
  unfold codeArg
  split_ifs with h1 h2
  · exact .inr ⟨none, rfl, h1⟩
  · exact .inr ⟨_, rfl, by simp [BitVec.toNat_setWidth]; omega⟩
  · exact .inl rfl

/-- The port argument is a port, or fails with BAD-ARGUMENT. -/
theorem portArg_cases (v : Nat) : portArg v = .error .badArgument ∨ ∃ p : PortNo, portArg v = .ok p ∧ v = p.val := by
  unfold portArg
  split_ifs with h
  · exact .inr ⟨_, rfl, rfl⟩
  · exact .inl rfl

/-- A byte of a word is at most 255. -/
theorem bitsOf_lt (w : Word) (lo : Nat) : bitsOf w (lo + 7) lo ≤ 255 := by
  have := (w.extractLsb' lo (lo + 7 + 1 - lo)).isLt
  have e : lo + 7 + 1 - lo = 8 := by omega
  rw [bitsOf]
  rw [e] at *
  omega

/-- The action arguments give an action with its fields in range, or fail with BAD-ARGUMENT. -/
theorem actionArg_cases (a0 a2 : Word) : actionArg a0 a2 = .error .badArgument ∨ ∃ x, actionArg a0 a2 = .ok x ∧ (match x with
      | .offer client limit =>
        bitsOf a0 15 8 = 1 ∧ bitsOf a0 23 16 = client.val ∧ bitsOf a2 31 16 = limit ∧ 1 ≤ limit ∧ limit ≤ 192
      | .accept client credit limit =>
        bitsOf a0 15 8 = 2 ∧ bitsOf a0 23 16 = client.val ∧ bitsOf a2 31 16 = limit ∧ 1 ≤ limit ∧ limit ≤ 192
          ∧ bitsOf a2 15 8 = credit ∧ credit ≤ 15
      | .refuse cause => bitsOf a0 15 8 = 3 ∧ bitsOf a2 7 0 = cause.toNat ∧ 16 ≤ cause.toNat) := by
  unfold actionArg
  have hb := bitsOf_lt a2 0
  simp only [Nat.reduceAdd] at hb
  split
  · rename_i e
    rcases portArg_cases (bitsOf a0 23 16) with h | ⟨p, h, hp⟩
    · left; rw [h]; rfl
    · rw [h]
      by_cases hl : 1 ≤ bitsOf a2 31 16 ∧ bitsOf a2 31 16 ≤ 192
      · right
        refine ⟨.offer p (bitsOf a2 31 16), ?_, e, hp, rfl, hl.1, hl.2⟩
        simp [hl, bind, Except.bind, pure, Except.pure]
      · left
        have : (decide (1 ≤ bitsOf a2 31 16) && decide (bitsOf a2 31 16 ≤ 192)) = false := by
          simpa using hl
        simp only [bind, Except.bind, this, require_false]
  · rename_i e
    rcases portArg_cases (bitsOf a0 23 16) with h | ⟨p, h, hp⟩
    · left; rw [h]; rfl
    · rw [h]
      by_cases hl : 1 ≤ bitsOf a2 31 16 ∧ bitsOf a2 31 16 ≤ 192
      · by_cases hc : bitsOf a2 15 8 ≤ 15
        · right
          refine ⟨.accept p (bitsOf a2 15 8) (bitsOf a2 31 16), ?_, e, hp, rfl, hl.1, hl.2, rfl, hc⟩
          simp [hl, hc, bind, Except.bind, pure, Except.pure]
        · left
          simp [hl, hc, bind, Except.bind]
      · left
        have : (decide (1 ≤ bitsOf a2 31 16) && decide (bitsOf a2 31 16 ≤ 192)) = false := by
          simpa using hl
        simp only [bind, Except.bind, this, require_false]
  · rename_i e
    by_cases hc : 16 ≤ bitsOf a2 7 0
    · right
      refine ⟨.refuse (BitVec.ofNat 8 (bitsOf a2 7 0)), ?_, e, ?_, ?_⟩
      · simp [hc, bind, Except.bind, pure, Except.pure]
      · simp [BitVec.toNat_ofNat]; omega
      · simp [BitVec.toNat_ofNat]; omega
    · left; simp [hc, bind, Except.bind]
  · left; rfl

/-- The configuration arguments describe a configuration, or fail with BAD-ARGUMENT. -/
theorem configArg_cases (a : Args) : configArg a.a1 a.a2 = .error .badArgument ∨ ∃ g, describesLine a g := by
  have b1 := bitsOf_lt a.a1 8
  have b2 := bitsOf_lt a.a2 0
  have b3 := bitsOf_lt a.a2 8
  have b4 := bitsOf_lt a.a2 16
  have b5 := bitsOf_lt a.a2 24
  simp only [Nat.reduceAdd] at b1 b2 b3 b4 b5
  have hr : roleArg (bitsOf a.a1 7 0) = .error .badArgument ∨ ∃ r, roleArg (bitsOf a.a1 7 0) = .ok r ∧ bitsOf a.a1 7 0 = r.code := by
    generalize bitsOf a.a1 7 0 = n
    match n with
    | 0 => exact .inr ⟨.originRole, rfl, rfl⟩
    | 1 => exact .inr ⟨.answerRole, rfl, rfl⟩
    | n + 2 => exact .inl rfl
  rcases hr with hr | ⟨r, hr, hrc⟩
  · left; simp [configArg, hr, bind, Except.bind]
  · by_cases h1 : (durationOk (bitsOf a.a1 15 8) && durationOk (bitsOf a.a2 7 0) && durationOk (bitsOf a.a2 15 8) && durationOk (bitsOf a.a2 23 16)
        && durationOk (bitsOf a.a2 31 24)) = true
    · by_cases h2 : (decide (1 ≤ bitsOf a.a1 23 16) && decide (bitsOf a.a1 23 16 ≤ 15)) = true
      · right
        simp [durationOk] at h1 h2
        exact ⟨⟨r, _, _, _, _, _, _⟩, hrc, rfl, rfl, rfl, rfl, rfl, rfl, h1.1.1.1.1.1, h1.1.1.1.2.1, h1.1.1.2.1, h1.1.2.1, h1.2.1, h2.1, h2.2⟩
      · left
        simp only [configArg, hr, bind, Except.bind, h1, require_true, Bool.not_eq_true _ ▸ h2, require_false]
    · left
      simp only [configArg, hr, bind, Except.bind, Bool.not_eq_true _ ▸ h1, require_false]

/-- SERVICE-SET of no entry, or of arguments that describe no fields, fails with BAD-ARGUMENT. -/
theorem serviceSet_bad {s : State} {a : Args} (h : 23 < bitsOf a.a0 7 0 ∨ ∀ f, ¬ describesService a f) :
    serviceSetBody 0 a s = .error .badArgument := by
  rcases h with h | h
  · simp [serviceSetBody, supervisorOnly, entryArg_bad h, bind, Except.bind]
  · rcases entryArg_cases (bitsOf a.a0 7 0) with he | ⟨e, he⟩
    · simp [serviceSetBody, supervisorOnly, he, bind, Except.bind]
    · rcases actionArg_cases a.a0 a.a2 with ha | ⟨x, ha, hx⟩
      · simp [serviceSetBody, supervisorOnly, he, ha, bind, Except.bind]
      · rcases codeArg_cases a.a1 with hc | ⟨o, hc, ho⟩
        · simp [serviceSetBody, supervisorOnly, he, ha, hc, bind, Except.bind]
        · exact absurd ⟨rfl, ho, hx⟩ (h ⟨o, _, x⟩)

/-- LINE-SET of no line, or of arguments that describe no configuration, fails with BAD-ARGUMENT. -/
theorem lineSet_bad {s : State} {a : Args} (h : 7 < a.a0.toNat ∨ ∀ g, ¬ describesLine a g) :
    lineSetBody 0 a s = .error .badArgument := by
  rcases h with h | h
  · simp [lineSetBody, supervisorOnly, lineArg_bad h, bind, Except.bind]
  · rcases lineArg_cases a.a0 with he | ⟨e, he⟩
    · simp [lineSetBody, supervisorOnly, he, bind, Except.bind]
    · rcases configArg_cases a with hc | ⟨g, hg⟩
      · simp [lineSetBody, supervisorOnly, he, hc, bind, Except.bind]
      · exact absurd hg (h g)

end Sys2Proof.Machine
end

