-- ==== Sys2Proof/Laws/Numbers.lean ====
section
/-! SUPPORT. The choice of a circuit number: what chooseNumber answers is the number R10 describes. -/

namespace Sys2Proof.Machine.State

theorem mem_circuitNumbers {n : Byte} : n ∈ circuitNumbers ↔ 1 ≤ n.toNat ∧ n.toNat ≤ 127 := by
  have h : ∀ n : Byte, n ∈ circuitNumbers ↔ 1 ≤ n.toNat ∧ n.toNat ≤ 127 := by decide +kernel
  exact h n

theorem circuitNumbers_rising : circuitNumbers.Pairwise fun a b => a.toNat < b.toNat := by decide +kernel

/-- The first element of a list that passes a test, when the list is sorted by a relation and no passing element comes before. -/
theorem find_of_first {r : Byte → Byte → Prop} {q : List Byte} {test : Byte → Bool} {n : Byte} (hq : q.Pairwise r)
    (hn : n ∈ q) (ht : test n = true) (first : ∀ m ∈ q, test m = true → ¬ r m n) : q.find? test = some n := by
  induction q with
  | nil => simp at hn
  | cons a q ih =>
    rw [List.find?_cons]
    rcases List.mem_cons.1 hn with h | h
    · subst h; simp [ht]
    · cases hta : test a with
      | true => exact absurd ((List.pairwise_cons.1 hq).1 n h) (first a List.mem_cons_self hta)
      | false =>
        exact ih (List.pairwise_cons.1 hq).2 h fun m hm => first m (List.mem_cons_of_mem _ hm)

theorem chooseNumber_of_numberFor {s : State} {l : LineNo} {role : Role} {n : Byte} (h : s.numberFor l role n) :
    s.chooseNumber l role = some n := by
  obtain ⟨⟨h1, h2, h3⟩, h4⟩ := h
  cases role with
  | originRole =>
    refine find_of_first circuitNumbers_rising (mem_circuitNumbers.2 ⟨h1, h2⟩) (by simp [numberFree, h3]) ?_
    intro m hm ht
    have := h4 m (mem_circuitNumbers.1 hm).1 (mem_circuitNumbers.1 hm).2 (by simpa [numberFree] using ht)
    simp only at this
    omega
  | answerRole =>
    refine find_of_first (r := fun a b => b.toNat < a.toNat) (List.pairwise_reverse.2 circuitNumbers_rising)
      (List.mem_reverse.2 (mem_circuitNumbers.2 ⟨h1, h2⟩)) (by simp [numberFree, h3]) ?_
    intro m hm ht
    have hm' := List.mem_reverse.1 hm
    have := h4 m (mem_circuitNumbers.1 hm').1 (mem_circuitNumbers.1 hm').2 (by simpa [numberFree] using ht)
    simp only at this
    omega

/-- When all numbers are held, none is chosen. -/
theorem chooseNumber_none {s : State} {l : LineNo} (h : ∀ n : Byte, 1 ≤ n.toNat → n.toNat ≤ 127 → s.lookup l n ≠ none)
    (role : Role) : s.chooseNumber l role = none := by
  have key : ∀ n ∈ circuitNumbers, ¬ s.numberFree l n = true := fun n hn => by
    have := h n (mem_circuitNumbers.1 hn).1 (mem_circuitNumbers.1 hn).2
    simpa [numberFree] using this
  cases role with
  | originRole => exact List.find?_eq_none.2 key
  | answerRole => exact List.find?_eq_none.2 fun n hn => key n (List.mem_reverse.1 hn)

end Sys2Proof.Machine.State
end

