-- ==== Sys2Proof/Laws/Frames.lean ====
section
/-! SUPPORT. How a frame reaches the directory, what it meets there, and the matching entry of admission. -/

namespace Sys2Proof.Machine.State

variable {s : State} {l : LineNo} {n : Byte} {i : SlotNo} {c : Circuit}

/-! ## The receiver -/

theorem keeps_setReceiver (s : State) (l : LineNo) (x : Receiver) : Keeps [.lines] s (s.setReceiver l x) :=
  s.keeps_modLine l _

@[simp] theorem line_setReceiver_same (x : Receiver) :
    (s.setReceiver l x).line l = { s.line l with receiver := x } := line_modLine_same _ _ _

theorem line_setReceiver_ne {m : LineNo} (h : m ≠ l) (x : Receiver) : (s.setReceiver l x).line m = s.line m :=
  line_modLine_ne _ h _

@[simp] theorem circuit_setReceiver (x : Receiver) (j : SlotNo) : (s.setReceiver l x).circuit j = s.circuit j := rfl
@[simp] theorem slot_setReceiver (x : Receiver) (j : SlotNo) : (s.setReceiver l x).slot j = s.slot j := rfl
@[simp] theorem port_setReceiver (x : Receiver) (q : PortNo) : (s.setReceiver l x).port q = s.port q := rfl
@[simp] theorem entry_setReceiver (x : Receiver) (e : EntryNo) : (s.setReceiver l x).entry e = s.entry e := rfl
@[simp] theorem place_setReceiver (x : Receiver) (b : BufNo) : (s.setReceiver l x).place b = s.place b := rfl
@[simp] theorem bufferByte_setReceiver (x : Receiver) (b : BufNo) (k : Nat) :
    (s.setReceiver l x).bufferByte b k = s.bufferByte b k := rfl
@[simp] theorem lookup_setReceiver (x : Receiver) (m : LineNo) (o : Byte) :
    (s.setReceiver l x).lookup m o = s.lookup m o := rfl
@[simp] theorem available_setReceiver (x : Receiver) : (s.setReceiver l x).available = s.available := rfl

/-- A line written with what it holds is unchanged. -/
theorem setLine_self (s : State) (l : LineNo) : s.setLine l (s.line l) = s := by
  simp [setLine, line]

/-- A receiver that holds a state already is unchanged by taking it. -/
theorem setReceiver_self {x : Receiver} (h : (s.line l).receiver = x) : s.setReceiver l x = s := by
  subst h
  exact setLine_self s l

/-- What a flag leaves the receiver in FRAME, with nothing gathered, and ends nothing when nothing was. -/
theorem takeBits_flag (h1 : s.phase = .running) (h2 : (s.line l).receiver = .hunt ∨ (s.line l).receiver = .frame []) :
    s.takeBits l flagBits = .next (s.setReceiver l (.frame [])) := by
  rcases h2 with h | h <;> simp only [takeBits, h1, h, if_true] <;> rfl

/-- A frame that ends at a receiver with nothing gathered is judged by its fields (R131). -/
theorem receive_of_open (h1 : s.phase = .running) (h2 : (s.line l).receiver = .hunt ∨ (s.line l).receiver = .frame [])
    (f : Frame) : s.receive l f = (s.setReceiver l (.frame [])).closeFields l f := by
  have hn : (s.line l).receiver ≠ .off := by rcases h2 with h | h <;> simp [h]
  simp only [receive, h1, hn, ne_eq, not_false_eq_true, and_self, if_true, takeBits_flag h1 h2]

/-- A valid frame that ends at a receiver on an ACTIVE line reaches the directory; its flag opens the next frame (R131, R132). -/
theorem receive_of_hears (h : s.hears l) {f : Frame} (hf : frameValid f = true) :
    s.receive l f = (s.setReceiver l (.frame [])).frameArrives l f := by
  rw [receive_of_open h.1 h.2.2, closeFields, if_pos]
  exact ⟨by rw [line_setReceiver_same]; exact h.2.1, hf⟩

/-- A frame is valid when its number and its fields are in range (R131). -/
theorem frameValid_of {f : Frame} (h1 : 1 ≤ f.number.toNat) (h2 : f.number.toNat ≤ 127) (h3 : fieldsAllowed f = true) :
    frameValid f = true := by
  have a : (1 : Byte) ≤ f.number := h1
  have b : f.number ≤ (127 : Byte) := h2
  simp only [frameValid, h3, Bool.and_true, Bool.and_eq_true, decide_eq_true_eq]
  exact ⟨a, b⟩

/-- A frame row on a line that hears it hands its frame to the directory. -/
theorem exec_of_hears (h : s.hears l) {x : Instr} {f : Frame} (hx : exec x s = s.receive l f)
    (hf : frameValid f = true) : exec x s = (s.setReceiver l (.frame [])).frameArrives l f := by
  rw [hx, receive_of_hears h hf]

/-- After a frame the receiver hears the next. -/
theorem hears_setReceiver (h : s.hears l) : (s.setReceiver l (.frame [])).hears l :=
  ⟨h.1, by simpa using h.2.1, .inr (by simp)⟩

/-! ## Arrivals -/

theorem arrivalAt_of_mapped (h : s.mappedAt l n i c) : s.arrivalAt l n = some (i, c) := by
  simp [arrivalAt, h.1, h.2]

theorem arrivalAt_of_unmapped (h : s.lookup l n = none) : s.arrivalAt l n = none := by
  simp [arrivalAt, h]

theorem mappedAt_setReceiver (x : Receiver) (h : s.mappedAt l n i c) : (s.setReceiver l x).mappedAt l n i c := h

/-! ## The matching entry (R100) -/

theorem matchEntry_eq_some {service : Byte} {x : ServiceEntry} {f : ServiceFields} {live : Nat} :
    matchEntry l service x = some (f, live) ↔ x = .active f live ∧ f.fits l service := by
  cases x with
  | empty => simp [matchEntry]
  | withdrawn g m => simp [matchEntry]
  | active g m =>
    simp only [matchEntry, ServiceFields.fits, Bool.and_eq_true, Bool.or_eq_true, decide_eq_true_eq,
      ServiceEntry.active.injEq]
    split_ifs with h
    · constructor
      · intro e; cases e; exact ⟨⟨rfl, rfl⟩, h⟩
      · rintro ⟨⟨rfl, rfl⟩, _⟩; rfl
    · constructor
      · intro e; cases e
      · rintro ⟨⟨rfl, rfl⟩, h'⟩; exact absurd h' h

theorem matchEntry_eq_none {service : Byte} {x : ServiceEntry} :
    matchEntry l service x = none ↔ ∀ g m, x = .active g m → ¬ g.fits l service := by
  constructor
  · intro h g m e hf
    rw [matchEntry_eq_some.2 ⟨e, hf⟩] at h
    cases h
  · intro h
    cases hm : matchEntry l service x with
    | none => rfl
    | some y =>
      obtain ⟨g, m⟩ := y
      obtain ⟨e, hf⟩ := matchEntry_eq_some.1 hm
      exact absurd hf (h g m e)

theorem findSome_of_first {α β : Type} {f : α → Option β} {r : α → α → Prop} {q : List α} (hq : q.Pairwise r) {a : α}
    {b : β} (ha : a ∈ q) (hb : f a = some b) (hfirst : ∀ x ∈ q, r x a → f x = none) : q.findSome? f = some b := by
  induction q with
  | nil => cases ha
  | cons x q ih =>
    obtain ⟨h1, h2⟩ := List.pairwise_cons.1 hq
    rcases List.mem_cons.1 ha with rfl | ha
    · simp [hb]
    · rw [List.findSome?_cons, hfirst x List.mem_cons_self (h1 a ha)]
      exact ih h2 ha fun y hy => hfirst y (List.mem_cons_of_mem _ hy)

theorem finRange_rising (k : Nat) : (List.finRange k).Pairwise fun a b : Fin k => a < b := List.pairwise_lt_finRange k

theorem matchingEntry_of_admits {service : Byte} {e : EntryNo} {f : ServiceFields} {live : Nat}
    (h : s.admits l service e f live) : s.matchingEntry l service = some (e, f, live) := by
  refine findSome_of_first (finRange_rising 24) (List.mem_finRange e) ?_ fun d _ hd => ?_
  · rw [matchEntry_eq_some.2 ⟨h.1, h.2.1⟩]; rfl
  · rw [matchEntry_eq_none.2 fun g m hg => h.2.2 d g m hd hg]; rfl

theorem matchingEntry_of_none {service : Byte} (h : ∀ d g m, s.entry d = .active g m → ¬ g.fits l service) :
    s.matchingEntry l service = none := by
  rw [matchingEntry, List.findSome?_eq_none_iff]
  intro d _
  rw [matchEntry_eq_none.2 (h d)]; rfl

/-! ## Allocation (R3) -/

theorem allocate_of_free {rest : List SlotNo} (h : s.freeSlots = i :: rest) (c : Circuit) :
    s.allocate c = some (i, ((s.setFreeSlots rest).setSlot i ⟨(s.slot i).generation + 1, some c⟩).mapNumber c.line
      c.number i) := by
  simp [allocate, h]

theorem allocate_of_full (h : s.freeSlots = []) (c : Circuit) : s.allocate c = none := by
  simp [allocate, h]

end Sys2Proof.Machine.State
end

