-- ==== Sys2Proof/Laws/Outputs.lean ====
section
/-! SUPPORT. Every operation that is not followed by a judgement leaves the ATN outputs and all they are judged by alone. -/

namespace Sys2Proof.Machine

/-- Between two states the ATN outputs, and all that R178 and R179 judge them by, are the same. -/
structure SameAtn (r s : State) : Prop where
  ports : ∀ q, (s.port q).attention = (r.port q).attention ∧ (s.port q).holdoffCount = (r.port q).holdoffCount
    ∧ (s.port q).holdoff = (r.port q).holdoff ∧ (s.port q).atn = (r.port q).atn
  conditions : ∀ i, s.conditionsOf i = r.conditionsOf i
  changes : ∀ l, (s.line l).changed = (r.line l).changed

/-- Every ATN output is at the level that R178 and R179 give. -/
def State.outputsRight (s : State) : Prop := ∀ q, (s.port q).atn = s.atnLevel q

variable {r s t : State}

namespace SameAtn

theorem refl (s : State) : SameAtn s s := ⟨fun _ => ⟨rfl, rfl, rfl, rfl⟩, fun _ => rfl, fun _ => rfl⟩

theorem trans (h : SameAtn r s) (k : SameAtn s t) : SameAtn r t :=
  ⟨fun q => ⟨(k.ports q).1.trans (h.ports q).1, (k.ports q).2.1.trans (h.ports q).2.1,
      (k.ports q).2.2.1.trans (h.ports q).2.2.1, (k.ports q).2.2.2.trans (h.ports q).2.2.2⟩,
    fun i => (k.conditions i).trans (h.conditions i), fun l => (k.changes l).trans (h.changes l)⟩

theorem level (h : SameAtn r s) (q : PortNo) : s.atnLevel q = r.atnLevel q := by
  have hu : s.urgentOn q = r.urgentOn q := by
    unfold State.urgentOn; rw [(h.ports q).1]; simp only [h.conditions]
  have hc : s.anyChanged = r.anyChanged := by unfold State.anyChanged; simp only [h.changes]
  unfold State.atnLevel
  dsimp only
  rw [hu, hc, (h.ports q).1, (h.ports q).2.1, (h.ports q).2.2.1]

theorem right (h : SameAtn r s) (k : r.outputsRight) : s.outputsRight := fun q => by
  rw [(h.ports q).2.2.2, h.level q, k q]

theorem of_keeps {xs : List Part} (k : Keeps xs r s) (h1 : .ports ∉ xs) (h2 : .slots ∉ xs) (h3 : .lines ∉ xs) :
    SameAtn r s :=
  ⟨fun q => by rw [State.port_of_keeps k h1]; exact ⟨rfl, rfl, rfl, rfl⟩,
    fun i => by
      have : s.slots = r.slots := k.at_slots h2
      unfold State.conditionsOf State.circuit State.slot; rw [this],
    fun l => by rw [State.line_of_keeps k h3]⟩

end SameAtn

namespace State

theorem outputsRight_judgeAtn (s : State) : s.judgeAtn.outputsRight := fun q => by
  exact atn_judgeAtn s q

theorem conditionsOf_eq {i : SlotNo} : s.conditionsOf i = ((s.circuit i).map (·.conditions)).getD {} := by
  unfold conditionsOf; cases s.circuit i <;> rfl

/-! ## The single updates -/

theorem sameAtn_of_keeps {xs : List Part} (h : SameAtn r s) (k : Keeps xs s t) (h1 : .ports ∉ xs) (h2 : .slots ∉ xs)
    (h3 : .lines ∉ xs) : SameAtn r t := h.trans (.of_keeps k h1 h2 h3)

@[simp] theorem sameAtn_modPort (h : SameAtn r s) (p : PortNo) (f : Port → Port)
    (hf : ∀ x, (f x).attention = x.attention ∧ (f x).holdoffCount = x.holdoffCount ∧ (f x).holdoff = x.holdoff
      ∧ (f x).atn = x.atn := by exact fun _ => ⟨rfl, rfl, rfl, rfl⟩) : SameAtn r (s.modPort p f) := h.trans <| by
  refine ⟨fun q => ?_, fun _ => rfl, fun _ => rfl⟩
  by_cases hq : q = p
  · subst hq; rw [port_modPort_same]; exact hf _
  · rw [port_modPort_ne _ hq]; exact ⟨rfl, rfl, rfl, rfl⟩

@[simp] theorem sameAtn_modLine (h : SameAtn r s) (l : LineNo) (f : Line → Line)
    (hf : (f (s.line l)).changed = (s.line l).changed := by rfl) : SameAtn r (s.modLine l f) := h.trans <| by
  refine ⟨fun _ => ⟨rfl, rfl, rfl, rfl⟩, fun _ => rfl, fun m => ?_⟩
  by_cases hm : m = l
  · subst hm; rw [line_modLine_same]; exact hf
  · rw [line_modLine_ne _ hm]

@[simp] theorem sameAtn_modTx (h : SameAtn r s) (l : LineNo) (f : Transmitter → Transmitter) :
    SameAtn r (s.modTx l f) := sameAtn_modLine h l _

theorem sameAtn_setSlot (h : SameAtn r s) (i : SlotNo) (x : Slot)
    (hx : (x.circuit.map (·.conditions)).getD {} = s.conditionsOf i) : SameAtn r (s.setSlot i x) := h.trans <| by
  refine ⟨fun _ => ⟨rfl, rfl, rfl, rfl⟩, fun j => ?_, fun _ => rfl⟩
  rw [conditionsOf_eq]
  by_cases hj : j = i
  · subst hj; unfold circuit; rw [slot_setSlot_same]; exact hx
  · unfold circuit; rw [slot_setSlot_ne _ hj, conditionsOf_eq]; rfl

@[simp] theorem sameAtn_setCircuit (h : SameAtn r s) {i : SlotNo} {c : Circuit} (hc : s.circuit i = some c) (d : Circuit)
    (hd : d.conditions = c.conditions := by rfl) : SameAtn r (s.setCircuit i (some d)) :=
  sameAtn_setSlot h i _ (by rw [conditionsOf_eq, hc]; exact hd)

@[simp] theorem sameAtn_modCircuit (h : SameAtn r s) (i : SlotNo) (f : Circuit → Circuit)
    (hf : ∀ x, (f x).conditions = x.conditions := by exact fun _ => rfl) : SameAtn r (s.modCircuit i f) := by
  refine sameAtn_setSlot h i _ ?_
  rw [conditionsOf_eq]
  cases s.circuit i with
  | none => rfl
  | some c => exact hf c

theorem sameAtn_setReservedTotal (h : SameAtn r s) (n : Nat) : SameAtn r (s.setReservedTotal n) := ⟨h.1, h.2, h.3⟩
theorem sameAtn_setWaitQueue (h : SameAtn r s) (q : List SlotNo) : SameAtn r (s.setWaitQueue q) := ⟨h.1, h.2, h.3⟩
theorem sameAtn_setFreeQueue (h : SameAtn r s) (q : List BufNo) : SameAtn r (s.setFreeQueue q) := ⟨h.1, h.2, h.3⟩
theorem sameAtn_setPlace (h : SameAtn r s) (b : BufNo) (x : Place) : SameAtn r (s.setPlace b x) := ⟨h.1, h.2, h.3⟩
theorem sameAtn_setEntry (h : SameAtn r s) (e : EntryNo) (x : ServiceEntry) : SameAtn r (s.setEntry e x) :=
  ⟨h.1, h.2, h.3⟩
theorem sameAtn_setReadData (h : SameAtn r s) (x : ReadData) : SameAtn r (s.setReadData x) := ⟨h.1, h.2, h.3⟩
theorem sameAtn_writeBuffer (h : SameAtn r s) (b : BufNo) (k : Nat) (vs : List Byte) :
    SameAtn r (s.writeBuffer b k vs) := ⟨h.1, h.2, h.3⟩

/-! ## The shared operations -/

theorem sameAtn_owe (h : SameAtn r s) (i : SlotNo) (k : OwedKind) : SameAtn r (s.owe i k) := by
  unfold owe; split
  · exact h
  · rename_i hc; exact sameAtn_modTx (sameAtn_setCircuit h hc _) _ _

theorem sameAtn_startTimer (h : SameAtn r s) (i : SlotNo) (p : Purpose) : SameAtn r (s.startTimer i p) :=
  sameAtn_modCircuit h i _

theorem sameAtn_stopTimer (h : SameAtn r s) (i : SlotNo) : SameAtn r (s.stopTimer i) :=
  sameAtn_modCircuit h i _

theorem sameAtn_grantOne (h : SameAtn r s) (i : SlotNo) (rest : List SlotNo) : SameAtn r (s.grantOne i rest) := by
  have h1 : SameAtn r ((((s.setReservedTotal (s.reservedTotal + 1)).setWaitQueue rest).modCircuit i fun c =>
      { c with reserved := c.reserved + 1, receiveEdge := c.receiveEdge + 1 }).owe i .credit) :=
    sameAtn_owe (sameAtn_modCircuit (sameAtn_setWaitQueue (sameAtn_setReservedTotal h _) _) _ _ ) _ _
  unfold grantOne; dsimp only; split
  · exact sameAtn_setWaitQueue h1 _
  · exact h1

theorem sameAtn_serveTimes (n : Nat) : ∀ s : State, SameAtn r s → SameAtn r (serveTimes n s) := by
  induction n with
  | zero => exact fun _ h => h
  | succ n ih =>
    intro s h; rw [serveTimes]; split
    · exact h
    · exact ih _ (sameAtn_grantOne h _ _)

theorem sameAtn_serveWait (h : SameAtn r s) : SameAtn r s.serveWait := sameAtn_serveTimes _ s h

theorem sameAtn_joinWait (h : SameAtn r s) (i : SlotNo) : SameAtn r (s.joinWait i) := by
  unfold joinWait; split
  · exact h
  · exact sameAtn_serveWait (sameAtn_setWaitQueue h _)

theorem sameAtn_leaveWait (h : SameAtn r s) (i : SlotNo) : SameAtn r (s.leaveWait i) := sameAtn_setWaitQueue h _

theorem sameAtn_joinWaitIfShort (h : SameAtn r s) (i : SlotNo) : SameAtn r (s.joinWaitIfShort i) := by
  unfold joinWaitIfShort; split
  · exact sameAtn_joinWait h i
  · exact h

theorem sameAtn_reserve (h : SameAtn r s) (i : SlotNo) (n : Nat) : SameAtn r (s.reserve i n) :=
  sameAtn_modCircuit (sameAtn_setReservedTotal h _) i _

theorem sameAtn_releaseReservations (h : SameAtn r s) (i : SlotNo) : SameAtn r (s.releaseReservations i) := by
  unfold releaseReservations; split
  · exact h
  · rename_i c hc
    have hc' : (s.setReservedTotal (s.reservedTotal - c.reserved)).circuit i = some c := hc
    exact sameAtn_serveWait (sameAtn_setCircuit (sameAtn_setReservedTotal h _) hc' _)

theorem sameAtn_returnBuffer (h : SameAtn r s) (b : BufNo) : SameAtn r (s.returnBuffer b) :=
  sameAtn_setPlace (sameAtn_setFreeQueue h _) _ _

theorem sameAtn_settleReady (h : SameAtn r s) (i : SlotNo) : SameAtn r (s.settleReady i) := by
  unfold settleReady; repeat' split
  · exact h
  · exact sameAtn_modTx h _ _
  · exact h

theorem sameAtn_settleStall (h : SameAtn r s) (i : SlotNo) : SameAtn r (s.settleStall i) := by
  unfold settleStall; repeat' split
  · exact h
  · exact sameAtn_startTimer h _ _
  · exact h

theorem sameAtn_enterClosing (h : SameAtn r s) (i : SlotNo) (cause : Byte) : SameAtn r (s.enterClosing i cause) := by
  unfold enterClosing; split
  · exact h
  · rename_i c hc
    exact sameAtn_owe (sameAtn_modCircuit (sameAtn_releaseReservations (sameAtn_leaveWait
      (sameAtn_modTx (sameAtn_setCircuit h hc _) _ _) _) _) _ _ ) _ _

/-- A slot that is FREE is allocated to a record with nothing pending. -/
theorem sameAtn_allocate {c : Circuit} {i : SlotNo} (h : SameAtn r s) (ha : s.allocate c = some (i, t))
    (hf : ∀ j ∈ s.freeSlots, s.circuit j = none) (hc : c.conditions = {}) : SameAtn r t := by
  unfold allocate at ha
  split at ha
  · cases ha
  · rename_i j rest hq
    simp only [Option.some.injEq, Prod.mk.injEq] at ha
    obtain ⟨rfl, rfl⟩ := ha
    have h1 : SameAtn r ((s.setFreeSlots rest).setSlot j ⟨(s.slot j).generation + 1, some c⟩) := by
      refine sameAtn_setSlot (s := s.setFreeSlots rest) ⟨h.1, h.2, h.3⟩ _ _ ?_
      rw [conditionsOf_eq, circuit_setFreeSlots, hf j (by rw [hq]; exact List.mem_cons_self)]
      exact hc
    exact ⟨h1.1, h1.2, h1.3⟩

theorem sameAtn_finish (h : SameAtn r s) (p : PortNo) (code : ResultCode) (w : Results) :
    SameAtn r (s.finish p code w) := by
  have h1 : SameAtn r (s.modPort p fun x => { x with status := .done, result := code, results := w }) :=
    sameAtn_modPort h p _
  exact ⟨h1.1, h1.2, h1.3⟩

/-! ## The transmitter -/

theorem sameAtn_stage (h : SameAtn r s) (l : LineNo) (f : Frame) (m : Bool) (n : Option Noted) :
    SameAtn r (s.stage l f m n) := sameAtn_modTx h l _

theorem sameAtn_selectControl (l : LineNo) (n : Nat) :
    ∀ s : State, SameAtn r s → SameAtn r (selectControl l n s) := by
  induction n with
  | zero => exact fun _ h => h
  | succ n ih =>
    intro s h
    rw [selectControl]
    split
    · exact h
    · split
      · exact ih _ (sameAtn_modTx h _ _)
      · rename_i hc
        split
        · exact ih _ (sameAtn_modTx (sameAtn_setCircuit h hc _) _ _)
        · exact sameAtn_stage (sameAtn_modTx (sameAtn_setCircuit h hc _) _ _) _ _ _ _

theorem sameAtn_stageData (h : SameAtn r s) (l : LineNo) (i : SlotNo) (rest : List SlotNo) :
    SameAtn r (s.stageData l i rest) := by
  have h0 := sameAtn_modTx h l fun t => { t with ring := rest }
  unfold stageData; dsimp only
  split
  · exact h0
  · rename_i c hc
    split
    · exact h0
    · have h1 := fun d (hd : d.conditions = c.conditions) b x f m n => sameAtn_stage (sameAtn_setPlace
        (sameAtn_setCircuit h0 (by rw [circuit_modTx]; exact hc) d hd) b x) l f m n
      split
      · exact sameAtn_modTx (h1 _ (by rfl) _ _ _ _ _) _ _
      · exact h1 _ (by rfl) _ _ _ _ _

theorem sameAtn_select (h : SameAtn r s) (l : LineNo) : SameAtn r (s.select l) := by
  have h1 := sameAtn_selectControl l (s.line l).tx.control.length s h
  unfold select; dsimp only; repeat' split
  · exact h1
  · exact sameAtn_stage (sameAtn_modTx h1 _ _) _ _ _ _
  · exact sameAtn_stageData h1 _ _ _
  · exact sameAtn_modTx h1 _ _

theorem sameAtn_complete (h : SameAtn r s) (x : Staged) : SameAtn r (s.complete x) := by
  unfold complete applyCompletion; repeat' split
  all_goals first
    | exact h
    | exact sameAtn_startTimer h _ _

end State

end Sys2Proof.Machine
end

