-- ==== Sys2Proof/Laws/PortReset.lean ====
section
/-! SUPPORT. What PORT-RESET does: to one circuit of the port, to all of them in turn, and to the port and its claimed set before. -/

namespace Sys2Proof.Machine

namespace State

variable {s t : State} {i : SlotNo} {c : Circuit}

/-- The slots named by two tests in two states are the same when the records agree on the tests. -/
theorem slotsWhere_congr (hs : Sparse.wf Fin.val {} s.slots) (ht : Sparse.wf Fin.val {} t.slots)
    {f g : Circuit → Bool} (h : ∀ i, (t.circuit i).map g = (s.circuit i).map f) : t.slotsWhere g = s.slotsWhere f := by
  refine slots_ext (slotsWhere_rising ht g) (slotsWhere_rising hs f) fun i => ?_
  rw [mem_slotsWhere ht, mem_slotsWhere hs]
  have := h i
  constructor
  · rintro ⟨c, hc, hg⟩
    rw [hc] at this
    obtain ⟨d, hd, e⟩ := Option.map_eq_some_iff.1 this.symm
    exact ⟨d, hd, e.trans hg⟩
  · rintro ⟨c, hc, hf⟩
    rw [hc] at this
    obtain ⟨d, hd, e⟩ := Option.map_eq_some_iff.1 this
    exact ⟨d, hd, e.trans hf⟩

/-! ## One circuit of the port (R166) -/

theorem orphan_none (h : s.circuit i = none) : s.orphan i = s := by simp only [orphan, h]

theorem orphan_offered (h : s.circuit i = some c) (hs : c.state = .offered) :
    s.orphan i = (s.offerReply c.line ⟨c.number, .refuse, Config.causeWithdrawn⟩).directFree i := by
  simp only [orphan, h, hs]

theorem orphan_closing (h : s.circuit i = some c) {x : Byte} (hs : c.state = .closing x) :
    s.orphan i = s.modCircuit i fun x => { x with owner := none } := by
  simp only [orphan, h, hs]

theorem orphan_ended (h : s.circuit i = some c) (hs : c.state.name = .ended) :
    s.orphan i = (s.returnCircuitBuffers i).freeSlot i := by
  cases hc : c.state <;> simp only [hc, CircuitState.name, reduceCtorEq] at hs
  simp only [orphan, h, hc]

theorem orphan_live (h : s.circuit i = some c)
    (hs : c.live) :
    s.orphan i = ((s.enterClosing i Config.causeWithdrawn).modCircuit i fun x =>
      { x with owner := none }).returnCircuitBuffers i := by
  unfold Circuit.live at hs
  cases hc : c.state <;> simp only [hc, CircuitState.name, reduceCtorEq, or_self, or_false, false_or] at hs
  all_goals simp only [orphan, h, hc]

/-- Every state of a record falls under one of the four ways of R166. -/
theorem orphan_cases (c : Circuit) : c.state = .offered ∨ (∃ x, c.state = .closing x) ∨ c.state.name = .ended
    ∨ c.live := by
  unfold Circuit.live; cases c.state <;> simp [CircuitState.name]

theorem actsAt_orphan (v : State) (i : SlotNo) : ActsAt i v (v.orphan i) := by
  cases h : v.circuit i with
  | none => rw [orphan_none h]; exact (ActsOn.refl i 0 v).at
  | some c =>
    have hl : ∀ d, v.circuit i = some d → d.line = c.line := fun d hd => by rw [h] at hd; cases hd; rfl
    rcases orphan_cases c with hs | ⟨x, hs⟩ | hs | hs
    · rw [orphan_offered h hs]
      refine ((actsOn_offerReply _).trans (actsOn_directFree fun d hd => ?_)).at
      rw [offerReply, circuit_modTx] at hd
      exact hl d hd
    · rw [orphan_closing h hs]; exact (ActsOn.modCircuit (l := 0) _).at
    · rw [orphan_ended h hs]; exact ((actsOn_returnCircuitBuffers (l := 0)).trans actsOn_freeSlot).at
    · rw [orphan_live h hs]
      exact (((actsOn_enterClosing hl _).trans (ActsOn.modCircuit _)).trans actsOn_returnCircuitBuffers).at

/-- The record of a live circuit that PORT-RESET has orphaned. -/
theorem circuit_orphan_live (h : s.circuit i = some c)
    (hs : c.live) :
    (s.orphan i).circuit i = some
      { c with
        state := .closing Config.causeWithdrawn, owner := none, timer := none, retry := 0, reserved := 0
        owed := { close := true }, transmit := [], unacked := [], receive := [] }
      ∧ i ∉ (s.orphan i).waitQueue := by
  rw [orphan_live h hs]
  have hw : i ∉ ((s.enterClosing i Config.causeWithdrawn).modCircuit i fun x => { x with owner := none }).waitQueue := by
    rw [modCircuit_waitQueue]; exact not_mem_waitQueue_enterClosing h _
  have hc : ((s.enterClosing i Config.causeWithdrawn).modCircuit i fun x => { x with owner := none }).circuit i = some
      { c with
        state := .closing Config.causeWithdrawn, owner := none, timer := none, retry := 0, reserved := 0
        owed := { close := true } } := by
    rw [circuit_modCircuit_same, circuit_enterClosing, h]; rfl
  refine ⟨circuit_returnCircuitBuffers hc hw, fun hi => hw ?_⟩
  simp only [returnCircuitBuffers, hc] at hi
  have := waitQueue_serveWait_subset _ _ hi
  rwa [(keeps_returnBuffers _ _).at_waitQueue (by decide)] at this

theorem circuit_orphan_freed (h : s.circuit i = some c) (hs : c.state = .offered ∨ c.state.name = .ended) :
    (s.orphan i).circuit i = none := by
  rcases hs with hs | hs
  · rw [orphan_offered h hs]; exact circuit_directFree
  · rw [orphan_ended h hs]; exact circuit_freeSlot

/-- No circuit is left to the port by the pass. -/
theorem owner_orphan (h : s.circuit i = some c) : ∀ d, (s.orphan i).circuit i = some d → d.owner = none := by
  rcases orphan_cases c with hs | ⟨x, hs⟩ | hs | hs
  · rw [circuit_orphan_freed h (.inl hs)]; exact fun d hd => by cases hd
  · rw [orphan_closing h hs, circuit_modCircuit_same, h]; rintro d ⟨⟩; rfl
  · rw [circuit_orphan_freed h (.inr hs)]; exact fun d hd => by cases hd
  · rw [(circuit_orphan_live h hs).1]; rintro d ⟨⟩; rfl

theorem onlyUnmaps_orphan (v : State) (i : SlotNo) : OnlyUnmaps v (v.orphan i) := by
  cases h : v.circuit i with
  | none => rw [orphan_none h]; exact .refl v
  | some c =>
    rcases orphan_cases c with hs | ⟨x, hs⟩ | hs | hs
    · rw [orphan_offered h hs]
      exact (OnlyUnmaps.of_keeps (keeps_offerReply _ _ _) (by decide)).trans onlyUnmaps_directFree
    · rw [orphan_closing h hs]; exact .of_keeps (keeps_modCircuit _ _ _) (by decide)
    · rw [orphan_ended h hs]
      exact (OnlyUnmaps.of_keeps (keeps_returnCircuitBuffers _ i) (by decide)).trans
        (.of_keeps (keeps_freeSlot _ i) (by decide))
    · rw [orphan_live h hs]
      exact ((OnlyUnmaps.of_keeps (keeps_enterClosing _ i _) (by decide)).trans
        (.of_keeps (keeps_modCircuit _ i _) (by decide))).trans (.of_keeps (keeps_returnCircuitBuffers _ i) (by decide))

theorem lookup_orphan_offered (h : s.circuit i = some c) (hs : c.state = .offered) :
    (s.orphan i).lookup c.line c.number = none := by
  rw [orphan_offered h hs]
  have h' : (s.offerReply c.line ⟨c.number, .refuse, Config.causeWithdrawn⟩).circuit i = some c := by
    rw [offerReply, circuit_modTx]; exact h
  rw [(directFree_spec h').2.2.1, if_pos ⟨rfl, rfl⟩]

/-! What dealing with one circuit of the port does to each part, by its record. -/

theorem circuit_offerReply (l : LineNo) (r : Reply) (j : SlotNo) : (s.offerReply l r).circuit j = s.circuit j := rfl

/-- The buffers that a record of the port returns. -/
def returned (x : Option Circuit) : List BufNo :=
  match x with
  | none => []
  | some c => if c.state.name = .closing then [] else c.buffers

theorem live_name (hs : c.live) :
    c.state.name ≠ .closing ∧ c.state.name ≠ .offered ∧ c.state.name ≠ .ended := by
  rcases hs with hs | hs | hs <;> first | (simp [hs]; done) | simp [hs, CircuitState.name]

theorem not_offered_of_live (hs : c.live) : c.state ≠ .offered := fun e => (live_name hs).2.1 (by rw [e]; rfl)

theorem buffers_of_live (h : s.circuit i = some c) :
    ((s.enterClosing i Config.causeWithdrawn).modCircuit i fun x => { x with owner := none }).circuit i = some
      { c with
        state := .closing Config.causeWithdrawn, owner := none, timer := none, retry := 0, reserved := 0
        owed := { close := true } } := by
  rw [circuit_modCircuit_same, circuit_enterClosing, h]; rfl

/-- An orphan that was OFFERED: its record is gone, its slot, its pair, its service and its buffers are given back
(R61, R134, R166). -/
theorem offered_spec (h : s.circuit i = some c) (hs : c.state = .offered) :
    (s.orphan i).freeSlots = s.freeSlots ++ [i]
      ∧ (∀ m o, (s.orphan i).lookup m o = if m = c.line ∧ o = c.number then none else s.lookup m o)
      ∧ (∀ e, (s.orphan i).entry e = if c.origin = .remoteCall e then (s.entry e).lowered else s.entry e)
      ∧ (s.orphan i).freeQueue = s.freeQueue ++ c.buffers
      ∧ ∀ b, (s.orphan i).place b = if b ∈ c.buffers then .free else s.place b := by
  have k := directFree_spec (s := s.offerReply c.line ⟨c.number, .refuse, Config.causeWithdrawn⟩) (c := c) h
  rw [orphan_offered h hs]
  exact ⟨k.2.1, k.2.2.1, k.2.2.2.1, k.2.2.2.2.1, k.2.2.2.2.2.1⟩

theorem freeQueue_orphan (v : State) (i : SlotNo) : (v.orphan i).freeQueue = v.freeQueue ++ returned (v.circuit i) := by
  cases h : v.circuit i with
  | none => rw [orphan_none h]; simp [returned]
  | some c =>
    rcases orphan_cases c with hs | ⟨x, hs⟩ | hs | hs
    · rw [(offered_spec h hs).2.2.2.1]
      simp [returned, hs, CircuitState.name]
    · rw [orphan_closing h hs, modCircuit_freeQueue]; simp [returned, hs, CircuitState.name]
    · rw [orphan_ended h hs, (keeps_freeSlot _ i).at_freeQueue (by decide), freeQueue_returnCircuitBuffers h]
      simp [returned, hs]
    · rw [orphan_live h hs, freeQueue_returnCircuitBuffers (buffers_of_live h), modCircuit_freeQueue,
        (keeps_enterClosing _ i _).at_freeQueue (by decide)]
      simp [returned, live_name hs, Circuit.buffers]

theorem place_orphan (b : BufNo) (v : State) (i : SlotNo) :
    (v.orphan i).place b = if b ∈ returned (v.circuit i) then .free else v.place b := by
  cases h : v.circuit i with
  | none => rw [orphan_none h]; simp [returned]
  | some c =>
    rcases orphan_cases c with hs | ⟨x, hs⟩ | hs | hs
    · rw [(offered_spec h hs).2.2.2.2]
      simp [returned, hs, CircuitState.name]
    · rw [orphan_closing h hs, place_modCircuit]; simp [returned, hs, CircuitState.name]
    · rw [orphan_ended h hs, place_of_keeps (keeps_freeSlot _ i) (by decide), place_returnCircuitBuffers h]
      simp [returned, hs]
    · rw [orphan_live h hs, place_returnCircuitBuffers (buffers_of_live h), place_modCircuit,
        place_of_keeps (keeps_enterClosing _ i _) (by decide)]
      simp [returned, live_name hs, Circuit.buffers]

/-- Whether a record of the port gives its slot back at once. -/
def isFreed (x : Option Circuit) : Bool := x.any fun c => [StateName.offered, .ended].contains c.state.name

theorem freeSlots_orphan (v : State) (i : SlotNo) :
    (v.orphan i).freeSlots = v.freeSlots ++ if isFreed (v.circuit i) then [i] else [] := by
  cases h : v.circuit i with
  | none => rw [orphan_none h]; simp [isFreed]
  | some c =>
    rcases orphan_cases c with hs | ⟨x, hs⟩ | hs | hs
    · rw [(offered_spec h hs).1]
      simp [isFreed, hs, CircuitState.name]
    · rw [orphan_closing h hs, modCircuit_freeSlots]; simp [isFreed, hs, CircuitState.name]
    · rw [orphan_ended h hs, freeSlots_freeSlot, (keeps_returnCircuitBuffers _ i).at_freeSlots (by decide)]
      simp [isFreed, hs]
    · rw [orphan_live h hs, (keeps_returnCircuitBuffers _ i).at_freeSlots (by decide), modCircuit_freeSlots,
        (keeps_enterClosing _ i _).at_freeSlots (by decide)]
      simp [isFreed, live_name hs]

theorem lookup_orphan (m : LineNo) (o : Byte) (v : State) (i : SlotNo) :
    (v.orphan i).lookup m o = match v.circuit i with
      | none => v.lookup m o
      | some c => if c.state = .offered ∧ m = c.line ∧ o = c.number then none else v.lookup m o := by
  cases h : v.circuit i with
  | none => rw [orphan_none h]
  | some c =>
    rcases orphan_cases c with hs | ⟨x, hs⟩ | hs | hs
    · rw [(offered_spec h hs).2.1]
      simp [hs]
    · rw [orphan_closing h hs, lookup_modCircuit]; simp [hs]
    · rw [orphan_ended h hs, lookup_of_keeps (keeps_freeSlot _ i) (by decide),
        lookup_of_keeps (keeps_returnCircuitBuffers _ i) (by decide)]
      simp only
      rw [if_neg fun e => by rw [e.1] at hs; cases hs]
    · rw [orphan_live h hs, lookup_of_keeps (keeps_returnCircuitBuffers _ i) (by decide), lookup_modCircuit,
        lookup_of_keeps (keeps_enterClosing _ i _) (by decide)]
      simp only
      rw [if_neg fun e => not_offered_of_live hs e.1]

/-- Whether a record is an offered call that a service entry admitted. -/
def isOfferOf (e : EntryNo) (x : Option Circuit) : Bool := x.any fun c => c.state = .offered && c.origin = .remoteCall e

theorem entry_orphan (e : EntryNo) (v : State) (i : SlotNo) :
    (v.orphan i).entry e = if isOfferOf e (v.circuit i) then (v.entry e).lowered else v.entry e := by
  cases h : v.circuit i with
  | none => rw [orphan_none h]; simp [isOfferOf]
  | some c =>
    rcases orphan_cases c with hs | ⟨x, hs⟩ | hs | hs
    · rw [(offered_spec h hs).2.2.1]
      simp [isOfferOf, hs]
    · rw [orphan_closing h hs, entry_modCircuit]; simp [isOfferOf, hs]
    · rw [orphan_ended h hs, entry_of_keeps (keeps_freeSlot _ i) (by decide),
        entry_of_keeps (keeps_returnCircuitBuffers _ i) (by decide)]
      have : c.state ≠ .offered := fun e => by rw [e] at hs; cases hs
      simp [isOfferOf, this]
    · rw [orphan_live h hs, entry_of_keeps (keeps_returnCircuitBuffers _ i) (by decide), entry_modCircuit,
        entry_of_keeps (keeps_enterClosing _ i _) (by decide)]
      have : c.state ≠ .offered := not_offered_of_live hs
      simp [isOfferOf, this]

theorem queuesOnly_enterClosing (cause : Byte) : QueuesOnly s (s.enterClosing i cause) := by
  unfold enterClosing
  split
  · exact .refl s
  · refine QueuesOnly.trans ?_ (queuesOnly_owe .close)
    refine QueuesOnly.trans ?_ (.of_keeps (keeps_modCircuit _ i _) (by decide))
    refine QueuesOnly.trans ?_ queuesOnly_releaseReservations
    refine QueuesOnly.trans ?_ (.of_keeps (keeps_leaveWait _ i) (by decide))
    exact (QueuesOnly.of_keeps (keeps_setCircuit _ i _) (by decide)).trans (QueuesOnly.modTx _ _ id fun q => leave q i)

/-- The reply that a record of the port offers on a line: an offered call's REFUSE. -/
def replyOf (m : LineNo) (x : Option Circuit) : Option Reply :=
  match x with
  | none => none
  | some c => if c.state = .offered ∧ c.line = m then some ⟨c.number, .refuse, Config.causeWithdrawn⟩ else none

theorem stray_orphan (m : LineNo) (v : State) (i : SlotNo) :
    ((v.orphan i).line m).tx.stray = match replyOf m (v.circuit i) with
      | none => (v.line m).tx.stray
      | some r => offered (v.line m).tx.stray r := by
  cases h : v.circuit i with
  | none => rw [orphan_none h]; rfl
  | some c =>
    rcases orphan_cases c with hs | ⟨x, hs⟩ | hs | hs
    · rw [orphan_offered h hs, queuesOnly_directFree.stray, stray_offerReply]
      by_cases hm : m = c.line
      · subst hm; simp [replyOf, hs]
      · simp [replyOf, hs, hm, Ne.symm hm]
    · rw [orphan_closing h hs, line_modCircuit]; simp [replyOf, hs]
    · rw [orphan_ended h hs, line_of_keeps (keeps_freeSlot _ i) (by decide), queuesOnly_returnCircuitBuffers.stray]
      have : c.state ≠ .offered := fun e => by rw [e] at hs; cases hs
      simp [replyOf, this]
    · rw [orphan_live h hs, queuesOnly_returnCircuitBuffers.stray, line_modCircuit, (queuesOnly_enterClosing _).stray]
      have : c.state ≠ .offered := not_offered_of_live hs
      simp [replyOf, this]

/-- Dealing with a record of this state takes the circuit off its line's data ready ring. -/
def leavesRing (m : LineNo) (x : Option Circuit) : Bool :=
  x.any fun c => c.line = m && [StateName.calling, .offered, .opened, .draining].contains c.state.name

theorem ring_of_queued {t : State} {l : LineNo} {own : Prop} {control : List SlotNo → List SlotNo} {ring : List SlotNo}
    {stray : List Reply} (h : Queued i l s t own control ring stray) : (t.line l).tx.ring = ring := by
  obtain ⟨more, -, e⟩ := h
  rw [e]

theorem ring_orphan (m : LineNo) (v : State) (i : SlotNo) : ((v.orphan i).line m).tx.ring
    = if leavesRing m (v.circuit i) then leave (v.line m).tx.ring i else (v.line m).tx.ring := by
  cases h : v.circuit i with
  | none => rw [orphan_none h]; simp [leavesRing]
  | some c =>
    have other : ∀ u : State, ActsOn i c.line v u → m ≠ c.line → (u.line m).tx.ring = (v.line m).tx.ring := fun u hu hm => by
      obtain ⟨more, -, e⟩ := hu.otherLines m hm
      rw [e]
    have hl : ∀ d, v.circuit i = some d → d.line = c.line := fun d hd => by rw [h] at hd; cases hd; rfl
    rcases orphan_cases c with hs | ⟨x, hs⟩ | hs | hs
    · have e : leavesRing m (some c) = decide (c.line = m) := by simp [leavesRing, hs, CircuitState.name]
      rw [orphan_offered h hs, e]
      obtain ⟨u, hu⟩ : ∃ u, u = v.offerReply c.line ⟨c.number, .refuse, Config.causeWithdrawn⟩ := ⟨_, rfl⟩
      have hc : u.circuit i = some c := by rw [hu]; exact h
      rw [← hu]
      by_cases hm : m = c.line
      · subst hm
        rw [ring_of_queued (queued_directFree hc), if_pos (by simp), hu, offerReply, line_modTx_same]
      · rw [if_neg (by simpa using Ne.symm hm)]
        refine other _ ?_ hm
        rw [hu]
        exact (actsOn_offerReply _).trans (actsOn_directFree fun d hd => hl d hd)
    · rw [orphan_closing h hs, line_modCircuit]; simp [leavesRing, hs, CircuitState.name]
    · rw [orphan_ended h hs, line_of_keeps (keeps_freeSlot _ i) (by decide)]
      obtain ⟨more, -, e⟩ := line_returnCircuitBuffers (s := v) (i := i) m
      rw [e]; simp [leavesRing, hs]
    · have e : leavesRing m (some c) = decide (c.line = m) := by
        rcases hs with hs | hs | hs
        · simp [leavesRing, hs, CircuitState.name]
        · simp [leavesRing, hs, CircuitState.name]
        · simp [leavesRing, hs]
      rw [orphan_live h hs, e]
      obtain ⟨more, -, em⟩ := line_returnCircuitBuffers (s := (v.enterClosing i Config.causeWithdrawn).modCircuit i
        fun x => { x with owner := none }) (i := i) m
      rw [em, line_modCircuit]
      by_cases hm : m = c.line
      · subst hm
        rw [if_pos (by simp)]
        exact ring_of_queued (queued_enterClosing h _)
      · rw [if_neg (by simpa using Ne.symm hm)]
        exact other _ (actsOn_enterClosing hl _) hm

/-- Dealing with a record of this state takes the circuit off its line's control queue: an offered call's. -/
def leavesControl (m : LineNo) (x : Option Circuit) : Bool := x.any fun c => c.state = .offered && c.line = m

theorem gathers_of_gains {t : State} {j : SlotNo} (h : s.gains t j) : s.gathers t j := by
  obtain ⟨c, n, hc, hn, ht⟩ := h
  refine ⟨c, hc, fun d hd => ?_⟩
  rw [ht] at hd
  cases hd
  unfold Circuit.granted
  rw [if_neg (by omega)]
  exact Nat.lt_add_of_pos_right hn

/-- No circuit joins the credit wait queue. -/
theorem waitQueue_orphan (v : State) (i : SlotNo) : ∀ j ∈ (v.orphan i).waitQueue, j ∈ v.waitQueue := by
  intro j hj
  have hi : i ∈ [i] := List.mem_singleton.2 rfl
  cases h : v.circuit i with
  | none => rwa [orphan_none h] at hj
  | some c =>
    rcases orphan_cases c with hs | ⟨x, hs⟩ | hs | hs
    · rw [orphan_offered h hs] at hj
      have := (Grows.directFree (l := c.line) hi fun d hd => by
        rw [circuit_offerReply, h] at hd; cases hd; rfl).waiting j hj
      rwa [offerReply, modTx_waitQueue] at this
    · rwa [orphan_closing h hs, modCircuit_waitQueue] at hj
    · rw [orphan_ended h hs, (keeps_freeSlot _ i).at_waitQueue (by decide)] at hj
      exact (Grows.returnCircuitBuffers (l := c.line) hi).waiting j hj
    · rw [orphan_live h hs] at hj
      have := (Grows.returnCircuitBuffers (l := c.line) hi).waiting j hj
      rw [modCircuit_waitQueue] at this
      simp only [enterClosing, h] at this
      rw [(keeps_owe _ i .close).at_waitQueue (by decide), modCircuit_waitQueue] at this
      exact (mem_leave.1 (waitQueue_releaseReservations j this)).1

/-- A line's control queue after one circuit of the port: an offered call has left it, and a circuit that enters CLOSING and circuits
granted credit have joined it. -/
theorem control_orphan (m : LineNo) (v : State) (i : SlotNo) : ∃ more,
    (∀ j ∈ more, (j = i ∧ ∃ c, v.circuit i = some c ∧ c.live) ∨ j ∈ v.waitQueue ∧ v.gathers (v.orphan i) j)
      ∧ ((v.orphan i).line m).tx.control
        = (if leavesControl m (v.circuit i) then leave (v.line m).tx.control i else (v.line m).tx.control) ++ more := by
  have hi : i ∈ [i] := List.mem_singleton.2 rfl
  cases h : v.circuit i with
  | none => exact ⟨[], by simp, by rw [orphan_none h]; simp [leavesControl]⟩
  | some c =>
    have hl : ∀ d, v.circuit i = some d → d.line = c.line := fun d hd => by rw [h] at hd; cases hd; rfl
    rcases orphan_cases c with hs | ⟨x, hs⟩ | hs | hs
    · have e : leavesControl m (some c) = decide (c.line = m) := by simp [leavesControl, hs]
      rw [orphan_offered h hs, e]
      obtain ⟨u, hu⟩ : ∃ u, u = v.offerReply c.line ⟨c.number, .refuse, Config.causeWithdrawn⟩ := ⟨_, rfl⟩
      have hc : ∀ j, u.circuit j = v.circuit j := fun j => by rw [hu, circuit_offerReply]
      have hw : u.waitQueue = v.waitQueue := by rw [hu, offerReply, modTx_waitQueue]
      have hg : ∀ j, u.gains (u.directFree i) j → v.gathers (u.directFree i) j := fun j k =>
        gathers_of_gains (k.within (granted_none (hc j)) (granted_none rfl))
      rw [← hu]
      by_cases hm : m = c.line
      · subst hm
        obtain ⟨more, h0, em⟩ := queued_directFree ((hc i).trans h)
        refine ⟨more, fun j hj => .inr ?_, ?_⟩
        · obtain ⟨-, h1, h2⟩ := (h0 j hj).resolve_left fun e => e.2
          exact ⟨hw ▸ h1, hg j h2⟩
        · rw [em, if_pos (by simp), hu, offerReply, line_modTx_same]
      · obtain ⟨more, h0, em⟩ := (Grows.directFree (s := u) (l := c.line) hi fun d hd => hl d ((hc i).symm.trans hd)).lines m hm
        refine ⟨more, fun j hj => .inr ⟨hw ▸ (h0 j hj).1, ?_⟩, ?_⟩
        · by_cases hji : j = i
          · subst hji
            exact ⟨c, h, fun d hd => by rw [circuit_directFree] at hd; cases hd⟩
          · exact hg j ((h0 j hj).2 (by simpa using hji))
        · rw [em, if_neg (by simpa using Ne.symm hm), hu, offerReply, line_modTx_ne _ hm]
    · exact ⟨[], by simp, by rw [orphan_closing h hs, line_modCircuit]; simp [leavesControl, hs]⟩
    · rw [orphan_ended h hs, line_of_keeps (keeps_freeSlot _ i) (by decide)]
      have : c.state ≠ .offered := fun e => by rw [e] at hs; cases hs
      obtain ⟨more, h0, em⟩ := line_returnCircuitBuffers (s := v) (i := i) m
      refine ⟨more, fun j hj => .inr ⟨(h0 j hj).1, ?_⟩, by rw [em]; simp [leavesControl, this]⟩
      by_cases hji : j = i
      · subst hji
        exact ⟨c, h, fun d hd => by rw [circuit_freeSlot] at hd; cases hd⟩
      · obtain ⟨n, hn, -⟩ := (actsOn_freeSlot (s := v.returnCircuitBuffers i) (i := i) (l := m)).others j hji
        exact gathers_of_gains (((h0 j hj).2 hji).within (granted_none rfl) hn)
    · have live : ∃ d, some c = some d ∧ d.live := ⟨c, rfl, hs⟩
      have : c.state ≠ .offered := not_offered_of_live hs
      obtain ⟨u, hu⟩ : ∃ u, u = (v.enterClosing i Config.causeWithdrawn).modCircuit i fun x => { x with owner := none } :=
        ⟨_, rfl⟩
      have first : ActsOn i c.line v u := by rw [hu]; exact (actsOn_enterClosing hl _).trans (ActsOn.modCircuit _)
      have last : ActsOn i c.line u (u.returnCircuitBuffers i) := actsOn_returnCircuitBuffers
      have whole : ∀ j ∈ u.waitQueue, j ≠ i → j ∈ v.waitQueue := fun j hj hji => (first.waiting j hj).resolve_left hji
      rw [orphan_live h hs, ← hu]
      obtain ⟨more', h0', em'⟩ := line_returnCircuitBuffers (s := u) (i := i) m
      have joined : ∃ more, (∀ j ∈ more, j = i ∨ j ∈ v.waitQueue ∧ v.gains u j)
          ∧ (u.line m).tx.control = (v.line m).tx.control ++ more := by
        by_cases hm : m = c.line
        · subst hm
          obtain ⟨more, h0, em⟩ := queued_enterClosing h Config.causeWithdrawn
          rw [hu, line_modCircuit, em]
          have hg : ∀ j ∈ more, j ∈ v.waitQueue ∧ v.gains u j := fun j hj => by
            obtain ⟨h1, h2, h3⟩ := (h0 j hj).resolve_left fun e => e.2
            exact ⟨h2, h3.within (granted_none rfl) (granted_none (by rw [hu, circuit_modCircuit, if_neg h1]))⟩
          by_cases hin : i ∈ (v.line c.line).tx.control ++ more
          · exact ⟨more, fun j hj => .inr (hu ▸ hg j hj), by simp only [joinTail, if_pos hin]⟩
          · refine ⟨more ++ [i], fun j hj => ?_, by simp only [joinTail, if_neg hin, List.append_assoc]⟩
            rcases List.mem_append.1 hj with hj | hj
            · exact .inr (hu ▸ hg j hj)
            · exact .inl (List.mem_singleton.1 hj)
        · obtain ⟨more, h0, em⟩ := first.otherLines m hm
          exact ⟨more, h0, by rw [em]⟩
      obtain ⟨more, h0, em⟩ := joined
      refine ⟨more ++ more', fun j hj => ?_, ?_⟩
      · by_cases hji : j = i
        · exact .inl ⟨hji, live⟩
        · right
          rcases List.mem_append.1 hj with hj | hj
          · obtain ⟨h1, h2⟩ := (h0 j hj).resolve_left hji
            obtain ⟨n, hn, -⟩ := last.others j hji
            exact ⟨h1, gathers_of_gains (h2.within (granted_none rfl) hn)⟩
          · obtain ⟨h1, h2⟩ := h0' j hj
            obtain ⟨n, hn, -⟩ := first.others j hji
            exact ⟨whole j h1 hji, gathers_of_gains ((h2 hji).within hn (granted_none rfl))⟩
      · rw [em', em]; simp [leavesControl, this]

/-- A line but for its queues. -/
def bare (m : LineNo) (v : State) : Line :=
  { v.line m with tx := { (v.line m).tx with control := [], ring := [], stray := [] } }

/-- Lines that agree but for their queues differ in their queues alone. -/
theorem line_of_bare {m : LineNo} {t : State} (h : t.bare m = s.bare m) : t.line m = { s.line m with tx := { (s.line m).tx with
    control := (t.line m).tx.control, ring := (t.line m).tx.ring, stray := (t.line m).tx.stray } } := by
  unfold bare at h
  generalize t.line m = r at h ⊢
  generalize s.line m = r' at h ⊢
  obtain ⟨_, _, _, _, _, _, _, _, _, _, _, ⟨_, _, _, _, _⟩⟩ := r
  obtain ⟨_, _, _, _, _, _, _, _, _, _, _, ⟨_, _, _, _, _⟩⟩ := r'
  simp only [Line.mk.injEq, Transmitter.mk.injEq, true_and] at h ⊢
  simp only [h, and_self]

theorem bare_of_queuesOnly {t : State} (h : QueuesOnly s t) (m : LineNo) : t.bare m = s.bare m := by
  obtain ⟨a, b, e⟩ := h m
  unfold bare
  rw [e]

theorem bare_orphan (m : LineNo) (v : State) (i : SlotNo) : (v.orphan i).bare m = v.bare m := by
  cases h : v.circuit i with
  | none => rw [orphan_none h]
  | some c =>
    rcases orphan_cases c with hs | ⟨x, hs⟩ | hs | hs
    · rw [orphan_offered h hs, bare_of_queuesOnly queuesOnly_directFree]
      unfold bare offerReply
      by_cases hm : m = c.line
      · subst hm; rw [line_modTx_same]
      · rw [line_modTx_ne _ hm]
    · rw [orphan_closing h hs]; unfold bare; rw [line_modCircuit]
    · rw [orphan_ended h hs]
      exact bare_of_queuesOnly (queuesOnly_returnCircuitBuffers.trans (.of_keeps (keeps_freeSlot _ i) (by decide))) m
    · rw [orphan_live h hs]
      exact bare_of_queuesOnly (((queuesOnly_enterClosing _).trans (.of_keeps (keeps_modCircuit _ i _) (by decide))).trans
        queuesOnly_returnCircuitBuffers) m

/-- A port with an empty attention list and no holdoff timer is not changed by the pass over its circuits. -/
theorem port_orphan (h : s.circuit i = some c) {q : PortNo} (ho : c.owner = some q) (ha : (s.port q).attention = [])
    (hh : (s.port q).holdoff = .absent) (r : PortNo) : (s.orphan i).port r = s.port r := by
  rcases orphan_cases c with hs | ⟨x, hs⟩ | hs | hs
  · have h' : (s.offerReply c.line ⟨c.number, .refuse, Config.causeWithdrawn⟩).circuit i = some c := by
      rw [offerReply, circuit_modTx]; exact h
    rw [orphan_offered h hs, (directFree_spec h').2.2.2.2.2.2, ho]
    have hp : (s.offerReply c.line ⟨c.number, .refuse, Config.causeWithdrawn⟩).port r = s.port r := by
      rw [offerReply, port_modTx]
    by_cases e : r = q
    · subst e
      rw [if_pos rfl, hp, ha, show leave ([] : List SlotNo) i = [] from rfl]
      cases hr : s.port r
      rw [hr] at ha hh
      simp_all
    · rw [if_neg (by simp [Ne.symm e]), hp]
  · rw [orphan_closing h hs, port_modCircuit]
  · rw [orphan_ended h hs, port_of_keeps (keeps_freeSlot _ i) (by decide),
      port_of_keeps (keeps_returnCircuitBuffers _ i) (by decide)]
  · rw [orphan_live h hs, port_of_keeps (keeps_returnCircuitBuffers _ i) (by decide), port_modCircuit,
      port_of_keeps (keeps_enterClosing _ i _) (by decide)]

/-! ## All circuits of the port -/

/-- Grants change neither the owner nor the state nor the buffers of a record. -/
theorem granted_same (c : Circuit) (n : Nat) :
    (c.granted n).owner = c.owner ∧ (c.granted n).state = c.state ∧ (c.granted n).buffers = c.buffers :=
  ⟨granted_owner c n, granted_state c n, granted_buffers c n⟩

/-- The pass over circuits of a port whose attention list is empty changes no port. -/
theorem port_foldl_orphan {q : PortNo} : ∀ (bs : List SlotNo) (s : State), bs.Nodup →
    (∀ i ∈ bs, ∃ c, s.circuit i = some c ∧ c.owner = some q) → (s.port q).attention = [] → (s.port q).holdoff = .absent →
    ∀ r, (bs.foldl orphan s).port r = s.port r
  | [], s, _, _, _, _ => fun _ => rfl
  | b :: bs, s, hn, ho, ha, hh => by
    obtain ⟨hb, hn⟩ := List.nodup_cons.1 hn
    obtain ⟨c, hc, hcq⟩ := ho b List.mem_cons_self
    have hp := fun r => port_orphan hc hcq ha hh r
    have h1 := port_foldl_orphan (q := q) bs (s.orphan b) hn (fun i hi => by
        obtain ⟨d, hd, hdq⟩ := ho i (List.mem_cons_of_mem _ hi)
        obtain ⟨n, hn, -⟩ := (actsAt_orphan s b).others i fun e => hb (e ▸ hi)
        exact ⟨d.granted n, by rw [hn, hd]; rfl, by rw [(granted_same d n).1]; exact hdq⟩)
      (by rw [hp]; exact ha) (by rw [hp]; exact hh)
    exact fun r => (h1 r).trans (hp r)

/-- Which parts dealing with one circuit of the port may change. -/
theorem keeps_orphan (v : State) (i : SlotNo) :
    Keeps directoryParts v (v.orphan i) := by
  cases h : v.circuit i with
  | none => rw [orphan_none h]; exact .refl _ v
  | some c =>
    rcases orphan_cases c with hs | ⟨x, hs⟩ | hs | hs
    · rw [orphan_offered h hs]
      exact ((keeps_offerReply _ _ _).both (keeps_directFree _ _) (by decide) (by decide))
    · rw [orphan_closing h hs]; exact (keeps_modCircuit _ _ _).mono (by decide)
    · rw [orphan_ended h hs]
      exact (keeps_returnCircuitBuffers _ _).both (keeps_freeSlot _ _) (by decide) (by decide)
    · rw [orphan_live h hs]
      refine Keeps.both ?_ (keeps_returnCircuitBuffers _ _) (List.Subset.refl _) (by decide)
      exact (keeps_enterClosing _ _ _).both (keeps_modCircuit _ _ _) (by decide) (by decide)

/-- After a pass over slots that include one with an offered call, that call's number is held no more. -/
theorem lookup_foldl_orphan (l : LineNo) (n : Byte) : ∀ (bs : List SlotNo) (s : State) (i : SlotNo),
    bs.Nodup → i ∈ bs → (∃ c, s.circuit i = some c ∧ c.state = .offered ∧ c.line = l ∧ c.number = n) →
    (bs.foldl orphan s).lookup l n = none
  | [], _, _, _, h, _ => absurd h List.not_mem_nil
  | b :: bs, s, i, hn, hi, ⟨c, hc, hs, hl, hm⟩ => by
    rw [List.foldl_cons]
    by_cases hib : i = b
    · subst hib
      refine (OnlyUnmaps.foldl onlyUnmaps_orphan bs _).none ?_
      rw [← hl, ← hm]
      exact lookup_orphan_offered hc hs
    · obtain ⟨k, hk, _⟩ := (actsAt_orphan s b).others i hib
      refine lookup_foldl_orphan l n bs _ i (List.nodup_cons.1 hn).2 ((List.mem_cons.1 hi).resolve_left hib)
        ⟨c.granted k, by rw [hk, hc]; rfl, ?_, ?_, ?_⟩
      · rw [(granted_same c k).2.1]; exact hs
      · unfold Circuit.granted; split_ifs <;> exact hl
      · unfold Circuit.granted; split_ifs <;> exact hm

/-- A circuit that the pass does not deal with does not join the credit wait queue. -/
theorem waitQueue_foldl_orphan (bs : List SlotNo) : ∀ (v : State) (i : SlotNo), i ∉ bs → i ∉ v.waitQueue →
    i ∉ (bs.foldl orphan v).waitQueue := by
  induction bs with
  | nil => exact fun _ _ _ h => h
  | cons b bs ih =>
    intro v i hn h
    rw [List.mem_cons, not_or] at hn
    exact ih _ i hn.2 fun h' => ((actsAt_orphan v b).waiting i h').elim hn.1 h

/-- After the pass a live circuit of the port stands on its line's control queue and off the credit wait queue. -/
theorem queues_foldl_orphan {l : LineNo} : ∀ (bs : List SlotNo) (v : State) (i : SlotNo), bs.Nodup → i ∈ bs →
    (∃ c, v.circuit i = some c ∧ c.line = l ∧ c.live) →
    i ∈ ((bs.foldl orphan v).line l).tx.control ∧ i ∉ (bs.foldl orphan v).waitQueue
  | [], _, _, _, h, _ => absurd h List.not_mem_nil
  | b :: bs, v, i, hn, hi, ⟨c, hc, hl, hs⟩ => by
    rw [List.foldl_cons]
    obtain ⟨hb, hn⟩ := List.nodup_cons.1 hn
    by_cases hib : i = b
    · subst hib
      refine ⟨control_foldl actsAt_orphan bs _ l i hb ?_, waitQueue_foldl_orphan bs _ i hb (circuit_orphan_live hc hs).2⟩
      rw [orphan_live hc hs]
      obtain ⟨more, -, hm⟩ := line_returnCircuitBuffers (s := (v.enterClosing i Config.causeWithdrawn).modCircuit i
        fun x => { x with owner := none }) (i := i) l
      rw [hm]
      refine List.mem_append_left _ ?_
      rw [line_modCircuit, ← hl]
      exact (tx_enterClosing hc _).1
    · obtain ⟨k, hk, _⟩ := (actsAt_orphan v b).others i hib
      refine queues_foldl_orphan bs _ i hn ((List.mem_cons.1 hi).resolve_left hib) ⟨c.granted k, by rw [hk, hc]; rfl, ?_, ?_⟩
      · rw [granted_line]; exact hl
      · unfold Circuit.live; rw [granted_state]; exact hs

/-- A record that one circuit's turn leaves, of a circuit that was not live or had its turn elsewhere, holds at least what it held. -/
theorem reserved_orphan {j : SlotNo} (hj : ¬ (j = i ∧ ∃ c, s.circuit j = some c ∧ c.live)) :
    ∀ d, (s.orphan i).circuit j = some d → ∃ c, s.circuit j = some c ∧ c.reserved ≤ d.reserved := by
  intro d hd
  by_cases hji : j = i
  · subst hji
    cases h : s.circuit j with
    | none => rw [orphan_none h, h] at hd; cases hd
    | some c =>
      rcases orphan_cases c with hs | ⟨x, hs⟩ | hs | hs
      · rw [circuit_orphan_freed h (.inl hs)] at hd; cases hd
      · rw [orphan_closing h hs, circuit_modCircuit_same, h] at hd
        cases hd
        exact ⟨c, rfl, Nat.le_refl _⟩
      · rw [circuit_orphan_freed h (.inr hs)] at hd; cases hd
      · exact absurd ⟨rfl, c, h, hs⟩ hj
  · obtain ⟨n, hn, -⟩ := (actsAt_orphan s i).others j hji
    rw [hn] at hd
    obtain ⟨c, hc, rfl⟩ := Option.map_eq_some_iff.1 hd
    refine ⟨c, hc, ?_⟩
    unfold Circuit.granted
    split_ifs
    · exact Nat.le_refl _
    · exact Nat.le_add_right _ _

/-- A circuit that is live after another's turn was live before it. -/
theorem live_of_orphan {j : SlotNo} (hji : j ≠ i) (h : ∃ c, (s.orphan i).circuit j = some c ∧ c.live) :
    ∃ c, s.circuit j = some c ∧ c.live := by
  obtain ⟨d, hd, hl⟩ := h
  obtain ⟨n, hn, -⟩ := (actsAt_orphan s i).others j hji
  rw [hn] at hd
  obtain ⟨c, hc, rfl⟩ := Option.map_eq_some_iff.1 hd
  exact ⟨c, hc, by unfold Circuit.live at hl; rwa [granted_state] at hl⟩

theorem reserved_foldl_orphan {j : SlotNo} : ∀ (bs : List SlotNo) (v : State), bs.Nodup →
    ¬ (j ∈ bs ∧ ∃ c, v.circuit j = some c ∧ c.live) →
    ∀ d, (bs.foldl orphan v).circuit j = some d → ∃ c, v.circuit j = some c ∧ c.reserved ≤ d.reserved
  | [], _, _, _ => fun d hd => ⟨d, hd, Nat.le_refl _⟩
  | b :: bs, v, hn, hj => fun d hd => by
    obtain ⟨hb, hn⟩ := List.nodup_cons.1 hn
    obtain ⟨e, he, h1⟩ := reserved_foldl_orphan bs (v.orphan b) hn (fun h =>
      hj ⟨List.mem_cons_of_mem _ h.1, live_of_orphan (fun e : j = b => hb (e ▸ h.1)) h.2⟩) d hd
    obtain ⟨c, hc, h2⟩ := reserved_orphan (i := b) (fun h => hj ⟨h.1 ▸ List.mem_cons_self, h.2⟩) e he
    exact ⟨c, hc, h2.trans h1⟩

/-- A line's control queue after the pass: the offered calls of the list have left it, and its circuits that enter CLOSING and
circuits granted credit have joined it. -/
theorem control_foldl_orphan (m : LineNo) : ∀ (bs : List SlotNo) (v : State), bs.Nodup → ∃ more,
    (∀ j ∈ more, (j ∈ bs ∧ ∃ c, v.circuit j = some c ∧ c.live) ∨ j ∈ v.waitQueue ∧ v.gathers (bs.foldl orphan v) j)
      ∧ ((bs.foldl orphan v).line m).tx.control
        = ((v.line m).tx.control.filter fun i => i ∉ bs.filter fun i => leavesControl m (v.circuit i)) ++ more
  | [], v, _ => ⟨[], by simp, by simp⟩
  | b :: bs, v, hn => by
    have nodup := hn
    obtain ⟨hb, hn⟩ := List.nodup_cons.1 hn
    obtain ⟨x, hx, ex⟩ := control_orphan m v b
    obtain ⟨y, hy, ey⟩ := control_foldl_orphan m bs (v.orphan b) hn
    have same : (bs.filter fun i => leavesControl m ((v.orphan b).circuit i)) = bs.filter fun i => leavesControl m (v.circuit i) :=
      List.filter_congr fun i hi => by
        obtain ⟨n, e, -⟩ := (actsAt_orphan v b).others i fun e => hb (e ▸ hi)
        rw [e]
        cases v.circuit i with
        | none => rfl
        | some c => simp only [leavesControl, Option.map_some, Option.any_some, granted_state, granted_line]
    refine ⟨(x.filter fun i => i ∉ bs.filter fun i => leavesControl m (v.circuit i)) ++ y, fun j hj => ?_, ?_⟩
    · by_cases hl : j ∈ b :: bs ∧ ∃ c, v.circuit j = some c ∧ c.live
      · exact .inl hl
      · right
        rcases List.mem_append.1 hj with hj | hj
        · rcases hx j (List.mem_filter.1 hj).1 with h | ⟨hw, c, hc, hd⟩
          · exact absurd ⟨h.1 ▸ List.mem_cons_self, h.1 ▸ h.2⟩ hl
          · refine ⟨hw, c, hc, fun d h => ?_⟩
            obtain ⟨e, he, hle⟩ := reserved_foldl_orphan bs (v.orphan b) hn (fun h =>
              hl ⟨List.mem_cons_of_mem _ h.1, live_of_orphan (fun e : j = b => hb (e ▸ h.1)) h.2⟩) d h
            exact (hd e he).trans_le hle
        · rcases hy j hj with h | ⟨hw, c, hc, hd⟩
          · exact absurd ⟨List.mem_cons_of_mem _ h.1, live_of_orphan (fun e : j = b => hb (e ▸ h.1)) h.2⟩ hl
          · obtain ⟨e, he, hle⟩ := reserved_orphan (i := b) (fun h => hl ⟨h.1 ▸ List.mem_cons_self, h.2⟩) c hc
            exact ⟨waitQueue_orphan v b j hw, e, he, fun d h => hle.trans_lt (hd d h)⟩
    · rw [List.foldl_cons, ey, ex, same, List.filter_append, List.append_assoc]
      congr 1
      rw [List.filter_cons]
      split_ifs
      · rw [leave, List.filter_filter]
        refine List.filter_congr fun i _ => ?_
        by_cases h1 : i = b <;> by_cases h2 : i ∈ bs.filter fun i => leavesControl m (v.circuit i) <;> simp [h1, h2]
      · rfl

/-! ## Before the pass (R163 to R165) -/

/-- The attention list of a port emptied: what each circuit on it had pending is dropped. -/
theorem circuit_foldl_clearConditions (bs : List SlotNo) (j : SlotNo) : ∀ s : State,
    (bs.foldl clearConditions s).circuit j
      = (s.circuit j).map fun c => if j ∈ bs then { c with conditions := {}, delivered := 0 } else c := by
  induction bs with
  | nil => intro s; simp
  | cons b bs ih =>
    intro s
    rw [List.foldl_cons, ih, circuit_clearConditions]
    by_cases h1 : j = b
    · subst h1
      cases s.circuit j <;> simp
    · simp [h1]

theorem keeps_foldl_clearConditions (s : State) (bs : List SlotNo) : Keeps [.slots] s (bs.foldl clearConditions s) :=
  Keeps.foldl keeps_clearConditions bs s

/-- The state in which the pass begins. -/
def beforePass (s : State) (q : PortNo) : State := ((s.resetPortFields q).emptyAttention q).returnClaimed q

theorem resetPort_eq (q : PortNo) :
    s.resetPort q = (((s.beforePass q).circuitsOf q).foldl orphan (s.beforePass q)).judgeAtn := rfl

/-- The port's fields reset and its attention list emptied. -/
theorem keeps_emptyAttention (q : PortNo) : Keeps [.ports, .slots] s ((s.resetPortFields q).emptyAttention q) := by
  unfold emptyAttention
  refine Keeps.both (ys := [.ports]) ?_ (keeps_modPort _ _ _) (List.Subset.refl _) (by decide)
  unfold resetPortFields
  exact (s.keeps_modPort q _).both (keeps_foldl_clearConditions _ _) (by decide) (by decide)

theorem keeps_beforePass (q : PortNo) :
    Keeps [.ports, .slots, .places, .freeQueue, .lines, .reservedTotal, .waitQueue] s (s.beforePass q) := by
  unfold beforePass returnClaimed
  refine ((keeps_emptyAttention q).mono (by decide)).trans ?_
  exact (keeps_returnBuffers _ _).both (keeps_serveWait _) (by decide) (by decide)

theorem port_beforePass (q r : PortNo) : (s.beforePass q).port r
    = if r = q then { ({} : Port) with status := .idle, atn := (s.port q).atn } else s.port r := by
  unfold beforePass returnClaimed
  rw [port_of_keeps (keeps_serveWait _) (by decide), port_of_keeps (keeps_returnBuffers _ _) (by decide), emptyAttention]
  by_cases h : r = q
  · subst h
    rw [if_pos rfl, port_modPort_same, port_of_keeps (keeps_foldl_clearConditions _ _) (by decide), resetPortFields,
      port_modPort_same]
  · rw [if_neg h, port_modPort_ne _ h, port_of_keeps (keeps_foldl_clearConditions _ _) (by decide), resetPortFields,
      port_modPort_ne _ h]

theorem claimedSet_emptyAttention (q : PortNo) :
    ((s.resetPortFields q).emptyAttention q).claimedSet q = s.claimedSet q := by
  unfold claimedSet
  rw [(keeps_emptyAttention q).at_places (by decide)]

theorem freeQueue_beforePass (q : PortNo) : (s.beforePass q).freeQueue = s.freeQueue ++ s.claimedSet q := by
  unfold beforePass returnClaimed
  rw [(keeps_serveWait _).at_freeQueue (by decide), freeQueue_returnBuffers, claimedSet_emptyAttention,
    (keeps_emptyAttention q).at_freeQueue (by decide)]

theorem place_beforePass (q : PortNo) (b : BufNo) :
    (s.beforePass q).place b = if b ∈ s.claimedSet q then .free else s.place b := by
  unfold beforePass returnClaimed
  rw [place_of_keeps (keeps_serveWait _) (by decide), place_returnBuffers, claimedSet_emptyAttention,
    place_of_keeps (keeps_emptyAttention q) (by decide)]

/-- A port's claimed set is the buffers whose place is CLAIMED by it, in ascending buffer number. -/
theorem claimedSet_eq (h : s.canonical) (q : PortNo) :
    s.claimedSet q = (List.finRange 512).filter fun b => s.place b = .claimed q := by
  have key : ∀ m : List (BufNo × Place), Sparse.wf Fin.val .free m → ∀ b : BufNo,
      (b, Place.claimed q) ∈ m ↔ Sparse.get Fin.val .free b.val m = .claimed q := by
    intro m
    induction m with
    | nil => intro _ b; simp [Sparse.get, Sparse.find]
    | cons e m ih =>
      intro hm b
      have ih := ih ⟨(List.pairwise_cons.1 hm.1).2, fun e he => hm.2 e (List.mem_cons_of_mem _ he)⟩ b
      by_cases he : e.1.val = b.val
      · have hg : Sparse.get Fin.val .free b.val (e :: m) = e.2 := by simp [Sparse.get, Sparse.find, he]
        rw [hg]
        constructor
        · intro hx
          rcases List.mem_cons.1 hx with hx | hx
          · rw [← hx]
          · have := (List.pairwise_cons.1 hm.1).1 _ hx
            simp only at this
            omega
        · intro hx
          have : (b, Place.claimed q) = e := Prod.ext (Fin.ext he.symm) hx.symm
          rw [this]; exact List.mem_cons_self
      · have hg : Sparse.get Fin.val .free b.val (e :: m) = Sparse.get Fin.val .free b.val m := by
          simp [Sparse.get, Sparse.find, he]
        rw [hg, ← ih]
        constructor
        · intro hx
          rcases List.mem_cons.1 hx with hx | hx
          · exact absurd (by rw [← hx]) he
          · exact hx
        · exact List.mem_cons_of_mem _
  have irr : Std.Irrefl fun x y : BufNo => x.val < y.val := ⟨fun x => Nat.lt_irrefl _⟩
  have h1 : (s.claimedSet q).Pairwise fun x y => x.val < y.val :=
    List.pairwise_map.2 (h.places.1.filter fun e => e.2 == .claimed q)
  have h2 : ((List.finRange 512).filter fun b => s.place b = .claimed q).Pairwise fun x y => x.val < y.val :=
    (List.pairwise_lt_finRange 512).filter _
  refine h1.eq_of_mem_iff h2 fun b => ?_
  rw [List.mem_filter]
  simp only [List.mem_finRange, true_and, decide_eq_true_eq]
  show _ ↔ Sparse.get Fin.val .free b.val s.places = .claimed q
  rw [← key s.places h.places b]
  unfold claimedSet
  simp only [List.mem_map, List.mem_filter, beq_iff_eq, Prod.exists]
  constructor
  · rintro ⟨c, x, ⟨hm, rfl⟩, rfl⟩
    exact hm
  · exact fun hm => ⟨b, .claimed q, ⟨hm, rfl⟩, rfl⟩

theorem circuit_emptyAttention (q : PortNo) (j : SlotNo) :
    ((s.resetPortFields q).emptyAttention q).circuit j = (s.circuit j).map (s.untaken q j) := by
  unfold emptyAttention
  rw [circuit_modPort, circuit_foldl_clearConditions, resetPortFields, port_modPort_same, circuit_modPort]
  rfl

theorem circuit_beforePass (q : PortNo) (j : SlotNo) : ∃ n,
    (s.beforePass q).circuit j = (s.circuit j).map (fun c => (s.untaken q j c).granted n) ∧ (j ∉ s.waitQueue → n = 0) := by
  unfold beforePass returnClaimed
  obtain ⟨n, h, h0⟩ := (served_serveWait (((s.resetPortFields q).emptyAttention q).returnBuffers
    (((s.resetPortFields q).emptyAttention q).claimedSet q))).circuits j
  refine ⟨n, ?_, fun hw => h0 ?_⟩
  · rw [h, circuit_of_keeps (keeps_returnBuffers _ _) (by decide), circuit_emptyAttention, Option.map_map]
    rfl
  · rw [(keeps_returnBuffers _ _).at_waitQueue (by decide), (keeps_emptyAttention q).at_waitQueue (by decide)]
    exact hw

theorem waitQueue_beforePass (q : PortNo) : ∀ j ∈ (s.beforePass q).waitQueue, j ∈ s.waitQueue := fun j hj => by
  unfold beforePass returnClaimed at hj
  have := waitQueue_serveWait_subset _ _ hj
  rwa [(keeps_returnBuffers _ _).at_waitQueue (by decide), (keeps_emptyAttention q).at_waitQueue (by decide)] at this

theorem generation_beforePass (q : PortNo) (j : SlotNo) :
    ((s.beforePass q).slot j).generation = (s.slot j).generation := by
  have hf : ∀ (bs : List SlotNo) (v : State), ((bs.foldl clearConditions v).slot j).generation = (v.slot j).generation := by
    intro bs
    induction bs with
    | nil => exact fun _ => rfl
    | cons b bs ih => intro v; rw [List.foldl_cons, ih, clearConditions, generation_modCircuit]
  unfold beforePass returnClaimed
  rw [(served_serveWait _).generations, slot_of_keeps (keeps_returnBuffers _ _) (by decide), emptyAttention,
    slot_modPort, hf, resetPortFields, slot_modPort]

/-- A record keeps its owner, its state and its buffers. -/
theorem untaken_same (q : PortNo) (j : SlotNo) (c : Circuit) :
    (s.untaken q j c).owner = c.owner ∧ (s.untaken q j c).state = c.state ∧ (s.untaken q j c).buffers = c.buffers := by
  unfold untaken; split_ifs <;> exact ⟨rfl, rfl, rfl⟩

theorem slots_wf_owe (h : Sparse.wf Fin.val {} s.slots) (k : OwedKind) : Sparse.wf Fin.val {} (s.owe i k).slots := by
  cases hc : s.circuit i with
  | none => rw [owe_none hc]; exact h
  | some c => rw [owe_eq hc]; exact Sparse.wf_set h

theorem slots_wf_serveTimes (n : Nat) : ∀ s : State, Sparse.wf Fin.val {} s.slots →
    Sparse.wf Fin.val {} (serveTimes n s).slots := by
  induction n with
  | zero => exact fun _ h => h
  | succ n ih =>
    intro s h
    rw [serveTimes]
    split
    · exact h
    · refine ih _ ?_
      unfold grantOne
      dsimp only
      split
      · exact slots_wf_owe (Sparse.wf_set h) _
      · exact slots_wf_owe (Sparse.wf_set h) _

theorem slots_wf_beforePass (h : Sparse.wf Fin.val {} s.slots) (q : PortNo) :
    Sparse.wf Fin.val {} (s.beforePass q).slots := by
  have hf : ∀ (bs : List SlotNo) (v : State), Sparse.wf Fin.val {} v.slots →
      Sparse.wf Fin.val {} (bs.foldl clearConditions v).slots := by
    intro bs
    induction bs with
    | nil => exact fun _ h => h
    | cons b bs ih => exact fun v hv => ih _ (Sparse.wf_set hv)
  unfold beforePass returnClaimed
  refine slots_wf_serveTimes _ _ ?_
  rw [(keeps_returnBuffers _ _).at_slots (by decide)]
  exact hf _ _ h

/-- The slots of the port, and those of them whose state passes a test, are the same before the pass as before the command. -/
theorem slotsWhere_beforePass (h : Sparse.wf Fin.val {} s.slots) (q : PortNo) (f : Circuit → Bool)
    (hf : ∀ c d : Circuit, d.owner = c.owner → d.state = c.state → f d = f c) :
    (s.beforePass q).slotsWhere f = s.slotsWhere f := by
  refine slotsWhere_congr h (slots_wf_beforePass h q) fun i => ?_
  obtain ⟨n, hn, -⟩ := circuit_beforePass (s := s) q i
  rw [hn, Option.map_map]
  cases s.circuit i with
  | none => rfl
  | some c =>
    obtain ⟨u1, u2, -⟩ := untaken_same (s := s) q i c
    obtain ⟨g1, g2, -⟩ := granted_same (s.untaken q i c) n
    exact congrArg some (hf _ _ (g1.trans u1) (g2.trans u2))

/-- The slots of the port that pass a test on the owner and state, as the records before the pass name them. -/
theorem circuitsOf_beforePass (h : Sparse.wf Fin.val {} s.slots) (q : PortNo) : (s.beforePass q).circuitsOf q = s.circuitsOf q :=
  slotsWhere_beforePass h q _ fun c d h1 _ => by rw [h1]

/-- A record before the pass: emptied of what it had pending where it stood on the list, and granted some. -/
theorem circuit_beforePass_some (h : s.circuit i = some c) (q : PortNo) : ∃ n,
    (s.beforePass q).circuit i = some ((s.untaken q i c).granted n) ∧ (i ∉ s.waitQueue → n = 0) := by
  obtain ⟨n, hn, h0⟩ := circuit_beforePass (s := s) q i
  exact ⟨n, by rw [hn, h]; rfl, h0⟩

/-- What a pass reads of the records is the same before PORT-RESET's first steps as after them. -/
theorem read_beforePass {α : Type} (g : Option Circuit → α) (hg : ∀ c d : Circuit, d.state = c.state → d.owner = c.owner →
    d.line = c.line → d.number = c.number → d.origin = c.origin → d.buffers = c.buffers → g (some d) = g (some c))
    (q : PortNo) (i : SlotNo) : g ((s.beforePass q).circuit i) = g (s.circuit i) := by
  cases h : s.circuit i with
  | none =>
    obtain ⟨n, hn, -⟩ := circuit_beforePass (s := s) q i
    rw [hn, h]; rfl
  | some c =>
    obtain ⟨n, hn, -⟩ := circuit_beforePass_some h q
    rw [hn]
    refine hg c _ ?_ ?_ ?_ ?_ ?_ ?_ <;>
      simp only [granted_state, granted_owner, granted_line, granted_number, granted_origin, granted_buffers] <;>
      unfold untaken <;> split_ifs <;> rfl

/-- What PORT-RESET does to a part that dealing with one circuit changes by the record alone. -/
theorem resetPort_reader {α : Type} (h : Sparse.wf Fin.val {} s.slots) (q : PortNo) (R : State → α)
    (g : Option Circuit → SlotNo → α → α) (hR : ∀ v i, R (v.orphan i) = g (v.circuit i) i (R v))
    (hj : ∀ v : State, R v.judgeAtn = R v)
    (hg : ∀ (c d : Circuit) i a, d.state = c.state → d.owner = c.owner → d.line = c.line → d.number = c.number →
      d.origin = c.origin → d.buffers = c.buffers → g (some d) i a = g (some c) i a) :
    R (s.resetPort q) = (s.circuitsOf q).foldl (fun a i => g (s.circuit i) i a) (R (s.beforePass q)) := by
  rw [resetPort_eq, hj, foldl_reader actsAt_orphan R g hR
    (fun c n i a => hg c _ i a (granted_state c n) (granted_owner c n) (granted_line c n) (granted_number c n)
      (granted_origin c n) (granted_buffers c n)) ((s.beforePass q).circuitsOf q)
      (slotsWhere_nodup (slots_wf_beforePass h q) _), circuitsOf_beforePass h q]
  refine List.foldl_ext _ _ _ fun a i _ => ?_
  exact read_beforePass (fun x => g x i a) (fun c d h1 h2 h3 h4 h5 h6 => hg c d i a h1 h2 h3 h4 h5 h6) q i

theorem freeSlots_resetPort (h : Sparse.wf Fin.val {} s.slots) (q : PortNo) : (s.resetPort q).freeSlots
    = s.freeSlots ++ s.slotsWhere fun c => c.owner = some q && [StateName.offered, .ended].contains c.state.name := by
  rw [resetPort_reader h q State.freeSlots (fun x i a => a ++ if isFreed x then [i] else []) freeSlots_orphan
    (fun v => (keeps_judgeAtn v).at_freeSlots (by decide))
    (fun c d i a h1 _ _ _ _ _ => by rw [show isFreed (some d) = isFreed (some c) by simp only [isFreed, Option.any_some, h1]]),
    foldl_append, flatMap_if (fun i => isFreed (s.circuit i)) fun i => [i], List.flatMap_singleton',
    (keeps_beforePass q).at_freeSlots (by decide), slotsWhere_and h]
  rfl

/-- The buffers of the port's circuits that return, in order: those of every circuit but the CLOSING ones. -/
theorem flatMap_returned (h : Sparse.wf Fin.val {} s.slots) (q : PortNo) :
    ((s.circuitsOf q).flatMap fun i => returned (s.circuit i)) = s.resetBuffers q := by
  have : (fun i => returned (s.circuit i)) = fun i => if (s.circuit i).any (fun c => decide (c.state.name ≠ .closing)) then
      ((s.circuit i).map Circuit.buffers).getD [] else [] := by
    funext i
    cases hc : s.circuit i with
    | none => simp [returned]
    | some c => by_cases hx : c.state.name = .closing <;> simp [returned, hx]
  rw [this, flatMap_if (fun i => (s.circuit i).any fun c => decide (c.state.name ≠ .closing)), resetBuffers, buffersIn,
    slotsWhere_and h]
  rfl

theorem freeQueue_resetPort (h : Sparse.wf Fin.val {} s.slots) (q : PortNo) :
    (s.resetPort q).freeQueue = s.freeQueue ++ s.claimedSet q ++ s.resetBuffers q := by
  rw [resetPort_reader h q State.freeQueue (fun x _ a => a ++ returned x) freeQueue_orphan
    (fun v => (keeps_judgeAtn v).at_freeQueue (by decide)) (fun c d i a h1 _ _ _ _ h6 => by simp only [returned, h1, h6]),
    foldl_append, flatMap_returned h, freeQueue_beforePass]

theorem place_resetPort (h : Sparse.wf Fin.val {} s.slots) (q : PortNo) (b : BufNo) : (s.resetPort q).place b
    = if b ∈ s.claimedSet q ++ s.resetBuffers q then .free else s.place b := by
  rw [resetPort_reader h q (fun v => v.place b) (fun x _ a => if b ∈ returned x then .free else a) (place_orphan b)
    (fun v => place_of_keeps (keeps_judgeAtn v) (by decide) b) (fun c d i a h1 _ _ _ _ h6 => by
      rw [show returned (some d) = returned (some c) by simp only [returned, h1, h6]]),
    foldl_if_mem b Place.free fun i => returned (s.circuit i), flatMap_returned h, place_beforePass]
  by_cases h1 : b ∈ s.claimedSet q <;> by_cases h2 : b ∈ s.resetBuffers q <;> simp [h1, h2]

theorem lookup_resetPort (h : Sparse.wf Fin.val {} s.slots) (q : PortNo) (m : LineNo) (o : Byte)
    (hmo : ∀ i c, s.circuit i = some c → c.owner = some q → c.state = .offered → ¬ (m = c.line ∧ o = c.number)) :
    (s.resetPort q).lookup m o = s.lookup m o := by
  rw [resetPort_reader h q (fun v => v.lookup m o) (fun x _ a => match x with
      | none => a
      | some c => if c.state = .offered ∧ m = c.line ∧ o = c.number then none else a) (lookup_orphan m o)
    (fun v => lookup_of_keeps (keeps_judgeAtn v) (by decide) m o) (fun c d i a h1 _ h3 h4 _ _ => by simp only [h1, h3, h4]),
    lookup_of_keeps (keeps_beforePass q) (by decide)]
  refine foldl_same (fun i hi a => ?_) _
  obtain ⟨c, hc, ho⟩ := (mem_slotsWhere h).1 hi
  rw [hc]
  exact if_neg fun e => hmo i c hc (by simpa using ho) e.1 e.2

theorem entry_resetPort (h : Sparse.wf Fin.val {} s.slots) (q : PortNo) (e : EntryNo) : (s.resetPort q).entry e
    = ServiceEntry.lowered^[(s.slotsWhere fun c =>
        c.owner = some q && (c.state = .offered && c.origin = .remoteCall e)).length] (s.entry e) := by
  rw [resetPort_reader h q (fun v => v.entry e) (fun x _ a => if isOfferOf e x then a.lowered else a) (entry_orphan e)
    (fun v => entry_of_keeps (keeps_judgeAtn v) (by decide) e)
    (fun c d i a h1 _ _ _ h5 _ => by
      rw [show isOfferOf e (some d) = isOfferOf e (some c) by simp only [isOfferOf, Option.any_some, h1, h5]]),
    foldl_filter_if (fun i => isOfferOf e (s.circuit i)) (fun a _ => ServiceEntry.lowered a), foldl_iterate,
    entry_of_keeps (keeps_beforePass q) (by decide), slotsWhere_and h]
  rfl

/-- What the first steps do to the lines is what serving the credit wait queue does. -/
theorem served_beforePass (q : PortNo) : ∃ u, Served u (s.beforePass q) ∧ (∀ m, u.line m = s.line m)
    ∧ u.waitQueue = s.waitQueue ∧ ∀ j, u.circuit j = (s.circuit j).map (s.untaken q j) :=
  ⟨_, served_serveWait _, fun m => by
    rw [line_of_keeps (keeps_returnBuffers _ _) (by decide), line_of_keeps (keeps_emptyAttention q) (by decide)],
    by rw [(keeps_returnBuffers _ _).at_waitQueue (by decide), (keeps_emptyAttention q).at_waitQueue (by decide)], fun j => by
    rw [circuit_of_keeps (keeps_returnBuffers _ _) (by decide), circuit_emptyAttention]⟩

theorem line_beforePass (q : PortNo) (m : LineNo) : ∃ more, (∀ j ∈ more, j ∈ s.waitQueue ∧ s.gathers (s.beforePass q) j)
    ∧ (s.beforePass q).line m
      = { s.line m with tx := { (s.line m).tx with control := (s.line m).tx.control ++ more } } := by
  obtain ⟨u, hu, hl, hw, hc⟩ := served_beforePass (s := s) q
  obtain ⟨more, h0, e⟩ := hu.lines m
  refine ⟨more, fun j hj => ⟨hw ▸ (h0 j hj).1, ?_⟩, by rw [e, hl]⟩
  obtain ⟨d, hd, hlt⟩ := gathers_of_gains (h0 j hj).2
  rw [hc] at hd
  obtain ⟨c, h1, rfl⟩ := Option.map_eq_some_iff.1 hd
  refine ⟨c, h1, fun x hx => ?_⟩
  have := hlt x hx
  unfold untaken at this
  split_ifs at this <;> exact this

theorem stray_resetPort (h : Sparse.wf Fin.val {} s.slots) (q : PortNo) (m : LineNo) : ((s.resetPort q).line m).tx.stray
    = (((s.slotsWhere fun c => c.owner = some q && (c.state = .offered && c.line = m)).filterMap fun i =>
        (s.circuit i).map fun c => ⟨c.number, .refuse, Config.causeWithdrawn⟩).foldl offered (s.line m).tx.stray) := by
  have hb : ((s.beforePass q).line m).tx.stray = (s.line m).tx.stray := by
    obtain ⟨more, -, e⟩ := line_beforePass (s := s) q m
    rw [e]
  rw [resetPort_reader h q (fun v => (v.line m).tx.stray) (fun x _ a => match replyOf m x with
      | none => a
      | some r => offered a r) (stray_orphan m)
    (fun v => by rw [line_of_keeps (keeps_judgeAtn v) (by decide)])
    (fun c d i a h1 _ h3 h4 _ _ => by simp only [replyOf, h1, h3, h4]), hb, List.foldl_filterMap,
    slotsWhere_and h, List.foldl_filter]
  refine List.foldl_ext _ _ _ fun a i _ => ?_
  cases hc : s.circuit i with
  | none => simp [replyOf]
  | some c => by_cases h1 : c.state = .offered ∧ c.line = m <;> simp [replyOf, h1]

theorem foldl_leave (bs : List SlotNo) : ∀ q : List SlotNo, bs.foldl leave q = q.filter fun i => i ∉ bs := by
  induction bs with
  | nil => intro q; simp
  | cons b bs ih =>
    intro q
    rw [List.foldl_cons, ih, leave, List.filter_filter]
    refine List.filter_congr fun x _ => ?_
    by_cases h1 : x = b <;> by_cases h2 : x ∈ bs <;> simp [h1, h2]

theorem ring_resetPort (h : Sparse.wf Fin.val {} s.slots) (q : PortNo) (m : LineNo) : ((s.resetPort q).line m).tx.ring
    = (s.line m).tx.ring.filter fun i => i ∉ s.slotsWhere fun c =>
        c.owner = some q && (c.line = m && [StateName.calling, .offered, .opened, .draining].contains c.state.name) := by
  have hb : ((s.beforePass q).line m).tx.ring = (s.line m).tx.ring := by
    obtain ⟨more, -, e⟩ := line_beforePass (s := s) q m
    rw [e]
  rw [resetPort_reader h q (fun v => (v.line m).tx.ring) (fun x i a => if leavesRing m x then leave a i else a) (ring_orphan m)
    (fun v => by rw [line_of_keeps (keeps_judgeAtn v) (by decide)])
    (fun c d i a h1 _ h3 _ _ _ => by
      rw [show leavesRing m (some d) = leavesRing m (some c) by simp only [leavesRing, Option.any_some, h1, h3]]),
    foldl_filter_if (fun i => leavesRing m (s.circuit i)) leave, foldl_leave, hb, slotsWhere_and h]
  rfl

/-- What PORT-RESET does to a line's control queue: the port's offered calls leave it, and those that enter CLOSING and circuits granted
credit join it. -/
theorem control_resetPort (h : Sparse.wf Fin.val {} s.slots) (q : PortNo) (m : LineNo) : ∃ more,
    (∀ j ∈ more, s.joinsInReset q (s.resetPort q) j) ∧ ((s.resetPort q).line m).tx.control
      = ((s.line m).tx.control.filter fun i => i ∉ s.slotsWhere fun c =>
          c.owner = some q && (c.state = .offered && c.line = m)) ++ more := by
  have wf := slots_wf_beforePass h q
  obtain ⟨x, hx, ex⟩ := line_beforePass (s := s) q m
  obtain ⟨y, hy, ey⟩ := control_foldl_orphan m ((s.beforePass q).circuitsOf q) (s.beforePass q) (slotsWhere_nodup wf _)
  have left : (((s.beforePass q).circuitsOf q).filter fun i => leavesControl m ((s.beforePass q).circuit i))
      = s.slotsWhere fun c => c.owner = some q && (c.state = .offered && c.line = m) := by
    rw [circuitsOf_beforePass h q, slotsWhere_and h]
    refine List.filter_congr fun i _ => ?_
    exact read_beforePass (leavesControl m) (fun c d h1 _ h3 _ _ _ => by
      simp only [leavesControl, Option.any_some, h1, h3]) q i
  have live : ∀ j, j ∈ (s.beforePass q).circuitsOf q → (∃ c, (s.beforePass q).circuit j = some c ∧ c.live) →
      ∃ c, s.circuit j = some c ∧ c.owner = some q ∧ c.live := by
    rintro j hj ⟨d, hd, hl⟩
    rw [circuitsOf_beforePass h q] at hj
    obtain ⟨c, hc, ho⟩ := (mem_slotsWhere h).1 hj
    refine ⟨c, hc, by simpa using ho, ?_⟩
    obtain ⟨n, hn, -⟩ := circuit_beforePass_some hc q
    rw [hn] at hd; cases hd
    unfold Circuit.live at hl
    rwa [granted_state, (untaken_same q j c).2.1] at hl
  have waits : ∀ j, j ∈ (s.beforePass q).waitQueue → j ∈ s.waitQueue := waitQueue_beforePass q
  rw [resetPort_eq, line_of_keeps (keeps_judgeAtn _) (by decide), ey, left, ex, List.filter_append, List.append_assoc]
  refine ⟨_, fun j hj => ?_, rfl⟩
  unfold joinsInReset gathers
  simp only [circuit_judgeAtn]
  by_cases hl : j ∈ (s.beforePass q).circuitsOf q ∧ ∃ c, (s.beforePass q).circuit j = some c ∧ c.live
  · exact .inl (live j hl.1 hl.2)
  · right
    rcases List.mem_append.1 hj with hj | hj
    · obtain ⟨hw, c, hc, hd⟩ := hx j (List.mem_filter.1 hj).1
      refine ⟨hw, c, hc, fun d h => ?_⟩
      obtain ⟨e, he, hle⟩ := reserved_foldl_orphan _ _ (slotsWhere_nodup wf _) hl d h
      exact (hd e he).trans_le hle
    · obtain ⟨hw, e, he, hd⟩ := (hy j hj).resolve_left hl
      obtain ⟨n, hn, -⟩ := circuit_beforePass (s := s) q j
      rw [hn] at he
      obtain ⟨c, hc, rfl⟩ := Option.map_eq_some_iff.1 he
      refine ⟨waits j hw, c, hc, fun d h => (Nat.lt_of_le_of_lt ?_ (hd d h))⟩
      unfold Circuit.granted untaken
      split_ifs <;> first | exact Nat.le_refl _ | exact Nat.le_add_right _ _

/-- What PORT-RESET does to a line: its queues change, and nothing else of it does. -/
theorem line_resetPort (h : Sparse.wf Fin.val {} s.slots) (q : PortNo) (m : LineNo) : ∃ more,
    (∀ j ∈ more, s.joinsInReset q (s.resetPort q) j) ∧ (s.resetPort q).line m
    = { s.line m with tx := { (s.line m).tx with
        control := ((s.line m).tx.control.filter fun i => i ∉ s.slotsWhere fun c =>
          c.owner = some q && (c.state = .offered && c.line = m)) ++ more
        ring := (s.line m).tx.ring.filter fun i => i ∉ s.slotsWhere fun c =>
          c.owner = some q && (c.line = m && [StateName.calling, .offered, .opened, .draining].contains c.state.name)
        stray := ((s.slotsWhere fun c => c.owner = some q && (c.state = .offered && c.line = m)).filterMap fun i =>
          (s.circuit i).map fun c => ⟨c.number, .refuse, Config.causeWithdrawn⟩).foldl offered (s.line m).tx.stray } } := by
  have e := resetPort_reader h q (bare m) (fun _ _ a => a) (bare_orphan m)
    (fun v => by unfold bare; rw [line_of_keeps (keeps_judgeAtn v) (by decide)]) (fun _ _ _ _ _ _ _ _ _ _ => rfl)
  rw [foldl_same fun _ _ _ => rfl] at e
  obtain ⟨more, -, hb⟩ := line_beforePass (s := s) q m
  rw [show (s.beforePass q).bare m = s.bare m by unfold bare; rw [hb]] at e
  obtain ⟨joined, h0, hc⟩ := control_resetPort h q m
  refine ⟨joined, h0, ?_⟩
  rw [← ring_resetPort h q m, ← stray_resetPort h q m, ← hc]
  exact line_of_bare e

/-- A circuit of no port, or of another, keeps its place on a control queue. -/
theorem staying_resetPort (h : Sparse.wf Fin.val {} s.slots) (q : PortNo) (m : LineNo) (j : SlotNo)
    (hj : ∀ c, s.circuit j = some c → c.owner ≠ some q) (hc : j ∈ (s.line m).tx.control) :
    j ∈ ((s.resetPort q).line m).tx.control := by
  rw [resetPort_eq, line_of_keeps (keeps_judgeAtn _) (by decide)]
  refine control_foldl actsAt_orphan _ _ m j (fun hb => ?_) ?_
  · rw [circuitsOf_beforePass h q] at hb
    obtain ⟨c, h1, h2⟩ := (mem_slotsWhere h).1 hb
    exact hj c h1 (by simpa using h2)
  · obtain ⟨more, -, e⟩ := line_beforePass (s := s) q m
    rw [e]; exact List.mem_append_left _ hc

/-- A circuit of another port keeps its record, but for what a list emptied had pending, or stands on its line's control queue. -/
theorem standing_resetPort (h : Sparse.wf Fin.val {} s.slots) (q : PortNo) (hc : s.circuit i = some c)
    (ho : c.owner ≠ some q) :
    (s.resetPort q).circuit i = some (s.untaken q i c) ∨ i ∈ ((s.resetPort q).line c.line).tx.control := by
  have hi : i ∉ (s.beforePass q).circuitsOf q := fun hb => by
    rw [circuitsOf_beforePass h q] at hb
    obtain ⟨d, h1, h2⟩ := (mem_slotsWhere h).1 hb
    rw [hc] at h1; cases h1
    exact ho (by simpa using h2)
  have hl : (s.untaken q i c).line = c.line := by unfold untaken; split_ifs <;> rfl
  rw [resetPort_eq, circuit_judgeAtn, line_of_keeps (keeps_judgeAtn _) (by decide), ← hl]
  obtain ⟨u, hu, -, -, hcu⟩ := served_beforePass (s := s) q
  rcases hu.standing i (s.untaken q i c) (by rw [hcu, hc]; rfl) with h' | h'
  · exact standing_foldl actsAt_orphan _ _ i _ hi h'
  · exact .inr (control_foldl actsAt_orphan _ _ _ i hi h')

theorem keeps_resetPort (s : State) (q : PortNo) : Keeps directoryParts s (s.resetPort q) := by
  rw [resetPort_eq]
  refine Keeps.trans ?_ ((keeps_judgeAtn _).mono (by decide))
  exact ((keeps_beforePass q).mono (by decide)).trans (Keeps.foldl keeps_orphan _ _)

end State

end Sys2Proof.Machine
end

