-- ==== Sys2Proof/Laws/Receiver.lean ====
section
/-! SUPPORT. What a line receiver makes of bits: what it gathers, and what a flag and an abort end (R130). -/

namespace Sys2Proof.Machine

/-! ## Runs of 1 bits -/

/-- The 1 bits that bits begin with. -/
def leadingOnes (bits : List Bool) : Nat := (bits.takeWhile id).length

theorem leadingOnes_true (bits : List Bool) : leadingOnes (true :: bits) = leadingOnes bits + 1 := by
  simp [leadingOnes]

theorem leadingOnes_false (bits : List Bool) : leadingOnes (false :: bits) = 0 := by simp [leadingOnes]

theorem trailingOnes_reverse (bits : List Bool) : trailingOnes bits.reverse = leadingOnes bits := by
  simp [trailingOnes, leadingOnes]

theorem leadingOnes_split (bits : List Bool) : ∃ rest, bits = List.replicate (leadingOnes bits) true ++ rest := by
  refine ⟨bits.dropWhile id, ?_⟩
  have : bits.takeWhile id = List.replicate (leadingOnes bits) true := by
    refine List.eq_replicate_iff.2 ⟨rfl, fun b hb => ?_⟩
    have := List.all_takeWhile (p := id) (l := bits)
    simpa using List.all_eq_true.1 this b hb
  rw [← this, List.takeWhile_append_dropWhile]

/-- Bits, the last first, that hold no six consecutive 1 bits end in five at most. -/
theorem leadingOnes_le {taken : List Bool} (h : sixless taken.reverse) : leadingOnes taken ≤ 5 := by
  by_contra hn
  obtain ⟨rest, hr⟩ := leadingOnes_split taken
  obtain ⟨k, hk⟩ : ∃ k, leadingOnes taken = 6 + k := ⟨leadingOnes taken - 6, by omega⟩
  refine h ⟨rest.reverse ++ List.replicate k true, [], ?_⟩
  rw [hr, hk]
  simp [List.replicate_add, List.reverse_append, List.replicate_succ]

theorem sixless_left {a b : List Bool} (h : sixless (a ++ b)) : sixless a := fun ⟨x, y, e⟩ => h ⟨x, y ++ b, by simp [← e]⟩

/-! ## Delimiting -/

/-- Bits that hold no six consecutive 1 bits, with those taken before them, are all taken and end nothing. -/
theorem delimit_sixless (bits more : List Bool) : ∀ taken, sixless (taken.reverse ++ bits) →
    delimit (some taken) (leadingOnes taken) (bits ++ more)
      = delimit (some (bits.reverse ++ taken)) (leadingOnes (bits.reverse ++ taken)) more := by
  induction bits with
  | nil => exact fun _ _ => rfl
  | cons b bits ih =>
    intro taken h
    have hne : leadingOnes taken ≠ 6 := by have := leadingOnes_le (sixless_left h); omega
    have h' : sixless ((b :: taken).reverse ++ bits) := by simpa using h
    have := ih (b :: taken) h'
    cases b with
    | false =>
      rw [List.cons_append, delimit, if_neg hne]
      rw [leadingOnes_false] at this
      rw [this]
      simp
    | true =>
      rw [List.cons_append, delimit, if_neg hne]
      rw [leadingOnes_true] at this
      rw [this]
      simp

/-- A flag behind bits that hold no six consecutive 1 bits ends the frame they are the content of, if there are any. -/
theorem delimit_flag {taken : List Bool} (h : sixless taken.reverse) (more : List Bool) :
    delimit (some taken) (leadingOnes taken) (flagBits ++ more)
      = if taken = [] then delimit (some []) 0 more
        else ((delimit (some []) 0 more).1, .closed (gathered taken) :: (delimit (some []) 0 more).2) := by
  have hne : leadingOnes taken ≠ 6 := by have := leadingOnes_le h; omega
  show delimit (some taken) _ (false :: true :: true :: true :: true :: true :: true :: false :: more) = _
  simp [delimit, hne]

/-- Seven consecutive 1 bits end what was taken before them. -/
theorem delimit_abort {taken : List Bool} {k : Nat} (hk : k ≤ 5) :
    delimit (some (List.replicate k true ++ taken)) k (List.replicate 7 true) = (none, [.aborted (gathered taken)]) := by
  have key : ∀ j n, j + n = 6 → ∀ x : List Bool, x = List.replicate j true ++ taken → ∀ more,
      delimit (some x) j (List.replicate (n + 1) true ++ more)
        = ((delimit none 7 more).1, .aborted (gathered taken) :: (delimit none 7 more).2) := by
    intro j n
    induction n generalizing j with
    | zero =>
      intro hj x hx more
      obtain rfl : j = 6 := by omega
      subst hx
      simp [delimit, List.replicate_succ]
    | succ n ih =>
      intro hj x hx more
      rw [List.replicate_succ, List.cons_append, delimit, if_neg (by omega)]
      exact ih (j + 1) (by omega) _ (by rw [hx, List.replicate_succ, List.cons_append]) more
  have ones : ∀ n, delimit none 7 (List.replicate n true) = (none, []) := by
    intro n
    induction n with
    | zero => rfl
    | succ n ih => rw [List.replicate_succ, delimit]; exact ih
  have := key k (6 - k) (by omega) _ rfl (List.replicate k true)
  rw [← List.replicate_add, show 6 - k + 1 + k = 7 by omega, ones] at this
  exact this

/-- A receiver in HUNT passes over bits that hold no six consecutive 1 bits, and a flag behind them opens a frame. -/
theorem delimit_hunt (bits more : List Bool) : ∀ ones : Nat, (ones = 7 ∨ ones ≤ 5 ∧ sixless (List.replicate ones true ++ bits)) →
    sixless bits → delimit none ones (bits ++ (flagBits ++ more)) = delimit (some []) 0 more := by
  induction bits with
  | nil =>
    intro ones h _
    have hne : ones ≠ 6 := by omega
    show delimit none ones (false :: true :: true :: true :: true :: true :: true :: false :: more) = _
    simp [delimit, hne]
  | cons b bits ih =>
    intro ones h hs
    have hs' : sixless bits := fun ⟨x, y, e⟩ => hs ⟨b :: x, y, by simp [← e]⟩
    cases b with
    | false =>
      rw [List.cons_append, delimit, if_neg (by omega)]
      exact ih 0 (.inr ⟨by omega, hs'⟩) hs'
    | true =>
      rw [List.cons_append, delimit]
      refine ih _ ?_ hs'
      rcases h with h | ⟨h, h6⟩
      · exact .inl (by omega)
      · have e : List.replicate ones true ++ true :: bits = List.replicate (ones + 1) true ++ bits := by
          rw [List.replicate_succ', List.append_assoc]; rfl
        have : ones + 1 ≤ 5 := by
          by_contra hn
          obtain rfl : ones = 5 := by omega
          exact h6 ⟨[], bits, by rw [e]; rfl⟩
        exact .inr ⟨by omega, by rw [show min 7 (ones + 1) = ones + 1 by omega, ← e]; exact h6⟩

/-- A receiver in HUNT passes over bits that hold no flag, and over 1 bits behind them. What came before is all 1 bits, or a 0 and the
1 bits counted end it. -/
theorem delimit_hunt_ones (bits : List Bool) (n : Nat) : ∀ (ones : Nat) (before : List Bool), ¬ flagBits <:+: before ++ bits →
    (ones = 7 ∨ ones ≤ 6 ∧ ∃ x, before = x ++ false :: List.replicate ones true) →
    delimit none ones (bits ++ List.replicate n true) = (none, []) := by
  induction bits with
  | nil =>
    intro ones before _ _
    rw [List.nil_append]
    clear * -
    induction n generalizing ones with
    | zero => rfl
    | succ n ih => rw [List.replicate_succ, delimit]; exact ih _
  | cons b bits ih =>
    intro ones before h ho
    have h' : ¬ flagBits <:+: (before ++ [b]) ++ bits := by simpa using h
    cases b with
    | false =>
      have hne : ones ≠ 6 := by
        rintro rfl
        rcases ho with ho | ⟨-, x, rfl⟩
        · omega
        · exact h ⟨x, bits, by simp [flagBits, byteBits, List.replicate_succ]⟩
      rw [List.cons_append, delimit, if_neg hne]
      exact ih 0 _ h' (.inr ⟨by omega, before, rfl⟩)
    | true =>
      rw [List.cons_append, delimit]
      refine ih _ _ h' ?_
      rcases ho with ho | ⟨ho, x, rfl⟩
      · exact .inl (by omega)
      · by_cases h6 : ones = 6
        · exact .inl (by omega)
        · refine .inr ⟨by omega, x, ?_⟩
          rw [show min 7 (ones + 1) = ones + 1 by omega, List.replicate_succ', List.append_assoc, List.cons_append]

namespace State

variable {s : State} {l : LineNo}

@[simp] theorem setReceiver_setReceiver (x y : Receiver) : (s.setReceiver l x).setReceiver l y = s.setReceiver l y := by
  simp [setReceiver, modLine, setLine, line]

/-- What follows when nothing else ended: the frames that ended, or none. -/
theorem takeEndings_closed (content : List Bool) : s.takeEndings l [.closed content] = s.closeContent l content := by
  simp only [takeEndings]
  cases s.closeContent l content <;> rfl

/-- A receiver in FRAME, with bits and then a flag: the content of all its bits, if there are any, is judged, and a frame opens. -/
theorem takeBits_frame_flag (h1 : s.phase = .running) {raw : List Bool} (h2 : (s.line l).receiver = .frame raw)
    {bits : List Bool} (h3 : sixless (raw ++ bits)) (h4 : raw ++ bits ≠ []) :
    s.takeBits l (bits ++ flagBits) = (s.setReceiver l (.frame [])).closeContent l (deleteZeros 0 (raw ++ bits)) := by
  have ht : trailingOnes raw = leadingOnes raw.reverse := by rw [← trailingOnes_reverse, List.reverse_reverse]
  have h3' : sixless (raw.reverse.reverse ++ bits) := by simpa using h3
  have hf := delimit_flag (taken := bits.reverse ++ raw.reverse) (by simpa using h3) []
  rw [List.append_nil, if_neg (by simpa [and_comm] using h4)] at hf
  simp only [takeBits, h1, h2, if_true, ht, delimit_sixless bits flagBits _ h3', hf, settleReceiver]
  rw [show delimit (some []) 0 [] = (some [], []) from rfl]
  simp only [List.reverse_nil, takeEndings_closed, gathered, List.reverse_append, List.reverse_reverse]

/-- A receiver in HUNT, or one whose frame has no content yet: a flag opens a frame, and the bits behind it are its first. -/
theorem takeBits_flag_bits (h1 : s.phase = .running)
    (h2 : (s.line l).receiver = .hunt ∨ (s.line l).receiver = .frame []) (bits : List Bool) :
    s.takeBits l (flagBits ++ bits) = (s.setReceiver l (.frame [])).takeBits l bits := by
  have e : (s.setReceiver l (.frame [])).takeBits l bits
      = (s.setReceiver l (.frame [])).settleReceiver l (delimit (some []) 0 bits) := by
    simp only [takeBits, line_setReceiver_same]
    exact if_pos h1
  have e' : ∀ x, (s.setReceiver l (.frame [])).settleReceiver l x = s.settleReceiver l x := fun x => by
    simp only [settleReceiver, setReceiver_setReceiver]
  rw [e, e']
  rcases h2 with h | h <;> simp only [takeBits, h1, h, if_true] <;> rfl

/-- A receiver in FRAME, with bits that end nothing: they are taken. -/
theorem takeBits_frame (h1 : s.phase = .running) {raw : List Bool} (h2 : (s.line l).receiver = .frame raw)
    {bits : List Bool} (h3 : sixless (raw ++ bits)) :
    s.takeBits l bits = .next (s.setReceiver l (.frame (raw ++ bits))) := by
  have ht : trailingOnes raw = leadingOnes raw.reverse := by rw [← trailingOnes_reverse, List.reverse_reverse]
  have h := delimit_sixless bits [] raw.reverse (by simpa using h3)
  rw [List.append_nil] at h
  simp only [takeBits, h1, h2, if_true, ht, h, delimit, settleReceiver, takeEndings, List.reverse_append, List.reverse_reverse]

/-- A receiver in HUNT passes over bits that hold no six consecutive 1 bits, and the flag behind them opens a frame. -/
theorem takeBits_hunt (h1 : s.phase = .running) (h2 : (s.line l).receiver = .hunt) {bits : List Bool} (h3 : sixless bits) :
    s.takeBits l (bits ++ flagBits) = .next (s.setReceiver l (.frame [])) := by
  have h := delimit_hunt bits [] 7 (.inl rfl) h3
  rw [List.append_nil] at h
  simp only [takeBits, h1, h2, if_true, h, delimit, settleReceiver, takeEndings, List.reverse_nil]

/-- A receiver in HUNT passes over bits that hold no flag, and over an abort behind them. -/
theorem takeBits_hunt_abort (h1 : s.phase = .running) (h2 : (s.line l).receiver = .hunt) {bits : List Bool}
    (h3 : ¬ flagBits <:+: bits) : s.takeBits l (bits ++ List.replicate 7 true) = .next s := by
  have h := delimit_hunt_ones bits 7 7 [] h3 (.inl rfl)
  simp only [takeBits, h1, h2, if_true, h, settleReceiver, takeEndings]
  rw [setReceiver_self h2]

/-- A receiver in FRAME, with bits and then seven 1 bits: the frame is discarded, and counts if it had content (R130). -/
theorem takeBits_frame_abort (h1 : s.phase = .running) {raw : List Bool} (h2 : (s.line l).receiver = .frame raw)
    {bits content : List Bool} {k : Nat} (h3 : sixless (raw ++ bits)) (h4 : raw ++ bits = content ++ List.replicate k true)
    (h5 : content = [] ∨ ∃ rest, content = rest ++ [false]) :
    s.takeBits l (bits ++ List.replicate 7 true)
      = .next (if content = [] then s.setReceiver l .hunt else (s.setReceiver l .hunt).countDiscard l) := by
  have ht : trailingOnes raw = leadingOnes raw.reverse := by rw [← trailingOnes_reverse, List.reverse_reverse]
  have hr : bits.reverse ++ raw.reverse = List.replicate k true ++ content.reverse := by
    rw [← List.reverse_append, h4, List.reverse_append, List.reverse_replicate]
  have hk : leadingOnes (List.replicate k true ++ content.reverse) = k := by
    rcases h5 with rfl | ⟨rest, rfl⟩ <;> simp [leadingOnes, List.takeWhile_append_of_pos]
  have hk5 : k ≤ 5 := by
    rw [← hk, ← hr]
    exact leadingOnes_le (by simpa using h3)
  have hd := delimit_abort (taken := content.reverse) hk5
  have he : deleteZeros 0 content = [] ↔ content = [] := by
    cases content with
    | nil => simp [deleteZeros]
    | cons b _ => cases b <;> simp [deleteZeros]
  simp only [takeBits, h1, h2, if_true, ht, delimit_sixless bits _ raw.reverse (by simpa using h3), hr, hk, hd, settleReceiver,
    takeEndings, gathered, List.reverse_reverse, he]

end State

end Sys2Proof.Machine
end

