-- ==== Sys2Proof/Laws/Settled.lean ====
section
/-! SUPPORT. The end of an event at the credit wait queue: every shared operation leaves it empty or nothing available, as it found it. -/

namespace Sys2Proof.Machine.State

/-- The pool has no grant to make: its credit wait queue is empty or nothing is available (R89). -/
def PoolRests (s : State) : Prop := s.waitQueue = [] ∨ s.available = 0

variable {s t : State} {i : SlotNo} {c : Circuit}

theorem settled_iff {s : State} (h : s.backed) : s.settled ↔ PoolRests s ∧ Backed True none s :=
  ⟨fun x => ⟨x.served, backed_true_iff.2 ⟨h, x.short⟩⟩, fun x => ⟨x.1, (backed_true_iff.1 x.2).2⟩⟩

/-! ## What keeps it, and what brings it about -/

theorem PoolRests.of_keeps {xs : List Part} (h : PoolRests s) (k : Keeps xs s t) (h1 : .freeQueue ∉ xs := by decide)
    (h2 : .reservedTotal ∉ xs := by decide) (h3 : .waitQueue ∉ xs := by decide) : PoolRests t := by
  unfold PoolRests
  rw [available_of_keeps k h1 h2, k.at_waitQueue h3]
  exact h

theorem poolRests_serveTimes (n : Nat) : ∀ s : State, s.available ≤ n → PoolRests (State.serveTimes n s) := by
  induction n with
  | zero => exact fun s h => .inr (Nat.le_zero.1 h)
  | succ n ih =>
    intro s h
    rw [State.serveTimes]
    split
    · rename_i hq; exact .inl hq
    · exact ih _ (by rw [available_grantOne]; omega)

/-- After its service the pool rests (R88). -/
theorem poolRests_serveWait (s : State) : PoolRests s.serveWait := poolRests_serveTimes _ s (le_refl _)

theorem PoolRests.filterWait (h : PoolRests s) (f : SlotNo → Bool) : PoolRests (s.setWaitQueue (s.waitQueue.filter f)) :=
  h.imp (fun e => by rw [setWaitQueue_waitQueue, e]; rfl) id

theorem PoolRests.leaveWait (h : PoolRests s) : PoolRests (s.leaveWait i) := h.filterWait _

theorem PoolRests.joinWait (h : PoolRests s) : PoolRests (s.joinWait i) := by
  unfold State.joinWait
  split
  · exact h
  · exact poolRests_serveWait _

theorem PoolRests.joinWaitIfShort (h : PoolRests s) : PoolRests (s.joinWaitIfShort i) := by
  unfold State.joinWaitIfShort
  split
  · exact h.joinWait
  · exact h

theorem PoolRests.reserve (h : PoolRests s) (n : Nat) : PoolRests (s.reserve i n) := by
  refine h.imp id fun e => ?_
  have : (s.reserve i n).available = s.freeQueue.length - (s.reservedTotal + min n s.available) := rfl
  unfold available at e this ⊢
  omega

theorem PoolRests.releaseReservations (h : PoolRests s) : PoolRests (s.releaseReservations i) := by
  unfold State.releaseReservations
  split
  · exact h
  · exact poolRests_serveWait _

theorem PoolRests.returnCircuitBuffers (h : PoolRests s) : PoolRests (s.returnCircuitBuffers i) := by
  unfold State.returnCircuitBuffers
  split
  · exact h
  · exact poolRests_serveWait _

/-! ## Ends -/

theorem PoolRests.enterClosing (h : PoolRests s) (cause : Byte) : PoolRests (s.enterClosing i cause) := by
  unfold State.enterClosing
  split
  · exact h
  · dsimp only
    refine PoolRests.of_keeps (PoolRests.of_keeps ?_ (keeps_modCircuit _ _ _)) (keeps_owe _ _ _)
    exact (((h.of_keeps (keeps_setCircuit _ _ _)).of_keeps (keeps_modTx _ _ _)).leaveWait).releaseReservations

theorem PoolRests.endSteps (h : PoolRests s) : PoolRests (s.endSteps i) := by
  unfold State.endSteps
  split
  · exact h
  · dsimp only
    refine PoolRests.of_keeps ?_ (keeps_modCircuit _ _ _)
    refine PoolRests.releaseReservations (PoolRests.of_keeps (PoolRests.leaveWait ?_) (keeps_modTx _ _ _))
    exact (h.of_keeps (s.keeps_unmapNumber _ _)).of_keeps (keeps_lowerLive _ _)

theorem PoolRests.endRecord (h : PoolRests s) (cause : Byte) (side : Side) (m : Option Confirmation) :
    PoolRests (s.endRecord i cause side m) := (h.of_keeps (keeps_modCircuit _ _ _)).endSteps

theorem PoolRests.enterEnded (h : PoolRests s) (cause : Byte) (side : Side) (m : Option Confirmation) :
    PoolRests (s.enterEnded i cause side m) := (h.endRecord cause side m).of_keeps (keeps_raise _ _ _)

theorem PoolRests.directFree (h : PoolRests s) : PoolRests (s.directFree i) :=
  ((h.endSteps.returnCircuitBuffers).of_keeps (keeps_leaveOwner _ _)).of_keeps (keeps_freeSlot _ _)

theorem PoolRests.endClosing (h : PoolRests s) (m : Confirmation) : PoolRests (s.endClosing i m) := by
  unfold State.endClosing
  split
  · exact h
  · split
    · exact h.enterEnded _ _ _
    · exact h.directFree
    · exact h

theorem PoolRests.endByTeardown (h : PoolRests s) (cause : Byte) : PoolRests (endByTeardown cause s i) := by
  unfold State.endByTeardown
  split
  · exact h
  · split
    · exact h.directFree
    · exact h.enterEnded _ _ _
    · exact h.enterEnded _ _ _

theorem PoolRests.foldl {f : State → SlotNo → State} (hf : ∀ v b, PoolRests v → PoolRests (f v b)) (bs : List SlotNo) :
    ∀ s : State, PoolRests s → PoolRests (bs.foldl f s) := by
  induction bs with
  | nil => exact fun _ h => h
  | cons b bs ih => exact fun s h => ih _ (hf s b h)

theorem PoolRests.teardown (h : PoolRests s) (l : LineNo) (cause : Byte) : PoolRests (s.teardown l cause) := by
  have h1 := PoolRests.foldl (fun v b hv => hv.endByTeardown (i := b) cause) (s.mappedSlots l) _
    (h.filterWait fun i => i ∉ s.mappedSlots l)
  unfold State.teardown
  dsimp only
  split
  · exact ((h1.of_keeps (keeps_modLine _ _ _)).of_keeps (keeps_countDiscard _ _)).of_keeps (keeps_modLine _ _ _)
  · exact h1.of_keeps (keeps_modLine _ _ _)

/-! ## Arrivals -/

theorem PoolRests.allocate (h : PoolRests s) (ha : s.allocate c = some (i, t)) : PoolRests t :=
  h.of_keeps (keeps_allocate ha)

theorem PoolRests.admitCall (h : PoolRests s) (l : LineNo) (n service edge : Byte) :
    PoolRests (s.admitCall l n service edge) := by
  have refused : ∀ cause, PoolRests (s.refuseCall l n cause) := fun _ => h.of_keeps (keeps_offerReply _ l _)
  unfold State.admitCall
  split
  · exact refused _
  · split
    · exact refused _
    · split
      · exact refused _
      · unfold State.admitOffer
        split
        · exact refused _
        · rename_i ha
          exact (((h.allocate ha).of_keeps (keeps_setEntry _ _ _)).of_keeps (keeps_startTimer _ _ _)).of_keeps
            (keeps_raise _ _ _)
    · split
      · exact refused _
      · unfold State.admitAccept
        split
        · exact refused _
        · rename_i ha
          exact (((((h.allocate ha).of_keeps (keeps_setEntry _ _ _)).reserve _).of_keeps (keeps_owe _ _ _)).of_keeps
            (keeps_raise _ _ _)).joinWaitIfShort

theorem PoolRests.collide (h : PoolRests s) (l : LineNo) (n service edge : Byte) :
    PoolRests (s.collide i l n service edge) := by
  unfold State.collide
  split
  · exact ((((h.of_keeps (s.keeps_unmapNumber _ _)).of_keeps (keeps_mapNumber _ _ _ _)).of_keeps
      (keeps_modCircuit _ _ _)).of_keeps (keeps_owe _ _ _)).admitCall _ _ _ _
  · split
    · exact ((h.endRecord _ _ _).admitCall _ _ _ _).of_keeps (keeps_raise _ _ _)
    · exact (h.enterEnded _ _ _).admitCall _ _ _ _

theorem PoolRests.openArrives (h : PoolRests s) (l : LineNo) (n a b : Byte) : PoolRests (s.openArrives l n a b) := by
  unfold State.openArrives
  split
  · exact h.admitCall _ _ _ _
  · repeat' split
    all_goals first | exact h | exact h.collide _ _ _ _ | exact h.of_keeps (keeps_owe _ _ _)

theorem PoolRests.grantArrives (h : PoolRests s) (l : LineNo) (n a : Byte) : PoolRests (s.grantArrives l n a) := by
  unfold State.grantArrives
  split
  · exact h.of_keeps (keeps_strayArrives _ _ _ _)
  · split
    · refine PoolRests.of_keeps (PoolRests.of_keeps (PoolRests.joinWaitIfShort ?_) (keeps_settleReady _ _)) (keeps_settleStall _ _)
      exact (((h.of_keeps (keeps_stopTimer _ _)).of_keeps (keeps_dropOwed _ _ _)).of_keeps (keeps_modCircuit _ _ _)).of_keeps
        (keeps_raise _ _ _)
    · exact h

theorem PoolRests.refuseArrives (h : PoolRests s) (l : LineNo) (n a : Byte) : PoolRests (s.refuseArrives l n a) := by
  unfold State.refuseArrives
  split
  · exact h.of_keeps (keeps_strayArrives _ _ _ _)
  · split
    · exact h.enterEnded _ _ _
    · exact h

/-- A frame in order takes a buffer from the free queue and the reservation that it backed, so no more is available than before (R83). -/
theorem PoolRests.takeCarry {b : BufNo} {rest : List BufNo} (h : PoolRests s) (hr : 0 < s.reservedTotal)
    (hq : s.freeQueue = b :: rest) (m : Bool) (vs : List Byte) : PoolRests (s.takeCarry i b rest m vs) := by
  have h0 : PoolRests ((s.setFreeQueue rest).setReservedTotal (s.reservedTotal - 1)) := by
    refine h.imp id fun e => ?_
    unfold available at e ⊢
    rw [hq, List.length_cons] at e
    show rest.length - (s.reservedTotal - 1) = 0
    omega
  unfold State.takeCarry
  refine PoolRests.joinWaitIfShort (PoolRests.of_keeps (PoolRests.of_keeps (PoolRests.of_keeps ?_ (keeps_modCircuit _ _ _))
    (keeps_raise _ _ _)) (keeps_owe _ _ _))
  exact (h0.of_keeps (keeps_setPlace _ _ _)).of_keeps (keeps_writeBuffer _ _ _ _)

theorem PoolRests.settleDrain (h : PoolRests s) : PoolRests (s.settleDrain i) := by
  unfold State.settleDrain
  repeat' split
  all_goals first | exact h | exact h.enterClosing _

theorem PoolRests.settleCredit (h : PoolRests s) (n : Nat) (e : Bool) : PoolRests (s.settleCredit i n e) := by
  have h1 : PoolRests (if 0 < n || e then s.modCircuit i fun c => { c with retry := 0 } else s) := by
    split
    · exact h.of_keeps (keeps_modCircuit _ _ _)
    · exact h
  exact (((h1.of_keeps (keeps_dropOwed _ _ _)).of_keeps (keeps_settleTimer _ _ _)).of_keeps (keeps_settleReady _ _)).settleDrain

theorem poolRests_acknowledge (s : State) (i : SlotNo) (c : Circuit) (n : Nat) (a : Seq) :
    PoolRests (s.acknowledge i c n a) := by
  have h := (poolRests_serveWait ((s.setCircuit i (some { c with unacked := c.unacked.drop n, ackBase := a })).returnBuffers
    ((c.unacked.take n).map (·.entry.buffer)))).of_keeps
      (keeps_modCircuit _ i fun x => { x with delivered := min Config.countMax (x.delivered + n) })
  unfold State.acknowledge
  dsimp only
  split
  · exact h.of_keeps (keeps_raise _ _ _)
  · exact h

theorem PoolRests.creditArrives (h : PoolRests s) (l : LineNo) (n a b : Byte) : PoolRests (s.creditArrives l n a b) := by
  unfold State.creditArrives
  split
  · exact h.of_keeps (keeps_strayArrives _ _ _ _)
  · dsimp only
    repeat' split
    · exact h.settleCredit _ _
    · exact h.enterClosing _
    · exact PoolRests.settleCredit ((poolRests_acknowledge _ _ _ _ _).of_keeps (keeps_modCircuit _ _ _)) _ _
    · exact h

theorem PoolRests.closeArrives (h : PoolRests s) (l : LineNo) (n a : Byte) : PoolRests (s.closeArrives l n a) := by
  unfold State.closeArrives
  split
  · exact h.of_keeps (keeps_strayArrives _ _ _ _)
  · split
    · exact (h.endClosing _).of_keeps (keeps_offerReply _ _ _)
    · exact h
    · exact (h.enterEnded _ _ _).of_keeps (keeps_offerReply _ _ _)

theorem PoolRests.closedArrives (h : PoolRests s) (l : LineNo) (n : Byte) : PoolRests (s.closedArrives l n) := by
  unfold State.closedArrives
  split
  · exact h.of_keeps (keeps_strayArrives _ _ _ _)
  · split
    · exact h.endClosing _
    · exact h

/-! ## PORT-RESET -/

theorem PoolRests.orphan (h : PoolRests s) : PoolRests (s.orphan i) := by
  unfold State.orphan
  repeat' split
  · exact h
  · exact (h.of_keeps (keeps_offerReply _ _ _)).directFree
  · exact h.of_keeps (keeps_modCircuit _ _ _)
  · exact h.returnCircuitBuffers.of_keeps (keeps_freeSlot _ _)
  · exact ((h.enterClosing _).of_keeps (keeps_modCircuit _ _ _)).returnCircuitBuffers

theorem poolRests_resetPort (s : State) (p : PortNo) : PoolRests (s.resetPort p) := by
  unfold State.resetPort
  exact (PoolRests.foldl (fun _ _ hv => hv.orphan) _ _ (poolRests_serveWait _)).of_keeps (keeps_judgeAtn _)

end Sys2Proof.Machine.State
end

