-- ==== Sys2Proof/Laws/Sound.lean ====
section
/-! SUPPORT. Every shared operation but a line teardown changes nothing of a line but its transmitter, and stages frames on ACTIVE lines
alone; so it keeps a line record in agreement with itself. -/

namespace Sys2Proof.Machine

/-- Between two states every line differs in its transmitter at most, and a frame is staged only on an ACTIVE line. -/
def TxOnly (r s : State) : Prop :=
  ∀ l, ∃ tx, s.line l = { r.line l with tx := tx }
    ∧ (tx.staged.isSome = true → (r.line l).tx.staged.isSome = true ∨ (r.line l).state = .active)

variable {r s t : State}

namespace TxOnly

theorem refl (s : State) : TxOnly s s := fun l => ⟨(s.line l).tx, rfl, .inl⟩

theorem trans (h : TxOnly r s) (k : TxOnly s t) : TxOnly r t := fun l => by
  obtain ⟨x, h1, h2⟩ := h l
  obtain ⟨y, k1, k2⟩ := k l
  refine ⟨y, by rw [k1, h1], fun e => ?_⟩
  rw [h1] at k2
  exact (k2 e).elim h2 .inr

theorem state (h : TxOnly r s) (l : LineNo) : (s.line l).state = (r.line l).state := by
  obtain ⟨x, h1, _⟩ := h l
  rw [h1]

/-- A sound line record stays so. -/
theorem sound (h : TxOnly r s) (hr : ∀ l, (r.line l).sound) (l : LineNo) : (s.line l).sound := by
  obtain ⟨x, h1, h2⟩ := h l
  have k := hr l
  rw [h1]
  exact ⟨k.settle, k.lon, k.receiver, k.changed, fun e => (h2 e).elim k.staged id, k.ready, k.counts, k.durations,
    k.settings⟩

theorem of_queuesOnly (h : State.QueuesOnly r s) : TxOnly r s := fun l => by
  obtain ⟨a, b, hl⟩ := h l
  exact ⟨_, hl, .inl⟩

end TxOnly

namespace State

theorem txOnly_of_keeps {xs : List Part} (h : TxOnly r s) (k : Keeps xs s t) (h1 : .lines ∉ xs) : TxOnly r t :=
  fun l => by rw [State.line_of_keeps k h1]; exact h l

theorem txOnly_modTx_of (h : TxOnly r s) (l : LineNo) (f : Transmitter → Transmitter)
    (hf : (f (s.line l).tx).staged = (s.line l).tx.staged ∨ (f (s.line l).tx).staged = none
      ∨ (s.line l).state = .active) : TxOnly r (s.modTx l f) := h.trans fun m => by
  by_cases hm : m = l
  · subst hm
    refine ⟨f (s.line m).tx, line_modTx_same _ _ _, fun e => ?_⟩
    rcases hf with hf | hf | hf
    · exact .inl (by rw [← hf]; exact e)
    · rw [hf] at e; cases e
    · exact .inr hf
  · rw [line_modTx_ne _ hm]; exact ⟨_, rfl, .inl⟩

/-! ## The single updates -/

@[simp] theorem txOnly_modTx (h : TxOnly r s) (l : LineNo) (f : Transmitter → Transmitter)
    (hf : ∀ x, (f x).staged = x.staged ∨ (f x).staged = none) : TxOnly r (s.modTx l f) :=
  txOnly_modTx_of h l f ((hf _).imp_right .inl)
@[simp] theorem txOnly_setPort (h : TxOnly r s) (p : PortNo) (x : Port) :
    TxOnly r (s.setPort p x) := h
@[simp] theorem txOnly_modPort (h : TxOnly r s) (p : PortNo) (f : Port → Port) :
    TxOnly r (s.modPort p f) := h
@[simp] theorem txOnly_setEntry (h : TxOnly r s) (e : EntryNo) (x : ServiceEntry) :
    TxOnly r (s.setEntry e x) := h
@[simp] theorem txOnly_setReservedTotal (h : TxOnly r s) (n : Nat) :
    TxOnly r (s.setReservedTotal n) := h
@[simp] theorem txOnly_setWaitQueue (h : TxOnly r s) (q : List SlotNo) :
    TxOnly r (s.setWaitQueue q) := h
@[simp] theorem txOnly_setFreeQueue (h : TxOnly r s) (q : List BufNo) :
    TxOnly r (s.setFreeQueue q) := h
@[simp] theorem txOnly_setFreeSlots (h : TxOnly r s) (q : List SlotNo) :
    TxOnly r (s.setFreeSlots q) := h
@[simp] theorem txOnly_setFloor (h : TxOnly r s) (n : Nat) :
    TxOnly r (s.setFloor n) := h
@[simp] theorem txOnly_setLastServed (h : TxOnly r s) (p : PortNo) :
    TxOnly r (s.setLastServed p) := h
@[simp] theorem txOnly_setReadData (h : TxOnly r s) (x : ReadData) :
    TxOnly r (s.setReadData x) := h
@[simp] theorem txOnly_setFreeCount (h : TxOnly r s) (n : Nat) :
    TxOnly r (s.setFreeCount n) := h
@[simp] theorem txOnly_setSlot (h : TxOnly r s) (i : SlotNo) (x : Slot) :
    TxOnly r (s.setSlot i x) := h
@[simp] theorem txOnly_setCircuit (h : TxOnly r s) (i : SlotNo) (c : Option Circuit) :
    TxOnly r (s.setCircuit i c) := h
@[simp] theorem txOnly_modCircuit (h : TxOnly r s) (i : SlotNo) (f : Circuit → Circuit) :
    TxOnly r (s.modCircuit i f) := h
@[simp] theorem txOnly_mapNumber (h : TxOnly r s) (l : LineNo) (n : Byte) (i : SlotNo) :
    TxOnly r (s.mapNumber l n i) := h
@[simp] theorem txOnly_unmapNumber (h : TxOnly r s) (l : LineNo) (n : Byte) :
    TxOnly r (s.unmapNumber l n) := h
@[simp] theorem txOnly_setPlace (h : TxOnly r s) (b : BufNo) (x : Place) :
    TxOnly r (s.setPlace b x) := h
@[simp] theorem txOnly_writeBuffer (h : TxOnly r s) (b : BufNo) (k : Nat) (vs : List Byte) :
    TxOnly r (s.writeBuffer b k vs) := h

/-! ## The shared operations -/

theorem txOnly_foldl {β : Type} {f : State → β → State} (hf : ∀ v b, TxOnly r v → TxOnly r (f v b)) (bs : List β) :
    ∀ s : State, TxOnly r s → TxOnly r (bs.foldl f s) := by
  induction bs with
  | nil => exact fun _ h => h
  | cons b bs ih => exact fun s h => ih _ (hf s b h)

@[simp] theorem txOnly_owe (h : TxOnly r s) (i : SlotNo) (k : OwedKind) : TxOnly r (s.owe i k) := by
  unfold owe; split <;> simp [h]
@[simp] theorem txOnly_dropOwed (h : TxOnly r s) (i : SlotNo) (k : OwedKind) : TxOnly r (s.dropOwed i k) := by
  unfold dropOwed; dsimp only; repeat' split
  all_goals simp [h]
@[simp] theorem txOnly_startTimer (h : TxOnly r s) (i : SlotNo) (p : Purpose) : TxOnly r (s.startTimer i p) :=
  txOnly_modCircuit h i _
@[simp] theorem txOnly_stopTimer (h : TxOnly r s) (i : SlotNo) : TxOnly r (s.stopTimer i) :=
  txOnly_modCircuit h i _
@[simp] theorem txOnly_joinAttention (h : TxOnly r s) (p : PortNo) (i : SlotNo) : TxOnly r (s.joinAttention p i) :=
  txOnly_modPort h p _
@[simp] theorem txOnly_leaveAttention (h : TxOnly r s) (p : PortNo) (i : SlotNo) :
    TxOnly r (s.leaveAttention p i) := txOnly_modPort h p _
@[simp] theorem txOnly_clearConditions (h : TxOnly r s) (i : SlotNo) : TxOnly r (s.clearConditions i) :=
  txOnly_modCircuit h i _
@[simp] theorem txOnly_raise (h : TxOnly r s) (i : SlotNo) (x : Conditions) : TxOnly r (s.raise i x) := by
  unfold raise; dsimp only; repeat' split
  all_goals simp [h]
@[simp] theorem txOnly_leaveOwner (h : TxOnly r s) (i : SlotNo) : TxOnly r (s.leaveOwner i) := by
  unfold leaveOwner; repeat' split
  all_goals simp [h]
@[simp] theorem txOnly_judgeAtn (h : TxOnly r s) : TxOnly r s.judgeAtn :=
  txOnly_of_keeps h s.keeps_judgeAtn (by decide)

@[simp] theorem txOnly_grantOne (h : TxOnly r s) (i : SlotNo) (rest : List SlotNo) :
    TxOnly r (s.grantOne i rest) := by
  unfold grantOne; dsimp only; split
  all_goals simp (maxDischargeDepth := 9) [h]
@[simp] theorem txOnly_serveTimes (n : Nat) : ∀ s : State, TxOnly r s → TxOnly r (serveTimes n s) := by
  induction n with
  | zero => exact fun _ h => h
  | succ n ih => intro s h; rw [serveTimes]; split <;> simp [h, ih]
@[simp] theorem txOnly_serveWait (h : TxOnly r s) : TxOnly r s.serveWait := txOnly_serveTimes _ s h
@[simp] theorem txOnly_joinWait (h : TxOnly r s) (i : SlotNo) : TxOnly r (s.joinWait i) := by
  unfold joinWait; split <;> simp [h]
@[simp] theorem txOnly_leaveWait (h : TxOnly r s) (i : SlotNo) : TxOnly r (s.leaveWait i) :=
  txOnly_setWaitQueue h _
@[simp] theorem txOnly_joinWaitIfShort (h : TxOnly r s) (i : SlotNo) : TxOnly r (s.joinWaitIfShort i) := by
  unfold joinWaitIfShort; split <;> simp [h]
@[simp] theorem txOnly_reserve (h : TxOnly r s) (i : SlotNo) (n : Nat) : TxOnly r (s.reserve i n) := by
  unfold reserve; simp [h]
@[simp] theorem txOnly_releaseReservations (h : TxOnly r s) (i : SlotNo) :
    TxOnly r (s.releaseReservations i) := by
  unfold releaseReservations; split
  all_goals simp (maxDischargeDepth := 9) [h]
@[simp] theorem txOnly_returnBuffer (h : TxOnly r s) (b : BufNo) : TxOnly r (s.returnBuffer b) := by
  unfold returnBuffer; simp [h]
@[simp] theorem txOnly_returnBuffers (h : TxOnly r s) (bs : List BufNo) : TxOnly r (s.returnBuffers bs) :=
  txOnly_foldl (fun _ b hv => txOnly_returnBuffer hv b) bs s h
@[simp] theorem txOnly_returnCircuitBuffers (h : TxOnly r s) (i : SlotNo) :
    TxOnly r (s.returnCircuitBuffers i) := by
  unfold returnCircuitBuffers; split
  all_goals simp (maxDischargeDepth := 9) [h]
@[simp] theorem txOnly_settleReady (h : TxOnly r s) (i : SlotNo) : TxOnly r (s.settleReady i) := by
  unfold settleReady; repeat' split
  all_goals simp [h]
@[simp] theorem txOnly_settleStall (h : TxOnly r s) (i : SlotNo) : TxOnly r (s.settleStall i) := by
  unfold settleStall; repeat' split
  all_goals simp [h]
@[simp] theorem txOnly_offerReply (h : TxOnly r s) (l : LineNo) (x : Reply) :
    TxOnly r (s.offerReply l x) := txOnly_modTx h l _ fun _ => .inl rfl
theorem txOnly_allocate {c : Circuit} {i : SlotNo} (h : TxOnly r s) (ha : s.allocate c = some (i, t)) :
    TxOnly r t := by
  unfold allocate at ha
  split at ha
  · cases ha
  · simp only [Option.some.injEq, Prod.mk.injEq] at ha
    obtain ⟨rfl, rfl⟩ := ha
    simp (maxDischargeDepth := 9) [h]
@[simp] theorem txOnly_lowerLive (h : TxOnly r s) (o : Origin) : TxOnly r (s.lowerLive o) := by
  unfold lowerLive; split <;> simp [h]
@[simp] theorem txOnly_enterClosing (h : TxOnly r s) (i : SlotNo) (cause : Byte) :
    TxOnly r (s.enterClosing i cause) := by
  unfold enterClosing; split
  all_goals simp (maxDischargeDepth := 12) [h]
@[simp] theorem txOnly_endSteps (h : TxOnly r s) (i : SlotNo) : TxOnly r (s.endSteps i) := by
  unfold endSteps; split
  all_goals simp (maxDischargeDepth := 12) [h]
@[simp] theorem txOnly_endRecord (h : TxOnly r s) (i : SlotNo) (cause : Byte) (side : Side)
    (m : Option Confirmation) : TxOnly r (s.endRecord i cause side m) := by
  unfold endRecord; simp (maxDischargeDepth := 9) [h]
@[simp] theorem txOnly_enterEnded (h : TxOnly r s) (i : SlotNo) (cause : Byte) (side : Side)
    (m : Option Confirmation) : TxOnly r (s.enterEnded i cause side m) := by
  unfold enterEnded; simp [h]
@[simp] theorem txOnly_freeSlot (h : TxOnly r s) (i : SlotNo) : TxOnly r (s.freeSlot i) := by
  unfold freeSlot; simp [h]
@[simp] theorem txOnly_directFree (h : TxOnly r s) (i : SlotNo) : TxOnly r (s.directFree i) := by
  unfold directFree; simp (maxDischargeDepth := 9) [h]
@[simp] theorem txOnly_endClosing (h : TxOnly r s) (i : SlotNo) (m : Confirmation) :
    TxOnly r (s.endClosing i m) := by
  unfold endClosing; repeat' split
  all_goals simp [h]
/-! ## Arrivals -/

@[simp] theorem txOnly_admit (h : TxOnly r s) (l : LineNo) (n service edge : Byte) :
    TxOnly r (s.admitCall l n service edge) := by
  unfold admitCall refuseCall admitOffer admitAccept refuseCall
  repeat' split
  all_goals first
    | simp [h]
    | (rename_i ha; simp (maxDischargeDepth := 12) [txOnly_allocate h ha])
@[simp] theorem txOnly_collide (h : TxOnly r s) (i : SlotNo) (l : LineNo) (n service edge : Byte) :
    TxOnly r (s.collide i l n service edge) := by
  unfold collide; dsimp only; repeat' split
  all_goals simp (maxDischargeDepth := 12) [h]
@[simp] theorem txOnly_openArrives (h : TxOnly r s) (l : LineNo) (n a b : Byte) :
    TxOnly r (s.openArrives l n a b) := by
  unfold openArrives; repeat' split
  all_goals simp [h]
@[simp] theorem txOnly_strayArrives (h : TxOnly r s) (l : LineNo) (n : Byte) (k : FrameKind) :
    TxOnly r (s.strayArrives l n k) := by
  unfold strayArrives; split
  all_goals simp [h]
@[simp] theorem txOnly_grantArrives (h : TxOnly r s) (l : LineNo) (n a : Byte) :
    TxOnly r (s.grantArrives l n a) := by
  unfold grantArrives; dsimp only; repeat' split
  all_goals simp (maxDischargeDepth := 12) [h]
@[simp] theorem txOnly_refuseArrives (h : TxOnly r s) (l : LineNo) (n a : Byte) :
    TxOnly r (s.refuseArrives l n a) := by
  unfold refuseArrives; repeat' split
  all_goals simp [h]
@[simp] theorem txOnly_violate (h : TxOnly r s) (i : SlotNo) : TxOnly r (s.violate i) :=
  txOnly_enterClosing h i _
@[simp] theorem txOnly_takeCarry (h : TxOnly r s) (i : SlotNo) (b : BufNo) (rest : List BufNo) (m : Bool)
    (vs : List Byte) : TxOnly r (s.takeCarry i b rest m vs) := by
  unfold takeCarry; simp (maxDischargeDepth := 14) [h]
@[simp] theorem txOnly_settleTimer (h : TxOnly r s) (i : SlotNo) (n : Nat) : TxOnly r (s.settleTimer i n) := by
  unfold settleTimer; repeat' split
  all_goals simp [h]
@[simp] theorem txOnly_settleDrain (h : TxOnly r s) (i : SlotNo) : TxOnly r (s.settleDrain i) := by
  unfold settleDrain; repeat' split
  all_goals simp [h]
@[simp] theorem txOnly_settleCredit (h : TxOnly r s) (i : SlotNo) (n : Nat) (e : Bool) :
    TxOnly r (s.settleCredit i n e) := by
  unfold settleCredit; dsimp only; split
  all_goals simp (maxDischargeDepth := 9) [h]
@[simp] theorem txOnly_acknowledge (h : TxOnly r s) (i : SlotNo) (c : Circuit) (n : Nat) (a : Seq) :
    TxOnly r (s.acknowledge i c n a) := by
  unfold acknowledge; dsimp only; split
  all_goals simp (maxDischargeDepth := 9) [h]
@[simp] theorem txOnly_creditArrives (h : TxOnly r s) (l : LineNo) (n a b : Byte) :
    TxOnly r (s.creditArrives l n a b) := by
  unfold creditArrives; dsimp only; repeat' split
  all_goals simp (maxDischargeDepth := 9) [h]
@[simp] theorem txOnly_askArrives (h : TxOnly r s) (l : LineNo) (n : Byte) : TxOnly r (s.askArrives l n) := by
  unfold askArrives; repeat' split
  all_goals simp [h]
@[simp] theorem txOnly_closeArrives (h : TxOnly r s) (l : LineNo) (n a : Byte) :
    TxOnly r (s.closeArrives l n a) := by
  unfold closeArrives; repeat' split
  all_goals simp [h]
@[simp] theorem txOnly_closedArrives (h : TxOnly r s) (l : LineNo) (n : Byte) :
    TxOnly r (s.closedArrives l n) := by
  unfold closedArrives; repeat' split
  all_goals simp [h]

/-! ## The transmitter -/

/-! ## The transmitter of an ACTIVE line -/

theorem txOnly_stage (h : TxOnly r s) {l : LineNo} (ha : (r.line l).state = .active) (f : Frame) (m : Bool)
    (n : Option Noted) : TxOnly r (s.stage l f m n) :=
  txOnly_modTx_of h l _ (.inr (.inr ((h.state l).trans ha)))
theorem txOnly_selectControl {l : LineNo} (ha : (r.line l).state = .active) (n : Nat) :
    ∀ s : State, TxOnly r s → TxOnly r (selectControl l n s) := by
  induction n with
  | zero => exact fun _ h => h
  | succ n ih =>
    intro s h
    rw [selectControl]
    repeat' split
    all_goals first
      | exact h
      | (refine ih _ ?_; simp [h])
      | (refine txOnly_stage ?_ ha _ _ _; simp [h])
theorem txOnly_stageData (h : TxOnly r s) {l : LineNo} (ha : (r.line l).state = .active) (i : SlotNo)
    (rest : List SlotNo) : TxOnly r (s.stageData l i rest) := by
  unfold stageData; dsimp only; repeat' split
  · simp [h]
  · simp [h]
  · refine txOnly_modTx ?_ l _ fun _ => .inl rfl
    refine txOnly_stage ?_ ha _ _ _
    refine txOnly_setPlace (txOnly_setCircuit ?_ _ _) _ _
    exact txOnly_modTx h l _ fun _ => .inl rfl
  · refine txOnly_stage ?_ ha _ _ _
    refine txOnly_setPlace (txOnly_setCircuit ?_ _ _) _ _
    exact txOnly_modTx h l _ fun _ => .inl rfl
theorem txOnly_select (h : TxOnly r s) {l : LineNo} (ha : (r.line l).state = .active) : TxOnly r (s.select l) := by
  have h1 := txOnly_selectControl ha (s.line l).tx.control.length s h
  unfold select; dsimp only
  generalize selectControl l _ s = u at h1 ⊢
  repeat' split
  · exact h1
  · refine txOnly_stage ?_ ha _ _ _
    exact txOnly_modTx h1 l _ fun _ => .inl rfl
  · exact txOnly_stageData h1 ha _ _
  · exact txOnly_modTx h1 l _ fun _ => .inl rfl
theorem txOnly_complete (h : TxOnly r s) (x : Staged) : TxOnly r (s.complete x) :=
  txOnly_of_keeps h (s.keeps_complete x) (by decide)

/-! ## PORT-RESET -/

theorem txOnly_orphan (v : State) (i : SlotNo) (h : TxOnly r v) : TxOnly r (v.orphan i) := by
  unfold orphan; repeat' split
  all_goals simp (maxDischargeDepth := 9) [h]
theorem txOnly_resetPort (h : TxOnly r s) (p : PortNo) : TxOnly r (s.resetPort p) := by
  unfold resetPort returnClaimed emptyAttention resetPortFields
  dsimp only
  refine txOnly_judgeAtn (txOnly_foldl txOnly_orphan _ _ ?_)
  refine txOnly_serveWait (txOnly_returnBuffers (txOnly_modPort ?_ _ _) _)
  exact txOnly_foldl (fun v b hv => txOnly_clearConditions hv b) _ _ (txOnly_modPort h _ _)

/-! ## Line records -/

/-- One line changed to a sound record. -/
theorem sound_modLine (h : ∀ l, (s.line l).sound) (l : LineNo) (f : Line → Line) (hf : (f (s.line l)).sound) :
    ∀ m, ((s.modLine l f).line m).sound := fun m => by
  by_cases e : m = l
  · subst e; rw [line_modLine_same]; exact hf
  · rw [line_modLine_ne _ e]; exact h m

/-- A record at its RESET values, with any READY pin and level. -/
theorem sound_reset (x y : Bool) : ({ readyPin := x, readyLevel := y } : Line).sound := by
  constructor <;> first | (simp [Line.level]; done) | (intro p; cases p <;> simp [LineConfig.duration])

/-- What a line that leaves ACTIVE holds after its teardown (R116 to R120). -/
theorem line_leaveActive_same (l : LineNo) (x : LineState) (cause : Byte) :
    (s.leaveActive l x cause).line l = { s.line l with
      state := x
      discards := match (s.line l).receiver with
        | .frame _ => min Config.countMax ((s.line l).discards + 1)
        | _ => (s.line l).discards
      receiver := match (s.line l).receiver with
        | .frame _ => .hunt
        | y => y
      changed := decide ((if x = .active then Level.up else .down) ≠ (s.line l).reported)
      tx := { data := afterTeardown (s.line l).tx.staged.isSome x } } := by
  unfold leaveActive putLine
  rw [line_modLine_same, line_teardown_same, line_modLine_same]
  rfl

/-- The other lines stay sound. -/
theorem sound_leaveActive_ne {l m : LineNo} (e : m ≠ l) (h : (s.line m).sound) (x : LineState) (cause : Byte) :
    ((s.leaveActive l x cause).line m).sound := by
  unfold leaveActive putLine
  rw [line_modLine_ne _ e]
  obtain ⟨a, b, hh⟩ := line_teardown_ne (s := s.modLine l fun r => { r with state := x }) l cause e
  rw [hh, line_modLine_ne _ e]
  exact ⟨h.settle, h.lon, h.receiver, h.changed, h.staged, h.ready, h.counts, h.durations, h.settings⟩

/-- The ranges that LINE-SET's checks give a configuration (R122). -/
theorem configArg_ranges {a b : Word} {g : LineConfig} (h : configArg a b = .ok g) :
    (∀ p, 1 ≤ g.duration p ∧ g.duration p ≤ 255) ∧
      (1 ≤ g.settleTime ∧ g.settleTime ≤ 255 ∧ 1 ≤ g.retryLimit ∧ g.retryLimit ≤ 15) := by
  unfold configArg at h
  obtain ⟨r, h1, h⟩ := bind_ok h
  obtain ⟨_, h2, h⟩ := bind_ok h
  obtain ⟨_, h3, h⟩ := bind_ok h
  cases pure_ok h
  have h2 := require_ok h2
  have h3 := require_ok h3
  simp only [durationOk, Bool.and_eq_true, decide_eq_true_eq] at h2 h3
  refine ⟨fun p => ?_, by dsimp only; omega⟩
  cases p <;> simp only [LineConfig.duration] <;> omega

end State

end Sys2Proof.Machine
end

