-- ==== Sys2Proof/Safety.lean ====
section
/-! DEFINITION. What a safe run is: one whose every step answers a next state. -/

namespace Sys2Proof

/-- A step from this state answers a next state: neither a fault nor a refusal. -/
def SafeStep (s : Machine.State) : Prop := ∃ t, Machine.step s = .next t

/-- The states that steps lead to from a state. -/
inductive Reaches (s : Machine.State) : Machine.State → Prop where
  | here : Reaches s s
  | step {t u : Machine.State} : Reaches s t → Machine.step t = .next u → Reaches s u

/-- Every step of the run from a state answers a next state. -/
def SafeRun (s : Machine.State) : Prop := ∀ t, Reaches s t → SafeStep t

end Sys2Proof
end

