-- ==== Sys2Proof/Tests/Slice0.lean ====
section
/-! SUPPORT. Tests on small states: well-formedness, one step of each command, and a witness for the hypotheses of each statement. -/

namespace Sys2Proof.Tests

open Sys2Proof.Machine

set_option Elab.async false

/-! ## Small states -/

/-- RUNNING with every slot IDLE; two free slots, four free buffers, floor 0. -/
def small : State :=
  { State.reset with
    phase := .running
    ports := Vector.replicate 4 { status := .idle }
    freeSlots := [0, 1]
    freeQueue := [0, 1, 2, 3]
    floor := 0 }

/-- Port p has a command waiting for the arbiter. -/
def issue (p : PortNo) (code : Byte) (a0 a1 a2 a3 : Word) (s : State) : State :=
  s.modPort p fun r => { r with status := .pending, command := code, args := ⟨a0, a1, a2, a3⟩ }

/-- A line taken to ACTIVE. -/
def up (l : LineNo) (s : State) : State :=
  s.modLine l fun r =>
    { r with
      state := .active, reported := .up, readyLevel := true, readyPin := true, lon := true, receiver := .hunt
      tx := { data := .flags } }

/-- A record on line 0 under number 1, owned by port 1. -/
def record (st : CircuitState) : Circuit := Circuit.start st 0 1 1 .localCall 12 0 0

/-- Line 0 ACTIVE with one circuit, in slot 0 with handle 0. -/
def one (c : Circuit) : State :=
  (((up 0 small).setFreeSlots [1]).setCircuit 0 (some c)).mapNumber c.line c.number 0

/-- The port has the circuit in slot 0 on its attention list. -/
def attended (p : PortNo) (s : State) : State := s.modPort p fun r => { r with attention := [0], atn := true }

/-- A service entry for any code on line 0. -/
def service (x : Action) : ServiceEntry := .active ⟨none, 1, x⟩ 0

/-- The outcome is a next state that passes a check. -/
def after (o : Outcome) (check : State → Bool) : Bool :=
  match o with
  | .next t => check t
  | _ => false

/-- Port p's slot is DONE with a code and a result word 0. -/
def done (p : PortNo) (code : ResultCode) (r0 : Word) (t : State) : Bool :=
  (t.port p).status = .done && (t.port p).result = code && (t.port p).results.r0 = r0

def stateOf (i : SlotNo) (t : State) : Option CircuitState := (t.circuit i).map (·.state)

/-! ## WellFormed: an ill-formed command for each check -/

theorem test_illFormed_clearRequest : (Instr.clearRequest 0 0x100).wellFormed = false := by decide
theorem test_illFormed_windowRead_misaligned : (Instr.windowRead 0 2 .word).wellFormed = false := by decide
theorem test_illFormed_windowRead_beyond : (Instr.windowRead 0 128 .byte).wellFormed = false := by decide
theorem test_illFormed_windowWrite_noWidth : (Instr.windowWrite 0 0 .none 0).wellFormed = false := by decide
theorem test_illFormed_voidAccess : (Instr.voidAccess ⟨0, 0x104, .word, true, 0⟩).wellFormed = false := by decide
theorem test_illFormed_openFrame_number : (Instr.openFrame 0 0 12 3).wellFormed = false := by decide
theorem test_illFormed_openFrame_edge : (Instr.openFrame 0 1 12 16).wellFormed = false := by decide
theorem test_illFormed_grantFrame : (Instr.grantFrame 0 1 16 0).wellFormed = false := by decide
theorem test_illFormed_refuseFrame : (Instr.refuseFrame 0 1 3 1).wellFormed = false := by decide
theorem test_illFormed_carryFrame_empty : (Instr.carryFrame 0 1 0 0 []).wellFormed = false := by decide
theorem test_illFormed_carryFrame_sequence : (Instr.carryFrame 0 1 32 0 [7]).wellFormed = false := by decide
theorem test_illFormed_creditFrame : (Instr.creditFrame 0 1 0 32).wellFormed = false := by decide
theorem test_illFormed_askFrame : (Instr.askFrame 0 1 1 0).wellFormed = false := by decide
theorem test_illFormed_closeFrame : (Instr.closeFrame 0 128 0 0).wellFormed = false := by decide
theorem test_illFormed_closedFrame : (Instr.closedFrame 0 1 0 1).wellFormed = false := by decide
theorem test_illFormed_frameDiscarded : (Instr.frameDiscarded 0 []).wellFormed = false := by decide
theorem test_illFormed_openingFlag_flag : (Instr.openingFlag ⟨0, true :: flagBits⟩).wellFormed = false := by decide
theorem test_illFormed_openingFlag_abort : (Instr.openingFlag ⟨0, abortBits⟩).wellFormed = false := by decide
theorem test_wellFormed : [Instr.call, .clearRequest 0 0x200, .windowRead 0 124 .word, .windowWrite 0 126 .half 0,
    .voidAccess ⟨0, 0x104, .word, false, 0⟩, .openFrame 0 127 12 15, .carryFrame 0 1 31 1 [7], .creditFrame 0 1 31 31,
    .closeFrame 0 127 255 0, .frameDiscarded 0 [true], .abort 0 [], .openingFlag ⟨0, []⟩,
    .openingFlag ⟨0, [true, true, true, true, true, true]⟩].all Instr.wellFormed = true := by decide

/-! ## The commands that the arbiter takes -/

theorem test_call : after (exec .call (issue 1 Code.call 0 12 3 0 (up 0 small)))
    (fun t => done 1 .ok 256 t && stateOf 0 t = some .calling && t.lookup 0 1 = some 0 && t.reservedTotal = 3
      && (t.line 0).tx.control = [0]) = true := by decide +kernel
theorem test_call_lineDown : after (exec .call (issue 1 Code.call 7 12 3 0 small)) (done 1 .lineDown 0) = true := by
  decide +kernel
theorem test_accept : after (exec .accept (issue 1 Code.accept 0 2 0 0 (one (record .offered))))
    (fun t => done 1 .ok 0 t && stateOf 0 t = some .opened && t.reservedTotal = 2) = true := by decide +kernel
theorem test_refuse : after (exec .refuse (issue 1 Code.refuse 0 1 0 0 (one (record .offered))))
    (fun t => done 1 .ok 0 t && t.circuit 0 = none && t.freeSlots = [1, 0] && t.lookup 0 1 = none
      && (t.line 0).tx.stray = [⟨1, .refuse, 1⟩]) = true := by decide +kernel
theorem test_close_abort : after (exec .close (issue 1 Code.close 0 1 16 0 (one (record .opened))))
    (fun t => done 1 .ok 0 t && stateOf 0 t = some (.closing 16)) = true := by decide +kernel
theorem test_close_badCause : after (exec .close (issue 1 Code.close 0 1 15 0 (one (record .opened))))
    (done 1 .badArgument 0) = true := by decide +kernel
theorem test_send : after (exec .send (issue 1 Code.send 0 4 100 1
      ((one { record .opened with farEdge := 2 }).setPlace 4 (.claimed 1))))
    (fun t => done 1 .ok 0 t && t.place 4 = .transmit 0 && (t.line 0).tx.ring = [0]
      && (t.circuit 0).map (·.transmit) = some [⟨4, 100, true⟩]) = true := by decide +kernel
theorem test_release : after (exec .release (issue 1 Code.release 0 0 0 0
      ((one { record .opened with receive := [⟨4, 9, false⟩] }).setPlace 4 (.receive 0))))
    (fun t => done 1 .ok 0 t && t.freeQueue = [0, 1, 2, 3, 4] && t.place 4 = .free) = true := by decide +kernel
theorem test_setCredit : after (exec .setCredit (issue 1 Code.setCredit 0 6 0 0 (one (record .opened))))
    (fun t => done 1 .ok 0 t && (t.circuit 0).map (·.reserved) = some 4 && t.waitQueue = [0]) = true := by decide +kernel
theorem test_claim : after (exec .claim (issue 2 Code.claim 0 0 0 0 small))
    (fun t => done 2 .ok 0 t && t.place 0 = .claimed 2 && t.freeQueue = [1, 2, 3]) = true := by decide +kernel
theorem test_claim_atFloor : after (exec .claim (issue 2 Code.claim 0 0 0 0 (small.setFloor 4))) (done 2 .noBuffer 0)
    = true := by decide +kernel
theorem test_unclaim : after (exec .unclaim (issue 2 Code.unclaim 511 0 0 0 (small.setPlace 511 (.claimed 2))))
    (fun t => done 2 .ok 0 t && t.place 511 = .free && t.freeQueue = [0, 1, 2, 3, 511]) = true := by decide +kernel
theorem test_poolSet : after (exec .poolSet (issue 0 Code.poolSet 256 0 0 0 small))
    (fun t => done 0 .ok 0 t && t.floor = 256) = true := by decide +kernel
theorem test_poolSet_notPermitted : after (exec .poolSet (issue 1 Code.poolSet 999 0 0 0 small)) (done 1 .notPermitted 0)
    = true := by decide +kernel
theorem test_poolQuery : after (exec .poolQuery (issue 3 Code.poolQuery 0 0 0 0 small))
    (fun t => done 3 .ok 4 t && (t.port 3).results.r1 = 4) = true := by decide +kernel
theorem test_serviceSet : after (exec .serviceSet (issue 0 Code.serviceSet 0x01010217 12 0x00040200 0 small))
    (fun t => done 0 .ok 1 t && t.entry 23 = .active ⟨some 12, 1, .accept 1 2 4⟩ 0) = true := by decide +kernel
theorem test_serviceClear : after (exec .serviceClear (issue 0 Code.serviceClear 5 0 0 0
      (small.setEntry 5 (.active ⟨none, 1, .offer 2 9⟩ 3))))
    (fun t => done 0 .ok 0x302 t && t.entry 5 = .withdrawn ⟨none, 1, .offer 2 9⟩ 3) = true := by decide +kernel
theorem test_serviceQuery : after (exec .serviceQuery (issue 3 Code.serviceQuery 5 0 0 0
      (small.setEntry 5 (.active ⟨some 12, 1, .offer 2 9⟩ 3))))
    (fun t => done 3 .ok 0x365 t && (t.port 3).results.r1 = 0x0101010C && (t.port 3).results.r3 = 0x0117) = true := by
  decide +kernel
theorem test_lineSet : after (exec .lineSet (issue 0 Code.lineSet 7 0x000F0A01 0x04030201 0 small))
    (fun t => done 0 .ok 0 t && (t.line 7).config = ⟨.answerRole, 10, 1, 2, 3, 4, 15⟩) = true := by decide +kernel
theorem test_lineEnable : after (exec .lineEnable (issue 0 Code.lineEnable 7 0 0 0 small))
    (fun t => done 0 .ok 1 t && (t.line 7).state = .waiting && (t.line 7).lon && (t.line 7).receiver = .hunt) = true := by
  decide +kernel
theorem test_lineDisable : after (exec .lineDisable (issue 0 Code.lineDisable 0 0 0 0 (one (record .opened))))
    (fun t => done 0 .ok 0x103 t && stateOf 0 t = some (.ended Config.causeLineDisabled .localEnd none)
      && (t.line 0).state = .disabled && (t.line 0).tx.data = .ones && (t.port 1).attention = [0]) = true := by
  decide +kernel
theorem test_lineQuery : after (exec .lineQuery (issue 0 Code.lineQuery 0 1 0 0 (one (record .opened))))
    (fun t => done 0 .ok 0x11B t && (t.port 0).results.r2 = 0x432) = true := by decide +kernel
theorem test_lineTake : after (exec .lineTake (issue 0 Code.lineTake 0 0 0 0
      ((up 0 small).modLine 0 fun r => { r with reported := .down, changed := true, losses := 2 })))
    (fun t => done 0 .ok 0x231 t && (t.line 0).reported = .up && (t.line 0).changed = false && (t.port 0).atn = false)
    = true := by decide +kernel
theorem test_query : after (exec .query (issue 0 Code.query 0 0 0 0 (one (record .opened))))
    (fun t => done 0 .ok 0x0000B000 t && (t.port 0).results.r1 = 0x3008) = true := by decide +kernel
theorem test_retire : after (exec .retire (issue 1 Code.retire 0 0 0 0
      (one { record (.ended 0 .remoteEnd none) with receive := [⟨4, 9, false⟩] })))
    (fun t => done 1 .ok 0 t && t.circuit 0 = none && t.freeSlots = [1, 0] && t.freeQueue = [0, 1, 2, 3, 4]) = true := by
  decide +kernel
theorem test_take : after (exec .take (issue 1 Code.take 0 0 0 0
      (attended 1 (one { record .opened with conditions := { data := true } }))))
    (fun t => done 1 .ok 0x00023000 t && (t.port 1).attention = [] && (t.port 1).atn = false) = true := by decide +kernel
theorem test_takeNext : after (exec .takeNext (issue 1 Code.takeNext 0 0 0 0
      (attended 1 (one { record .opened with conditions := { delivered := true }, delivered := 5 }))))
    (fun t => done 1 .ok 0x00043000 t && (t.port 1).results.r2 = 5 && (t.circuit 0).map (·.delivered) = some 0) = true := by
  decide +kernel
theorem test_portSet : after (exec .portSet (issue 2 Code.portSet 15 255 0 0 small))
    (fun t => done 2 .ok 0 t && (t.port 2).holdoffCount = 15 && (t.port 2).holdoffTime = 255) = true := by decide +kernel
theorem test_portReset : after (exec .portReset (issue 0 Code.portReset 1 0 0 0 (one (record .opened))))
    (fun t => done 0 .ok 1 t && (t.circuit 0).map (fun c => (c.state, c.owner)) = some (.closing 9, none)
      && (t.port 1).status = .idle) = true := by decide +kernel
theorem test_unknownCommand : after (exec .unknownCommand (issue 3 0x05 0 0 0 0 small)) (done 3 .unknownCommand 0)
    = true := by decide +kernel

/-! ## The client bus -/

theorem test_commandWordWrite : after (exec (.commandWordWrite 1 0xFFFFFF30) small)
    (fun t => (t.port 1).status = .pending && (t.port 1).command = 0x30) = true := by decide +kernel
theorem test_argumentWordWrite_pending : after (exec (.argumentWordWrite 1 2 7) (issue 1 0 0 0 0 0 small))
    (fun t => (t.port 1).overrun && (t.port 1).args.a2 = 0) = true := by decide +kernel
theorem test_windowRegisterWrite : after (exec (.windowRegisterWrite 1 511) small) (fun t => (t.port 1).window = 511)
    = true := by decide +kernel
theorem test_windowRegisterWrite_beyond : after (exec (.windowRegisterWrite 1 512) small) (fun t => t = small) = true := by
  decide +kernel
theorem test_clearRequest : after (exec (.clearRequest 1 0x200) (small.modPort 1 fun r => { r with windowFault := some 9 }))
    (fun t => (t.port 1).windowFault = none) = true := by decide +kernel
theorem test_windowRead : after (exec (.windowRead 1 124 .word)
      ((small.setPlace 0 (.claimed 1)).writeBuffer 0 124 [1, 2, 3, 4]))
    (fun t => t.readData = .word 0x04030201) = true := by decide +kernel
theorem test_windowWrite : after (exec (.windowWrite 1 126 .half 0xABCD) (small.setPlace 0 (.claimed 1)))
    (fun t => t.bufferByte 0 126 = 0xCD && t.bufferByte 0 127 = 0xAB) = true := by decide +kernel
theorem test_windowWrite_fault : after (exec (.windowWrite 1 0 .byte 5) small)
    (fun t => (t.port 1).windowFault = some 0 && t.memory = []) = true := by decide +kernel
theorem test_voidAccess_identity : after (exec (.voidAccess ⟨2, 0, .word, false, 0⟩) small)
    (fun t => t.readData = .word 0x5C080001) = true := by decide +kernel
theorem test_voidAccess_narrow : after (exec (.voidAccess ⟨2, 0, .half, false, 0⟩) small)
    (fun t => t.readData = .half 0) = true := by decide +kernel

/-! ## Frames -/

theorem test_openFrame : after (exec (.openFrame 0 127 12 3) ((up 0 small).setEntry 0 (service (.accept 1 2 4))))
    (fun t => stateOf 0 t = some .opened && t.reservedTotal = 2 && (t.port 1).atn && (t.slot 0).generation = 1) = true := by
  decide +kernel
theorem test_openFrame_noService : after (exec (.openFrame 0 127 12 3) (up 0 small))
    (fun t => (t.line 0).tx.stray = [⟨127, .refuse, 2⟩]) = true := by decide +kernel
theorem test_grantFrame : after (exec (.grantFrame 0 1 15 0) (one (record .calling)))
    (fun t => (t.circuit 0).map (fun c => (c.state, c.farEdge)) = some (.opened, 15)) = true := by decide +kernel
theorem test_refuseFrame : after (exec (.refuseFrame 0 1 3 0) (one (record .calling)))
    (fun t => stateOf 0 t = some (.ended 3 .remoteEnd none) && t.lookup 0 1 = none) = true := by decide +kernel
theorem test_carryFrame : after (exec (.carryFrame 0 1 0 1 [7, 8])
      ((one { record .opened with reserved := 1, receiveEdge := 1 }).setReservedTotal 1))
    (fun t => (t.circuit 0).map (·.receive) = some [⟨0, 2, true⟩] && t.bufferByte 0 1 = 8 && t.freeQueue = [1, 2, 3])
    = true := by decide +kernel
theorem test_carryFrame_violation : after (exec (.carryFrame 0 1 0 1 [7, 8]) (one (record .opened)))
    (fun t => stateOf 0 t = some (.closing 7)) = true := by decide +kernel
theorem test_creditFrame : after (exec (.creditFrame 0 1 1 3)
      ((one { record .opened with nextSend := 1, farEdge := 1, unacked := [⟨0, ⟨4, 9, false⟩⟩] }).setPlace 4 (.unacked 0)))
    (fun t => (t.circuit 0).map (fun c => (c.ackBase, c.farEdge, c.delivered)) = some (1, 3, 1) && t.place 4 = .free)
    = true := by decide +kernel
theorem test_askFrame : after (exec (.askFrame 0 1 0 0) (one (record .opened)))
    (fun t => (t.circuit 0).map (·.owed.credit) = some true && (t.line 0).tx.control = [0]) = true := by decide +kernel
theorem test_closeFrame : after (exec (.closeFrame 0 1 17 0) (one (record .opened)))
    (fun t => stateOf 0 t = some (.ended 17 .remoteEnd none) && (t.line 0).tx.stray = [⟨1, .closed, 0⟩]) = true := by
  decide +kernel
theorem test_closedFrame : after (exec (.closedFrame 0 1 0 0) (one (record (.closing 16))))
    (fun t => stateOf 0 t = some (.ended 16 .localEnd (some .confirmed))) = true := by decide +kernel
theorem test_frameDiscarded : after (exec (.frameDiscarded 0 (flagBits ++ [true])) (up 0 small))
    (fun t => (t.line 0).discards = 1 && (t.line 0).receiver = .frame []) = true := by decide +kernel
theorem test_frameDiscarded_hunt : after (exec (.frameDiscarded 0 [true]) (up 0 small))
    (fun t => (t.line 0).discards = 0 && (t.line 0).receiver = .frame []) = true := by decide +kernel
theorem test_abort : after (exec (.abort 0 [false]) ((up 0 small).modLine 0 fun r => { r with receiver := .frame [true] }))
    (fun t => (t.line 0).discards = 1 && (t.line 0).receiver = .hunt) = true := by decide +kernel
theorem test_abort_nothingGathered : after (exec (.abort 0 []) ((up 0 small).modLine 0 fun r => { r with receiver := .frame [] }))
    (fun t => (t.line 0).discards = 0 && (t.line 0).receiver = .hunt) = true := by decide +kernel
theorem test_openingFlag : after (exec (.openingFlag ⟨0, [true, false]⟩) (up 0 small))
    (fun t => (t.line 0).receiver = .frame [true, false]) = true := by decide +kernel
/-- The check bytes of ASK for number 1, worked out apart from the model, and the frame as bits: five 1 bits take a 0. -/
theorem test_frameContent : frameContent ⟨1, .ask, 0, 0, []⟩ = [1, 6, 0, 0, 0x94, 0x5F]
    ∧ frameContent ⟨127, .openCall, 255, 15, []⟩ = [127, 1, 255, 15, 0x8E, 0x09]
    ∧ insertZeros 0 (byteBits 0xFE) = [true, true, true, true, true, false, true, true, false] := by decide +kernel
/-- A frame that comes as bits in two commands is handed over: ASK makes the circuit owe CREDIT. -/
theorem test_frameBits : ∀ bits ∈ [insertZeros 0 (frameBits ⟨1, .ask, 0, 0, []⟩)],
    after (exec (.openingFlag ⟨0, bits.take 20⟩) (one (record .opened))) (fun s =>
      after (exec (.frameDiscarded 0 (bits.drop 20)) s) fun t =>
        (t.circuit 0).map (·.owed.credit) = some true && (t.line 0).discards = 0) = true := by decide +kernel

/-! ## Timers -/

theorem test_openWaitExpiry : after (exec (.openWaitExpiry 0) (one { record .calling with timer := some ⟨.openWait, 50⟩ }))
    (fun t => (t.circuit 0).map (fun c => (c.retry, c.owed.openCall, c.timer)) = some (1, true, none)) = true := by
  decide +kernel
theorem test_offerWaitExpiry : after (exec (.offerWaitExpiry 0) (one { record .offered with timer := some ⟨.offerWait, 50⟩ }))
    (fun t => stateOf 0 t = some (.ended 5 .localEnd none) && (t.line 0).tx.stray = [⟨1, .refuse, 5⟩]) = true := by
  decide +kernel
theorem test_ackWaitExpiry : after (exec (.ackWaitExpiry 0)
      (one { record .opened with timer := some ⟨.ackWait, 20⟩, retry := 4 }))
    (fun t => stateOf 0 t = some (.closing 6)) = true := by decide +kernel
theorem test_stallWaitExpiry : after (exec (.stallWaitExpiry 0)
      (one { record .opened with timer := some ⟨.stallWait, 20⟩ }))
    (fun t => (t.circuit 0).map (fun c => (c.owed.ask, c.timer)) = some (true, some ⟨.stallWait, 20⟩)) = true := by
  decide +kernel
theorem test_closeWaitExpiry : after (exec (.closeWaitExpiry 0)
      (one { record (.closing 16) with timer := some ⟨.closeWait, 50⟩, retry := 4 }))
    (fun t => stateOf 0 t = some (.ended 16 .localEnd (some .unconfirmed))) = true := by decide +kernel
theorem test_settleExpiry : after (exec (.settleExpiry 2)
      (small.modLine 2 fun r => { r with state := .settling, settleTimer := some 20 }))
    (fun t => (t.line 2).state = .active && (t.line 2).changed && (t.port 0).atn) = true := by decide +kernel
theorem test_holdoffExpiry : after (exec (.holdoffExpiry 1)
      ((one { record .opened with conditions := { data := true } }).modPort 1 fun r =>
        { r with attention := [0], holdoffCount := 2, holdoff := .running 9 }))
    (fun t => (t.port 1).holdoff = .expired && (t.port 1).atn) = true := by decide +kernel

/-! ## Lines, the transmitter, RESET -/

theorem test_readyAsserted : after (exec (.readyAsserted 2) (small.modLine 2 fun r => { r with state := .waiting }))
    (fun t => (t.line 2).state = .settling && (t.line 2).settleTimer = some 20) = true := by decide +kernel
theorem test_readyDropped : after (exec (.readyDropped 0) (one (record .opened)))
    (fun t => stateOf 0 t = some (.ended 11 .localEnd none) && (t.line 0).state = .waiting && (t.line 0).losses = 1)
    = true := by decide +kernel
theorem test_selectionEvent : after (exec (.selectionEvent 0)
      ((one { record .calling with owed := { openCall := true } }).modTx 0 fun x => { x with control := [0] }))
    (fun t => ((t.line 0).tx.staged.map (·.frame)) = some ⟨1, .openCall, 12, 0, []⟩ && (t.line 0).tx.control = []) = true := by
  decide +kernel
theorem test_completion : after (exec (.completion 0)
      ((one (record .calling)).modTx 0 fun x =>
        { x with staged := some ⟨⟨1, .openCall, 12, 0, []⟩, 0, false, some ⟨0, 0, 0, 1, .calling⟩⟩ }))
    (fun t => (t.circuit 0).map (·.timer) = some (some ⟨.openWait, 50⟩) && (t.line 0).tx.staged = none) = true := by
  decide +kernel
theorem test_resetAsserted : after (exec .resetAsserted (one (record .opened)))
    (fun t => t.phase = .inReset && t.slots = [] && (t.line 0).readyPin && (t.line 0).state = .disabled) = true := by
  decide +kernel
theorem test_startUp : after (exec .startUp { one (record .opened) with phase := .inReset })
    (fun t => t.phase = .starting && (t.line 0).readyLevel && (t.port 1).status = .starting) = true := by decide +kernel
theorem test_startUpCompletion : after (exec .startUpCompletion State.reset)
    (fun t => t.phase = .running && (t.port 3).status = .idle) = true := by decide +kernel
theorem test_step_takesTheFront : after (step { State.reset with pending := [.startUpCompletion, .claim] })
    (fun t => t.phase = .running && t.pending = [.claim]) = true := by decide +kernel

/-! ## Witnesses: states and operands that meet the hypotheses of each statement -/

theorem taken_of {s : State} {p : PortNo} {code : Byte}
    (h : s.phase = .running ∧ s.nextPort = some p ∧ (s.port p).command = code) : s.taken p code := h

/-- Port p's command of this code is taken next, and its arguments pass a test. -/
def asks (p : PortNo) (code : Byte) (test : Args → Bool) (a0 a1 a2 a3 : Nat) (s : State) : Bool :=
  let t := issue p code (BitVec.ofNat 32 a0) (BitVec.ofNat 32 a1) (BitVec.ofNat 32 a2) (BitVec.ofNat 32 a3) s
  t.phase = .running && t.nextPort = some p && (t.port p).command = code && test (t.port p).args

theorem names_of {s : State} {v : Word} {p : PortNo} {i : SlotNo} {c : Circuit}
    (h : v.toNat = s.handle i ∧ s.circuit i = some c ∧ c.owner = some p) : s.namesOwn v p i c := h

theorem hears_of {s : State} {l : LineNo} (h : s.phase = .running ∧ (s.line l).state = .active
    ∧ ((s.line l).receiver = .hunt ∨ (s.line l).receiver = .frame [])) : s.hears l := h

theorem mapped_of {s : State} {l : LineNo} {n : Byte} {i : SlotNo} {c : Circuit}
    (h : s.lookup l n = some i ∧ s.circuit i = some c) : s.mappedAt l n i c := h

theorem wf_one (c : Circuit) : Sparse.wf Fin.val {} (one c).slots := by
  have : (one c).slots = [(0, ⟨0, some c⟩)] := rfl
  rw [this]
  exact ⟨List.pairwise_singleton _ _, fun e he => by rw [List.mem_singleton.1 he]; simp⟩

/-! ### Steps, the arbiter, handles -/

theorem witness_UnknownCodeCompletes : ∀ k ∈ [0x00, 0x05, 0xFF],
    ∀ s ∈ [issue 3 (BitVec.ofNat 8 k) 0 0 0 0 small], s.phase = .running ∧ s.nextPort = some 3
      ∧ (s.port 3).command ∉ Code.known := by decide +kernel

theorem witness_OtherPortsAreNotPermitted_supervisor :
    ∀ code ∈ [Code.poolSet, Code.serviceSet, Code.serviceClear, Code.lineSet, Code.lineEnable, Code.lineDisable,
      Code.lineQuery, Code.lineTake], ∀ p ∈ [(1 : PortNo), 3],
      p ≠ 0 ∧ (issue p code 0 0 0 0 small).phase = .running ∧ (issue p code 0 0 0 0 small).nextPort = some p
        ∧ ((issue p code 0 0 0 0 small).port p).command = code := by decide +kernel

theorem witness_OtherPortsAreNotPermitted_portReset : ∀ k ∈ [0, 2, 4],
    ∀ s ∈ [issue 3 Code.portReset (BitVec.ofNat 32 k) 0 0 0 small], s.taken 3 Code.portReset
      ∧ (s.port 3).args.a0.toNat ≠ (3 : PortNo).val := by
  unfold State.taken; decide +kernel

theorem witness_HandlesAreChecked_noHandle : ∀ code ∈ [Code.release, Code.query, Code.retire, Code.take],
    ∀ k ∈ [4096, 192, 255], ∀ s ∈ [issue 1 code (BitVec.ofNat 32 k) 0 0 0 small], s.taken 1 code
      ∧ (4095 < (s.port 1).args.a0.toNat ∨ 192 ≤ (s.port 1).args.a0.toNat % 256) := by
  unfold State.taken; decide +kernel

theorem witness_HandlesAreChecked_noCircuit : ∀ code ∈ [Code.release, Code.query, Code.retire, Code.take],
    (issue 1 code 4031 0 0 0 small).taken 1 code ∧ (4031#32).toNat % 256 = (191 : SlotNo).val
      ∧ (issue 1 code 4031 0 0 0 small).circuit 191 = none := by
  unfold State.taken; decide +kernel

theorem witness_HandlesAreChecked_generation : ∀ code ∈ [Code.release, Code.query, Code.retire, Code.take],
    (issue 1 code 256 0 0 0 (one (record .opened))).taken 1 code ∧ (256#32).toNat % 256 = (0 : SlotNo).val
      ∧ ((issue 1 code 256 0 0 0 (one (record .opened))).slot 0).generation.toNat ≠ (256#32).toNat / 256 := by
  unfold State.taken; decide +kernel

theorem witness_HandlesAreChecked_notOwner : ∀ code ∈ [Code.release, Code.query, Code.retire, Code.take],
    (issue 2 code 0 0 0 0 (one (record .opened))).taken 2 code
      ∧ (0#32).toNat = (issue 2 code 0 0 0 0 (one (record .opened))).handle 0
      ∧ (issue 2 code 0 0 0 0 (one (record .opened))).circuit 0 = some (record .opened)
      ∧ (record .opened).owner ≠ some 2 := by
  unfold State.taken; decide +kernel

/-- The other five commands with a handle, their arguments in range at the ends of the ranges. -/
theorem witness_HandlesAreChecked_arguments : ∀ k ∈ [0, 4096, 4031, 256],
    (∀ code ∈ [Code.accept, Code.setCredit], asks 1 code (fun a => a.a1.toNat ≤ 15) k 15 0 0 small = true)
      ∧ (∀ v ∈ [1, 16, 255], asks 1 Code.refuse
          (fun a => a.a1.toNat = 1 ∨ 16 ≤ a.a1.toNat ∧ a.a1.toNat ≤ 255) k v 0 0 small = true)
      ∧ (∀ v ∈ [0, 16, 255], asks 1 Code.close
          (fun a => a.a1.toNat ≤ 1 ∧ (a.a2.toNat = 0 ∨ 16 ≤ a.a2.toNat ∧ a.a2.toNat ≤ 255)) k 1 v 0 small = true)
      ∧ (∀ v ∈ [1, 128], asks 1 Code.send
          (fun a => a.a1.toNat ≤ 511 ∧ 1 ≤ a.a2.toNat ∧ a.a2.toNat ≤ 128 ∧ a.a3.toNat ≤ 1) k 511 v 1 small = true) := by
  decide +kernel

/-- Each argument of a circuit command just outside its range. -/
theorem witness_FailedChecksAreAnswered_circuitRanges :
    (∀ x ∈ [(8, 0, 0), (0, 256, 0), (0, 0, 16)], asks 1 Code.call
        (fun a => 7 < a.a0.toNat ∨ 255 < a.a1.toNat ∨ 15 < a.a2.toNat) x.1 x.2.1 x.2.2 0 small = true)
      ∧ (∀ code ∈ [Code.accept, Code.setCredit], asks 1 code (fun a => 15 < a.a1.toNat) 0 16 0 0 small = true)
      ∧ (∀ v ∈ [0, 15, 256], asks 1 Code.refuse
          (fun a => a.a1.toNat ≠ 1 ∧ (a.a1.toNat < 16 ∨ 255 < a.a1.toNat)) 0 v 0 0 small = true)
      ∧ (∀ x ∈ [(2, 0), (0, 1), (0, 15), (1, 256)], asks 1 Code.close
          (fun a => 1 < a.a1.toNat ∨ a.a2.toNat ≠ 0 ∧ (a.a2.toNat < 16 ∨ 255 < a.a2.toNat)) 0 x.1 x.2 0 small = true)
      ∧ (∀ x ∈ [(512, 1, 0), (0, 0, 0), (0, 129, 0), (0, 1, 2)], asks 1 Code.send
          (fun a => 511 < a.a1.toNat ∨ a.a2.toNat = 0 ∨ 128 < a.a2.toNat ∨ 1 < a.a3.toNat) 0 x.1 x.2.1 x.2.2 small = true) := by
  decide +kernel

/-- Each argument of the other commands just outside its range. -/
theorem witness_FailedChecksAreAnswered_otherRanges :
    asks 0 Code.serviceSet (fun a => 23 < bitsOf a.a0 7 0) 24 0 0 0 small = true
      ∧ (∀ code ∈ [Code.serviceClear, Code.serviceQuery], asks 0 code (fun a => 23 < a.a0.toNat) 24 0 0 0 small = true)
      ∧ (∀ code ∈ [Code.lineSet, Code.lineEnable, Code.lineDisable, Code.lineQuery, Code.lineTake],
          asks 0 code (fun a => 7 < a.a0.toNat) 8 0 0 0 small = true)
      ∧ asks 0 Code.lineQuery (fun a => 1 < a.a1.toNat) 0 2 0 0 small = true
      ∧ asks 0 Code.portReset (fun a => 3 < a.a0.toNat) 4 0 0 0 small = true := by decide +kernel

/-- An action that is none, and a settle time of 0. -/
theorem witness_FailedChecksAreAnswered_fields :
    (issue 0 Code.serviceSet 0 0 0 0 small).taken 0 Code.serviceSet ∧ (∀ f, ¬ describesService {} f)
      ∧ (issue 0 Code.lineSet 0 0 0 0 small).taken 0 Code.lineSet ∧ ∀ g, ¬ describesLine {} g := by
  refine ⟨taken_of (by decide +kernel), fun f h => ?_, taken_of (by decide +kernel), fun g h => ?_⟩
  · have h2 := h.2.2
    split at h2 <;> exact absurd h2.1 (by decide)
  · have h1 := h.2.1
    have h2 := h.2.2.2.2.2.2.2.1
    rw [← h1] at h2
    exact absurd h2 (by decide)

theorem witness_FailedChecksAreAnswered_call :
    ((issue 1 Code.call 7 255 15 0 small).line 7).state ≠ .active
      ∧ (∀ s ∈ [issue 1 Code.call 7 255 15 0 ((up 7 small).setFreeSlots [])],
          s.taken 1 Code.call ∧ (s.line 7).state = .active ∧ s.freeSlots = [])
      ∧ ∀ s ∈ [issue 1 Code.call 0 255 15 0 { up 0 small with index := (List.range 127).map fun k => (k + 1, 0) }],
          s.taken 1 Code.call ∧ (s.line 0).state = .active ∧ s.freeSlots ≠ []
            ∧ ∀ m : Byte, 1 ≤ m.toNat → m.toNat ≤ 127 → s.lookup 0 m ≠ none := by
  unfold State.taken; decide +kernel

/-- A circuit of the port in each state: the commands that its state refuses, and the three refusals of SEND. -/
theorem witness_FailedChecksAreAnswered_states :
    ∀ x ∈ [CircuitState.calling, .offered, .opened, .draining 255, .closing 255, .ended 0 .localEnd none],
    ∀ c ∈ [{ record x with transmit := List.replicate 64 ⟨5, 1, false⟩ }],
    (∀ code ∈ [Code.accept, Code.refuse, Code.close, Code.setCredit, Code.retire, Code.send],
      ∀ s ∈ [issue 1 code 0 1 16 1 (one c)],
      s.taken 1 code ∧ (s.port 1).args.a0.toNat = s.handle 0 ∧ s.circuit 0 = some c ∧ c.owner = some 1 ∧ c.state = x
        ∧ s.place 1 ≠ .claimed 1 ∧ (s.setPlace 1 (.claimed 1)).place 1 = .claimed 1
        ∧ (s.setPlace 1 (.claimed 1)).circuit 0 = some c)
      ∧ 64 ≤ c.transmit.length := by
  unfold State.taken; decide +kernel

theorem witness_FailedChecksAreAnswered_takeNext : (issue 3 Code.takeNext 0 0 0 0 small).taken 3 Code.takeNext
    ∧ ((issue 3 Code.takeNext 0 0 0 0 small).port 3).attention = [] := by
  unfold State.taken; decide +kernel

/-! ### Commands on circuits -/

/-- On an ORIGIN line without circuits a call takes number 1. -/
theorem numberFor_one : (issue 1 Code.call 7 255 15 0 (up 7 small)).numberFor 7 .originRole 1 :=
  ⟨by decide +kernel, fun _ h _ _ => h⟩

theorem witness_CallAllocatesACircuit : ∃ s p l n i rest, State.taken s p Code.call
    ∧ (s.port p).args.a0.toNat = l.val ∧ (s.port p).args.a1.toNat ≤ 255 ∧ (s.port p).args.a2.toNat ≤ 15
    ∧ (s.line l).state = .active ∧ s.freeSlots = i :: rest ∧ s.numberFor l (s.line l).config.role n :=
  ⟨issue 1 Code.call 7 255 15 0 (up 7 small), 1, 7, 1, 0, [1], taken_of (by decide +kernel), by decide +kernel,
    by decide +kernel, by decide +kernel, by decide +kernel, by decide +kernel, numberFor_one⟩

theorem witness_CallAllocatesACircuit_answer : ∃ s n, State.numberFor s 7 .answerRole n ∧ (s.line 7).config.role = .answerRole :=
  ⟨small.modLine 7 fun r => { r with config := { r.config with role := .answerRole } }, 127,
    ⟨by decide +kernel, fun _ _ h _ => h⟩, by decide +kernel⟩

theorem witness_AcceptOpensTheCircuit : ∃ s p i c, State.taken s p Code.accept ∧ s.namesOwn (s.port p).args.a0 p i c
    ∧ c.state = .offered ∧ (s.port p).args.a1.toNat ≤ 15 :=
  ⟨issue 1 Code.accept 0 15 0 0 (one (record .offered)), 1, 0, record .offered, taken_of (by decide +kernel),
    names_of (by decide +kernel), by decide +kernel, by decide +kernel⟩

theorem witness_RefuseReturnsTheSlot : ∀ k ∈ [1, 16, 255],
    ∀ s ∈ [issue 1 Code.refuse 0 (BitVec.ofNat 32 k) 0 0 (one (record .offered))], s.taken 1 Code.refuse
      ∧ s.namesOwn (s.port 1).args.a0 1 0 (record .offered) ∧ (record .offered).state = .offered
      ∧ ((s.port 1).args.a1.toNat = 1 ∨ 16 ≤ (s.port 1).args.a1.toNat ∧ (s.port 1).args.a1.toNat ≤ 255) := by
  unfold State.taken State.namesOwn; decide +kernel

theorem witness_CloseDrainsOrCloses_drains : ∃ s p i c, State.taken s p Code.close ∧ s.namesOwn (s.port p).args.a0 p i c
    ∧ (s.port p).args.a2.toNat = 0 ∧ (s.port p).args.a1.toNat = 0 ∧ c.state = .opened
    ∧ ¬ (c.transmit = [] ∧ c.unacked = []) :=
  ⟨issue 1 Code.close 0 0 0 0 (one { record .opened with transmit := [⟨4, 9, true⟩] }), 1, 0,
    { record .opened with transmit := [⟨4, 9, true⟩] }, taken_of (by decide +kernel), names_of (by decide +kernel),
    by decide +kernel, by decide +kernel, by decide +kernel, by decide +kernel⟩

theorem witness_CloseDrainsOrCloses_closes : ∀ c ∈ [(0#32, record .opened), (1, record .opened), (1, record .calling),
    (1, record (.draining 16))], ∀ k ∈ [0, 16, 255],
    ∀ s ∈ [issue 1 Code.close 0 c.1 (BitVec.ofNat 32 k) 0 (one c.2)], s.taken 1 Code.close
      ∧ s.namesOwn (s.port 1).args.a0 1 0 c.2 ∧ c.2.transmit = [] ∧ c.2.unacked = []
      ∧ ((s.port 1).args.a2.toNat = 0 ∨ 16 ≤ (s.port 1).args.a2.toNat ∧ (s.port 1).args.a2.toNat ≤ 255) := by
  unfold State.taken State.namesOwn; decide +kernel

theorem witness_SendQueuesABuffer : ∀ x ∈ [(1#32, 0#32, CircuitState.calling, 0), (128, 1, .opened, 63)],
    ∀ c ∈ [{ record x.2.2.1 with transmit := List.replicate x.2.2.2 ⟨9, 9, false⟩ }],
    ∀ s ∈ [issue 1 Code.send 0 511 x.1 x.2.1 ((one c).setPlace 511 (.claimed 1))],
    s.taken 1 Code.send ∧ s.namesOwn (s.port 1).args.a0 1 0 c ∧ (s.port 1).args.a1.toNat = (511 : BufNo).val
      ∧ 1 ≤ (s.port 1).args.a2.toNat ∧ (s.port 1).args.a2.toNat ≤ 128 ∧ (s.port 1).args.a3.toNat ≤ 1
      ∧ s.place 511 = .claimed 1 ∧ (c.state = .calling ∨ c.state = .opened) ∧ c.transmit.length < 64 := by
  unfold State.taken State.namesOwn; decide +kernel

theorem witness_ReleaseReturnsTheHeadBuffer : ∀ q ∈ [[], [Entry.mk 4 128 true]],
    ∀ c ∈ [{ record .opened with receive := q }], ∀ s ∈ [issue 1 Code.release 0 0 0 0 (one c)],
    s.taken 1 Code.release ∧ s.namesOwn (s.port 1).args.a0 1 0 c := by
  unfold State.taken State.namesOwn; decide +kernel

/-- Short and not waiting, short and waiting, not short; a1 at both ends. -/
theorem witness_SetCreditSetsTheTarget : ∀ x ∈ [(15#32, 0, ([] : List SlotNo), CircuitState.opened), (15, 14, [0], .draining 0),
      (0, 0, [], .opened), (15, 15, [], .draining 0)],
    ∀ c ∈ [{ record x.2.2.2 with reserved := x.2.1 }],
    ∀ s ∈ [issue 1 Code.setCredit 0 x.1 0 0 ((one c).setWaitQueue x.2.2.1)],
    s.taken 1 Code.setCredit ∧ s.namesOwn (s.port 1).args.a0 1 0 c ∧ (s.port 1).args.a1.toNat ≤ 15
      ∧ (c.state = .opened ∨ c.state = .draining 0)
      ∧ (c.reserved < (s.port 1).args.a1.toNat ∧ s.waitQueue = [] ∨ c.reserved < (s.port 1).args.a1.toNat ∧ 0 ∈ s.waitQueue
        ∨ (s.port 1).args.a1.toNat ≤ c.reserved) := by
  unfold State.taken State.namesOwn; decide +kernel

theorem witness_RetireReturnsTheSlot : ∀ c ∈ [record (.ended 0 .remoteEnd none)],
    ∀ s ∈ [issue 1 Code.retire 0 0 0 0 (one c)], s.taken 1 Code.retire ∧ s.namesOwn (s.port 1).args.a0 1 0 c
      ∧ c.state = .ended 0 .remoteEnd none := by
  unfold State.taken State.namesOwn; decide +kernel

theorem witness_TakesReportAndClear : ∀ code ∈ [Code.take, Code.takeNext],
    ∀ s ∈ [issue 1 code 0 0 0 0 (attended 1 (one (record .opened)))],
    s.taken 1 code ∧ s.namesOwn (s.port 1).args.a0 1 0 (record .opened) ∧ (s.port 1).attention.head? = some 0
      ∧ s.circuit 0 = some (record .opened) := by
  unfold State.taken State.namesOwn; decide +kernel

theorem witness_QueryReportsTheRecord : ∀ p ∈ [(0 : PortNo), 1],
    ∀ s ∈ [issue p Code.query 0 0 0 0 (one (record .opened))],
    s.taken p Code.query ∧ (s.port p).args.a0.toNat = s.handle 0 ∧ s.circuit 0 = some (record .opened)
      ∧ (p = 0 ∨ (record .opened).owner = some p) := by
  unfold State.taken; decide +kernel

/-! ### The pool and the service table -/

theorem witness_ClaimAndUnclaimMoveABuffer_claim : ∀ n ∈ [3, 4],
    ∀ s ∈ [issue 2 Code.claim 0 0 0 0 (small.setFloor n)],
    s.taken 2 Code.claim ∧ (n = 3 → s.floor < s.available ∧ s.freeQueue = 0 :: [1, 2, 3])
      ∧ (n = 4 → s.available ≤ s.floor) := by
  unfold State.taken; decide +kernel

theorem witness_ClaimAndUnclaimMoveABuffer_unclaim : ∀ x ∈ [(511#32, Place.claimed 2), (511, .claimed 1), (512, .free)],
    ∀ s ∈ [issue 2 Code.unclaim x.1 0 0 0 (small.setPlace 511 x.2)],
    s.taken 2 Code.unclaim ∧ s.place 511 = x.2
      ∧ ((s.port 2).args.a0.toNat = (511 : BufNo).val ∨ 511 < (s.port 2).args.a0.toNat) := by
  unfold State.taken; decide +kernel

theorem witness_PoolServesTheCreditQueue : ∀ n ∈ [1, 2], ∀ c ∈ [{ record .opened with target := n }],
    ∀ s ∈ [((one c).setFreeQueue [0]).setWaitQueue [0]],
    s.waitQueue = 0 :: [] ∧ 0 < s.available ∧ s.circuit 0 = some c := by decide +kernel

theorem witness_PoolServesTheCreditQueue_stops : (small.waitQueue = []) ∧ (small.setFreeQueue []).available = 0 := by
  decide +kernel

theorem witness_PoolSetAndPoolQuery : ∀ k ∈ [0, 256, 257],
    ∀ s ∈ [issue 0 Code.poolSet (BitVec.ofNat 32 k) 0 0 0 small], s.taken 0 Code.poolSet
      ∧ (issue 3 Code.poolQuery 0 0 0 0 small).taken 3 Code.poolQuery
      ∧ ((s.port 0).args.a0.toNat ≤ 256 ∨ 256 < (s.port 0).args.a0.toNat) := by
  unfold State.taken; decide +kernel

/-- Each action at the ends of its fields' ranges. -/
theorem witness_ServiceSetLoadsTheEntry_fields :
    ∀ x ∈ [(0xFF030117#32, 0xFFFFFFFF#32, 0x00010000#32, ServiceFields.mk none 255 (.offer 3 1)),
      (0x01000217, 255, 0x00C00F00, ⟨some 255, 1, .accept 0 15 192⟩), (0x00000317, 0, 16, ⟨some 0, 0, .refuse 16⟩)],
    (issue 0 Code.serviceSet x.1 x.2.1 x.2.2.1 0 small).taken 0 Code.serviceSet
      ∧ bitsOf x.1 7 0 = (23 : EntryNo).val ∧ describesService ⟨x.1, x.2.1, x.2.2.1, 0⟩ x.2.2.2 := by
  unfold State.taken describesService
  intro x h
  simp only [List.mem_cons, List.not_mem_nil, or_false] at h
  rcases h with rfl | rfl | rfl <;> decide +kernel

/-- Each state of the entry that the two clauses tell apart. -/
theorem witness_ServiceSetLoadsTheEntry_states : ∀ f ∈ [ServiceFields.mk (some 7) 1 (.offer 0 1)],
    ∀ s ∈ [issue 0 Code.serviceSet 0x01000100 7 0x00010000 0 small],
    s.taken 0 Code.serviceSet ∧ s.entry 0 = .empty
      ∧ (s.setEntry 0 (.active f 0)).entry 0 = .active f 0 ∧ (s.setEntry 0 (.active f 192)).entry 0 = .active f 192
      ∧ (s.setEntry 0 (.withdrawn f 1)).entry 0 = .withdrawn f 1
      ∧ (s.setEntry 0 (.active { f with code := none } 1)).entry 0 = .active { f with code := none } 1
      ∧ (none : Option Byte) ≠ f.code := by
  unfold State.taken; decide +kernel

theorem witness_ServiceClearAndServiceQuery : ∀ x ∈ [ServiceEntry.empty, .active ⟨none, 0, .refuse 16⟩ 0,
      .active ⟨none, 255, .offer 3 192⟩ 1, .withdrawn ⟨some 0, 1, .accept 3 15 192⟩ 192],
    (issue 0 Code.serviceClear 23 0 0 0 (small.setEntry 23 x)).taken 0 Code.serviceClear
      ∧ (issue 3 Code.serviceQuery 23 0 0 0 (small.setEntry 23 x)).taken 3 Code.serviceQuery
      ∧ (23#32).toNat = (23 : EntryNo).val ∧ (small.setEntry 23 x).entry 23 = x := by
  unfold State.taken; decide +kernel

/-! ### Lines -/

theorem witness_LineSetReplacesTheConfiguration :
    ∀ x ∈ [(0x00010100#32, 0x01010101#32, LineConfig.mk .originRole 1 1 1 1 1 1),
      (0x000FFF01, 0xFFFFFFFF, ⟨.answerRole, 255, 255, 255, 255, 255, 15⟩)],
    ∀ s ∈ [issue 0 Code.lineSet 7 x.1 x.2.1 0 small],
    s.taken 0 Code.lineSet ∧ (s.port 0).args.a0.toNat = (7 : LineNo).val ∧ describesLine (s.port 0).args x.2.2
      ∧ (s.line 7).state = .disabled ∧ ((up 7 s).line 7).state ≠ .disabled ∧ (up 7 s).taken 0 Code.lineSet := by
  unfold State.taken describesLine; decide +kernel

/-- The line commands in every line state. -/
theorem witness_LineEnableStartsTheLine_LineDisableTakesTheLineDown_states : ∀ code ∈ [Code.lineEnable, Code.lineDisable],
    ∀ x ∈ [LineState.disabled, .waiting, .settling, .active],
    ∀ s ∈ [issue 0 code 7 0 0 0 (small.modLine 7 fun r => { r with state := x })],
    s.taken 0 code ∧ (s.port 0).args.a0.toNat = (7 : LineNo).val ∧ (s.line 7).state = x ∧ s.slots = [] := by
  unfold State.taken; decide +kernel

theorem witness_LineDisableTakesTheLineDown : ∃ s l, State.taken s 0 Code.lineDisable
    ∧ (s.port 0).args.a0.toNat = l.val ∧ (s.line l).state = .active ∧ Sparse.wf Fin.val {} s.slots ∧ s.slots ≠ [] :=
  ⟨issue 0 Code.lineDisable 0 0 0 0 (one (record .opened)), 0, taken_of (by decide +kernel), by decide +kernel,
    by decide +kernel, wf_one _, by decide +kernel⟩

theorem witness_LineQueryAndLineTake : ∀ k ∈ [0, 1], ∀ d ∈ [none, some 255],
    ∀ s ∈ [issue 0 Code.lineQuery 7 (BitVec.ofNat 32 k) 0 0 (small.modLine 7 fun r => { r with settleTimer := d })],
    s.taken 0 Code.lineQuery ∧ (s.port 0).args.a0.toNat = (7 : LineNo).val ∧ (s.port 0).args.a1.toNat ≤ 1
      ∧ (s.line 7).settleTimer = d ∧ (issue 0 Code.lineTake 7 0 0 0 small).taken 0 Code.lineTake := by
  unfold State.taken; decide +kernel

/-! ### Ports and the bus -/

theorem witness_PortSetSetsTheHoldoff : ∀ x ∈ [(0, 0), (15, 255), (16, 0), (0, 256)],
    ∀ s ∈ [issue 2 Code.portSet (BitVec.ofNat 32 x.1) (BitVec.ofNat 32 x.2) 0 0 small],
    s.taken 2 Code.portSet ∧ ((s.port 2).args.a0.toNat ≤ 15 ∧ (s.port 2).args.a1.toNat ≤ 255
      ∨ 15 < (s.port 2).args.a0.toNat ∨ 255 < (s.port 2).args.a1.toNat) := by
  unfold State.taken; decide +kernel

theorem canonical_of {s : State} {c : Circuit}
    (h : s.memory = [] ∧ s.slots = [(0, ⟨0, some c⟩)] ∧ s.places = [] ∧ s.index = [(1, 0)]) : s.canonical := by
  refine ⟨?_, ?_, ?_, ?_⟩
  · rw [h.1]; exact Memory.wf_reset
  · rw [h.2.1]; exact wf_one c
  · rw [h.2.2.1]; exact Sparse.wf_nil
  · rw [h.2.2.2]; exact List.pairwise_singleton _ _

theorem witness_PortResetClearsThePortAndItsCircuits_canonical : ∀ x ∈ [CircuitState.offered, .ended 0 .localEnd none,
    .closing 0, .calling, .opened, .draining 0], ∀ y ∈ [((0 : PortNo), (1 : PortNo)), (1, 1), (0, 0), (3, 3)],
    (issue y.1 Code.portReset (BitVec.ofNat 32 y.2.val) 0 0 0 (one (record x))).canonical := by
  have key : ∀ x ∈ [CircuitState.offered, .ended 0 .localEnd none, .closing 0, .calling, .opened, .draining 0],
      ∀ y ∈ [((0 : PortNo), (1 : PortNo)), (1, 1), (0, 0), (3, 3)],
      ∀ s ∈ [issue y.1 Code.portReset (BitVec.ofNat 32 y.2.val) 0 0 0 (one (record x))],
      s.memory = [] ∧ s.slots = [(0, ⟨0, some (record x)⟩)] ∧ s.places = [] ∧ s.index = [(1, 0)] := by decide +kernel
  exact fun x hx y hy => canonical_of (key x hx y hy _ (List.mem_singleton_self _))

/-- PORT-RESET of each port that may reset port 1, with a circuit of port 1 in each state that R166 tells apart; and of a port
without one. -/
theorem witness_PortResetClearsThePortAndItsCircuits : ∀ x ∈ [CircuitState.offered, .ended 0 .localEnd none, .closing 0, .calling,
    .opened, .draining 0], ∀ y ∈ [((0 : PortNo), (1 : PortNo)), (1, 1), (0, 0), (3, 3)],
    ∀ s ∈ [issue y.1 Code.portReset (BitVec.ofNat 32 y.2.val) 0 0 0 (one (record x))],
    s.taken y.1 Code.portReset ∧ (s.port y.1).args.a0.toNat = y.2.val ∧ (y.1 = 0 ∨ y.1 = y.2)
      ∧ s.circuit 0 = some (record x) ∧ (record x).owner = some 1 ∧ (record x).state = x := by
  unfold State.taken; decide +kernel

/-- A duplicate of each field alone and of both; a queue with room for one and a full one; each fall of a live count. -/
theorem witness_RepliesOfferedAndLiveCountsLowered : ∀ r ∈ [Reply.mk 127 .refuse 255],
    (∃ x ∈ [Reply.mk 127 .refuse 0], x.number = r.number ∧ x.kind = r.kind)
      ∧ (∀ q ∈ [List.replicate 3 (Reply.mk 127 .close 255), List.replicate 4 ⟨1, .refuse, 255⟩],
        ∀ x ∈ q, ¬ (x.number = r.number ∧ x.kind = r.kind)) := by decide +kernel

theorem witness_PortWritesActBySlotStatus : ∀ x ∈ [SlotStatus.starting, .idle, .pending, .done],
    ∀ s ∈ [small.modPort 3 fun r => { r with status := x }], s.phase ≠ .inReset ∧ (s.port 3).status = x
      ∧ (511#32).toNat = (511 : BufNo).val ∧ 511 < (512#32).toNat ∧ (0x200#32).getLsbD 9 = true
      ∧ ({ s with phase := .inReset } : State).phase = .inReset := by decide +kernel

/-- Start-up, RESET, a misaligned offset and one beyond the buffer. -/
theorem witness_WindowAccessesAreJudged_void : State.reset.phase ≠ .running
    ∧ ({ small with phase := .inReset } : State).phase ≠ .running
    ∧ windowAccessOk 2 .word = false ∧ windowAccessOk 128 .byte = false := by decide +kernel

theorem witness_WindowAccessesAreJudged_claimed : ∀ x ∈ [(127, Width.byte), (126, .half), (124, .word), (0, .byte)],
    ∀ s ∈ [(small.modPort 3 fun r => { r with window := 511 }).setPlace 511 (.claimed 3)],
    s.phase = .running ∧ windowAccessOk x.1 x.2 = true ∧ (s.port 3).window = 511 ∧ s.place 511 = .claimed 3 := by
  decide +kernel

theorem witness_WindowAccessesAreJudged_received : ∀ e ∈ [Entry.mk 4 128 true],
    ∀ c ∈ [{ record .opened with receive := [e] }],
    ∀ s ∈ [((one c).modPort 1 fun r => { r with window := 4 }).setPlace 4 (.receive 0)],
    s.phase = .running ∧ windowAccessOk 124 .word = true ∧ (s.port 1).window = 4 ∧ s.place 4 = .receive 0
      ∧ s.circuit 0 = some c ∧ c.owner = some 1 ∧ e ∈ c.receive ∧ e.buffer = 4
      ∧ ∀ x ∈ c.receive, x.buffer = 4 → x = e := by decide +kernel

/-- A free buffer, another port's, and one received for another port. -/
theorem witness_WindowAccessesAreJudged_fault : ∀ x ∈ [Place.free, .claimed 1, .transmit 0, .unacked 0, .receive 0],
    ∀ s ∈ [(one (record .opened)).setPlace 0 x],
    s.phase = .running ∧ (s.port 3).window = 0 ∧ s.place 0 ≠ .claimed 3
      ∧ (∀ i ∈ [(0 : SlotNo), 1], s.place 0 = .receive i → (s.circuit i).all fun c => c.owner ≠ some 3) := by decide +kernel

theorem witness_OtherAccessesChangeNothing :
    ∀ x ∈ [BusAccess.mk 3 0 .word true 5, ⟨3, 0x134, .word, false, 0⟩, ⟨3, 0x100, .half, false, 0⟩,
      ⟨3, 0x100, .word, true, 0xFFFFFDFF⟩, ⟨3, 0x201, .half, false, 0⟩, ⟨3, 0x3FC, .word, false, 0⟩],
    hasOwnRow x = false := by decide +kernel

/-- Every register word of the last clause is named by an access without a row of its own. -/
theorem witness_OtherAccessesChangeNothing_registers :
    ∀ o ∈ [0x000, 0x004, 0x100, 0x104, 0x108, 0x10C, 0x110, 0x114, 0x118, 0x11C, 0x120, 0x124, 0x128, 0x12C, 0x130, 0x134],
    hasOwnRow ⟨3, BitVec.ofNat 10 o, .word, false, 0⟩ = false ∧ (BitVec.ofNat 10 o).toNat = o
      ∧ registerAt o ≠ .undefinedOffset := by decide +kernel

/-! ### Admission -/

/-- Line 0 ACTIVE with an entry 23 of an action, so many circuits live, and so many free slots. -/
def admitting (x : Action) (live : Nat) (free : List SlotNo) : State :=
  ((up 0 small).setEntry 23 (.active ⟨some 255, 1, x⟩ live)).setFreeSlots free

theorem admits_of {x : Action} {live : Nat} {free : List SlotNo} :
    (admitting x live free).admits 0 255 23 ⟨some 255, 1, x⟩ live := by
  refine ⟨by simp [admitting, State.entry, State.setFreeSlots, State.setEntry],
    ⟨show (1 : BitVec 8).getLsbD 0 = true by decide, .inr rfl⟩, fun d g n hd h => ?_⟩
  have key : ∀ d : EntryNo, d < 23 → (up 0 small).entry d = .empty := by decide +kernel
  have : (admitting x live free).entry d = (up 0 small).entry d := by
    have hne : ¬ (23 : EntryNo).val = d.val := fun e => absurd (Fin.ext e : (23 : EntryNo) = d) (ne_of_gt hd)
    simp only [admitting, State.entry, State.setFreeSlots, State.setEntry, Fin.getElem_fin]
    rw [Vector.getElem_set, if_neg hne]
  rw [this, key d hd] at h; cases h

theorem witness_AdmissionRefusesACall_AdmissionOffersACall_AdmissionAcceptsACall_operands :
    ∀ n ∈ [1, 127], ∀ free ∈ [[], [(1 : SlotNo), 2]], ∀ live ∈ [0, 191, 192],
    ∀ x ∈ [Action.offer 3 192, .accept 3 15 192, .refuse 16], ∀ s ∈ [admitting x live free],
    (s.phase = .running ∧ (s.line 0).state = .active ∧ (s.line 0).receiver = .hunt) ∧ 1 ≤ (BitVec.ofNat 8 n).toNat
      ∧ (BitVec.ofNat 8 n).toNat ≤ 127 ∧ (15#8).toNat ≤ 15 ∧ s.lookup 0 (BitVec.ofNat 8 n) = none ∧ s.freeSlots = free
      ∧ (live < 192 ∨ 192 ≤ live) := by decide +kernel

theorem witness_AdmissionRefusesACall_noService : ∃ s l a, State.hears s l ∧ ∀ d g m, s.entry d = .active g m → ¬ g.fits l a := by
  refine ⟨up 0 small, 0, 12, hears_of (by decide +kernel), fun d g m h => ?_⟩
  have : (up 0 small).entry d = .empty := by simp [up, small, State.entry, State.modLine, State.setLine, State.reset]
  rw [this] at h; cases h

/-- An ANSWER line with a CALLING circuit under number 1. -/
def colliding : State := (one (record .calling)).modLine 0 fun r => { r with config := { r.config with role := .answerRole } }

theorem witness_CollisionsGiveWay : colliding.hears 0 ∧ colliding.mappedAt 0 1 0 (record .calling)
    ∧ (record .calling).line = 0 ∧ (record .calling).number = 1 ∧ (record .calling).state = .calling
    ∧ (colliding.line 0).config.role = .answerRole ∧ colliding.numberFor 0 .answerRole 127 :=
  ⟨hears_of (by decide +kernel), mapped_of (by decide +kernel), rfl, rfl, rfl, by decide +kernel,
    ⟨by decide +kernel, fun _ _ h _ => h⟩⟩

/-- An ANSWER line with every number taken and a CALLING circuit in slot i; these slots are free. -/
def crowded (i : SlotNo) (free : List SlotNo) : State :=
  { ((up 0 small).setCircuit i (some (record .calling))).modLine 0 fun r =>
      { r with config := { r.config with role := .answerRole } } with
    index := (List.range 127).map fun k => (k + 1, i), freeSlots := free }

/-- The call's slot below the free slot, without one, and above it. -/
theorem witness_CollisionsGiveWay_noNumber : ∀ x ∈ [((0 : SlotNo), [(1 : SlotNo)]), (0, []), (1, [0])],
    (crowded x.1 x.2).hears 0 ∧ (crowded x.1 x.2).mappedAt 0 1 x.1 (record .calling)
      ∧ (∀ m : Byte, 1 ≤ m.toNat → m.toNat ≤ 127 → (crowded x.1 x.2).lookup 0 m ≠ none)
      ∧ ((crowded x.1 x.2).line 0).config.role = .answerRole ∧ (record .calling).owner = some 1
      ∧ (x.1 = 0 → (crowded x.1 x.2).freeSlots.all fun j => x.1 ≤ j)
      ∧ (x.1 = 1 → (crowded x.1 x.2).freeSlots = 0 :: []) := by
  unfold State.hears State.mappedAt; decide +kernel

/-! ### Frames at a circuit -/

/-- What the statements on frames ask of line 0 and of a record on it. -/
theorem atCircuit : ∀ x ∈ [CircuitState.calling, .offered, .opened, .draining 255, .closing 255, .ended 0 .localEnd none],
    (one (record x)).hears 0 ∧ (one (record x)).mappedAt 0 1 0 (record x) ∧ (record x).line = 0
      ∧ (record x).number = 1 ∧ (record x).owner = some 1 ∧ (record x).state = x := by
  unfold State.hears State.mappedAt; decide +kernel

/-- Not short; short with nothing available, with less than the shortfall and with enough. -/
theorem witness_GrantOpensTheCircuit : ∀ x ∈ [(0, ([] : List BufNo)), (15, []), (15, [0]), (1, [0])],
    ∀ c ∈ [{ record .calling with target := x.1 }],
    ∀ s ∈ [(one c).setFreeQueue x.2], s.hears 0 ∧ (15#8).toNat ≤ 15 ∧ s.mappedAt 0 1 0 c ∧ c.line = 0 ∧ c.owner = some 1
      ∧ c.state = .calling ∧ 0 ∉ s.waitQueue ∧ s.waitQueue = []
      ∧ (c.target ≤ c.reserved ∨ c.reserved < c.target ∧ s.available = x.2.length)
      ∧ c.owed.put .openCall false = {} := by
  unfold State.hears State.mappedAt; decide +kernel

theorem witness_FarEndEndsTheCircuit : ∀ x ∈ [CircuitState.calling, .offered, .opened, .draining 255],
    (one (record x)).hears 0 ∧ (one (record x)).mappedAt 0 1 0 (record x)
      ∧ (x = .calling ∨ x = .offered ∨ x = .opened ∨ (record x).state.name = .draining) := by
  unfold State.hears State.mappedAt; decide +kernel

theorem witness_CloseIsConfirmed : ∀ o ∈ [some (1 : PortNo), none], ∀ c ∈ [{ record (.closing 255) with owner := o }],
    (one c).hears 0 ∧ (one c).mappedAt 0 1 0 c ∧ c.line = 0 ∧ c.number = 1 ∧ c.state = .closing 255 ∧ c.owner = o := by
  unfold State.hears State.mappedAt; decide +kernel

/-- Not short of the target after the frame; short with nothing available, with less than the shortfall and with enough. -/
theorem witness_CarryInOrderIsTaken : ∀ x ∈ [CircuitState.opened, .draining 0], ∀ y ∈ [0, 31],
    ∀ z ∈ [(0, [(0 : BufNo)]), (15, [0]), (15, [0, 1]), (1, [0, 1])],
    ∀ c ∈ [{ record x with nextExpected := BitVec.ofNat 5 y, reserved := 1, target := z.1 }],
    ∀ s ∈ [((one c).setReservedTotal 1).setFreeQueue z.2],
    s.hears 0 ∧ s.mappedAt 0 1 0 c ∧ (c.state = .opened ∨ c.state.name = .draining)
      ∧ (BitVec.ofNat 8 y).toNat = c.nextExpected.toNat ∧ 0 < c.reserved ∧ s.freeQueue.head? = some 0
      ∧ s.waitQueue = [] ∧ 0 < s.reservedTotal
      ∧ (c.target ≤ c.reserved - 1 ∨ c.reserved - 1 < c.target ∧ s.available = z.2.length - 1) := by
  unfold State.hears State.mappedAt; decide +kernel

theorem witness_CarryInOrderIsTaken_payload : ∀ m ∈ [1, 128],
    1 ≤ (List.replicate m (0 : Byte)).length ∧ (List.replicate m (0 : Byte)).length ≤ 128 := by decide +kernel

/-- Duplicates 1 and 16 steps back, out of order by 1 and by the last number in credit. -/
theorem witness_RepeatsAreAnswered_carry : ∀ x ∈ [(31#8, 0), (16, 0), (1, 15), (14, 15)],
    ∀ c ∈ [{ record .opened with reserved := x.2 }],
    (one c).hears 0 ∧ (one c).mappedAt 0 1 0 c ∧ x.1.toNat ≤ 31 ∧ x.1.toNat ≠ c.nextExpected.toNat
      ∧ (distance (x.1.setWidth 5) c.nextExpected ≤ 16 ∨ distance c.nextExpected (x.1.setWidth 5) < c.reserved) := by
  unfold State.hears State.mappedAt; decide +kernel

theorem witness_RepeatsAreAnswered_open : ∀ x ∈ [CircuitState.opened, .draining 0],
    ∀ c ∈ [{ record x with origin := .remoteCall 23 }],
    (one c).hears 0 ∧ (one c).mappedAt 0 1 0 c ∧ (c.state = .opened ∨ c.state.name = .draining)
      ∧ c.origin = .remoteCall 23 := by
  unfold State.hears State.mappedAt; decide +kernel

/-- In order without credit; beyond the credit by 1 and by the most; an acknowledgement of one more than was sent. -/
theorem witness_ViolationsCloseTheCircuit : ∀ x ∈ [(0#8, 0), (1, 1), (15, 15)],
    ∀ c ∈ [{ record .opened with reserved := x.2 }],
    (one c).hears 0 ∧ (one c).mappedAt 0 1 0 c
      ∧ (x.1.toNat = c.nextExpected.toNat ∧ c.reserved = 0
        ∨ 16 < distance (x.1.setWidth 5) c.nextExpected ∧ c.reserved ≤ distance c.nextExpected (x.1.setWidth 5)) := by
  unfold State.hears State.mappedAt; decide +kernel

theorem witness_ViolationsCloseTheCircuit_credit : ∀ k ∈ [1, 15],
    ¬ (1 ≤ distance (BitVec.ofNat 5 k) (record .opened).ackBase ∧ distance (BitVec.ofNat 5 k) (record .opened).ackBase ≤ 16)
      ∧ (record .opened).unacked.length < distance (record .opened).ackBase (BitVec.ofNat 5 k) := by decide +kernel

/-- Behind the base by 1 and by 16, at the base, and ahead of it by all that was sent; OPEN, and DRAINING with nothing left. -/
theorem witness_CreditSettlesTheAccount : ∀ x ∈ [(31#8, true, 0), (16, true, 0), (0, false, 0), (1, false, 1)],
    ∀ st ∈ [CircuitState.opened, .draining 255],
    ∀ c ∈ [{ record st with unacked := [⟨0, ⟨4, 9, true⟩⟩], nextSend := 1, farEdge := 1 }],
    (one c).hears 0 ∧ x.1.toNat ≤ 31 ∧ (one c).mappedAt 0 1 0 c ∧ c.owner = some 1
      ∧ (c.state = .opened ∨ c.state.name = .draining)
      ∧ (x.2.1 = true ↔ 1 ≤ distance (x.1.setWidth 5) c.ackBase ∧ distance (x.1.setWidth 5) c.ackBase ≤ 16)
      ∧ x.2.2 = (if x.2.1 then 0 else distance c.ackBase (x.1.setWidth 5)) ∧ x.2.2 ≤ c.unacked.length
      ∧ c.delivered ≤ 65535 ∧ 0 ∉ (one c).waitQueue := by
  unfold State.hears State.mappedAt; decide +kernel

theorem witness_UselessAndStrayFrames : ∀ x ∈ [Instr.openFrame 0 1 0 15, .grantFrame 0 1 15 0, .refuseFrame 0 1 255 0,
    .carryFrame 0 1 31 1 [0], .creditFrame 0 1 31 31, .askFrame 0 1 0 0, .closeFrame 0 1 255 0, .closedFrame 0 1 0 0],
    x.wellFormed = true ∧ (up 0 small).hears 0 ∧ (up 0 small).lookup 0 1 = none := by
  unfold State.hears; decide +kernel

/-! ### The receiver, timers, lines -/

/-- Line 7 ACTIVE or WAITING with a receiver. -/
def listening (st : LineState) (x : Receiver) : State := small.modLine 7 fun r => { r with receiver := x, state := st }

theorem witness_ReceiversDiscardAndCount_frames : ∀ x ∈ [Receiver.hunt, .frame []],
    (listening .waiting x).phase = .running ∧ ((listening .waiting x).line 7).receiver = x
      ∧ ((listening .waiting x).line 7).state ≠ .active := by decide +kernel

/-- Content that no frame has on an ACTIVE line, any content on a WAITING one, and the content of a valid frame,
gathered whole, in part and not at all. -/
theorem witness_ReceiversDiscardAndCount_closing :
    sixless ([true] ++ [false]) ∧ [true] ++ [false] ≠ ([] : List Bool) ∧ readContent (deleteZeros 0 ([true] ++ [false])) = none
      ∧ (∀ st ∈ [LineState.waiting, .active], ((listening st (.frame [true])).line 7).receiver = .frame [true]
        ∧ ((listening st (.frame [true])).line 7).state = st)
      ∧ (∀ k ∈ [0, 20, 51], ∀ bits ∈ [insertZeros 0 (frameBits ⟨1, .ask, 0, 0, []⟩)],
        bits.take k ++ bits.drop k ≠ []
          ∧ readContent (deleteZeros 0 (bits.take k ++ bits.drop k)) = some ⟨1, .ask, 0, 0, []⟩) := by
  decide +kernel

/-- An abort with nothing gathered, with less than its own 1 bits, and with content before them. -/
theorem witness_ReceiversDiscardAndCount_abort : ∀ x ∈ [(([] : List Bool), ([] : List Bool), ([] : List Bool), 0),
      ([true], [true], [], 2), ([true, false], [true], [true, false], 1)],
    ((listening .active (.frame x.1)).line 7).receiver = .frame x.1 ∧ sixless (x.1 ++ x.2.1)
      ∧ x.1 ++ x.2.1 = x.2.2.1 ++ List.replicate x.2.2.2 true
      ∧ (x.2.2.1 = [] ∨ x.2.2.1.getLast? = some false) := by
  decide +kernel

/-- Bits that hold no flag in HUNT, bits after an opening flag, and a receiver that is OFF. -/
theorem witness_ReceiversDiscardAndCount_flags :
    ¬ flagBits <:+: [false, true, true, true, true, true, true] ∧ sixless [true, false]
    ∧ (small.phase = .running ∧ (small.line 7).receiver = .off) := by decide +kernel

theorem witness_FramesReadBack : ∀ f ∈ [Frame.mk 127 .openCall 255 15 [], ⟨1, .grant, 15, 0, []⟩, ⟨1, .refuse, 255, 0, []⟩,
    ⟨127, .carry, 31, 1, [255]⟩, ⟨1, .credit, 31, 31, []⟩, ⟨1, .ask, 0, 0, []⟩, ⟨1, .close, 255, 0, []⟩,
    ⟨1, .closed, 0, 0, []⟩], frameValid f = true ∧ (up 7 small).hears 7 := by
  unfold State.hears; decide +kernel

/-- Each purpose with its state, below the limit and at it. -/
theorem witness_ExpiriesRepeatTheFrame_ExpiriesGiveUpAtTheLimit : ∀ x ∈ [(Purpose.openWait, CircuitState.calling),
    (.ackWait, .opened), (.ackWait, .draining 0), (.stallWait, .opened), (.stallWait, .draining 0), (.closeWait, .closing 255),
    (.offerWait, .offered)], ∀ n ∈ [0, 3, 4],
    ∀ c ∈ [{ record x.2 with timer := some ⟨x.1, 50⟩, retry := n }],
    (one c).phase = .running ∧ (one c).circuit 0 = some c ∧ c.timer = some ⟨x.1, 50⟩ ∧ c.owner = some 1
      ∧ (n = 4 → ((one c).line c.line).config.retryLimit ≤ c.retry)
      ∧ (n ≠ 4 → c.retry < ((one c).line c.line).config.retryLimit) := by decide +kernel

theorem witness_ExpiriesGiveUpAtTheLimit_orphan :
    ∀ c ∈ [{ record (.closing 255) with timer := some ⟨.closeWait, 50⟩, retry := 4, owner := none }],
    (one c).circuit 0 = some c ∧ ((one c).line c.line).config.retryLimit ≤ c.retry ∧ c.owner = none := by decide +kernel

theorem witness_OfferAndHoldoffExpiries : ∀ s ∈ [attended 3 (small.modPort 3 fun r => { r with holdoff := .running 255 })],
    s.phase = .running ∧ (s.port 3).holdoff = .running 255 ∧ (s.port 3).attention ≠ [] := by decide +kernel

theorem witness_LinesComeUp : ∀ x ∈ [LineState.disabled, .waiting, .settling], ∀ y ∈ [true, false],
    ∀ s ∈ [small.modLine 7 fun r => { r with state := x, readyLevel := y }],
    s.phase ≠ .inReset ∧ s.phase = .running ∧ (s.line 7).readyLevel = y ∧ (s.line 7).state = x
      ∧ (s.line 7).state ≠ .active := by decide +kernel

theorem witness_LineLossTearsTheLineDown : ∃ s l, State.phase s ≠ .inReset ∧ (s.line l).readyLevel = true
    ∧ (s.line l).state = .active ∧ Sparse.wf Fin.val {} s.slots ∧ s.slots ≠ [] :=
  ⟨one (record .opened), 0, by decide +kernel, by decide +kernel, by decide +kernel, wf_one _, by decide +kernel⟩

/-! ### The transmitter -/

/-- Each kind as the first one owed; RESEND with something unacknowledged. -/
theorem witness_SelectionServesOwedControl :
    ∀ x ∈ [(OwedKind.close, CircuitState.closing 255), (.grant, .opened), (.openCall, .calling), (.resend, .opened),
      (.credit, .draining 0), (.ask, .opened)],
    ∀ c ∈ [{ record x.2 with owed := (({} : Owed).put x.1 true).put .ask true, unacked := [⟨31, ⟨4, 128, true⟩⟩] }],
    ∀ s ∈ [(one c).modTx 0 fun y => { y with control := [0] }],
    s.phase = .running ∧ (s.line 0).state = .active ∧ (s.line 0).tx.staged = none ∧ (s.line 0).tx.control = 0 :: []
      ∧ s.circuit 0 = some c ∧ c.owed.has x.1 = true ∧ (x.1 = .resend → c.unacked ≠ [])
      ∧ (∀ k ∈ [OwedKind.close, .grant, .openCall, .resend, .credit, .ask].takeWhile (· ≠ x.1), c.owed.has k = false) := by
  decide +kernel

/-- A RESEND with nothing unacknowledged: owed alone, and before CREDIT. -/
theorem witness_SelectionServesOwedControl_dropped : ∀ b ∈ [false, true],
    ∀ c ∈ [{ record .opened with owed := { resend := true, credit := b } }],
    ∀ s ∈ [(one c).modTx 0 fun y => { y with control := [0] }],
    (s.line 0).tx.control = 0 :: [] ∧ s.circuit 0 = some c ∧ c.unacked = []
      ∧ (b = false → c.owed = { resend := true }) ∧ (b = true → c.owed.has .credit = true) := by decide +kernel

theorem witness_SelectionServesRepliesThenData :
    ∀ c ∈ [{ record .opened with transmit := [⟨4, 128, true⟩], nextSend := 31, farEdge := 0 }],
    ∀ x ∈ [(⟨127, .refuse, 255⟩ : Reply), ⟨1, .close, 8⟩, ⟨1, .closed, 0⟩],
    ∀ s ∈ [(one c).modTx 0 fun y => { y with ring := [0] }],
    s.phase = .running ∧ (s.line 0).state = .active ∧ (s.line 0).tx.staged = none ∧ (s.line 0).tx.control = []
      ∧ (s.line 0).tx.stray = [] ∧ (s.line 0).tx.ring = 0 :: [] ∧ s.circuit 0 = some c
      ∧ c.transmit = ⟨4, 128, true⟩ :: [] ∧ ((one c).line 0).tx.ring = []
      ∧ ((s.modTx 0 fun y => { y with stray := [x] }).line 0).tx.stray = x :: [] := by decide +kernel

/-- A note that fits, one of another generation, and OPEN noted of a circuit now DRAINING. -/
theorem witness_CompletionStartsTheTimer : ∀ k ∈ [FrameKind.openCall, .close, .carry, .ask], ∀ k' ∈ [0, 15],
    ∀ y ∈ [StateName.opened, .draining], ∀ c ∈ [{ record (.draining 0) with unacked := [⟨0, ⟨4, 9, true⟩⟩] }],
    ∀ x ∈ [Staged.mk ⟨1, k, 0, 0, []⟩ 0 false (some ⟨0, BitVec.ofNat 4 k', 0, 1, y⟩)],
    ∀ s ∈ [(one c).modTx 0 fun z => { z with staged := some x }],
    s.phase = .running ∧ (s.line 0).state = .active ∧ (s.line 0).tx.staged = some x ∧ s.circuit 0 = some c
      ∧ ((s.slot 0).generation = BitVec.ofNat 4 k' ∨ k' = 15) := by decide +kernel

theorem witness_ResetAndStartUp : State.reset.phase = .starting
    ∧ ({ small with phase := .inReset } : State).phase = .inReset := by
  decide +kernel

/-! ### The invariants -/

/-- One circuit that holds one reservation and waits for another, the one free buffer backing the first, a command in the queue, and a
claimed buffer. -/
def sample : State :=
  { (((one { record .opened with reserved := 1, target := 2 }).setFreeQueue [0]).setReservedTotal 1).setWaitQueue [0] with
    pending := [.askFrame 0 1 0 0] }

theorem witness_MapsStayCanonical : sample.canonical ∧ ∃ t, step sample = .next t :=
  ⟨⟨Memory.wf_reset, wf_one _, Sparse.wf_nil, List.pairwise_singleton _ _⟩, _, rfl⟩

theorem circuit_sample (i : SlotNo) (h : i ≠ 0) : sample.circuit i = none := by
  have key : ∀ i : SlotNo, i ≠ 0 → sample.circuit i = none := by decide +kernel
  exact key i h

theorem backed_sample : sample.backed := by
  have h0 : sample.circuit 0 = some { record .opened with reserved := 1, target := 2 } := by decide +kernel
  have hc : ∀ i c, sample.circuit i = some c → c = { record .opened with reserved := 1, target := 2 } := fun i c h => by
    by_cases hi : i = 0
    · rw [hi, h0] at h; exact (Option.some.inj h).symm
    · rw [circuit_sample i hi] at h; cases h
  refine ⟨?_, by decide +kernel, ⟨by decide +kernel, fun i hi => ?_⟩, fun i c h hs => ?_, ⟨by decide +kernel, ?_⟩,
    fun i c h => ?_⟩
  · unfold State.reservedSum
    rw [Finset.sum_eq_single 0 (fun i _ hi => by rw [circuit_sample i hi]; rfl) (fun h => absurd (Finset.mem_univ _) h), h0]
    decide +kernel
  · have : i = 0 := by revert i; decide +kernel
    exact ⟨_, by rw [this, h0], rfl⟩
  · rw [hc i c h] at hs; exact absurd hs (by decide)
  · decide +kernel
  · rw [hc i c h]; decide

/-- The sample's one circuit waits for credit, short of its target, and nothing is available. -/
theorem witness_ReservationsStayBacked : sample.backed ∧ sample.settled ∧ sample.waitQueue ≠ [] ∧ ∃ t, step sample = .next t := by
  refine ⟨backed_sample, ⟨.inr (by decide +kernel), fun i hi c hc => ?_⟩, by decide +kernel, _, rfl⟩
  have h0 : sample.circuit 0 = some { record .opened with reserved := 1, target := 2 } := by decide +kernel
  have : i = 0 := by clear hc; revert i; decide +kernel
  rw [this, h0] at hc
  cases hc
  decide

theorem witness_AtnOutputsFollowTheirRules : sample.backed ∧ (∀ q, (sample.port q).atn = true ↔ sample.atnAsserted q)
    ∧ ∃ t, step sample = .next t := by
  have ha : ∀ q, (sample.port q).atn = false ∧ (sample.port q).attention = [] := by decide +kernel
  have hl : ∀ l, (sample.line l).changed = false := by decide +kernel
  refine ⟨backed_sample, fun q => ⟨fun h => absurd ((ha q).1.symm.trans h) (by decide), ?_⟩, _, rfl⟩
  rintro (⟨h, -⟩ | ⟨-, l, h⟩)
  · exact absurd (ha q).2 h
  · exact absurd ((hl l).symm.trans h) (by decide)

theorem witness_LineRecordsStaySound : ∃ s : State, (∀ l, (s.line l).sound) ∧ (s.line 0).state = .active := by
  refine ⟨up 0 small, fun l => ?_, by decide +kernel⟩
  have : (up 0 small).line l = if l = 0 then (up 0 small).line 0 else {} := by revert l; decide +kernel
  rw [this]
  split
  · refine ⟨by decide +kernel, by decide +kernel, by decide +kernel, by decide +kernel, by decide +kernel, by decide +kernel,
      by decide +kernel, fun p => ?_, by decide +kernel⟩
    cases p <;> decide +kernel
  · refine ⟨by decide, by decide, by decide, by decide, by decide, by decide, by decide, fun p => ?_, by decide⟩
    cases p <;> decide

end Sys2Proof.Tests
end

/-! The circuit directory: handles checked, circuits retired and reported, and the state that RESET leaves. -/

namespace Sys2Proof.Machine

/-! ## The front of the queue -/

/-- A step on a queue that is not empty is the meaning of its first command on the queue's rest. -/
theorem step_of_pending {s : State} {c : Instr} {rest : List Instr} (h : s.pending = c :: rest) :
    step s = exec c { s with pending := rest } := by
  unfold step
  rw [h]

/-- Settles O1. -/
theorem stepRunsTheFrontCommand : Obligations.StepRunsTheFrontCommand := fun c s =>
  step_of_pending (s := { s with pending := c :: s.pending }) rfl

/-! ## The readers at the release of RESET -/

namespace State

@[simp] theorem slot_reset (i : SlotNo) : reset.slot i = {} := rfl
@[simp] theorem freeSlots_reset : reset.freeSlots = List.finRange 192 := by simp only [reset]
@[simp] theorem freeQueue_reset : reset.freeQueue = List.finRange 512 := by simp only [reset]
@[simp] theorem circuit_reset (i : SlotNo) : reset.circuit i = none := rfl
@[simp] theorem lookup_reset (l : LineNo) (n : Byte) : reset.lookup l n = none := rfl
@[simp] theorem place_reset (b : BufNo) : reset.place b = .free := rfl
@[simp] theorem bufferByte_reset (b : BufNo) (k : Nat) : reset.bufferByte b k = 0 := rfl
@[simp] theorem entry_reset (e : EntryNo) : reset.entry e = .empty := by simp [entry, reset]
@[simp] theorem line_reset (l : LineNo) : reset.line l = {} := by simp [line, reset]
@[simp] theorem port_reset (p : PortNo) : reset.port p = {} := by simp [port, reset]

/-- Nothing is listed in the maps (log 15). -/
theorem canonical_reset : reset.canonical where
  memory := Memory.wf_reset
  slots := Sparse.wf_nil
  places := Sparse.wf_nil
  index := List.Pairwise.nil

theorem reservedSum_reset : reset.reservedSum = 0 := by simp [reservedSum]

/-- No circuit stands anywhere, every slot is free and nothing is reserved. -/
theorem backed_reset : reset.backed where
  total := reservedSum_reset
  room := Nat.zero_le _
  waiting := ⟨List.nodup_nil, fun _ h => absurd h List.not_mem_nil⟩
  quiet _ _ h := nomatch h
  free := ⟨List.nodup_finRange 192, fun i _ => circuit_reset i⟩
  counted _ _ h := nomatch h

theorem settled_reset : reset.settled where
  served := .inl rfl
  short _ h := absurd h List.not_mem_nil

/-- Nothing asserts an ATN output: the attention lists are empty and no change flag is set. -/
theorem not_atnAsserted_reset (q : PortNo) : ¬ reset.atnAsserted q := by simp [atnAsserted]

end State

/-- Settles O55, field by field. -/
theorem resetStateIsAsGiven : Obligations.ResetStateIsAsGiven :=
  ⟨rfl, rfl, State.slot_reset, State.freeSlots_reset, State.lookup_reset, State.bufferByte_reset, State.place_reset,
    State.freeQueue_reset, rfl, rfl, rfl, State.entry_reset, State.line_reset, State.port_reset, rfl⟩

/-- Settles O60: each invariant holds of empty maps, free slots and lines at their RESET values. -/
theorem invariantsHoldAtReset : Obligations.InvariantsHoldAtReset := by
  refine ⟨State.canonical_reset, State.backed_reset, State.settled_reset, fun l => ?_, fun q => ?_⟩
  · rw [State.line_reset]
    exact State.sound_reset false false
  · have hatn : (State.reset.port q).atn = false := by rw [State.port_reset]
    simp only [hatn, Bool.false_eq_true, State.not_atnAsserted_reset]

/-! ## RETIRE (R18) -/

namespace State

variable {s : State} {i : SlotNo} {c : Circuit} {p : PortNo}

/-- The record of a circuit that has given back its buffers, whether or not it waited for credit: its three lists are empty, and it may
have been granted reservations when the pool served its queue. -/
theorem circuit_returnCircuitBuffers_granted (h : s.circuit i = some c) :
    ∃ n, (s.returnCircuitBuffers i).circuit i
      = some ({ c with transmit := [], unacked := [], receive := [] }.granted n) := by
  simp only [returnCircuitBuffers, h]
  obtain ⟨n, hn, -⟩ := (served_serveWait ((s.setCircuit i
    (some { c with transmit := [], unacked := [], receive := [] })).returnBuffers c.buffers)).circuits i
  exact ⟨n, by rw [hn, circuit_of_keeps (keeps_returnBuffers _ _) (by decide), circuit_setCircuit_same]; rfl⟩

/-- The actions of R18 on the circuit in slot i, up to the judgement of the ATN outputs. -/
def retired (s : State) (i : SlotNo) : State := ((s.returnCircuitBuffers i).leaveOwner i).freeSlot i

/-- RETIRE of the port's own ENDED circuit passes its checks and does these actions. -/
theorem retireBody_of_ended {a : Args} (h : s.namesOwn a.a0 p i c) (he : c.state.name = .ended) :
    retireBody p a s = .ok ((s.retired i).judgeAtn, {}) := by
  simp only [retireBody, handleArg_of_names h, bind, Except.bind, ownedCircuit_of_names h, he, decide_true, require_true]
  rfl

/-- The parts that the actions of R18 may change. -/
theorem keeps_retired (s : State) (i : SlotNo) :
    Keeps [.slots, .lines, .reservedTotal, .waitQueue, .places, .freeQueue, .ports, .freeSlots] s (s.retired i) := by
  refine Keeps.trans ?_ ((keeps_freeSlot _ i).mono (by decide))
  exact (s.keeps_returnCircuitBuffers i).both (keeps_leaveOwner _ i) (by decide) (by decide)

theorem circuit_retired : (s.retired i).circuit i = none := circuit_freeSlot

theorem freeSlots_retired : (s.retired i).freeSlots = s.freeSlots ++ [i] := by
  rw [retired, freeSlots_freeSlot, (keeps_leaveOwner _ i).at_freeSlots (by decide),
    (keeps_returnCircuitBuffers s i).at_freeSlots (by decide)]

theorem freeQueue_retired (h : s.circuit i = some c) : (s.retired i).freeQueue = s.freeQueue ++ c.buffers := by
  rw [retired, (keeps_freeSlot _ i).at_freeQueue (by decide), (keeps_leaveOwner _ i).at_freeQueue (by decide),
    freeQueue_returnCircuitBuffers h]

theorem place_retired (h : s.circuit i = some c) (b : BufNo) :
    (s.retired i).place b = if b ∈ c.buffers then .free else s.place b := by
  rw [retired, place_of_keeps (keeps_freeSlot _ i) (by decide), place_of_keeps (keeps_leaveOwner _ i) (by decide),
    place_returnCircuitBuffers h]

/-- The owner's list loses the circuit, and no other port changes (R173, R177). -/
theorem port_retired (h : s.circuit i = some c) (ho : c.owner = some p) (q : PortNo) :
    (s.retired i).port q = if q = p then (s.port p).leftBy i else s.port q := by
  obtain ⟨n, hn⟩ := circuit_returnCircuitBuffers_granted h
  have howner : (Circuit.granted { c with transmit := [], unacked := [], receive := [] } n).owner = some p := by
    unfold Circuit.granted
    split <;> exact ho
  rw [retired, port_of_keeps (keeps_freeSlot _ i) (by decide), port_leaveOwner hn, howner,
    port_of_keeps (keeps_returnCircuitBuffers s i) (by decide)]
  by_cases hq : q = p
  · subst hq
    simp [Port.leftBy]
  · rw [if_neg hq, if_neg fun e => hq (Option.some.inj e).symm]

theorem actsOn_retired (l : LineNo) : ActsOn i l s (s.retired i) :=
  (actsOn_returnCircuitBuffers.trans actsOn_leaveOwner).trans actsOn_freeSlot

/-- The lines when a circuit is retired: only circuits that wait for credit join control queues, the retired one among them if it
waits itself. -/
theorem queued_retired (l : LineNo) :
    Queued i l s (s.retired i) (i ∈ s.waitQueue) (fun more => (s.line l).tx.control ++ more) (s.line l).tx.ring
      (s.line l).tx.stray := by
  obtain ⟨more, hmore, hline⟩ := line_returnCircuitBuffers (s := s) (i := i) l
  have later : ActsOn i l (s.returnCircuitBuffers i) (s.retired i) := actsOn_leaveOwner.trans actsOn_freeSlot
  refine ⟨more, fun j hj => ?_, ?_⟩
  · obtain ⟨hwaits, hgains⟩ := hmore j hj
    by_cases hji : j = i
    · exact .inl ⟨hji, hji ▸ hwaits⟩
    · exact .inr ⟨hji, hwaits, (ActsOn.refl i l s).gains later hji (hgains hji)⟩
  · rw [retired, line_of_keeps (keeps_freeSlot _ i) (by decide), line_of_keeps (keeps_leaveOwner _ i) (by decide), hline]

/-- A state whose ports are those of s but for the circuit's leaving p's list, judged and finished for p, answers p as s would. -/
theorem answersLeaving_finish {t : State} {w : Results}
    (h : ∀ q, t.port q = if q = p then (s.port p).leftBy i else s.port q) :
    s.answersLeaving (t.judgeAtn.finish p .ok w) p w i := by
  refine ⟨rfl, fun q => ?_⟩
  rw [atnLevel_finish, atnLevel_judgeAtn]
  by_cases hq : q = p
  · subst hq
    rw [port_finish_same, port_judgeAtn, h, if_pos rfl, if_pos rfl]
  · rw [port_finish_ne hq, port_judgeAtn, h, if_neg hq, if_neg hq]

end State

/-- Settles O14: the actions of R18 one by one, judged and finished, which change neither slots nor lines nor queues. -/
theorem retireReturnsTheSlot : Obligations.RetireReturnsTheSlot := by
  intro s p i c htaken hnames hended
  have ⟨_, hcirc, howner⟩ := hnames
  have hname : c.state.name = .ended := by
    obtain ⟨cause, side, m, hstate⟩ := hended
    rw [hstate]; rfl
  have hkeeps : Keeps [.ports, .lastServed] (s.retired i) ((s.retired i).judgeAtn.finish p .ok {}) :=
    (State.keeps_judgeAtn _).both (State.keeps_finish _ p .ok {}) (by decide) (by decide)
  have hacts : ActsOn i c.line (s.retired i) ((s.retired i).judgeAtn.finish p .ok {}) :=
    ActsOn.of_keeps hkeeps i c.line (by decide) (by decide) (by decide)
  refine ⟨_, next_of_ok htaken (State.retireBody_of_ended hnames hname),
    State.answersLeaving_finish (State.port_retired hcirc howner), ?_, ?_, ?_, fun b => ?_,
    (State.queued_retired c.line).after hacts (State.line_of_keeps hkeeps (by decide) c.line),
    (State.actsOn_retired c.line).trans hacts, (s.keeps_retired i).both hkeeps (by decide) (by decide)⟩
  · rw [State.circuit_of_keeps hkeeps (by decide), State.circuit_retired]
  · rw [hkeeps.at_freeSlots (by decide), State.freeSlots_retired]
  · rw [hkeeps.at_freeQueue (by decide), State.freeQueue_retired hcirc]
  · rw [State.place_of_keeps hkeeps (by decide), State.place_retired hcirc]

/-! ## QUERY (R20) -/

/-- QUERY of a circuit that a handle names passes its checks for the owner and for port 0, and reports the record (R6). -/
theorem queryBody_of_handle {s : State} {p : PortNo} {a : Args} {i : SlotNo} {c : Circuit} (hw : a.a0.toNat = s.handle i)
    (hc : s.circuit i = some c) (hp : p = 0 ∨ c.owner = some p) : queryBody p a s = .ok (s, s.queryResults i c) := by
  have hnamed : s.named (i, (s.slot i).generation) = .ok c := by simp [State.named, hc]
  have hmay : require (p = 0 || c.owner = some p) .notOwner = .ok () := require_of (by simpa using hp) _
  simp only [queryBody, State.handleArg_of_handle hw, bind, Except.bind, hnamed, hmay]
  rfl

/-- Settles O16: the result words are those of queryResults, whose fields stand where R187 has them. -/
theorem queryReportsTheRecord : Obligations.QueryReportsTheRecord := fun s p i c htaken hw hc hp =>
  ⟨_, next_of_ok htaken (queryBody_of_handle hw hc hp), State.answers_finish rfl .ok (s.queryResults i c),
    s.keeps_finish p .ok (s.queryResults i c)⟩

/-! ## The checks on a handle (R4, R5, R6) -/

/-- A word is no handle when it has bits above the generation or names no slot (R4). -/
theorem handleArg_bad {w : Word} (h : 4095 < w.toNat ∨ 192 ≤ w.toNat % 256) : handleArg w = .error .badArgument := by
  unfold handleArg
  rcases h with h | h
  · rw [if_pos h]
  · rw [dif_neg (by omega), ite_self]

/-- A handle names no circuit now when its slot is FREE or at another generation (R5). -/
theorem named_bad {s : State} {i : SlotNo} {n : Nat} (hn : n < 16)
    (h : s.circuit i = none ∨ (s.slot i).generation.toNat ≠ n) :
    s.named (i, BitVec.ofNat 4 n) = .error .badHandle := by
  unfold State.named
  rcases h with h | h
  · simp [h]
  · have hne : (s.slot i).generation ≠ BitVec.ofNat 4 n := fun e => h (by simp [e, Nat.mod_eq_of_lt hn])
    cases hc : s.circuit i with
    | none => rfl
    | some c => simp only [if_neg hne]

/-- What the checks on a handle w of port p make of a command's answer x, the other arguments being in range: no handle, a handle that
names no circuit, and another owner's circuit each fail the command, the last unless the port is exempt from that test (R6). -/
structure ChecksHandle (s : State) (p : PortNo) (w : Word) (exempt : Prop) (x : Except ResultCode (State × Results)) :
    Prop where
  malformed : ∀ r, handleArg w = .error r → x = .error r
  unnamed : ∀ h r, handleArg w = .ok h → s.named h = .error r → x = .error r
  foreign : ∀ h c, handleArg w = .ok h → s.named h = .ok c → c.owner ≠ some p → ¬ exempt → x = .error .notOwner

theorem ownedCircuit_error {s : State} {p : PortNo} {h : SlotNo × Generation} {r : ResultCode}
    (e : s.named h = .error r) : s.ownedCircuit p h = .error r := by
  simp [State.ownedCircuit, e, bind, Except.bind]

theorem ownedCircuit_foreign {s : State} {p : PortNo} {h : SlotNo × Generation} {c : Circuit} (e : s.named h = .ok c)
    (ho : c.owner ≠ some p) : s.ownedCircuit p h = .error .notOwner := by
  simp [State.ownedCircuit, e, bind, Except.bind, ownedBy, ho]

section

variable {s : State} {p : PortNo} {a : Args} {exempt : Prop}

/-- A command that takes its handle, then the circuit the port owns under it, and then goes on. -/
theorem ChecksHandle.of_eq {w : Word} {x : Except ResultCode (State × Results)}
    {rest : SlotNo × Generation → Circuit → Except ResultCode (State × Results)}
    (e : x = (handleArg w).bind fun h => (s.ownedCircuit p h).bind (rest h)) : ChecksHandle s p w exempt x where
  malformed r hr := by rw [e, hr]; rfl
  unnamed h r hh hr := by rw [e, hh]; simp only [Except.bind, ownedCircuit_error hr]
  foreign h c hh hc ho _ := by rw [e, hh]; simp only [Except.bind, ownedCircuit_foreign hc ho]

theorem checksHandle_release : ChecksHandle s p a.a0 exempt (releaseBody p a s) := .of_eq rfl
theorem checksHandle_retire : ChecksHandle s p a.a0 exempt (retireBody p a s) := .of_eq rfl
theorem checksHandle_take : ChecksHandle s p a.a0 exempt (takeBody p a s) := .of_eq rfl

theorem checksHandle_accept (h : a.a1.toNat ≤ 15) : ChecksHandle s p a.a0 exempt (acceptBody p a s) := by
  unfold acceptBody
  rw [require_of (decide_eq_true h)]
  exact .of_eq rfl

theorem checksHandle_setCredit (h : a.a1.toNat ≤ 15) : ChecksHandle s p a.a0 exempt (setCreditBody p a s) := by
  unfold setCreditBody
  rw [require_of (decide_eq_true h)]
  exact .of_eq rfl

theorem checksHandle_refuse (h : clientCause 1 a.a1 = true) : ChecksHandle s p a.a0 exempt (refuseBody p a s) := by
  unfold refuseBody
  rw [require_of h]
  exact .of_eq rfl

theorem checksHandle_close (hm : a.a1.toNat ≤ 1) (hc : clientCause 0 a.a2 = true) :
    ChecksHandle s p a.a0 exempt (closeBody p a s) := by
  unfold closeBody
  rw [require_of (decide_eq_true hm), require_of hc]
  exact .of_eq rfl

theorem checksHandle_send (hb : a.a1.toNat ≤ 511) (hlo : 1 ≤ a.a2.toNat) (hhi : a.a2.toNat ≤ 128)
    (hm : a.a3.toNat ≤ 1) : ChecksHandle s p a.a0 exempt (sendBody p a s) := by
  unfold sendBody
  rw [bufferArg_of (b := ⟨a.a1.toNat, by omega⟩) rfl,
    require_of (b := decide (1 ≤ a.a2.toNat) && decide (a.a2.toNat ≤ 128)) (by simp [hlo, hhi]),
    require_of (decide_eq_true hm)]
  exact .of_eq rfl

/-- QUERY asks for the owner itself, and lets port 0 pass (R6). -/
theorem checksHandle_query : ChecksHandle s p a.a0 (p = 0) (queryBody p a s) where
  malformed r hr := by simp only [queryBody, hr, bind, Except.bind]
  unnamed h r hh hr := by simp only [queryBody, hh, hr, bind, Except.bind]
  foreign h c hh hc ho hp := by simp [queryBody, hh, hc, ho, hp, bind, Except.bind]

end

/-- The answers of a command that is taken and checks its handle. -/
theorem ChecksHandle.answers {s : State} {p : PortNo} {c : Instr} {code : Byte} {body : Body} {exempt : Prop}
    (h : ChecksHandle s p (s.port p).args.a0 exempt (body p (s.port p).args s)) (htaken : s.taken p code)
    (hexec : exec c s = takeCommand code body s) :
    (4095 < (s.port p).args.a0.toNat ∨ 192 ≤ (s.port p).args.a0.toNat % 256 →
      ∃ t, exec c s = .next t ∧ s.fails t p .badArgument)
    ∧ ∀ i : SlotNo, (s.port p).args.a0.toNat ≤ 4095 → (s.port p).args.a0.toNat % 256 = i.val →
      (s.circuit i = none ∨ (s.slot i).generation.toNat ≠ (s.port p).args.a0.toNat / 256 →
        ∃ t, exec c s = .next t ∧ s.fails t p .badHandle)
      ∧ ∀ x, (s.port p).args.a0.toNat = s.handle i → s.circuit i = some x → x.owner ≠ some p → ¬ exempt →
        ∃ t, exec c s = .next t ∧ s.fails t p .notOwner := by
  refine ⟨fun hbad => fails_of htaken hexec (h.malformed _ (handleArg_bad hbad)), fun i hle hi => ⟨fun hbad => ?_,
    fun x hw hx ho hp => ?_⟩⟩
  · exact fails_of htaken hexec (h.unnamed _ _ (handleArg_ok hle hi) (named_bad (by omega) hbad))
  · exact fails_of htaken hexec
      (h.foreign _ x (State.handleArg_of_handle hw) (by simp [State.named, hx]) ho hp)

/-- Settles O5: each of the nine commands checks its handle once its other arguments are in range, QUERY exempting port 0. -/
theorem handlesAreChecked : Obligations.HandlesAreChecked := by
  intro s p c code hcommand htaken
  suffices h : ∃ body exempt, exec c s = takeCommand code body s
      ∧ ChecksHandle s p (s.port p).args.a0 exempt (body p (s.port p).args s) ∧ (exempt → c = .query ∧ p = 0) by
    obtain ⟨body, exempt, hexec, hchecks, hexempt⟩ := h
    obtain ⟨hmalformed, hrest⟩ := hchecks.answers htaken hexec
    refine ⟨hmalformed, fun i hle hi => ⟨(hrest i hle hi).1, fun x hw hx ho hquery => ?_⟩⟩
    exact (hrest i hle hi).2 x hw hx ho fun he => hquery (hexempt he).1 (hexempt he).2
  simp only [List.mem_cons, Prod.mk.injEq, List.not_mem_nil, or_false] at hcommand
  obtain (⟨rfl, rfl⟩ | ⟨rfl, rfl⟩ | ⟨rfl, rfl⟩ | ⟨rfl, rfl⟩) | ⟨⟨rfl, rfl⟩ | ⟨rfl, rfl⟩, htarget⟩ | ⟨rfl, rfl, hcause⟩
    | ⟨rfl, rfl, hmode, hcause⟩ | ⟨rfl, rfl, hbuffer, hlo, hhi, hmark⟩ := hcommand
  · exact ⟨releaseBody, False, rfl, checksHandle_release, False.elim⟩
  · exact ⟨queryBody, p = 0, rfl, checksHandle_query, fun hp => ⟨rfl, hp⟩⟩
  · exact ⟨retireBody, False, rfl, checksHandle_retire, False.elim⟩
  · exact ⟨takeBody, False, rfl, checksHandle_take, False.elim⟩
  · exact ⟨acceptBody, False, rfl, checksHandle_accept htarget, False.elim⟩
  · exact ⟨setCreditBody, False, rfl, checksHandle_setCredit htarget, False.elim⟩
  · exact ⟨refuseBody, False, rfl, checksHandle_refuse ((clientCause_iff 1 _).2 hcause), False.elim⟩
  · exact ⟨closeBody, False, rfl, checksHandle_close hmode ((clientCause_iff 0 _).2 hcause), False.elim⟩
  · exact ⟨sendBody, False, rfl, checksHandle_send hbuffer hlo hhi hmark, False.elim⟩

end Sys2Proof.Machine

-- ==== Opening and closing circuits: the shared rules ====

/-! Opening and closing circuits: allocation, direct reservations, and what leaving the directory and entering CLOSING come to. -/

namespace Sys2Proof.Machine

namespace State

variable {s t u : State} {i j : SlotNo} {c : Circuit} {p : PortNo} {l : LineNo}

/-! ## Allocation (R3) -/

/-- The state in which the slot at the head of the free-slot queue has been taken for a record, `rest` being the queue behind it. -/
def allocated (s : State) (i : SlotNo) (rest : List SlotNo) (c : Circuit) : State :=
  ((s.setFreeSlots rest).setSlot i ⟨(s.slot i).generation + 1, some c⟩).mapNumber c.line c.number i

theorem allocate_eq_allocated {rest : List SlotNo} (h : s.freeSlots = i :: rest) (c : Circuit) :
    s.allocate c = some (i, s.allocated i rest c) := allocate_of_free h c

variable (rest : List SlotNo) (d : Circuit)

theorem keeps_allocated : Keeps [.slots, .freeSlots, .index] s (s.allocated i rest d) :=
  ((s.keeps_setFreeSlots _).both (keeps_setSlot _ _ _) (by decide) (by decide)).both (keeps_mapNumber _ _ _ _)
    (List.Subset.refl _) (by decide)

@[simp] theorem slot_allocated : (s.allocated i rest d).slot i = ⟨(s.slot i).generation + 1, some d⟩ := by
  simp [allocated]

@[simp] theorem circuit_allocated : (s.allocated i rest d).circuit i = some d := by simp [circuit]

theorem slot_allocated_ne (h : j ≠ i) : (s.allocated i rest d).slot j = s.slot j := by
  rw [allocated, slot_mapNumber, slot_setSlot_ne _ h, slot_setFreeSlots]

@[simp] theorem freeSlots_allocated : (s.allocated i rest d).freeSlots = rest := rfl

theorem lookup_allocated (m : LineNo) (o : Byte) :
    (s.allocated i rest d).lookup m o = if m = d.line ∧ o = d.number then some i else s.lookup m o := by
  rw [allocated, lookup_mapNumber]; rfl

theorem available_allocated : (s.allocated i rest d).available = s.available :=
  available_of_keeps (keeps_allocated rest d) (by decide) (by decide)

/-! ## Direct reservations (R82) -/

theorem reservedTotal_reserve (n : Nat) :
    (s.reserve i n).reservedTotal = s.reservedTotal + min n s.available := rfl

/-- A direct reservation of more than is available leaves nothing available. -/
theorem available_reserve_of_short {n : Nat} (h : s.available < n) : (s.reserve i n).available = 0 := by
  have hf : (s.reserve i n).freeQueue = s.freeQueue := (s.keeps_reserve i n).at_freeQueue (by decide)
  rw [available, hf, reservedTotal_reserve]
  simp only [available] at h ⊢
  omega

theorem slot_reserve_ne (h : j ≠ i) (n : Nat) : (s.reserve i n).slot j = s.slot j := by
  rw [reserve, slot_modCircuit_ne _ h, slot_setReservedTotal]

@[simp] theorem generation_reserve (n : Nat) : ((s.reserve i n).slot j).generation = (s.slot j).generation := by
  rw [reserve, generation_modCircuit, slot_setReservedTotal]

/-- After a direct reservation of its target a circuit joins the credit wait queue when less was available, and is granted nothing
there: the reservation took all there was (R35, R36). -/
theorem joinWaitIfShort_reserved {n avail : Nat} (h : t.circuit i = some c) (hn : c.target = n)
    (hr : c.reserved = min n avail) (ha : avail < n → t.available = 0) :
    t.joinWaitIfShort i = t.setWaitQueue (if avail < n then joinTail t.waitQueue i else t.waitQueue) := by
  by_cases hs : avail < n
  · rw [if_pos hs]
    exact joinWaitIfShort_of_unavailable h (by simp only [Circuit.short, decide_eq_true_eq]; omega) (ha hs)
  · rw [if_neg hs]
    exact joinWaitIfShort_of_not_short h (by simp only [Circuit.short, decide_eq_false_iff_not]; omega)

end State

end Sys2Proof.Machine

namespace Sys2Proof.Machine

/-! ## CALL (R25, R26) -/

/-- The record that CALL writes, before its reservation (R26). -/
def callRecord (p : PortNo) (a : Args) (l : LineNo) (n : Byte) : Circuit :=
  Circuit.start .calling l n p .localCall (a.a1.setWidth 8) 0 a.a2.toNat

namespace State

/-- The state that CALL leaves, up to its completion. -/
def called (s : State) (p : PortNo) (a : Args) (l : LineNo) (n : Byte) (i : SlotNo) (rest : List SlotNo) : State :=
  ((s.allocated i rest (callRecord p a l n)).reserve i a.a2.toNat).owe i .openCall

section

variable {s : State} {p : PortNo} {a : Args} {l : LineNo} {n : Byte} {i : SlotNo} {rest : List SlotNo}

/-- CALL passes its checks and answers the handle and the number. -/
theorem callBody_of_free (hl : a.a0.toNat = l.val) (h1 : a.a1.toNat ≤ 255) (h2 : a.a2.toNat ≤ 15)
    (hup : (s.line l).state = .active) (hfree : s.freeSlots = i :: rest)
    (hn : s.numberFor l (s.line l).config.role n) :
    callBody p a s = .ok (s.called p a l n i rest,
      { r0 := inBits 11 0 ((s.called p a l n i rest).handle i), r1 := inBits 6 0 n.toNat }) := by
  have hslot : (!s.freeSlots.isEmpty) = true := by rw [hfree]; rfl
  simp only [callBody, lineArg_of hl, h1, h2, hup, hslot, decide_true, require_true, bind, Except.bind,
    chooseNumber_of_numberFor hn, allocate_eq_allocated hfree]
  rfl

/-- The record with its direct reservation, before it owes OPEN. -/
theorem circuit_reserve_allocated (d : Circuit) (m : Nat) :
    ((s.allocated i rest d).reserve i m).circuit i = some
      { d with reserved := min m s.available, receiveEdge := BitVec.ofNat 5 (min m s.available) } := by
  rw [circuit_reserve, if_pos rfl, circuit_allocated, available_allocated]
  rfl

theorem generation_called : ((s.called p a l n i rest).slot i).generation = (s.slot i).generation + 1 := by
  simp [called]

theorem keeps_called : Keeps [.slots, .freeSlots, .index, .reservedTotal, .lines] s (s.called p a l n i rest) :=
  ((keeps_allocated rest _).both (keeps_reserve _ i _) (by decide) (by decide)).both (keeps_owe _ i _)
    (zs := [.slots, .freeSlots, .index, .reservedTotal, .lines]) (xs := [.slots, .freeSlots, .index, .reservedTotal])
    (by decide) (by decide)

theorem slot_called_ne {j : SlotNo} (h : j ≠ i) : (s.called p a l n i rest).slot j = s.slot j := by
  rw [called, slot_owe_ne h, slot_reserve_ne h, slot_allocated_ne _ _ h]

theorem line_called (m : LineNo) : (s.called p a l n i rest).line m
    = if m = l then { s.line m with tx := { (s.line m).tx with control := joinTail (s.line m).tx.control i } }
      else s.line m := by
  rw [called, line_owe (circuit_reserve_allocated _ _), line_of_keeps (keeps_reserve _ i _) (by decide),
    line_of_keeps (keeps_allocated rest _) (by decide)]
  rfl

end

end State

/-- Settles O7: the slot allocated, the reservation made and OPEN owed, then the command finished. -/
theorem callAllocatesACircuit : Obligations.CallAllocatesACircuit := by
  intro s p l n i rest htaken hl h1 h2 hup hfree hn
  have hn127 : n.toNat < 2 ^ 7 := by have := hn.1.2.1; omega
  have hhandle : (s.called p (s.port p).args l n i rest).handle i = handleValue ((s.slot i).generation + 1) i := by
    rw [State.handle, State.generation_called]
  have hbody := State.callBody_of_free (p := p) hl h1 h2 hup hfree hn
  rw [inBits_low (State.handle_lt _ i), inBits_low hn127, hhandle] at hbody
  have hnext : exec .call s = _ := next_of_ok htaken hbody
  refine ⟨_, hnext, State.answers_finish (State.keeps_called.at_ports (by decide)) .ok _,
    ?_, ?_, ?_, fun m o => ?_, ?_, ?_, fun j hj => ?_, fun m hm => ?_, State.keeps_called.finish p .ok _⟩
  · rw [State.slot_finish, State.generation_called]
  · rw [State.circuit_finish, State.called, State.circuit_owe, if_pos rfl, State.circuit_reserve_allocated]
    rfl
  · rw [(State.keeps_finish _ p .ok _).at_freeSlots (by decide), State.called,
      (State.keeps_owe _ i _).at_freeSlots (by decide), (State.keeps_reserve _ i _).at_freeSlots (by decide),
      State.freeSlots_allocated]
  · rw [State.lookup_finish, State.called, State.lookup_of_keeps (State.keeps_owe _ i _) (by decide),
      State.lookup_of_keeps (State.keeps_reserve _ i _) (by decide), State.lookup_allocated]
    rfl
  · rw [(State.keeps_finish _ p .ok _).at_reservedTotal (by decide), State.called,
      (State.keeps_owe _ i _).at_reservedTotal (by decide), State.reservedTotal_reserve, State.available_allocated,
      (State.keeps_allocated rest _).at_reservedTotal (by decide)]
  · rw [State.line_finish, State.line_called, if_pos rfl]
  · rw [State.slot_finish, State.slot_called_ne hj]
  · rw [State.line_finish, State.line_called, if_neg hm]

end Sys2Proof.Machine

namespace Sys2Proof.Machine

/-! ## ACCEPT (R36) -/

/-- The record that ACCEPT writes, with its direct reservation and the GRANT it owes. -/
def Circuit.accepted (c : Circuit) (n avail : Nat) : Circuit :=
  { c with
    state := .opened, timer := none, retry := 0, target := n
    reserved := min n avail
    receiveEdge := BitVec.ofNat 5 (min n avail)
    owed := c.owed.put .grant true }

namespace State

variable {s : State} {p : PortNo} {a : Args} {i j : SlotNo} {c : Circuit} {n : Nat}

/-- An accepted circuit with its reservation, before it joins the credit wait queue. -/
def opening (s : State) (i : SlotNo) (n : Nat) : State :=
  ((s.modCircuit i fun x => { x with timer := none, target := n, state := .opened, retry := 0 }).reserve i n).owe i .grant

/-- The state that ACCEPT leaves, up to its completion. -/
def accepted (s : State) (i : SlotNo) (n : Nat) : State :=
  (s.opening i n).setWaitQueue (if s.available < n then joinTail s.waitQueue i else s.waitQueue)

theorem circuit_opening (h : s.circuit i = some c) : (s.opening i n).circuit i = some (c.accepted n s.available) := by
  rw [opening, circuit_owe, if_pos rfl, circuit_reserve, if_pos rfl, circuit_modCircuit_same, h,
    available_of_keeps (s.keeps_modCircuit i _) (by decide) (by decide)]
  rfl

theorem keeps_opening : Keeps [.slots, .reservedTotal, .lines] s (s.opening i n) :=
  ((s.keeps_modCircuit i _).both (keeps_reserve _ i _) (by decide) (by decide)).both (keeps_owe _ i _)
    (xs := [.slots, .reservedTotal]) (by decide) (by decide)

theorem available_opening_of_short (h : s.available < n) : (s.opening i n).available = 0 := by
  rw [opening, available_of_keeps (keeps_owe _ i _) (by decide) (by decide), available_reserve_of_short]
  rwa [available_of_keeps (s.keeps_modCircuit i _) (by decide) (by decide)]

theorem line_opening (h : s.circuit i = some c) (m : LineNo) : (s.opening i n).line m
    = if m = c.line then { s.line m with tx := { (s.line m).tx with control := joinTail (s.line m).tx.control i } }
      else s.line m := by
  have hd : ((s.modCircuit i fun x => { x with timer := none, target := n, state := .opened, retry := 0 }).reserve i
      n).circuit i = some { c.accepted n s.available with owed := c.owed } := by
    rw [circuit_reserve, if_pos rfl, circuit_modCircuit_same, h,
      available_of_keeps (s.keeps_modCircuit i _) (by decide) (by decide)]
    rfl
  rw [opening, line_owe hd, line_of_keeps (keeps_reserve _ i _) (by decide), line_modCircuit]
  rfl

theorem reservedTotal_opening : (s.opening i n).reservedTotal = s.reservedTotal + min n s.available := by
  rw [opening, (keeps_owe _ i _).at_reservedTotal (by decide), reservedTotal_reserve, modCircuit_reservedTotal,
    available_of_keeps (s.keeps_modCircuit i _) (by decide) (by decide)]

theorem slot_opening_ne (h : j ≠ i) : (s.opening i n).slot j = s.slot j := by
  rw [opening, slot_owe_ne h, slot_reserve_ne h, slot_modCircuit_ne _ h]

theorem generation_opening : ((s.opening i n).slot i).generation = (s.slot i).generation := by simp [opening]

/-- ACCEPT of the port's own OFFERED circuit passes its checks and leaves it OPEN. -/
theorem acceptBody_of_offered (h : s.namesOwn a.a0 p i c) (hs : c.state = .offered) (hn : a.a1.toNat ≤ 15) :
    acceptBody p a s = .ok (s.accepted i a.a1.toNat, {}) := by
  have hw : (s.opening i a.a1.toNat).joinWaitIfShort i = s.accepted i a.a1.toNat := by
    rw [joinWaitIfShort_reserved (circuit_opening h.2.1) rfl rfl available_opening_of_short,
      keeps_opening.at_waitQueue (by decide)]
    rfl
  rw [← hw]
  simp only [acceptBody, handleArg_of_names h, ownedCircuit_of_names h, hn, hs, decide_true, require_true, bind,
    Except.bind]
  rfl

end State

/-- Settles O8: the record opened with its reservation, GRANT owed, and the wait queue joined by a circuit short of its target. -/
theorem acceptOpensTheCircuit : Obligations.AcceptOpensTheCircuit := by
  intro s p i c htaken hnames hstate hn
  have ⟨_, hcirc, _⟩ := hnames
  have hkeeps : Keeps [.slots, .reservedTotal, .waitQueue, .lines] s (s.accepted i (s.port p).args.a1.toNat) :=
    State.keeps_opening.both (State.keeps_setWaitQueue _ _) (by decide) (by decide)
  have hnext : exec .accept s = _ := next_of_ok htaken (State.acceptBody_of_offered hnames hstate hn)
  refine ⟨_, hnext, State.answers_finish (hkeeps.at_ports (by decide)) .ok _, ?_, ?_, ?_, ?_, ?_, fun j hj => ?_,
    fun m hm => ?_, hkeeps.finish p .ok _⟩
  · rw [State.circuit_finish, State.accepted, State.circuit_setWaitQueue, State.circuit_opening hcirc]
    rfl
  · rw [(State.keeps_finish _ p .ok _).at_reservedTotal (by decide), State.accepted, State.setWaitQueue_reservedTotal,
      State.reservedTotal_opening]
  · rfl
  · rw [State.line_finish, State.accepted, State.line_setWaitQueue, State.line_opening hcirc, if_pos rfl]
  · rw [State.slot_finish, State.accepted, State.slot_setWaitQueue, State.generation_opening]
  · rw [State.slot_finish, State.accepted, State.slot_setWaitQueue, State.slot_opening_ne hj]
  · rw [State.line_finish, State.accepted, State.line_setWaitQueue, State.line_opening hcirc, if_neg hm]

end Sys2Proof.Machine

namespace Sys2Proof.Machine

/-! ## A circuit that leaves the directory (R14) -/

/-- Between two states the circuit in slot i has left the directory: its number n on line l is unmapped, the service entry of its origin has one live circuit
fewer, it stands on no queue, and its line's stray reply queue is the one given. What it gave back may have been granted to circuits
that waited for credit (R14, R12, R66, R99). -/
structure LeavesDirectory (i : SlotNo) (l : LineNo) (n : Byte) (x : Origin) (stray : List Reply) (s t : State) : Prop where
  numbers : ∀ m o, t.lookup m o = if m = l ∧ o = n then none else s.lookup m o
  entries : ∀ e, t.entry e = if x = .remoteCall e then (s.entry e).lowered else s.entry e
  waits : i ∉ t.waitQueue
  queues : Queued i l s t False (fun more => leave (s.line l).tx.control i ++ more)
    (leave (s.line l).tx.ring i) stray
  acts : ActsOn i l s t

namespace LeavesDirectory

variable {i : SlotNo} {l : LineNo} {n : Byte} {x : Origin} {stray : List Reply} {s t u : State}

/-- What keeps the index map, the service table, the wait queue and the lines may follow, if it acts on the circuit alone. -/
theorem after (h : LeavesDirectory i l n x stray s t) {xs : List Part} (k : Keeps xs t u) (a : ActsOn i l t u)
    (hx : .index ∉ xs ∧ .services ∉ xs ∧ .waitQueue ∉ xs ∧ .lines ∉ xs) : LeavesDirectory i l n x stray s u where
  numbers m o := by rw [State.lookup_of_keeps k hx.1, h.numbers]
  entries e := by rw [State.entry_of_keeps k hx.2.1, h.entries]
  waits := by rw [k.at_waitQueue hx.2.2.1]; exact h.waits
  queues := h.queues.after a (State.line_of_keeps k hx.2.2.2 _)
  acts := h.acts.trans a

theorem judgeAtn (h : LeavesDirectory i l n x stray s t) : LeavesDirectory i l n x stray s t.judgeAtn :=
  h.after t.keeps_judgeAtn State.actsOn_judgeAtn (by decide)

theorem finish (h : LeavesDirectory i l n x stray s t) (p : PortNo) (code : ResultCode) (w : Results) :
    LeavesDirectory i l n x stray s (t.finish p code w) :=
  h.after (t.keeps_finish p code w) (State.actsOn_finish code w) (by decide)

/-- A reply for the circuit's line may be offered afterwards. -/
theorem offerReply (h : LeavesDirectory i l n x stray s t) (r : Reply) :
    LeavesDirectory i l n x (State.offered stray r) s (t.offerReply l r) where
  numbers := h.numbers
  entries := h.entries
  waits := h.waits
  queues := h.queues.modTx id fun q => State.offered q r
  acts := h.acts.trans (State.actsOn_offerReply r)

/-- What keeps the index map and the service table and changes of the lines only the stray reply queue may come before, if it acts on
the circuit alone. -/
theorem before {xs : List Part} (k : Keeps xs s t) (a : ActsOn i l s t) (hx : .index ∉ xs ∧ .services ∉ xs)
    {y : List Reply}
    (hl : t.line l = { s.line l with tx := { (s.line l).tx with stray := y } })
    (h : LeavesDirectory i l n x stray t u) : LeavesDirectory i l n x stray s u where
  numbers m o := by rw [h.numbers, State.lookup_of_keeps k hx.1]
  entries e := by rw [h.entries, State.entry_of_keeps k hx.2]
  waits := h.waits
  queues := by
    have hq := h.queues
    rw [hl] at hq
    exact hq.before a hl
  acts := a.trans h.acts

end LeavesDirectory

namespace State

variable {s : State} {i : SlotNo} {c : Circuit}

/-- The lines that hold the circuit in slot i: its own alone. -/
theorem line_of_circuit (h : s.circuit i = some c) : ∀ d, s.circuit i = some d → d.line = c.line := fun d hd => by
  rw [h] at hd; cases hd; rfl

theorem leaves_endSteps (h : s.circuit i = some c) :
    LeavesDirectory i c.line c.number c.origin (s.line c.line).tx.stray s (s.endSteps i) where
  numbers := lookup_endSteps h
  entries := entry_endSteps h
  waits := not_mem_waitQueue_endSteps h
  queues := queued_endSteps h
  acts := actsOn_endSteps (line_of_circuit h)

theorem leaves_endRecord (h : s.circuit i = some c) (cause : Byte) (side : Side) (m : Option Confirmation) :
    LeavesDirectory i c.line c.number c.origin (s.line c.line).tx.stray s (s.endRecord i cause side m) :=
  .before (s.keeps_modCircuit i _) (ActsOn.modCircuit _) (by decide) rfl
    (leaves_endSteps (c := { c with state := .ended cause side m }) (by rw [circuit_modCircuit_same, h]; rfl))

theorem leaves_enterEnded (h : s.circuit i = some c) (cause : Byte) (side : Side) (m : Option Confirmation) :
    LeavesDirectory i c.line c.number c.origin (s.line c.line).tx.stray s (s.enterEnded i cause side m) :=
  (leaves_endRecord h cause side m).after (keeps_raise _ i _) (actsOn_raise _) (by decide)

/-- No circuit joins the credit wait queue when buffers return. -/
theorem waitQueue_returnCircuitBuffers {j : SlotNo} (hj : j ∈ (s.returnCircuitBuffers i).waitQueue) : j ∈ s.waitQueue := by
  cases h : s.circuit i with
  | none => simpa only [returnCircuitBuffers, h] using hj
  | some c =>
    simp only [returnCircuitBuffers, h] at hj
    have := waitQueue_serveWait_subset _ j hj
    rwa [(keeps_returnBuffers _ _).at_waitQueue (by decide)] at this

theorem not_mem_waitQueue_directFree (h : s.circuit i = some c) : i ∉ (s.directFree i).waitQueue := by
  rw [directFree, (keeps_freeSlot _ i).at_waitQueue (by decide), (keeps_leaveOwner _ i).at_waitQueue (by decide)]
  exact fun hi => not_mem_waitQueue_endSteps h (waitQueue_returnCircuitBuffers hi)

theorem leaves_directFree (h : s.circuit i = some c) :
    LeavesDirectory i c.line c.number c.origin (s.line c.line).tx.stray s (s.directFree i) where
  numbers := (directFree_spec h).2.2.1
  entries := (directFree_spec h).2.2.2.1
  waits := not_mem_waitQueue_directFree h
  queues := queued_directFree h
  acts := actsOn_directFree (line_of_circuit h)

/-- The end of a CLOSING circuit, owned or orphan (R47, R48, R49). -/
theorem leaves_endClosing (h : s.circuit i = some c) {cause : Byte} (hs : c.state = .closing cause) (m : Confirmation) :
    LeavesDirectory i c.line c.number c.origin (s.line c.line).tx.stray s (s.endClosing i m) := by
  cases ho : c.owner with
  | none => simp only [endClosing, h, hs, ho]; exact leaves_directFree h
  | some p => simp only [endClosing, h, hs, ho]; exact leaves_enterEnded h _ _ _

end State

end Sys2Proof.Machine

namespace Sys2Proof.Machine

/-! ## REFUSE (R37, R15) -/

namespace State

variable {s : State} {p : PortNo} {a : Args} {i : SlotNo} {c : Circuit}

/-- The state that REFUSE leaves, up to its judgement and completion: the reply offered, then the slot returned (R37). -/
def refused (s : State) (i : SlotNo) (c : Circuit) (cause : Byte) : State :=
  (s.offerReply c.line ⟨c.number, .refuse, cause⟩).directFree i

/-- REFUSE of the port's own OFFERED circuit passes its checks. -/
theorem refuseBody_of_offered (h : s.namesOwn a.a0 p i c) (hs : c.state = .offered)
    (hcause : clientCause 1 a.a1 = true) :
    refuseBody p a s = .ok ((s.refused i c (a.a1.setWidth 8)).judgeAtn, {}) := by
  simp only [refuseBody, handleArg_of_names h, ownedCircuit_of_names h, hcause, hs, decide_true, require_true, bind,
    Except.bind]
  rfl

theorem line_offerReply (l : LineNo) (r : Reply) :
    (s.offerReply l r).line l = { s.line l with tx := { (s.line l).tx with stray := offered (s.line l).tx.stray r } } :=
  line_modTx_same _ _ _

theorem leaves_refused (h : s.circuit i = some c) (cause : Byte) :
    LeavesDirectory i c.line c.number c.origin (offered (s.line c.line).tx.stray ⟨c.number, .refuse, cause⟩) s
      (s.refused i c cause) := by
  have hd := leaves_directFree (s := s.offerReply c.line ⟨c.number, .refuse, cause⟩) (c := c) h
  rw [line_offerReply] at hd
  exact .before (s.keeps_offerReply c.line _) (actsOn_offerReply _) (by decide) (line_offerReply _ _) hd

/-- The parts that a direct return to FREE may change, in the order of the statements. -/
theorem keeps_refused (cause : Byte) :
    Keeps [.slots, .freeSlots, .index, .services, .places, .freeQueue, .reservedTotal, .waitQueue, .lines, .ports] s
      (s.refused i c cause) :=
  (s.keeps_offerReply c.line _).both (keeps_directFree _ i) (by decide) (by decide)

end State

/-- Settles O9: the reply offered, the circuit taken out of the directory and its slot returned, then judged and finished. -/
theorem refuseReturnsTheSlot : Obligations.RefuseReturnsTheSlot := by
  intro s p i c htaken hnames hstate hcause
  have ⟨_, hcirc, howner⟩ := hnames
  obtain ⟨cause, hcauseEq⟩ : ∃ x, x = (s.port p).args.a1.setWidth 8 := ⟨_, rfl⟩
  have hnext : exec .refuse s = _ :=
    next_of_ok htaken (State.refuseBody_of_offered hnames hstate ((clientCause_iff 1 _).2 hcause))
  rw [← hcauseEq] at hnext ⊢
  have hleaves := ((State.leaves_refused hcirc cause).judgeAtn).finish p .ok {}
  have hkeeps : Keeps [.ports, .lastServed] (s.refused i c cause) ((s.refused i c cause).judgeAtn.finish p .ok {}) :=
    (State.keeps_judgeAtn _).both (State.keeps_finish _ p .ok {}) (by decide) (by decide)
  obtain ⟨hcircuit, hfreeSlots, -, -, hfreeQueue, hplace, hport⟩ :=
    State.directFree_spec (s := s.offerReply c.line ⟨c.number, .refuse, cause⟩) (i := i) (c := c) hcirc
  refine ⟨_, hnext, State.answersLeaving_finish fun q => ?_, ?_, ?_, hleaves.numbers, hleaves.entries, hleaves.waits,
    hleaves.queues, ?_, fun b => ?_, hleaves.acts, (State.keeps_refused cause).both hkeeps (by decide) (by decide)⟩
  · rw [State.refused, hport, howner]
    by_cases hq : q = p
    · subst hq
      simp [Port.leftBy, State.offerReply]
    · rw [if_neg hq, if_neg fun e => hq (Option.some.inj e).symm]
      rfl
  · rw [State.circuit_of_keeps hkeeps (by decide)]
    exact hcircuit
  · rw [hkeeps.at_freeSlots (by decide)]
    exact hfreeSlots
  · rw [hkeeps.at_freeQueue (by decide)]
    exact hfreeQueue
  · rw [State.place_of_keeps hkeeps (by decide)]
    exact hplace b

end Sys2Proof.Machine

namespace Sys2Proof.Machine

/-! ## A circuit that enters CLOSING (R24) -/

/-- A record that has entered CLOSING with a cause (R24). -/
def Circuit.closed (c : Circuit) (cause : Byte) : Circuit :=
  { c with state := .closing cause, timer := none, retry := 0, reserved := 0, owed := { close := true } }

/-- Between two states the circuit c in slot i has entered CLOSING with a cause: CLOSE alone is owed, it has joined its line's control
queue and left the ring and the credit wait queue. What it gave back may have been granted to circuits that waited for credit (R24, R12,
R66). -/
structure EntersClosing (i : SlotNo) (c : Circuit) (cause : Byte) (s t : State) : Prop where
  record : t.circuit i = some (c.closed cause)
  waits : i ∉ t.waitQueue
  queues : Queued i c.line s t False (fun more => joinTail ((s.line c.line).tx.control ++ more) i)
    (leave (s.line c.line).tx.ring i) (s.line c.line).tx.stray
  acts : ActsOn i c.line s t

/-- What keeps the slots, the wait queue and the lines may follow. -/
theorem EntersClosing.after {i : SlotNo} {c : Circuit} {cause : Byte} {s t u : State} (h : EntersClosing i c cause s t)
    {xs : List Part} (k : Keeps xs t u) (hx : .slots ∉ xs ∧ .lines ∉ xs ∧ .waitQueue ∉ xs) :
    EntersClosing i c cause s u :=
  have acts := ActsOn.of_keeps k i c.line hx.1 hx.2.1 hx.2.2
  { record := by rw [State.circuit_of_keeps k hx.1, h.record]
    waits := by rw [k.at_waitQueue hx.2.2]; exact h.waits
    queues := h.queues.after acts (State.line_of_keeps k hx.2.1 _)
    acts := h.acts.trans acts }

namespace State

variable {s : State} {p : PortNo} {a : Args} {i : SlotNo} {c : Circuit}

theorem entersClosing (h : s.circuit i = some c) (cause : Byte) : EntersClosing i c cause s (s.enterClosing i cause) where
  record := by rw [circuit_enterClosing, h]; rfl
  waits := not_mem_waitQueue_enterClosing h cause
  queues := queued_enterClosing h cause
  acts := actsOn_enterClosing (line_of_circuit h) cause

/-! ## CLOSE (R40, R41, R42) -/

/-- CLOSE with the drain option of an OPEN circuit with data outstanding makes it DRAINING (R41). -/
theorem closeBody_drain (h : s.namesOwn a.a0 p i c) (hmode : a.a1.toNat = 0) (hcause : clientCause 0 a.a2 = true)
    (hs : c.state = .opened) (hdata : ¬ (c.transmit = [] ∧ c.unacked = [])) :
    closeBody p a s = .ok (s.modCircuit i fun x => { x with state := .draining (a.a2.setWidth 8) }, {}) := by
  have h0 : a.a1 = 0 := BitVec.eq_of_toNat_eq hmode
  have hnot : (c.transmit.isEmpty && c.unacked.isEmpty) = false := by
    simpa only [Bool.and_eq_false_iff, List.isEmpty_eq_false_iff, ← not_and_or] using hdata
  simp only [closeBody, handleArg_of_names h, ownedCircuit_of_names h, h0, hcause, hs, hnot, decide_true,
    require_true, bind, Except.bind]
  rfl

/-- CLOSE with the drain option of an OPEN circuit with nothing outstanding, and with the abort option in CALLING, OPEN and DRAINING,
makes the circuit CLOSING (R40, R42). -/
theorem closeBody_close (h : s.namesOwn a.a0 p i c) (hcause : clientCause 0 a.a2 = true)
    (hmode : a.a1.toNat = 0 ∧ c.state = .opened ∧ c.transmit = [] ∧ c.unacked = []
      ∨ a.a1.toNat = 1 ∧ (c.state = .calling ∨ c.state = .opened ∨ ∃ x, c.state = .draining x)) :
    closeBody p a s = .ok (s.enterClosing i (a.a2.setWidth 8), {}) := by
  rcases hmode with ⟨hmode, hs, htransmit, hunacked⟩ | ⟨hmode, hs⟩
  · have h0 : a.a1 = 0 := BitVec.eq_of_toNat_eq hmode
    simp only [closeBody, handleArg_of_names h, ownedCircuit_of_names h, h0, hcause, hs, htransmit, hunacked,
      decide_true, require_true, bind, Except.bind]
    rfl
  · have h1 : a.a1 ≠ 0 := fun e => by rw [e] at hmode; exact absurd hmode (by decide)
    have hlive : (decide (c.state = .calling) || c.state.inData) = true := by
      rcases hs with hs | hs
      · simp [hs]
      · rw [inData_of hs, Bool.or_true]
    simp only [closeBody, handleArg_of_names h, ownedCircuit_of_names h, hmode, hcause, hlive, h1, decide_true,
      require_true, bind, Except.bind, le_refl, if_false]
    rfl

end State

/-- Settles O10: a drain changes the record's state alone; otherwise the circuit enters CLOSING, and the command is finished. -/
theorem closeDrainsOrCloses : Obligations.CloseDrainsOrCloses := by
  intro s p i c htaken hnames hcause
  have ⟨_, hcirc, _⟩ := hnames
  have hclient := (clientCause_iff 0 _).2 hcause
  constructor
  · rintro ⟨hmode, hstate, hdata⟩
    have hnext : exec .close s = _ := next_of_ok htaken (State.closeBody_drain hnames hmode hclient hstate hdata)
    refine ⟨_, hnext, State.answers_finish rfl .ok _, ?_, ?_, fun j hj => ?_, (s.keeps_modCircuit i _).finish p .ok _⟩
    · rw [State.circuit_finish, State.circuit_modCircuit_same, hcirc]
      rfl
    · rw [State.slot_finish, State.generation_modCircuit]
    · rw [State.slot_finish, State.slot_modCircuit_ne _ hj]
  · intro hmode
    have hnext : exec .close s = _ := next_of_ok htaken (State.closeBody_close hnames hclient hmode)
    have hkeeps := s.keeps_enterClosing i ((s.port p).args.a2.setWidth 8)
    have hcloses := (State.entersClosing hcirc ((s.port p).args.a2.setWidth 8)).after
      (State.keeps_finish _ p .ok {}) (by decide)
    exact ⟨_, hnext, State.answers_finish (hkeeps.at_ports (by decide)) .ok _, hcloses.record, hcloses.waits,
      hcloses.queues, hcloses.acts, hkeeps.both (State.keeps_finish _ p .ok {}) (by decide) (by decide)⟩

end Sys2Proof.Machine

namespace Sys2Proof.Machine

/-! ## States by name -/

theorem name_eq_draining {x : CircuitState} (h : x.name = .draining) : ∃ cause, x = .draining cause := by
  cases x with
  | draining cause => exact ⟨cause, rfl⟩
  | _ => cases h

theorem name_eq_closing {x : CircuitState} (h : x.name = .closing) : ∃ cause, x = .closing cause := by
  cases x with
  | closing cause => exact ⟨cause, rfl⟩
  | _ => cases h

theorem inData_of_stage {c : Circuit} (h : c.state = .opened ∨ c.state.name = .draining) : c.state.inData = true :=
  inData_of (h.imp_right name_eq_draining)

/-! ## Expiries (R11, R23) -/

namespace State

variable {s : State} {i j : SlotNo} {c : Circuit} {purpose : Purpose} {k : OwedKind}

/-- An expiry of the timer that runs stops it, and the rule of its purpose acts (R11). -/
theorem expire_of_timer (hrun : s.phase = .running) (h : s.circuit i = some c)
    (ht : ∃ left, c.timer = some ⟨purpose, left⟩) (rule : Circuit → State → State) :
    s.expire i purpose rule = .next (rule c (s.stopTimer i)) := by
  obtain ⟨left, ht⟩ := ht
  simp [expire, hrun, h, Circuit.waits, ht]

/-- The timer stopped and one retry more: what every repeat does first (R23). -/
def retried (s : State) (i : SlotNo) : State := (s.stopTimer i).modCircuit i fun x => { x with retry := x.retry + 1 }

/-- A retry of a kind of frame: it is owed again, and STALL-WAIT alone starts again at once (R30, R49, R67, R70). -/
def repeated (s : State) (i : SlotNo) (purpose : Purpose) (k : OwedKind) : State :=
  if purpose = .stallWait then ((s.retried i).owe i k).startTimer i .stallWait else (s.retried i).owe i k

theorem retryOr_below (h : c.retry < (s.line c.line).config.retryLimit) (retry giveUp : State → State) :
    (s.stopTimer i).retryOr i c retry giveUp = retry (s.retried i) := if_pos h

theorem retryOr_limit (h : (s.line c.line).config.retryLimit ≤ c.retry) (retry giveUp : State → State) :
    (s.stopTimer i).retryOr i c retry giveUp = giveUp (s.stopTimer i) := if_neg (Nat.not_lt.2 h)

theorem circuit_retried (h : s.circuit i = some c) :
    (s.retried i).circuit i = some { c with timer := none, retry := c.retry + 1 } := by
  rw [retried, circuit_modCircuit_same, circuit_stopTimer, if_pos rfl, h]
  rfl

/-- The line settings that a repeat's timer takes its duration from are those before it. -/
theorem config_owe_retried (m : LineNo) : (((s.retried i).owe i k).line m).config = (s.line m).config := by
  obtain ⟨control, ring, hline⟩ := queuesOnly_owe (s := s.retried i) (i := i) k m
  rw [hline]
  rfl

theorem circuit_repeated (h : s.circuit i = some c) : (s.repeated i purpose k).circuit i = some
    { c with
      retry := c.retry + 1
      owed := c.owed.put k true
      timer := if purpose = .stallWait then some ⟨.stallWait, (s.line c.line).config.retransmit⟩ else none } := by
  have howe : ((s.retried i).owe i k).circuit i
      = some { c with timer := none, retry := c.retry + 1, owed := c.owed.put k true } := by
    rw [circuit_owe, if_pos rfl, circuit_retried h]
    rfl
  unfold repeated
  split
  · rw [circuit_startTimer, if_pos rfl, howe, Option.map_some, config_owe_retried]
    rfl
  · exact howe

theorem line_repeated (h : s.circuit i = some c) (m : LineNo) : (s.repeated i purpose k).line m
    = if m = c.line then { s.line m with tx := { (s.line m).tx with control := joinTail (s.line m).tx.control i } }
      else s.line m := by
  have howe := line_owe (circuit_retried h) k m
  unfold repeated
  split
  · rw [line_of_keeps (keeps_startTimer _ i _) (by decide), howe]
    rfl
  · rw [howe]
    rfl

theorem slot_repeated_ne (h : j ≠ i) : (s.repeated i purpose k).slot j = s.slot j := by
  have howe : ((s.retried i).owe i k).slot j = s.slot j := by
    rw [slot_owe_ne h, retried, slot_modCircuit_ne _ h, stopTimer, slot_modCircuit_ne _ h]
  unfold repeated
  split
  · rw [startTimer, slot_modCircuit_ne _ h, howe]
  · exact howe

theorem generation_repeated : ((s.repeated i purpose k).slot i).generation = (s.slot i).generation := by
  unfold repeated
  split <;> simp [startTimer, retried, stopTimer]

theorem keeps_repeated : Keeps [.slots, .lines] s (s.repeated i purpose k) := by
  have howe : Keeps [.slots, .lines] s ((s.retried i).owe i k) :=
    ((s.keeps_stopTimer i).trans (keeps_modCircuit _ i _)).both (keeps_owe _ i k) (by decide) (by decide)
  unfold repeated
  split
  · exact howe.both (keeps_startTimer _ i _) (by decide) (by decide)
  · exact howe

end State

/-- Settles O46: each of the four expiries repeats its frame, whose effect is that of one retry and one kind owed. -/
theorem expiriesRepeatTheFrame : Obligations.ExpiriesRepeatTheFrame := by
  intro s i c x purpose k hrun hcirc htimer hretry hx
  suffices hnext : exec x s = .next (s.repeated i purpose k) from
    ⟨_, hnext, State.circuit_repeated hcirc, by rw [State.line_repeated hcirc, if_pos rfl], State.generation_repeated,
      fun j hj => State.slot_repeated_ne hj, fun m hm => by rw [State.line_repeated hcirc, if_neg hm],
      State.keeps_repeated⟩
  obtain ⟨rfl, rfl, rfl, hs⟩ | ⟨rfl, rfl, rfl, hs⟩ | ⟨rfl, rfl, rfl, hs⟩ | ⟨rfl, rfl, rfl, hs⟩ := hx
  · refine (State.expire_of_timer hrun hcirc htimer _).trans (congrArg _ ?_)
    rw [if_pos hs, State.retryOr_below hretry]
    rfl
  · refine (State.expire_of_timer hrun hcirc htimer _).trans (congrArg _ ?_)
    rw [if_pos (inData_of_stage hs), State.retryOr_below hretry]
    rfl
  · refine (State.expire_of_timer hrun hcirc htimer _).trans (congrArg _ ?_)
    rw [if_pos (inData_of_stage hs), State.retryOr_below hretry]
    rfl
  · refine (State.expire_of_timer hrun hcirc htimer _).trans (congrArg _ ?_)
    rw [if_pos hs, State.retryOr_below hretry]
    rfl

end Sys2Proof.Machine

namespace Sys2Proof.Machine

/-! ## Circuits that end, judged (R14, R15, R172) -/

/-- A record that has ended, with ENDED pending (R14). -/
def Circuit.endedWith (c : Circuit) (cause : Byte) (side : Side) (m : Option Confirmation) : Circuit :=
  { c with
    state := .ended cause side m, reserved := 0, timer := none, owed := {}
    conditions := c.conditions.union { ended := true } }

/-- Between two states the close of the CLOSING circuit c in slot i has come to its end: an owned circuit is ENDED with the cause it
held, and an orphan's slot is FREE with its buffers returned (R47, R48, R49). -/
structure CloseEnds (i : SlotNo) (c : Circuit) (cause : Byte) (m : Confirmation) (s t : State) : Prop where
  owned : ∀ p, c.owner = some p → t.circuit i = some (c.endedWith cause .localEnd (some m)) ∧ s.attends t i c
    ∧ t.freeSlots = s.freeSlots ∧ t.freeQueue = s.freeQueue ∧ ∀ b, t.place b = s.place b
  orphan : c.owner = none → t.circuit i = none ∧ s.judged t ∧ t.freeSlots = s.freeSlots ++ [i]
    ∧ t.freeQueue = s.freeQueue ++ c.buffers ∧ ∀ b, t.place b = if b ∈ c.buffers then .free else s.place b

namespace State

variable {s r u : State} {i : SlotNo} {c : Circuit} {p : PortNo} {x : Option Timer} {cause : Byte}

/-- An owned circuit, whatever its timer, ends and its owner attends: what comes before may change records and lines, what follows lines
alone. -/
theorem ended_judgeAtn (hr : r.circuit i = some { c with timer := x }) (ho : c.owner = some p)
    (k : Keeps [.slots, .lines] s r) {side : Side} {m : Option Confirmation}
    (k' : Keeps [.lines] (r.enterEnded i cause side m) u) :
    u.judgeAtn.circuit i = some (c.endedWith cause side m) ∧ s.attends u.judgeAtn i c := by
  constructor
  · rw [circuit_judgeAtn, circuit_of_keeps k' (by decide), circuit_enterEnded hr p ho]
    rfl
  · exact attends_judgeAtn fun q => by
      rw [port_of_keeps k' (by decide), port_enterEnded hr ho, port_of_keeps k (by decide)]

theorem endClosing_owned (h : r.circuit i = some c) (hs : c.state = .closing cause) (ho : c.owner = some p)
    (m : Confirmation) : r.endClosing i m = r.enterEnded i cause .localEnd (some m) := by
  simp only [endClosing, h, hs, ho]

theorem endClosing_orphan (h : r.circuit i = some c) (hs : c.state = .closing cause) (ho : c.owner = none)
    (m : Confirmation) : r.endClosing i m = r.directFree i := by
  simp only [endClosing, h, hs, ho]

/-- The end of a close, judged: what comes before may change records and lines, what follows lines alone. -/
theorem closeEnds_judgeAtn (hr : r.circuit i = some { c with timer := x }) (hs : c.state = .closing cause)
    (k : Keeps [.slots, .lines] s r) {m : Confirmation} (k' : Keeps [.lines] (r.endClosing i m) u) :
    CloseEnds i c cause m s u.judgeAtn where
  owned p ho := by
    rw [endClosing_owned hr hs ho] at k'
    obtain ⟨hcirc, hattends⟩ := ended_judgeAtn hr ho k k'
    have kall : Keeps [.slots, .lines, .reservedTotal, .waitQueue, .index, .services, .ports] s u.judgeAtn :=
      (k.both (r.keeps_enterEnded i _ _ _) (by decide) (List.Subset.refl _)).both
        (k'.both u.keeps_judgeAtn (zs := [.lines, .ports]) (by decide) (by decide)) (List.Subset.refl _) (by decide)
    exact ⟨hcirc, hattends, kall.at_freeSlots (by decide), kall.at_freeQueue (by decide),
      fun b => place_of_keeps kall (by decide) b⟩
  orphan ho := by
    rw [endClosing_orphan hr hs ho] at k'
    obtain ⟨hcirc, hfreeSlots, -, -, hfreeQueue, hplace, hport⟩ := directFree_spec hr
    have k'' : Keeps [.lines, .ports] (r.directFree i) u.judgeAtn := k'.both u.keeps_judgeAtn (by decide) (by decide)
    refine ⟨by rw [circuit_of_keeps k'' (by decide), hcirc], fun q => ?_, ?_, ?_, fun b => ?_⟩
    · rw [port_judgeAtn, atnLevel_judgeAtn, port_of_keeps k' (by decide), hport, ho, if_neg (by simp),
        port_of_keeps k (by decide)]
    · rw [k''.at_freeSlots (by decide), hfreeSlots, k.at_freeSlots (by decide)]
    · rw [k''.at_freeQueue (by decide), hfreeQueue, k.at_freeQueue (by decide)]
      rfl
    · rw [place_of_keeps k'' (by decide), hplace, place_of_keeps k (by decide)]
      rfl

/-! ## Giving up (R23, R49) -/

theorem circuit_stopTimer_same (h : s.circuit i = some c) : (s.stopTimer i).circuit i = some { c with timer := none } := by
  rw [circuit_stopTimer, if_pos rfl, h]
  rfl

/-- A circuit whose timer has expired enters CLOSING: the stopped timer shows nowhere. -/
theorem entersClosing_stopTimer (h : s.circuit i = some c) (cause : Byte) :
    EntersClosing i c cause s ((s.stopTimer i).enterClosing i cause) :=
  have closes := entersClosing (circuit_stopTimer_same h) cause
  have stops : ActsOn i c.line s (s.stopTimer i) := ActsOn.modCircuit _
  { record := closes.record
    waits := closes.waits
    queues := closes.queues.before stops (line_of_keeps (s.keeps_stopTimer i) (by decide) _)
    acts := stops.trans closes.acts }

/-- A circuit that leaves the directory when its timer has expired leaves it as before that expiry. -/
theorem leaves_stopTimer {l : LineNo} {n : Byte} {o : Origin} {stray : List Reply} {t : State}
    (h : LeavesDirectory i l n o stray (s.stopTimer i) t) : LeavesDirectory i l n o stray s t :=
  .before (s.keeps_stopTimer i) (ActsOn.modCircuit _) (by decide) (line_of_keeps (s.keeps_stopTimer i) (by decide) _) h

end State

/-- Settles O47: three expiries make the circuit enter CLOSING, and that of CLOSE-WAIT ends its close UNCONFIRMED. -/
theorem expiriesGiveUpAtTheLimit : Obligations.ExpiriesGiveUpAtTheLimit := by
  intro s i c hrun hcirc hlimit
  refine ⟨fun x purpose htimer hx => ?_, fun cause left htimer hs => ?_⟩
  · suffices hnext : exec x s = .next ((s.stopTimer i).enterClosing i Config.causeNoResponse) by
      have closes := State.entersClosing_stopTimer hcirc Config.causeNoResponse
      exact ⟨_, hnext, closes.record, closes.waits, closes.queues, closes.acts,
        (s.keeps_stopTimer i).both (State.keeps_enterClosing _ i _) (by decide) (by decide)⟩
    obtain ⟨rfl, rfl, hs⟩ | ⟨rfl, rfl, hs⟩ | ⟨rfl, rfl, hs⟩ := hx
    · refine (State.expire_of_timer hrun hcirc htimer _).trans (congrArg _ ?_)
      rw [if_pos hs, State.retryOr_limit hlimit]
    · refine (State.expire_of_timer hrun hcirc htimer _).trans (congrArg _ ?_)
      rw [if_pos (inData_of_stage hs), State.retryOr_limit hlimit]
    · refine (State.expire_of_timer hrun hcirc htimer _).trans (congrArg _ ?_)
      rw [if_pos (inData_of_stage hs), State.retryOr_limit hlimit]
  · have hname : c.state.name = .closing := by rw [hs]; rfl
    have hnext : exec (.closeWaitExpiry i) s = .next ((s.stopTimer i).endClosing i .unconfirmed).judgeAtn := by
      refine (State.expire_of_timer hrun hcirc ⟨left, htimer⟩ _).trans (congrArg _ ?_)
      rw [if_pos hname, State.retryOr_limit hlimit]
    have hstopped := State.circuit_stopTimer_same hcirc
    have leaves := (State.leaves_stopTimer (State.leaves_endClosing hstopped hs .unconfirmed)).judgeAtn
    have ends := State.closeEnds_judgeAtn hstopped hs ((s.keeps_stopTimer i).mono (by decide))
      (Keeps.refl [.lines] ((s.stopTimer i).endClosing i .unconfirmed))
    exact ⟨_, hnext, leaves.numbers, leaves.entries, ends.owned, ends.orphan, leaves.waits, leaves.queues, leaves.acts,
      ((s.keeps_stopTimer i).both (State.keeps_endClosing _ i _) (by decide) (List.Subset.refl _)).both
        (State.keeps_judgeAtn _) (by decide) (by decide)⟩

/-! ## OFFER-WAIT and holdoff expiries (R38, R177) -/

/-- Settles O48: the offer ends and its reply is offered; a holdoff timer that expires asserts ATN when the list is not empty. -/
theorem offerAndHoldoffExpiries : Obligations.OfferAndHoldoffExpiries := by
  constructor
  · intro s i c p left hrun hcirc htimer hs howner
    have hstopped := State.circuit_stopTimer_same hcirc
    have hnext : exec (.offerWaitExpiry i) s = .next ((((s.stopTimer i).enterEnded i Config.causeNoAnswer .localEnd
        none).offerReply c.line ⟨c.number, .refuse, Config.causeNoAnswer⟩).judgeAtn) := by
      refine (State.expire_of_timer hrun hcirc ⟨left, htimer⟩ _).trans (congrArg _ ?_)
      rw [if_pos hs]
    have leaves := (State.leaves_stopTimer (State.leaves_enterEnded hstopped Config.causeNoAnswer .localEnd
      none)).offerReply ⟨c.number, .refuse, Config.causeNoAnswer⟩ |>.judgeAtn
    obtain ⟨hcircuit, hattends⟩ := State.ended_judgeAtn hstopped howner ((s.keeps_stopTimer i).mono (by decide))
      (State.keeps_offerReply _ c.line ⟨c.number, .refuse, Config.causeNoAnswer⟩)
    exact ⟨_, hnext, hcircuit, leaves.numbers, leaves.entries, leaves.waits, leaves.queues, hattends, leaves.acts,
      ((s.keeps_stopTimer i).both (State.keeps_enterEnded _ i _ _ _) (by decide) (List.Subset.refl _)).both
        ((State.keeps_offerReply _ _ _).both (State.keeps_judgeAtn _) (zs := [.lines, .ports]) (by decide) (by decide))
        (by decide) (by decide)⟩
  · intro s p left hrun hholdoff
    have hnext : exec (.holdoffExpiry p) s = .next (s.modPort p fun r => { r with holdoff := .expired }).judgeAtn := by
      show execHoldoffExpiry p s = _
      simp only [execHoldoffExpiry, hrun, hholdoff, if_true]
    refine ⟨_, hnext, ?_, fun q hq => ?_, fun hlist => ?_, (s.keeps_modPort p _).trans (State.keeps_judgeAtn _)⟩
    · rw [State.port_judgeAtn, State.atnLevel_judgeAtn, State.port_modPort_same]
    · rw [State.port_judgeAtn, State.atnLevel_judgeAtn, State.port_modPort_ne _ hq]
    · rw [State.port_judgeAtn]
      simp [State.atnLevel, hlist]

end Sys2Proof.Machine

namespace Sys2Proof.Machine

/-! ## Frames at a circuit: how they are heard -/

namespace State

variable {s r u : State} {l : LineNo} {n a b : Byte} {i : SlotNo} {c : Circuit} {p : PortNo}

/-- The state in which a frame that a line's receiver has heard acts: its closing flag opens the next frame. -/
abbrev heard (s : State) (l : LineNo) : State := s.setReceiver l (.frame [])

/-! The eight frame rows, heard and handed to the directory (R132). -/

section

variable (h : s.hears l)

include h

theorem exec_openFrame (hf : frameValid ⟨n, .openCall, a, b, []⟩ = true) :
    exec (.openFrame l n a b) s = .next ((s.heard l).openArrives l n a b).judgeAtn := exec_of_hears h rfl hf

theorem exec_grantFrame (hf : frameValid ⟨n, .grant, a, b, []⟩ = true) :
    exec (.grantFrame l n a b) s = .next ((s.heard l).grantArrives l n a).judgeAtn := exec_of_hears h rfl hf

theorem exec_refuseFrame (hf : frameValid ⟨n, .refuse, a, b, []⟩ = true) :
    exec (.refuseFrame l n a b) s = .next ((s.heard l).refuseArrives l n a).judgeAtn := exec_of_hears h rfl hf

theorem exec_carryFrame {payload : List Byte} (hf : frameValid ⟨n, .carry, a, b, payload⟩ = true) :
    exec (.carryFrame l n a b payload) s = (s.heard l).carryArrives l n a b payload := exec_of_hears h rfl hf

theorem exec_creditFrame (hf : frameValid ⟨n, .credit, a, b, []⟩ = true) :
    exec (.creditFrame l n a b) s = .next ((s.heard l).creditArrives l n a b).judgeAtn := exec_of_hears h rfl hf

theorem exec_askFrame (hf : frameValid ⟨n, .ask, a, b, []⟩ = true) :
    exec (.askFrame l n a b) s = .next ((s.heard l).askArrives l n).judgeAtn := exec_of_hears h rfl hf

theorem exec_closeFrame (hf : frameValid ⟨n, .close, a, b, []⟩ = true) :
    exec (.closeFrame l n a b) s = .next ((s.heard l).closeArrives l n a).judgeAtn := exec_of_hears h rfl hf

theorem exec_closedFrame (hf : frameValid ⟨n, .closed, a, b, []⟩ = true) :
    exec (.closedFrame l n a b) s = .next ((s.heard l).closedArrives l n).judgeAtn := exec_of_hears h rfl hf

end

theorem keeps_heard (s : State) (l : LineNo) : Keeps [.lines] s (s.heard l) := s.keeps_setReceiver l _

/-- The queues of the line's transmitter are those before the frame was heard. -/
theorem tx_heard (s : State) (l : LineNo) : ((s.heard l).line l).tx = (s.line l).tx := by rw [line_setReceiver_same]

/-! ## The far end ends a circuit (R29, R45) -/

theorem refuseArrives_calling (h : s.mappedAt l n i c) (hs : c.state = .calling) :
    s.refuseArrives l n a = s.enterEnded i a .remoteEnd none := by
  simp only [refuseArrives, arrivalAt_of_mapped h, hs]

theorem closeArrives_live (h : s.mappedAt l n i c)
    (hs : c.state = .calling ∨ c.state = .offered ∨ c.state = .opened ∨ c.state.name = .draining) :
    s.closeArrives l n a = (s.enterEnded i a .remoteEnd none).offerReply l ⟨n, .closed, 0⟩ := by
  obtain hs | hs | hs | hs := hs
  · simp only [closeArrives, arrivalAt_of_mapped h, hs]
  · simp only [closeArrives, arrivalAt_of_mapped h, hs]
  · simp only [closeArrives, arrivalAt_of_mapped h, hs]
  · obtain ⟨cause, hs⟩ := name_eq_draining hs
    simp only [closeArrives, arrivalAt_of_mapped h, hs]

/-- A circuit leaves the directory when a frame has been heard: the receiver shows in no queue of its line. -/
theorem queued_heard {o : Origin} {stray : List Reply} {t : State} (h : LeavesDirectory i l n o stray (s.heard l) t) :
    Queued i l (s.heard l) t False (fun more => leave (s.line l).tx.control i ++ more) (leave (s.line l).tx.ring i)
      stray := by
  have hq := h.queues
  rwa [tx_heard] at hq

theorem leaves_enterEnded_heard (h : s.circuit i = some c) (cause : Byte) (side : Side) (m : Option Confirmation) :
    LeavesDirectory i c.line c.number c.origin (s.line c.line).tx.stray (s.heard c.line)
      ((s.heard c.line).enterEnded i cause side m) := by
  have hl := leaves_enterEnded (s := s.heard c.line) h cause side m
  rwa [tx_heard] at hl

theorem leaves_endClosing_heard (h : s.circuit i = some c) {cause : Byte} (hs : c.state = .closing cause)
    (m : Confirmation) :
    LeavesDirectory i c.line c.number c.origin (s.line c.line).tx.stray (s.heard c.line)
      ((s.heard c.line).endClosing i m) := by
  have hl := leaves_endClosing (s := s.heard c.line) h hs m
  rwa [tx_heard] at hl

end State

/-- Settles O37: the circuit ends with the frame's cause; for CLOSE a CLOSED reply is offered too. -/
theorem farEndEndsTheCircuit : Obligations.FarEndEndsTheCircuit := by
  intro s l n a i c p x replies hhears h1 h2 hmapped hl hn howner hx
  subst hl hn
  have ⟨_, hcirc⟩ := hmapped
  have hends := State.leaves_enterEnded_heard hcirc a .remoteEnd none
  suffices h : ∃ u, exec x s = .next u.judgeAtn ∧ Keeps [.lines] ((s.heard c.line).enterEnded i a .remoteEnd none) u
      ∧ LeavesDirectory i c.line c.number c.origin replies (s.heard c.line) u by
    obtain ⟨u, hnext, hkeeps, hleaves⟩ := h
    have leaves := hleaves.judgeAtn
    obtain ⟨hcircuit, hattends⟩ := State.ended_judgeAtn (s := s) (r := s.heard c.line) hcirc howner
      ((s.keeps_heard c.line).mono (by decide)) hkeeps
    exact ⟨_, hnext, hcircuit, leaves.numbers, leaves.entries, leaves.waits, State.queued_heard leaves, hattends,
      leaves.acts, ((s.keeps_heard c.line).both (State.keeps_enterEnded _ i _ _ _) (by decide) (by decide)).trans
        (hkeeps.both u.keeps_judgeAtn (by decide) (by decide))⟩
  obtain ⟨rfl, hs, rfl⟩ | ⟨rfl, hs, rfl⟩ := hx
  · refine ⟨_, ?_, .refl _ _, hends⟩
    rw [State.exec_refuseFrame hhears (State.frameValid_of h1 h2 rfl),
      State.refuseArrives_calling (State.mappedAt_setReceiver _ hmapped) hs]
  · refine ⟨_, ?_, State.keeps_offerReply _ c.line _, hends.offerReply _⟩
    rw [State.exec_closeFrame hhears (State.frameValid_of h1 h2 rfl),
      State.closeArrives_live (State.mappedAt_setReceiver _ hmapped) hs]

end Sys2Proof.Machine

namespace Sys2Proof.Machine

/-! ## A close is confirmed (R47, R48) -/

namespace State

variable {s : State} {l : LineNo} {n a b cause : Byte} {i : SlotNo} {c : Circuit}

theorem closedArrives_closing (h : s.mappedAt l n i c) (hs : c.state = .closing cause) :
    s.closedArrives l n = s.endClosing i .confirmed := by
  simp only [closedArrives, arrivalAt_of_mapped h, hs]

theorem closeArrives_closing (h : s.mappedAt l n i c) (hs : c.state = .closing cause) :
    s.closeArrives l n a = (s.endClosing i .confirmed).offerReply l ⟨n, .closed, 0⟩ := by
  simp only [closeArrives, arrivalAt_of_mapped h, hs]

end State

/-- Settles O38: the close ends CONFIRMED; for CLOSE a CLOSED reply is offered too. -/
theorem closeIsConfirmed : Obligations.CloseIsConfirmed := by
  intro s l n a cause i c x replies hhears h1 h2 hmapped hl hn hs hx
  subst hl hn
  have ⟨_, hcirc⟩ := hmapped
  have hheard := State.mappedAt_setReceiver (.frame []) hmapped
  have hends := State.leaves_endClosing_heard hcirc hs .confirmed
  suffices h : ∃ u, exec x s = .next u.judgeAtn ∧ Keeps [.lines] ((s.heard c.line).endClosing i .confirmed) u
      ∧ LeavesDirectory i c.line c.number c.origin replies (s.heard c.line) u by
    obtain ⟨u, hnext, hkeeps, hleaves⟩ := h
    have leaves := hleaves.judgeAtn
    have ends := State.closeEnds_judgeAtn (s := s) (r := s.heard c.line) hcirc hs
      ((s.keeps_heard c.line).mono (by decide)) hkeeps
    exact ⟨_, hnext, leaves.numbers, leaves.entries, leaves.waits, State.queued_heard leaves, ends.owned, ends.orphan,
      leaves.acts, ((s.keeps_heard c.line).both (State.keeps_endClosing _ i _) (by decide) (List.Subset.refl _)).both
        (hkeeps.both u.keeps_judgeAtn (zs := [.lines, .ports]) (by decide) (by decide)) (by decide) (by decide)⟩
  obtain ⟨rfl, rfl⟩ | ⟨rfl, rfl⟩ := hx
  · refine ⟨_, ?_, .refl _ _, hends⟩
    rw [State.exec_closedFrame hhears (State.frameValid_of h1 h2 rfl), State.closedArrives_closing hheard hs]
  · refine ⟨_, ?_, State.keeps_offerReply _ c.line _, hends.offerReply _⟩
    rw [State.exec_closeFrame hhears (State.frameValid_of h1 h2 rfl), State.closeArrives_closing hheard hs]

/-! ## Violations (R44, R58, R61) -/

theorem distance_eq_zero {x y : Seq} : distance x y = 0 ↔ x = y := by
  constructor
  · intro h
    simp only [distance, BitVec.toNat_sub] at h
    exact BitVec.eq_of_toNat_eq (by omega)
  · rintro rfl
    simp [distance]

namespace State

variable {s : State} {l : LineNo} {n a b : Byte} {i : SlotNo} {c : Circuit}

/-- The next sequence number with no reservation held is a violation. -/
theorem carryClass_unreserved {x : Seq} (h : x = c.nextExpected) (hr : c.reserved = 0) : carryClass c x = .violation := by
  simp [carryClass, distance_eq_zero.2 h.symm, hr]

/-- A sequence number more than 16 behind and beyond the credit given is a violation. -/
theorem carryClass_beyond {x : Seq} (hback : 16 < distance x c.nextExpected)
    (hd : c.reserved ≤ distance c.nextExpected x) : carryClass c x = .violation := by
  have hne : distance c.nextExpected x ≠ 0 := fun h => by
    rw [distance_eq_zero.2 (distance_eq_zero.1 h).symm] at hback
    omega
  simp only [carryClass, hne, if_false]
  rw [if_neg (by omega), if_neg (by omega)]

theorem carryArrives_violation {payload : List Byte} (h : s.mappedAt l n i c) (hs : c.state.inData = true)
    (hx : carryClass c (a.setWidth 5) = .violation) :
    s.carryArrives l n a b payload = .next (s.enterClosing i Config.causeProtocol).judgeAtn := by
  simp only [carryArrives, arrivalAt_of_mapped h, hs, hx, if_true, violate]

theorem creditArrives_violation (h : s.mappedAt l n i c) (hs : c.state.inData = true)
    (hback : ¬ (1 ≤ distance (a.setWidth 5) c.ackBase ∧ distance (a.setWidth 5) c.ackBase ≤ 16))
    (hcount : c.unacked.length < distance c.ackBase (a.setWidth 5)) :
    s.creditArrives l n a b = s.enterClosing i Config.causeProtocol := by
  simp only [creditArrives, arrivalAt_of_mapped h, hs, hback, hcount, if_true, if_false, violate]

end State

/-- Settles O41: both frames are violations by their tests, and a violation does nothing but make the circuit enter CLOSING. -/
theorem violationsCloseTheCircuit : Obligations.ViolationsCloseTheCircuit := by
  intro s l n a b payload i c x hhears h1 h2 ha hmapped hl hs hx
  subst hl
  have ⟨_, hcirc⟩ := hmapped
  have hheard := State.mappedAt_setReceiver (.frame []) hmapped
  have hdata := inData_of_stage hs
  suffices hnext : exec x s = .next ((s.heard c.line).enterClosing i Config.causeProtocol).judgeAtn by
    have closes := (State.entersClosing (s := s.heard c.line) hcirc Config.causeProtocol).after (State.keeps_judgeAtn _)
      (by decide)
    have queues := closes.queues
    rw [State.tx_heard] at queues
    have kept := State.keeps_enterClosing (s.heard c.line) i Config.causeProtocol
    refine ⟨_, hnext, closes.record, closes.waits, queues, State.judged_judgeAtn ?_, closes.acts,
      ((s.keeps_heard c.line).both kept (by decide) (List.Subset.refl _)).both (State.keeps_judgeAtn _) (by decide)
        (by decide)⟩
    exact kept.at_ports (by decide)
  obtain ⟨rfl, hb, hlo, hhi, hout⟩ | ⟨rfl, hb, hback, hcount⟩ := hx
  · have hclass : State.carryClass c (a.setWidth 5) = .violation := by
      obtain ⟨hnext, hr⟩ | ⟨hbehind, hbeyond⟩ := hout
      · refine State.carryClass_unreserved (BitVec.eq_of_toNat_eq ?_) hr
        rw [BitVec.toNat_setWidth]
        omega
      · exact State.carryClass_beyond hbehind hbeyond
    have hf : frameValid ⟨n, .carry, a, b, payload⟩ = true := State.frameValid_of h1 h2 (by
      simp [fieldsAllowed, hlo, hhi, BitVec.le_def]; omega)
    rw [State.exec_carryFrame hhears hf, State.carryArrives_violation hheard hdata hclass]
  · have hf : frameValid ⟨n, .credit, a, b, []⟩ = true := State.frameValid_of h1 h2 (by
      simp [fieldsAllowed, BitVec.le_def]; omega)
    rw [State.exec_creditFrame hhears hf, State.creditArrives_violation hheard hdata hback hcount]

end Sys2Proof.Machine

namespace Sys2Proof.Machine

/-! ## Frames without use, and stray frames (R50, R133) -/

/-- A kind of frame has no use at a circuit on a line of this role (the table of R50; R31, R39). -/
def Circuit.noUse (c : Circuit) (role : Role) : FrameKind → Prop
  | .openCall => c.state = .calling ∧ role = .originRole ∨ c.state = .offered ∨ c.state.inData = true ∧ c.origin = .localCall
      ∨ c.state.name = .closing
  | .grant | .refuse => c.state ≠ .calling
  | .carry | .credit | .ask => c.state.inData = false
  | .closed => c.state.name ≠ .closing
  | .close => False

/-- The data phase is neither CALLING nor CLOSING. -/
theorem ne_of_inData {x : CircuitState} (h : x.inData = true) : x ≠ .calling ∧ x.name ≠ .closing := by
  cases x <;> simp_all [CircuitState.inData, CircuitState.name]

namespace State

variable {s : State} {l : LineNo} {n : Byte} {i : SlotNo} {c : Circuit} {f : Frame}

theorem openArrives_noUse {a b : Byte} (h : s.mappedAt l n i c) (hu : c.noUse (s.line l).config.role .openCall) :
    s.openArrives l n a b = s := by
  simp only [openArrives, arrivalAt_of_mapped h]
  obtain ⟨hs, hrole⟩ | hs | ⟨hs, ho⟩ | hs := hu
  · simp [hs, hrole]
  · simp [hs]
  · simp only [ho]
    split
    · rename_i hcalling
      simp [hcalling, CircuitState.inData] at hs
    · contradiction
    · contradiction
    · rfl
  · obtain ⟨cause, hs⟩ := name_eq_closing hs
    simp [hs]

/-- A frame without use does nothing but have the ATN outputs judged. -/
theorem frameArrives_noUse (h : s.mappedAt l f.number i c) (hu : c.noUse (s.line l).config.role f.kind) :
    s.frameArrives l f = .next s.judgeAtn := by
  have hat := arrivalAt_of_mapped h
  obtain ⟨n, kind, a, b, payload⟩ := f
  cases kind with
  | openCall => simp only [frameArrives, openArrives_noUse h hu]
  | grant =>
    simp only [frameArrives, grantArrives, hat]
    split
    · exact absurd ‹_› hu
    · rfl
  | refuse =>
    simp only [frameArrives, refuseArrives, hat]
    split
    · exact absurd ‹_› hu
    · rfl
  | carry => simp [frameArrives, carryArrives, hat, show c.state.inData = false from hu]
  | credit => simp [frameArrives, creditArrives, hat, show c.state.inData = false from hu]
  | ask => simp [frameArrives, askArrives, hat, show c.state.inData = false from hu]
  | close => exact hu.elim
  | closed =>
    simp only [frameArrives, closedArrives, hat]
    split
    · rename_i hs
      exact absurd (congrArg CircuitState.name hs) hu
    · rfl

/-- A frame for an unmapped number, OPEN excepted, meets the table of R133. -/
theorem frameArrives_stray (h : s.lookup l f.number = none) (hk : f.kind ≠ .openCall) :
    s.frameArrives l f = .next (s.strayArrives l f.number f.kind).judgeAtn := by
  have hat := arrivalAt_of_unmapped h
  obtain ⟨n, kind, a, b, payload⟩ := f
  cases kind with
  | openCall => exact absurd rfl hk
  | grant => simp only [frameArrives, grantArrives, hat]
  | refuse => simp only [frameArrives, refuseArrives, hat]
  | carry => simp only [frameArrives, carryArrives, hat]
  | credit => simp only [frameArrives, creditArrives, hat]
  | ask => simp only [frameArrives, askArrives, hat]
  | close => simp only [frameArrives, closeArrives, hat]
  | closed => simp only [frameArrives, closedArrives, hat]

/-- What a frame does that changes of its line only the receiver and the stray reply queue. -/
theorem judged_strayOnly {u : State} {replies : List Reply} (k : Keeps [.lines] s u)
    (hl : u.line l = { s.line l with receiver := .frame [], tx := { (s.line l).tx with stray := replies } })
    (hm : ∀ m, m ≠ l → u.line m = s.line m) :
    u.judgeAtn.line l = { s.line l with receiver := .frame [], tx := { (s.line l).tx with stray := replies } }
      ∧ (∀ m, m ≠ l → u.judgeAtn.line m = s.line m) ∧ s.judged u.judgeAtn ∧ Keeps [.lines, .ports] s u.judgeAtn :=
  have hline := line_of_keeps u.keeps_judgeAtn (by decide)
  ⟨(hline l).trans hl, fun m h => (hline m).trans (hm m h), judged_judgeAtn (k.at_ports (by decide)),
    k.both u.keeps_judgeAtn (by decide) (by decide)⟩

theorem line_offerReply_ne {m : LineNo} (h : m ≠ l) (r : Reply) : (s.offerReply l r).line m = s.line m :=
  line_modTx_ne _ h _

/-- A stray reply queue after a frame for an unmapped number: CLOSE offers CLOSED, and GRANT, CARRY, CREDIT and ASK offer CLOSE with
UNKNOWN (R133). -/
def strayQueue (q : List Reply) (n : Byte) : FrameKind → List Reply
  | .close => offered q ⟨n, .closed, 0⟩
  | .grant | .carry | .credit | .ask => offered q ⟨n, .close, Config.causeUnknown⟩
  | _ => q

theorem line_strayArrives (n : Byte) (k : FrameKind) : (s.strayArrives l n k).line l
    = { s.line l with tx := { (s.line l).tx with stray := strayQueue (s.line l).tx.stray n k } } := by
  cases k <;> first | rfl | exact line_offerReply l _

theorem line_strayArrives_heard (n : Byte) (k : FrameKind) : ((s.heard l).strayArrives l n k).line l
    = { s.line l with
        receiver := .frame [], tx := { (s.line l).tx with stray := strayQueue (s.line l).tx.stray n k } } := by
  rw [line_strayArrives, line_setReceiver_same]

theorem line_strayArrives_heard_ne {m : LineNo} (h : m ≠ l) (n : Byte) (k : FrameKind) :
    ((s.heard l).strayArrives l n k).line m = s.line m := by
  cases k <;> first | exact line_setReceiver_ne h _ | exact (line_offerReply_ne h _).trans (line_setReceiver_ne h _)

end State

/-- Settles O43: a frame without use leaves the state in which it was heard, and a stray frame offers the reply of its kind. -/
theorem uselessAndStrayFrames : Obligations.UselessAndStrayFrames := by
  constructor
  · intro s l n a b payload i c x hhears hmapped hwf hx
    suffices h : ∃ f, exec x s = s.receive l f ∧ f.number = n ∧ frameValid f = true
        ∧ c.noUse (s.line l).config.role f.kind by
      obtain ⟨f, hreceive, hn, hvalid, huse⟩ := h
      subst hn
      have hrole : ((s.heard l).line l).config.role = (s.line l).config.role := by rw [State.line_setReceiver_same]
      have hnext := State.exec_of_hears hhears hreceive hvalid
      rw [State.frameArrives_noUse (State.mappedAt_setReceiver _ hmapped) (hrole.symm ▸ huse)] at hnext
      exact ⟨_, hnext, State.judged_strayOnly (s.keeps_heard l) (State.line_setReceiver_same _)
        fun m hm => State.line_setReceiver_ne hm _⟩
    simp only [List.mem_cons, List.not_mem_nil, or_false] at hx
    obtain ⟨hs, hx⟩ | ⟨hs, hrole, rfl⟩ | ⟨hs, hx⟩ | ⟨hs, hx⟩ | ⟨hs, ho, rfl⟩ | ⟨hs, hx⟩ := hx
    · obtain rfl | rfl | rfl | rfl := hx <;>
        exact ⟨_, rfl, rfl, hwf, by simp [Circuit.noUse, hs, CircuitState.inData, CircuitState.name]⟩
    · exact ⟨_, rfl, rfl, hwf, .inl ⟨hs, hrole⟩⟩
    · obtain rfl | rfl | rfl | rfl | rfl | rfl | rfl := hx <;>
        exact ⟨_, rfl, rfl, hwf, by simp [Circuit.noUse, hs, CircuitState.inData, CircuitState.name]⟩
    · obtain ⟨hcalling, hclosing⟩ := ne_of_inData (inData_of_stage hs)
      obtain rfl | rfl | rfl := hx
      · exact ⟨_, rfl, rfl, hwf, hcalling⟩
      · exact ⟨_, rfl, rfl, hwf, hcalling⟩
      · exact ⟨_, rfl, rfl, hwf, hclosing⟩
    · exact ⟨_, rfl, rfl, hwf, .inr (.inr (.inl ⟨inData_of_stage hs, ho⟩))⟩
    · obtain ⟨cause, hs⟩ := name_eq_closing hs
      obtain rfl | rfl | rfl | rfl | rfl | rfl := hx <;>
        exact ⟨_, rfl, rfl, hwf, by simp [Circuit.noUse, hs, CircuitState.inData, CircuitState.name]⟩
  · intro s l n a b payload x replies hhears hlookup hwf hx
    suffices h : ∃ f, exec x s = s.receive l f ∧ f.number = n ∧ frameValid f = true ∧ f.kind ≠ .openCall
        ∧ replies = State.strayQueue (s.line l).tx.stray n f.kind by
      obtain ⟨f, hreceive, hn, hvalid, hkind, rfl⟩ := h
      subst hn
      have hnext := State.exec_of_hears hhears hreceive hvalid
      rw [State.frameArrives_stray (s := s.heard l) hlookup hkind] at hnext
      exact ⟨_, hnext, State.judged_strayOnly ((s.keeps_heard l).trans (State.keeps_strayArrives _ l _ _))
        (State.line_strayArrives_heard _ _) fun m hm => State.line_strayArrives_heard_ne hm _ _⟩
    simp only [List.mem_cons, List.not_mem_nil, or_false] at hx
    obtain ⟨rfl, rfl⟩ | ⟨rfl | rfl | rfl | rfl, rfl⟩ | ⟨rfl | rfl, rfl⟩ := hx <;>
      exact ⟨_, rfl, rfl, hwf, by simp, rfl⟩

end Sys2Proof.Machine

namespace Sys2Proof.Machine

/-! ## Admission (R34, R35, R102) -/

namespace State

variable {s : State} {l : LineNo} {n a b : Byte} {i j : SlotNo} {e : EntryNo} {f : ServiceFields} {live limit credit : Nat}
  {client : PortNo} {rest : List SlotNo} {d : Circuit}

/-- A slot taken for an admitted call, with the live count of its service entry raised (R102, R99). -/
def admitted (s : State) (i : SlotNo) (rest : List SlotNo) (d : Circuit) (e : EntryNo) : State :=
  (s.allocated i rest d).setEntry e ((s.allocated i rest d).entry e).raised

theorem keeps_admitted : Keeps [.slots, .freeSlots, .index, .services] s (s.admitted i rest d e) :=
  (keeps_allocated rest d).both (keeps_setEntry _ e _) (by decide) (by decide)

theorem circuit_admitted : (s.admitted i rest d e).circuit i = some d := circuit_allocated rest d

theorem generation_admitted : ((s.admitted i rest d e).slot i).generation = (s.slot i).generation + 1 := by
  rw [admitted, slot_setEntry, slot_allocated]

theorem slot_admitted_ne (h : j ≠ i) : (s.admitted i rest d e).slot j = s.slot j := slot_allocated_ne rest d h

theorem lookup_admitted (m : LineNo) (o : Byte) :
    (s.admitted i rest d e).lookup m o = if m = d.line ∧ o = d.number then some i else s.lookup m o :=
  lookup_allocated rest d m o

theorem entry_admitted (h : s.entry e = .active f live) : (s.admitted i rest d e).entry e = .active f (live + 1) := by
  rw [admitted, entry_setEntry_same, entry_of_keeps (keeps_allocated rest d) (by decide), h]
  rfl

theorem entry_admitted_ne {x : EntryNo} (h : x ≠ e) : (s.admitted i rest d e).entry x = s.entry x := by
  rw [admitted, entry_setEntry_ne _ h, entry_of_keeps (keeps_allocated rest d) (by decide)]

/-! ### OFFER (R34) -/

/-- The record of an offered call before its timer runs. -/
def offeredRecord (l : LineNo) (n service edge : Byte) (e : EntryNo) (client : PortNo) : Circuit :=
  Circuit.start .offered l n client (.remoteCall e) service (edge.setWidth 5) 0

/-- The state after an offered call, up to the judgement. -/
def offeredCall (s : State) (l : LineNo) (n service edge : Byte) (e : EntryNo) (client : PortNo) (i : SlotNo)
    (rest : List SlotNo) : State :=
  ((s.admitted i rest (offeredRecord l n service edge e client) e).startTimer i .offerWait).raise i { arrival := true }

theorem openArrives_offer (hn : s.lookup l n = none) (hadmits : s.admits l a e f live)
    (haction : f.action = .offer client limit) (hlimit : live < limit) (hfree : s.freeSlots = i :: rest) :
    s.openArrives l n a b = s.offeredCall l n a b e client i rest := by
  simp only [openArrives, arrivalAt_of_unmapped hn, admitCall, matchingEntry_of_admits hadmits, haction,
    Nat.not_le.2 hlimit, if_false, admitOffer, allocate_eq_allocated hfree]
  rfl

theorem circuit_startTimer_admitted (p : Purpose) :
    ((s.admitted i rest d e).startTimer i p).circuit i
      = some { d with timer := some ⟨p, (s.line d.line).config.duration p⟩ } := by
  rw [circuit_startTimer, if_pos rfl, circuit_admitted]
  rfl

/-- The client's list is joined, for nothing was pending. -/
theorem port_offeredCall (q : PortNo) : (s.offeredCall l n a b e client i rest).port q
    = if q = client then (s.port q).joinedBy i else s.port q := by
  rw [offeredCall, port_raise (circuit_startTimer_admitted .offerWait) rfl,
    port_of_keeps (keeps_startTimer _ i _) (by decide), port_of_keeps keeps_admitted (by decide)]
  simp only [offeredRecord, Circuit.start, Option.some.injEq, and_true, eq_comm]

theorem keeps_offeredCall :
    Keeps [.slots, .freeSlots, .index, .services, .ports] s (s.offeredCall l n a b e client i rest) :=
  keeps_admitted.both ((keeps_startTimer _ i _).both (keeps_raise _ i _) (zs := [.slots, .ports]) (by decide) (by decide))
    (by decide) (by decide)

theorem circuit_offeredCall : (s.offeredCall l n a b e client i rest).circuit i = some
    { offeredRecord l n a b e client with
      timer := some ⟨.offerWait, (s.line l).config.offerTimeout⟩, conditions := { arrival := true } } := by
  rw [offeredCall, circuit_raise, if_pos rfl, circuit_startTimer_admitted]
  rfl

theorem slot_raise_ne (h : j ≠ i) (x : Conditions) : (s.raise i x).slot j = s.slot j := by
  unfold raise
  split
  · rfl
  · split
    · rfl
    · dsimp only
      split
      · rw [slot_joinAttention, slot_setCircuit_ne _ h]
      · exact slot_setCircuit_ne _ h _

theorem slot_offeredCall_ne (h : j ≠ i) : (s.offeredCall l n a b e client i rest).slot j = s.slot j := by
  rw [offeredCall, slot_raise_ne h, startTimer, slot_modCircuit_ne _ h, slot_admitted_ne h]

theorem generation_offeredCall :
    ((s.offeredCall l n a b e client i rest).slot i).generation = (s.slot i).generation + 1 := by
  rw [offeredCall, generation_raise, startTimer, generation_modCircuit, generation_admitted]

/-- What follows the taking of the slot changes neither numbers nor entries nor free slots. -/
theorem keeps_admitted_offeredCall :
    Keeps [.slots, .ports] (s.admitted i rest (offeredRecord l n a b e client) e)
      (s.offeredCall l n a b e client i rest) :=
  (keeps_startTimer _ i _).both (keeps_raise _ i _) (by decide) (by decide)

/-- The fields of an OPEN frame in range. -/
theorem frameValid_open (h1 : 1 ≤ n.toNat) (h2 : n.toNat ≤ 127) (hb : b.toNat ≤ 15) :
    frameValid ⟨n, .openCall, a, b, []⟩ = true :=
  frameValid_of h1 h2 (by simpa [fieldsAllowed, BitVec.le_def] using hb)

end State

/-- Settles O33: the frame is heard, the slot taken for the offered call and ARRIVAL raised, and the ATN outputs are judged. -/
theorem admissionOffersACall : Obligations.AdmissionOffersACall := by
  intro s l n a b e f live client limit i rest hhears h1 h2 hb hlookup hadmits haction hlimit hfree
  have hnext := State.exec_openFrame hhears (State.frameValid_open (a := a) h1 h2 hb)
  rw [State.openArrives_offer (s := s.heard l) hlookup hadmits haction hlimit hfree] at hnext
  have hjudge := State.keeps_judgeAtn ((s.heard l).offeredCall l n a b e client i rest)
  have hkeeps : Keeps [.slots, .ports] ((s.heard l).admitted i rest (State.offeredRecord l n a b e client) e)
      ((s.heard l).offeredCall l n a b e client i rest).judgeAtn :=
    State.keeps_admitted_offeredCall.both hjudge (by decide) (by decide)
  have hadmitted := State.keeps_admitted (s := s.heard l) (i := i) (rest := rest)
    (d := State.offeredRecord l n a b e client) (e := e)
  refine ⟨_, hnext, ?_, ?_, ?_, fun m o => ?_, ?_, fun x hx => ?_, fun q => ?_, ?_, fun j hj => ?_, fun m hm => ?_,
    ((s.keeps_heard l).both hadmitted (by decide) (by decide)).both hkeeps
      (xs := [.slots, .freeSlots, .index, .services, .lines]) (by decide) (by decide)⟩
  · rw [State.slot_judgeAtn, State.generation_offeredCall, State.slot_setReceiver]
  · rw [State.circuit_judgeAtn, State.circuit_offeredCall, State.line_setReceiver_same]
    rfl
  · exact hkeeps.at_freeSlots (by decide)
  · rw [State.lookup_of_keeps hkeeps (by decide), State.lookup_admitted]
    rfl
  · rw [State.entry_of_keeps hkeeps (by decide)]
    exact State.entry_admitted hadmits.1
  · rw [State.entry_of_keeps hkeeps (by decide), State.entry_admitted_ne hx, State.entry_setReceiver]
  · rw [State.port_judgeAtn, State.atnLevel_judgeAtn, State.port_offeredCall, State.port_setReceiver]
  · rw [State.line_of_keeps hkeeps (by decide), State.line_of_keeps hadmitted (by decide), State.line_setReceiver_same]
  · rw [State.slot_judgeAtn, State.slot_offeredCall_ne hj, State.slot_setReceiver]
  · rw [State.line_of_keeps hkeeps (by decide), State.line_of_keeps hadmitted (by decide), State.line_setReceiver_ne hm]

end Sys2Proof.Machine

namespace Sys2Proof.Machine

/-! ### ACCEPT by the service table (R35, R82) -/

namespace State

variable {s : State} {l : LineNo} {n a b : Byte} {i j : SlotNo} {e : EntryNo} {f : ServiceFields} {live limit credit : Nat}
  {client : PortNo} {rest : List SlotNo}

/-- The record of an accepted call before its reservation. -/
def acceptedRecord (l : LineNo) (n service edge : Byte) (e : EntryNo) (client : PortNo) (credit : Nat) : Circuit :=
  Circuit.start .opened l n client (.remoteCall e) service (edge.setWidth 5) credit

/-- The slot taken for an accepted call, with its direct reservation. -/
def reservedCall (s : State) (l : LineNo) (n service edge : Byte) (e : EntryNo) (client : PortNo) (credit : Nat) (i : SlotNo)
    (rest : List SlotNo) : State :=
  (s.admitted i rest (acceptedRecord l n service edge e client credit) e).reserve i credit

/-- An accepted call that owes GRANT and has CONNECTED pending, before it joins the credit wait queue. -/
def connectedCall (s : State) (l : LineNo) (n service edge : Byte) (e : EntryNo) (client : PortNo) (credit : Nat) (i : SlotNo)
    (rest : List SlotNo) : State :=
  ((s.reservedCall l n service edge e client credit i rest).owe i .grant).raise i { connected := true }

/-- The state after an accepted call, up to the judgement. -/
def acceptedCall (s : State) (l : LineNo) (n service edge : Byte) (e : EntryNo) (client : PortNo) (credit : Nat) (i : SlotNo)
    (rest : List SlotNo) : State :=
  (s.connectedCall l n service edge e client credit i rest).setWaitQueue
    (if s.available < credit then joinTail s.waitQueue i else s.waitQueue)

theorem available_admitted {d : Circuit} : (s.admitted i rest d e).available = s.available :=
  available_of_keeps keeps_admitted (by decide) (by decide)

theorem circuit_reservedCall : (s.reservedCall l n a b e client credit i rest).circuit i = some
    { acceptedRecord l n a b e client credit with
      reserved := min credit s.available, receiveEdge := BitVec.ofNat 5 (min credit s.available) } := by
  rw [reservedCall, circuit_reserve, if_pos rfl, circuit_admitted, available_admitted]
  rfl

theorem circuit_owe_reservedCall : ((s.reservedCall l n a b e client credit i rest).owe i .grant).circuit i = some
    { acceptedRecord l n a b e client credit with
      reserved := min credit s.available, receiveEdge := BitVec.ofNat 5 (min credit s.available)
      owed := { grant := true } } := by
  rw [circuit_owe, if_pos rfl, circuit_reservedCall]
  rfl

theorem circuit_connectedCall : (s.connectedCall l n a b e client credit i rest).circuit i = some
    { acceptedRecord l n a b e client credit with
      reserved := min credit s.available, receiveEdge := BitVec.ofNat 5 (min credit s.available)
      owed := { grant := true }, conditions := { connected := true } } := by
  rw [connectedCall, circuit_raise, if_pos rfl, circuit_owe_reservedCall]
  rfl

theorem keeps_reservedCall : Keeps [.slots, .freeSlots, .index, .services, .reservedTotal] s
    (s.reservedCall l n a b e client credit i rest) :=
  keeps_admitted.both (keeps_reserve _ i _) (by decide) (by decide)

/-- What follows the reservation. -/
theorem keeps_connectedCall : Keeps [.slots, .lines, .ports] (s.reservedCall l n a b e client credit i rest)
    (s.connectedCall l n a b e client credit i rest) :=
  (keeps_owe _ i _).both (keeps_raise _ i _) (by decide) (by decide)

theorem keeps_acceptedCall : Keeps [.slots, .lines, .ports, .waitQueue] (s.reservedCall l n a b e client credit i rest)
    (s.acceptedCall l n a b e client credit i rest) :=
  keeps_connectedCall.both (keeps_setWaitQueue _ _) (by decide) (by decide)

theorem openArrives_accept (hn : s.lookup l n = none) (hadmits : s.admits l a e f live)
    (haction : f.action = .accept client credit limit) (hlimit : live < limit) (hfree : s.freeSlots = i :: rest) :
    s.openArrives l n a b = s.acceptedCall l n a b e client credit i rest := by
  have hwait : (s.connectedCall l n a b e client credit i rest).joinWaitIfShort i
      = s.acceptedCall l n a b e client credit i rest := by
    rw [joinWaitIfShort_reserved circuit_connectedCall rfl rfl fun h => ?_, keeps_connectedCall.at_waitQueue (by decide),
      keeps_reservedCall.at_waitQueue (by decide)]
    · rfl
    · rw [available_of_keeps keeps_connectedCall (by decide) (by decide), reservedCall]
      exact available_reserve_of_short (by rwa [available_admitted])
  rw [← hwait]
  simp only [openArrives, arrivalAt_of_unmapped hn, admitCall, matchingEntry_of_admits hadmits, haction,
    Nat.not_le.2 hlimit, if_false, admitAccept, allocate_eq_allocated hfree]
  rfl

theorem reservedTotal_reservedCall :
    (s.reservedCall l n a b e client credit i rest).reservedTotal = s.reservedTotal + min credit s.available := by
  rw [reservedCall, reservedTotal_reserve, available_admitted, keeps_admitted.at_reservedTotal (by decide)]

theorem line_acceptedCall (m : LineNo) : (s.acceptedCall l n a b e client credit i rest).line m
    = if m = l then { s.line m with tx := { (s.line m).tx with control := joinTail (s.line m).tx.control i } }
      else s.line m := by
  rw [acceptedCall, line_setWaitQueue, connectedCall, line_of_keeps (keeps_raise _ i _) (by decide),
    line_owe circuit_reservedCall, line_of_keeps keeps_reservedCall (by decide)]
  rfl

/-- The client's list is joined, for nothing was pending. -/
theorem port_acceptedCall (q : PortNo) : (s.acceptedCall l n a b e client credit i rest).port q
    = if q = client then (s.port q).joinedBy i else s.port q := by
  rw [acceptedCall, port_setWaitQueue, connectedCall, port_raise circuit_owe_reservedCall rfl,
    port_of_keeps (keeps_owe _ i _) (by decide), port_of_keeps keeps_reservedCall (by decide)]
  simp only [acceptedRecord, Circuit.start, Option.some.injEq, and_true, eq_comm]

theorem slot_acceptedCall_ne (h : j ≠ i) : (s.acceptedCall l n a b e client credit i rest).slot j = s.slot j := by
  rw [acceptedCall, slot_setWaitQueue, connectedCall, slot_raise_ne h, slot_owe_ne h, reservedCall, slot_reserve_ne h,
    slot_admitted_ne h]

theorem generation_acceptedCall :
    ((s.acceptedCall l n a b e client credit i rest).slot i).generation = (s.slot i).generation + 1 := by
  rw [acceptedCall, slot_setWaitQueue, connectedCall, generation_raise, generation_owe, reservedCall, generation_reserve,
    generation_admitted]

end State

/-- Settles O34: the frame is heard, the slot taken, the reservation made, GRANT owed and CONNECTED raised; a circuit short of its
target waits; and the ATN outputs are judged. -/
theorem admissionAcceptsACall : Obligations.AdmissionAcceptsACall := by
  intro s l n a b e f live client credit limit i rest hhears h1 h2 hb hlookup hadmits haction hlimit hfree
  have hnext := State.exec_openFrame hhears (State.frameValid_open (a := a) h1 h2 hb)
  rw [State.openArrives_accept (s := s.heard l) hlookup hadmits haction hlimit hfree] at hnext
  have hreserved := State.keeps_reservedCall (s := s.heard l) (l := l) (n := n) (a := a) (b := b) (e := e)
    (client := client) (credit := credit) (i := i) (rest := rest)
  have hjudge := State.keeps_judgeAtn ((s.heard l).acceptedCall l n a b e client credit i rest)
  have hkeeps : Keeps [.slots, .lines, .ports, .waitQueue] ((s.heard l).reservedCall l n a b e client credit i rest)
      ((s.heard l).acceptedCall l n a b e client credit i rest).judgeAtn :=
    State.keeps_acceptedCall.both hjudge (by decide) (by decide)
  have hadmitted : Keeps [.slots, .reservedTotal]
      ((s.heard l).admitted i rest (State.acceptedRecord l n a b e client credit) e)
      ((s.heard l).reservedCall l n a b e client credit i rest) := State.keeps_reserve _ i _
  refine ⟨_, hnext, ?_, ?_, ?_, fun m o => ?_, ?_, fun x hx => ?_, ?_, ?_, fun q => ?_, ?_, fun j hj => ?_, fun m hm => ?_,
    ((s.keeps_heard l).both hreserved (by decide) (by decide)).both hkeeps
      (xs := [.slots, .freeSlots, .index, .services, .reservedTotal, .lines]) (by decide) (by decide)⟩
  · rw [State.slot_judgeAtn, State.generation_acceptedCall, State.slot_setReceiver]
  · rw [State.circuit_judgeAtn, State.acceptedCall, State.circuit_setWaitQueue, State.circuit_connectedCall,
      State.available_setReceiver]
    rfl
  · rw [hkeeps.at_freeSlots (by decide)]
    rfl
  · rw [State.lookup_of_keeps hkeeps (by decide), State.lookup_of_keeps hadmitted (by decide), State.lookup_admitted]
    rfl
  · rw [State.entry_of_keeps hkeeps (by decide), State.entry_of_keeps hadmitted (by decide)]
    exact State.entry_admitted hadmits.1
  · rw [State.entry_of_keeps hkeeps (by decide), State.entry_of_keeps hadmitted (by decide), State.entry_admitted_ne hx,
      State.entry_setReceiver]
  · rw [hkeeps.at_reservedTotal (by decide), State.reservedTotal_reservedCall, State.available_setReceiver]
    rfl
  · rw [hjudge.at_waitQueue (by decide), State.acceptedCall, State.setWaitQueue_waitQueue, State.available_setReceiver]
    rfl
  · rw [State.port_judgeAtn, State.atnLevel_judgeAtn, State.port_acceptedCall, State.port_setReceiver]
  · rw [State.line_of_keeps hjudge (by decide), State.line_acceptedCall, if_pos rfl, State.line_setReceiver_same]
  · rw [State.slot_judgeAtn, State.slot_acceptedCall_ne hj, State.slot_setReceiver]
  · rw [State.line_of_keeps hjudge (by decide), State.line_acceptedCall, if_neg hm, State.line_setReceiver_ne hm]

end Sys2Proof.Machine

namespace Sys2Proof.Machine

/-! ## GRANT opens a circuit (R28) -/

theorem Circuit.granted_reserved (c : Circuit) (n : Nat) : (c.granted n).reserved = c.reserved + n := by
  unfold Circuit.granted
  split
  · simp_all
  · rfl

theorem Circuit.granted_inj {c : Circuit} {m n : Nat} (h : c.granted m = c.granted n) : m = n := by
  have hr := congrArg Circuit.reserved h
  rw [Circuit.granted_reserved, Circuit.granted_reserved] at hr
  omega

/-- A grant leaves alone what readiness, the stall condition and the timer look at. -/
theorem Circuit.granted_canSend (c : Circuit) (n : Nat) : (c.granted n).canSend = c.canSend := by
  unfold Circuit.granted
  split <;> rfl

theorem Circuit.granted_stalled (c : Circuit) (n : Nat) : (c.granted n).stalled = c.stalled := by
  unfold Circuit.granted
  split <;> rfl

theorem Circuit.granted_line (c : Circuit) (n : Nat) : (c.granted n).line = c.line := by
  unfold Circuit.granted
  split <;> rfl

theorem Circuit.granted_timer (c : Circuit) (n : Nat) : (c.granted n).timer = c.timer := by
  unfold Circuit.granted
  split <;> rfl

theorem Circuit.granted_with_timer (c : Circuit) (n : Nat) (x : Option Timer) :
    { c with timer := x }.granted n = { c.granted n with timer := x } := by
  unfold Circuit.granted
  split <;> rfl

/-- A record that a GRANT frame has opened, CONNECTED pending (R28). -/
def Circuit.openedBy (c : Circuit) (a : Byte) : Circuit :=
  { c with
    state := .opened, timer := none, retry := 0, farEdge := a.setWidth 5, owed := c.owed.put .openCall false
    conditions := c.conditions.union { connected := true } }

namespace State

variable {s : State} {l : LineNo} {n a : Byte} {i : SlotNo} {c : Circuit} {p : PortNo}

/-- The record written by a GRANT frame, before CONNECTED is raised. -/
def grantWritten (s : State) (i : SlotNo) (a : Byte) : State :=
  ((s.stopTimer i).dropOwed i .openCall).modCircuit i
    fun x => { x with farEdge := a.setWidth 5, state := .opened, retry := 0 }

/-- The circuit opened by a GRANT frame, before it joins the credit wait queue. -/
def grantOpened (s : State) (i : SlotNo) (a : Byte) : State := (s.grantWritten i a).raise i { connected := true }

/-- The state after a GRANT frame at a CALLING circuit, up to the judgement. -/
def grantSettled (s : State) (i : SlotNo) (a : Byte) : State :=
  (((s.grantOpened i a).joinWaitIfShort i).settleReady i).settleStall i

theorem grantArrives_calling (h : s.mappedAt l n i c) (hs : c.state = .calling) :
    s.grantArrives l n a = s.grantSettled i a := by
  simp only [grantArrives, arrivalAt_of_mapped h, hs]
  rfl

theorem circuit_grantWritten (h : s.circuit i = some c) :
    (s.grantWritten i a).circuit i = some { c.openedBy a with conditions := c.conditions } := by
  rw [grantWritten, circuit_modCircuit_same, circuit_dropOwed, if_pos rfl, circuit_stopTimer_same h]
  rfl

theorem circuit_grantOpened (h : s.circuit i = some c) (ho : c.owner = some p) :
    (s.grantOpened i a).circuit i = some (c.openedBy a) := by
  rw [grantOpened, circuit_raise, if_pos rfl, circuit_grantWritten h]
  simp [Circuit.openedBy, ho]

theorem keeps_grantWritten : Keeps [.slots, .lines] s (s.grantWritten i a) :=
  ((s.keeps_stopTimer i).both (keeps_dropOwed _ i _) (by decide) (by decide)).both (keeps_modCircuit _ i _)
    (xs := [.slots, .lines]) (by decide) (by decide)

theorem keeps_grantOpened : Keeps [.slots, .lines, .ports] s (s.grantOpened i a) :=
  keeps_grantWritten.both (keeps_raise _ i _) (by decide) (by decide)

theorem available_grantOpened : (s.grantOpened i a).available = s.available :=
  available_of_keeps keeps_grantOpened (by decide) (by decide)

theorem keeps_grantSettled :
    Keeps [.slots, .lines, .reservedTotal, .waitQueue] (s.grantOpened i a) (s.grantSettled i a) :=
  (keeps_joinWaitIfShort _ i).both ((keeps_settleReady _ i).both (keeps_settleStall _ i) (zs := [.lines, .slots])
    (by decide) (by decide)) (by decide) (by decide)

theorem waitQueue_grantSettled :
    (s.grantSettled i a).waitQueue = ((s.grantOpened i a).joinWaitIfShort i).waitQueue := by
  rw [grantSettled, (keeps_settleStall _ i).at_waitQueue (by decide), (keeps_settleReady _ i).at_waitQueue (by decide)]

theorem port_grantOpened (h : s.circuit i = some c) (ho : c.owner = some p) (q : PortNo) :
    (s.grantOpened i a).port q = if c.owner = some q ∧ c.conditions = {} then (s.port q).joinedBy i else s.port q := by
  rw [grantOpened, port_raise (circuit_grantWritten h) ho, port_of_keeps keeps_grantWritten (by decide)]
  rfl

/-- Owing nothing takes the circuit off its line's control queue (R28). -/
theorem line_grantOpened (h : s.circuit i = some c) : (s.grantOpened i a).line c.line
    = { s.line c.line with tx := { (s.line c.line).tx with
        control := if (c.openedBy a).owed = {} then leave (s.line c.line).tx.control i else (s.line c.line).tx.control } } := by
  rw [grantOpened, line_of_keeps (keeps_raise _ i _) (by decide), grantWritten, line_modCircuit,
    line_dropOwed (circuit_stopTimer_same h), line_of_keeps (s.keeps_stopTimer i) (by decide)]
  by_cases ho : c.owed.put .openCall false = {} <;> simp [Circuit.openedBy, ho]

theorem actsOn_grantOpened (h : s.circuit i = some c) : ActsOn i c.line s (s.grantOpened i a) := by
  refine ActsOn.trans ?_ (actsOn_raise _)
  refine ActsOn.trans ?_ (ActsOn.modCircuit _)
  exact (ActsOn.modCircuit _ : ActsOn i c.line s (s.stopTimer i)).trans (actsOn_dropOwed
    (line_of_circuit (circuit_stopTimer_same h)) _)

theorem line_settleReady (h : s.circuit i = some c) : (s.settleReady i).line c.line
    = { s.line c.line with tx := { (s.line c.line).tx with
        ring := if c.canSend then joinTail (s.line c.line).tx.ring i else (s.line c.line).tx.ring } } := by
  simp only [settleReady, h]
  cases c.canSend with
  | true => simp
  | false => simp

theorem circuit_settleStall (h : s.circuit i = some c) (ht : c.timer = none) : (s.settleStall i).circuit i
    = some (if c.stalled then { c with timer := some ⟨.stallWait, (s.line c.line).config.retransmit⟩ } else c) := by
  simp only [settleStall, h, Circuit.waits, ht, Option.any_none, Bool.not_false, Bool.and_true]
  cases c.stalled with
  | true => simp [circuit_startTimer, h, LineConfig.duration]
  | false => simpa using h

/-- The record after readiness and the stall condition are settled on what the pool granted (R28, R54, R57). -/
theorem circuit_settled {d : Circuit} {g : Nat} (h : s.circuit i = some (d.granted g)) (ht : d.timer = none) :
    ((s.settleReady i).settleStall i).circuit i = some ((if d.stalled then
      { d with timer := some ⟨.stallWait, (s.line d.line).config.retransmit⟩ } else d).granted g) := by
  have hready : (s.settleReady i).circuit i = some (d.granted g) := by
    rw [circuit_of_keeps (s.keeps_settleReady i) (by decide), h]
  have hconfig : ((s.settleReady i).line (d.granted g).line).config = (s.line d.line).config := by
    rw [line_settleReady h, Circuit.granted_line]
  rw [circuit_settleStall hready ((d.granted_timer g).trans ht), Circuit.granted_stalled, hconfig]
  cases d.stalled with
  | true => exact congrArg some (d.granted_with_timer g _).symm
  | false => rfl

/-- The line after readiness and the stall condition are settled. -/
theorem line_settled {d : Circuit} {g : Nat} (h : s.circuit i = some (d.granted g)) :
    ((s.settleReady i).settleStall i).line d.line = { s.line d.line with tx := { (s.line d.line).tx with
      ring := if d.canSend then joinTail (s.line d.line).tx.ring i else (s.line d.line).tx.ring } } := by
  have hline := line_settleReady h
  rw [Circuit.granted_line, Circuit.granted_canSend] at hline
  rw [line_of_keeps (keeps_settleStall _ i) (by decide), hline]

theorem actsOn_settled (h : s.circuit i = some c) : ActsOn i c.line s ((s.settleReady i).settleStall i) :=
  (actsOn_settleReady (line_of_circuit h)).trans actsOn_settleStall

theorem actsOn_grantSettled (h : s.circuit i = some c) (ho : c.owner = some p) :
    ActsOn i c.line s (s.grantSettled i a) := by
  obtain ⟨g, hg, -⟩ := joinWaitIfShort_spec (circuit_grantOpened (a := a) h ho)
  have later := actsOn_settled hg
  rw [Circuit.granted_line] at later
  exact ((actsOn_grantOpened h).trans actsOn_joinWaitIfShort).trans later

/-- The grants that a circuit opened by GRANT is given at once, with its record and its line's queues after them: none when it is not
short of its target or nothing is available (R28, R66, R86, R88). -/
theorem grantSettled_spec (h : s.circuit i = some c) (ho : c.owner = some p) :
    ∃ g more, ((s.grantOpened i a).joinWaitIfShort i).circuit i = some ((c.openedBy a).granted g)
      ∧ (s.grantSettled i a).circuit i = some ((if (c.openedBy a).stalled then
          { c.openedBy a with timer := some ⟨.stallWait, (s.line c.line).config.retransmit⟩ } else c.openedBy a).granted g)
      ∧ (∀ j ∈ more, j = i ∧ 0 < g ∨ j ≠ i ∧ j ∈ s.waitQueue ∧ s.gains (s.grantSettled i a) j)
      ∧ (s.grantSettled i a).line c.line = { s.line c.line with tx := { (s.line c.line).tx with
          control := (if (c.openedBy a).owed = {} then leave (s.line c.line).tx.control i
            else (s.line c.line).tx.control) ++ more
          ring := if (c.openedBy a).canSend then joinTail (s.line c.line).tx.ring i else (s.line c.line).tx.ring } }
      ∧ (c.target ≤ c.reserved ∨ s.available = 0 → g = 0 ∧ more = []) := by
  have hopened := circuit_grantOpened (a := a) h ho
  have hwait : (s.grantOpened i a).waitQueue = s.waitQueue := keeps_grantOpened.at_waitQueue (by decide)
  have hfull : c.target ≤ c.reserved → (c.openedBy a).short = false := fun hle => decide_eq_false (Nat.not_lt.2 hle)
  obtain ⟨g, hg, hlines, hzero⟩ := joinWaitIfShort_spec hopened
  obtain ⟨more, hmore, hjoined, hempty⟩ := hlines c.line
  have hopenLine : (c.openedBy a).line = c.line := rfl
  have hconfig : (((s.grantOpened i a).joinWaitIfShort i).line c.line).config = (s.line c.line).config := by
    rw [hjoined, line_grantOpened h]
  have hcircuit := circuit_settled hg rfl
  have hline := line_settled hg
  rw [hopenLine, hconfig] at hcircuit
  rw [hopenLine, hjoined, line_grantOpened h] at hline
  have hlater := actsOn_settled hg
  rw [Circuit.granted_line] at hlater
  refine ⟨g, more, hg, hcircuit, fun j hj => ?_, hline, fun hnone => ?_⟩
  · obtain hown | ⟨hne, hwaits, hgains⟩ := hmore j hj
    · exact .inl hown
    · exact .inr ⟨hne, hwait ▸ hwaits, (actsOn_grantOpened h).gains hlater hne hgains⟩
  · rw [← available_grantOpened (i := i) (a := a)] at hnone
    exact ⟨hzero (hnone.imp_left hfull), hempty (hnone.imp_left hfull)⟩

/-- A circuit that is not short does not join the credit wait queue. -/
theorem waitQueue_grantSettled_of_full (h : s.circuit i = some c) (ho : c.owner = some p) (hle : c.target ≤ c.reserved) :
    (s.grantSettled i a).waitQueue = s.waitQueue := by
  have hshort : (c.openedBy a).short = false := decide_eq_false (Nat.not_lt.2 hle)
  rw [waitQueue_grantSettled, joinWaitIfShort_of_not_short (circuit_grantOpened h ho) hshort,
    keeps_grantOpened.at_waitQueue (by decide)]

/-- A short circuit waits when nothing is available. -/
theorem waitQueue_grantSettled_of_unavailable (h : s.circuit i = some c) (ho : c.owner = some p)
    (hlt : c.reserved < c.target) (ha : s.available = 0) :
    (s.grantSettled i a).waitQueue = joinTail s.waitQueue i := by
  have hshort : (c.openedBy a).short = true := decide_eq_true hlt
  rw [waitQueue_grantSettled, joinWaitIfShort_of_unavailable (circuit_grantOpened h ho) hshort (available_grantOpened.trans ha),
    setWaitQueue_waitQueue, keeps_grantOpened.at_waitQueue (by decide)]

end State

/-- Settles O36: the record opened and CONNECTED raised, the wait queue joined when short, then readiness and the stall condition
settled, and the ATN outputs judged. -/
theorem grantOpensTheCircuit : Obligations.GrantOpensTheCircuit := by
  intro s l n a i c p hhears h1 h2 ha hmapped hl howner hs c' hc'
  obtain rfl : c' = c.openedBy a := hc'
  subst hl
  have ⟨_, hcirc⟩ := hmapped
  have hheard : (s.heard c.line).circuit i = some c := hcirc
  have hf : frameValid ⟨n, .grant, a, 0, []⟩ = true := State.frameValid_of h1 h2 (by
    simpa [fieldsAllowed, BitVec.le_def] using ha)
  have hnext := State.exec_grantFrame hhears hf
  rw [State.grantArrives_calling (State.mappedAt_setReceiver _ hmapped) hs] at hnext
  have hjudge := State.keeps_judgeAtn ((s.heard c.line).grantSettled i a)
  obtain ⟨g, more, hg, hcircuit, hmore, hline, hnone⟩ := State.grantSettled_spec (a := a) hheard howner
  have hacts := (State.actsOn_grantSettled (a := a) hheard howner).trans State.actsOn_judgeAtn
  rw [State.tx_heard] at hline
  refine ⟨_, g, hnext, ?_, fun hle hnot => ⟨(hnone (.inl hle)).1, ?_⟩, fun hlt ha => ⟨(hnone (.inr ha)).1, ?_⟩,
    fun hlt hq => ?_, fun hquiet howed => ?_, ?_, ?_, hacts, ?_⟩
  · rw [State.circuit_judgeAtn, hcircuit, State.line_setReceiver_same]
  · rw [hjudge.at_waitQueue (by decide), State.waitQueue_grantSettled_of_full hheard howner hle]
    rfl
  · rw [hjudge.at_waitQueue (by decide), State.waitQueue_grantSettled_of_unavailable hheard howner hlt ha]
    rfl
  · obtain ⟨halone, hwait, -⟩ := State.joinWaitIfShort_alone (State.circuit_grantOpened (a := a) hheard howner) hlt
      ((State.keeps_grantOpened.at_waitQueue (by decide)).trans hq)
    rw [State.available_grantOpened, State.available_setReceiver] at halone hwait
    refine ⟨Circuit.granted_inj (Option.some.inj (hg.symm.trans halone)), ?_⟩
    rw [hjudge.at_waitQueue (by decide), State.waitQueue_grantSettled, hwait]
    rfl
  · rw [State.line_of_keeps hjudge (by decide), hline, (hnone hquiet).2, howed]
    simp [mem_leave]
  · refine ⟨more, fun j hj => ?_, ?_⟩
    · obtain hown | ⟨hne, hwaits, hgains⟩ := hmore j hj
      · exact .inl hown
      · exact .inr ⟨hne, hwaits, (ActsOn.refl i c.line _).gains State.actsOn_judgeAtn hne hgains⟩
    · rw [State.line_of_keeps hjudge (by decide), hline, State.tx_heard]
  · refine State.attends_judgeAtn fun q => ?_
    rw [State.port_of_keeps State.keeps_grantSettled (by decide), State.port_grantOpened hheard howner]
    rfl
  · exact ((s.keeps_heard c.line).both State.keeps_grantOpened (zs := [.slots, .lines, .ports]) (by decide)
      (by decide)).both (State.keeps_grantSettled.both hjudge (zs := [.slots, .lines, .reservedTotal, .waitQueue, .ports])
        (by decide) (by decide)) (by decide) (by decide)

end Sys2Proof.Machine

namespace Sys2Proof.Machine

/-! Data transfer and credit: SEND, RELEASE, SET-CREDIT, and the CARRY, ASK and CREDIT frames. -/

/-! ## SEND (R53, R54, R57) -/

namespace State

variable {s : State} {p : PortNo} {a : Args} {i j : SlotNo} {b : BufNo} {c : Circuit} {e : Entry}

/-- The state in which a buffer has gone to the tail of a circuit's transmit queue, before readiness and the stall condition are
settled (R53). -/
def transmitQueued (s : State) (i : SlotNo) (e : Entry) : State :=
  (s.setPlace e.buffer (.transmit i)).modCircuit i fun x => { x with transmit := x.transmit ++ [e] }

/-- The state that SEND leaves, up to its completion. -/
def sent (s : State) (i : SlotNo) (e : Entry) : State := ((s.transmitQueued i e).settleReady i).settleStall i

/-- SEND of a buffer that the port claimed, to its own circuit in CALLING or OPEN with room, passes its checks. -/
theorem sendBody_of_room (h : s.namesOwn a.a0 p i c) (hb : a.a1.toNat = b.val) (hlo : 1 ≤ a.a2.toNat)
    (hhi : a.a2.toNat ≤ 128) (hm : a.a3.toNat ≤ 1) (hplace : s.place b = .claimed p)
    (hs : c.state = .calling ∨ c.state = .opened) (hroom : c.transmit.length < 64) :
    sendBody p a s = .ok (s.sent i ⟨b, a.a2.toNat, a.a3 = 1⟩, {}) := by
  have hlive : (decide (c.state = .calling) || decide (c.state = .opened)) = true := by simpa using hs
  have hlength : (decide (1 ≤ a.a2.toNat) && decide (a.a2.toNat ≤ 128)) = true := by simp [hlo, hhi]
  have hfits : decide (c.transmit.length < Config.transmitRoom) = true := decide_eq_true hroom
  simp only [sendBody, handleArg_of_names h, bufferArg_of hb, ownedCircuit_of_names h, hlength, hm, hplace, hlive, hfits,
    decide_true, require_true, bind, Except.bind]
  rfl

theorem circuit_transmitQueued (h : s.circuit i = some c) :
    (s.transmitQueued i e).circuit i = some { c with transmit := c.transmit ++ [e] } := by
  rw [transmitQueued, circuit_modCircuit_same, circuit_setPlace, h]
  rfl

theorem keeps_transmitQueued : Keeps [.places, .slots] s (s.transmitQueued i e) :=
  (s.keeps_setPlace _ _).both (keeps_modCircuit _ i _) (by decide) (by decide)

/-- STALL-WAIT starts at a stalled circuit that does not run it, and nothing else happens to the record (R57). -/
theorem circuit_settleStall_running (h : s.circuit i = some c) : (s.settleStall i).circuit i
    = some (if c.stalled ∧ ¬ c.waits .stallWait then
        { c with timer := some ⟨.stallWait, (s.line c.line).config.retransmit⟩ } else c) := by
  simp only [settleStall, h]
  by_cases hstall : c.stalled ∧ ¬ c.waits .stallWait
  · rw [if_pos hstall, if_pos (by simpa using hstall), circuit_startTimer, if_pos rfl, h]
    rfl
  · rw [if_neg hstall, if_neg (by simpa using hstall), h]

theorem slot_settleStall_ne (h : j ≠ i) : (s.settleStall i).slot j = s.slot j := by
  unfold settleStall
  split
  · rfl
  · split
    · exact slot_modCircuit_ne _ h _
    · rfl

@[simp] theorem generation_settleStall : ((s.settleStall i).slot j).generation = (s.slot j).generation := by
  unfold settleStall
  split
  · rfl
  · split
    · exact generation_modCircuit _ _ _ _
    · rfl

/-- Only the circuit's own line can gain a circuit that is ready to send. -/
theorem line_settleReady_ne {m : LineNo} (h : s.circuit i = some c) (hm : m ≠ c.line) :
    (s.settleReady i).line m = s.line m := by
  simp only [settleReady, h]
  split
  · exact line_modTx_ne _ hm _
  · rfl

theorem keeps_sent : Keeps [.slots, .places, .lines] s (s.sent i e) :=
  keeps_transmitQueued.both ((keeps_settleReady _ i).both (keeps_settleStall _ i) (zs := [.lines, .slots])
    (by decide) (by decide)) (by decide) (by decide)

/-- What SEND's settling leaves of the record: readiness touches the line alone. -/
theorem circuit_sent (h : s.circuit i = some c) {d : Circuit} (hd : d = { c with transmit := c.transmit ++ [e] }) :
    (s.sent i e).circuit i = some (if d.stalled ∧ ¬ d.waits .stallWait then
      { d with timer := some ⟨.stallWait, (s.line c.line).config.retransmit⟩ } else d) := by
  have hqueued := circuit_transmitQueued (e := e) h
  rw [← hd] at hqueued
  have hready : ((s.transmitQueued i e).settleReady i).circuit i = some d := by
    rw [circuit_of_keeps (keeps_settleReady _ i) (by decide), hqueued]
  have hconfig : (((s.transmitQueued i e).settleReady i).line d.line).config = (s.line c.line).config := by
    rw [line_settleReady hqueued, line_of_keeps keeps_transmitQueued (by decide), hd]
  rw [sent, circuit_settleStall_running hready, hconfig]

theorem line_sent (h : s.circuit i = some c) {d : Circuit} (hd : d = { c with transmit := c.transmit ++ [e] }) :
    (s.sent i e).line c.line = { s.line c.line with tx := { (s.line c.line).tx with
      ring := if d.canSend then joinTail (s.line c.line).tx.ring i else (s.line c.line).tx.ring } } := by
  have hline := line_settleReady (circuit_transmitQueued (e := e) h)
  rw [line_of_keeps keeps_transmitQueued (by decide)] at hline
  rw [sent, line_of_keeps (keeps_settleStall _ i) (by decide), hd, hline]

theorem line_sent_ne {m : LineNo} (h : s.circuit i = some c) (hm : m ≠ c.line) : (s.sent i e).line m = s.line m := by
  rw [sent, line_of_keeps (keeps_settleStall _ i) (by decide), line_settleReady_ne (circuit_transmitQueued h) hm,
    line_of_keeps keeps_transmitQueued (by decide)]

theorem slot_sent_ne (h : j ≠ i) : (s.sent i e).slot j = s.slot j := by
  rw [sent, slot_settleStall_ne h, slot_of_keeps (keeps_settleReady _ i) (by decide), transmitQueued,
    slot_modCircuit_ne _ h, slot_setPlace]

theorem generation_sent : ((s.sent i e).slot i).generation = (s.slot i).generation := by
  rw [sent, generation_settleStall, slot_of_keeps (keeps_settleReady _ i) (by decide), transmitQueued,
    generation_modCircuit, slot_setPlace]

theorem place_sent (d : BufNo) : (s.sent i e).place d = if d = e.buffer then .transmit i else s.place d := by
  rw [sent, place_of_keeps (keeps_settleStall _ i) (by decide), place_of_keeps (keeps_settleReady _ i) (by decide),
    transmitQueued, place_modCircuit, place_setPlace]

end State

/-- Settles O11: the buffer queued, readiness and the stall condition settled on the record as it then stands, and the command
finished. -/
theorem sendQueuesABuffer : Obligations.SendQueuesABuffer := by
  intro s p i c b htaken hnames hb hlo hhi hm hplace hs hroom c' hc'
  have ⟨_, hcirc, _⟩ := hnames
  have hnext : exec .send s = _ := next_of_ok htaken (State.sendBody_of_room hnames hb hlo hhi hm hplace hs hroom)
  refine ⟨_, hnext, State.answers_finish (State.keeps_sent.at_ports (by decide)) .ok _, ?_, ?_, fun d hd => ?_, ?_, ?_,
    fun j hj => ?_, fun m hm => ?_, State.keeps_sent.finish p .ok _⟩
  · rw [State.circuit_finish, State.circuit_sent hcirc hc']
  · rw [State.place_finish, State.place_sent, if_pos rfl]
  · rw [State.place_finish, State.place_sent, if_neg hd]
  · rw [State.line_finish, State.line_sent hcirc hc']
  · rw [State.slot_finish, State.generation_sent]
  · rw [State.slot_finish, State.slot_sent_ne hj]
  · rw [State.line_finish, State.line_sent_ne hcirc hm]

end Sys2Proof.Machine

namespace Sys2Proof.Machine

/-! ## RELEASE (R73, R88) -/

namespace State

variable {s : State} {p : PortNo} {a : Args} {i : SlotNo} {c : Circuit} {e : Entry} {rest : List Entry}

/-- The state in which the head buffer of a receive queue has gone back to the free queue, before the pool serves its credit wait queue
(R73). -/
def released (s : State) (i : SlotNo) (c : Circuit) (e : Entry) (rest : List Entry) : State :=
  (s.setCircuit i (some { c with receive := rest })).returnBuffer e.buffer

theorem keeps_released : Keeps [.slots, .freeQueue, .places] s (s.released i c e rest) :=
  (s.keeps_setCircuit i _).both (keeps_returnBuffer _ _) (by decide) (by decide)

/-- RELEASE with a receive queue that is not empty passes its checks, and reports what is left of the queue. -/
theorem releaseBody_of_head (h : s.namesOwn a.a0 p i c) (hq : c.receive = e :: rest) :
    releaseBody p a s = .ok ((s.released i c e rest).serveWait,
      { r0 := inBits 9 0 rest.length, r1 := receiveField rest.head? }) := by
  have hmod : (s.modCircuit i fun x => { x with receive := rest }) = s.setCircuit i (some { c with receive := rest }) := by
    rw [modCircuit, h.2.1]
    rfl
  simp only [releaseBody, handleArg_of_names h, ownedCircuit_of_names h, hq, hmod, bind, Except.bind]
  rfl

theorem releaseBody_of_empty (h : s.namesOwn a.a0 p i c) (hq : c.receive = []) : releaseBody p a s = .error .empty := by
  simp only [releaseBody, handleArg_of_names h, ownedCircuit_of_names h, hq, bind, Except.bind]

end State

/-- Settles O12: the head buffer returned and the wait queue served, or nothing but EMPTY answered, and the command finished. -/
theorem releaseReturnsTheHeadBuffer : Obligations.ReleaseReturnsTheHeadBuffer := by
  intro s p i c htaken hnames
  refine ⟨fun e rest hq u hu => ?_, fun hq => fails_of htaken rfl (State.releaseBody_of_empty hnames hq)⟩
  obtain rfl : u = s.released i c e rest := hu
  have hnext : exec .release s = _ := next_of_ok htaken (State.releaseBody_of_head hnames hq)
  have hkeeps : Keeps [.slots, .freeQueue, .places, .reservedTotal, .waitQueue, .lines] s
      (s.released i c e rest).serveWait :=
    State.keeps_released.both (State.keeps_serveWait _) (by decide) (by decide)
  exact ⟨_, hnext, State.answers_finish (hkeeps.at_ports (by decide)) .ok _, State.keeps_finish _ p .ok _,
    hkeeps.finish p .ok _⟩

/-! ## SET-CREDIT (R74, R86 to R88) -/

namespace State

variable {s : State} {p : PortNo} {a : Args} {i : SlotNo} {c : Circuit}

/-- The state in which a circuit's receive target has been set (R74). -/
def targeted (s : State) (i : SlotNo) (c : Circuit) (n : Nat) : State := s.setCircuit i (some { c with target := n })

/-- The state that SET-CREDIT leaves, up to its completion: short of its target the circuit waits for credit, and otherwise it does not
(R74). -/
def creditSet (s : State) (i : SlotNo) (c : Circuit) (n : Nat) : State :=
  if c.reserved < n then (s.targeted i c n).joinWait i else (s.targeted i c n).leaveWait i

/-- SET-CREDIT of the port's own circuit in OPEN or DRAINING passes its checks. -/
theorem setCreditBody_of_data (h : s.namesOwn a.a0 p i c) (hn : a.a1.toNat ≤ 15) (hs : c.state.inData = true) :
    setCreditBody p a s = .ok (s.creditSet i c a.a1.toNat, {}) := by
  have hmod : (s.modCircuit i fun x => { x with target := a.a1.toNat }) = s.targeted i c a.a1.toNat := by
    rw [modCircuit, h.2.1]
    rfl
  simp only [setCreditBody, handleArg_of_names h, ownedCircuit_of_names h, hn, hs, hmod, decide_true, require_true, bind,
    Except.bind]
  unfold creditSet
  split <;> rfl

theorem keeps_creditSet (n : Nat) : Keeps [.slots, .reservedTotal, .waitQueue, .lines] s (s.creditSet i c n) := by
  unfold creditSet
  split
  · exact (s.keeps_setCircuit i _).both (keeps_joinWait _ i) (by decide) (by decide)
  · exact (s.keeps_setCircuit i _).both (keeps_leaveWait _ i) (by decide) (by decide)

/-- A circuit that becomes short joins the tail of the credit wait queue, which the pool serves. -/
theorem creditSet_of_short {n : Nat} (h : c.reserved < n) (hw : i ∉ s.waitQueue) :
    s.creditSet i c n = ((s.targeted i c n).setWaitQueue (s.waitQueue ++ [i])).serveWait := by
  rw [creditSet, if_pos h]
  exact if_neg hw

/-- A circuit that waits already keeps its place. -/
theorem creditSet_of_waiting {n : Nat} (h : c.reserved < n) (hw : i ∈ s.waitQueue) :
    s.creditSet i c n = s.targeted i c n := by
  rw [creditSet, if_pos h]
  exact if_pos hw

/-- A circuit that is not short leaves the credit wait queue. -/
theorem creditSet_of_full {n : Nat} (h : n ≤ c.reserved) :
    s.creditSet i c n = (s.targeted i c n).setWaitQueue (leave s.waitQueue i) := by
  rw [creditSet, if_neg (Nat.not_lt.2 h)]
  rfl

end State

/-- Settles O13: the target set and the wait queue joined, kept or left, and the command finished. -/
theorem setCreditSetsTheTarget : Obligations.SetCreditSetsTheTarget := by
  intro s p i c htaken hnames hn hs u hu
  obtain rfl : u = s.targeted i c (s.port p).args.a1.toNat := hu
  have hnext : exec .setCredit s = _ := next_of_ok htaken (State.setCreditBody_of_data hnames hn (inData_of hs))
  have hkeeps := State.keeps_creditSet (s := s) (i := i) (c := c) (s.port p).args.a1.toNat
  refine ⟨_, hnext, State.answers_finish (hkeeps.at_ports (by decide)) .ok _, hkeeps.finish p .ok _, fun hshort hw => ?_,
    fun hshort hw => ?_, fun hfull => ?_⟩
  · rw [State.creditSet_of_short hshort hw]
    exact State.keeps_finish _ p .ok _
  · rw [State.creditSet_of_waiting hshort hw]
    exact State.keeps_finish _ p .ok _
  · rw [State.creditSet_of_full hfull]
    exact State.keeps_finish _ p .ok _

end Sys2Proof.Machine

namespace Sys2Proof.Machine

/-! ## Repeats are answered (R39, R60, R65) -/

namespace State

variable {s : State} {l : LineNo} {n a b : Byte} {i : SlotNo} {c : Circuit} {payload : List Byte}

/-- A sequence number that is not the next one, and lies up to 16 behind or within the credit given, is a repeat or out of order
(R58). -/
theorem carryClass_repeat {x : Seq} (hx : x ≠ c.nextExpected)
    (hnear : distance x c.nextExpected ≤ 16 ∨ distance c.nextExpected x < c.reserved) :
    carryClass c x = .duplicate ∨ carryClass c x = .outOfOrder := by
  have hahead : distance c.nextExpected x ≠ 0 := fun h => hx (distance_eq_zero.1 h).symm
  have hbehind : distance x c.nextExpected ≠ 0 := fun h => hx (distance_eq_zero.1 h)
  simp only [carryClass, hahead, if_false]
  by_cases hback : distance x c.nextExpected ≤ 16
  · exact .inl (if_pos ⟨by omega, hback⟩)
  · refine .inr ?_
    rw [if_neg (fun h => hback h.2), if_pos ⟨by omega, hnear.resolve_left hback⟩]

theorem carryArrives_repeat (h : s.mappedAt l n i c) (hs : c.state.inData = true)
    (hx : carryClass c (a.setWidth 5) = .duplicate ∨ carryClass c (a.setWidth 5) = .outOfOrder) :
    s.carryArrives l n a b payload = .next (s.owe i .credit).judgeAtn := by
  rcases hx with hx | hx <;> simp only [carryArrives, arrivalAt_of_mapped h, hs, hx, if_true]

theorem askArrives_data (h : s.mappedAt l n i c) (hs : c.state.inData = true) :
    s.askArrives l n = s.owe i .credit := by
  simp only [askArrives, arrivalAt_of_mapped h, hs, if_true]

theorem openArrives_remote {e : EntryNo} (h : s.mappedAt l n i c) (hs : c.state = .opened ∨ c.state.name = .draining)
    (ho : c.origin = .remoteCall e) : s.openArrives l n a b = s.owe i .grant := by
  rcases hs with hs | hs
  · simp only [openArrives, arrivalAt_of_mapped h, hs, ho]
  · obtain ⟨cause, hs⟩ := name_eq_draining hs
    simp only [openArrives, arrivalAt_of_mapped h, hs, ho]

/-- A CARRY frame is valid when its number and its three fields are in range (R131). -/
theorem frameValid_carry (h1 : 1 ≤ n.toNat) (h2 : n.toNat ≤ 127) (ha : a.toNat ≤ 31) (hb : b.toNat ≤ 1)
    (hlo : 1 ≤ payload.length) (hhi : payload.length ≤ 128) : frameValid ⟨n, .carry, a, b, payload⟩ = true :=
  frameValid_of h1 h2 (by simp [fieldsAllowed, hlo, hhi, BitVec.le_def, ha, hb])

end State

/-- Settles O40: each of the three frames makes the circuit owe one kind of control, and the ATN outputs are judged. -/
theorem repeatsAreAnswered : Obligations.RepeatsAreAnswered := by
  intro s l n a b payload i c x k hhears h1 h2 hmapped hl hs hx
  subst hl
  have ⟨_, hcirc⟩ := hmapped
  have hheard := State.mappedAt_setReceiver (.frame []) hmapped
  suffices hnext : exec x s = .next ((s.heard c.line).owe i k).judgeAtn by
    have howe := State.keeps_owe (s.heard c.line) i k
    have hjudge := State.keeps_judgeAtn ((s.heard c.line).owe i k)
    have hline := State.line_owe (s := s.heard c.line) hcirc k
    refine ⟨_, hnext, ?_, ?_, ?_, fun j hj => ?_, fun m hm => ?_, State.judged_judgeAtn (howe.at_ports (by decide)),
      ((s.keeps_heard c.line).both howe (by decide) (List.Subset.refl _)).both hjudge (by decide) (by decide)⟩
    · rw [State.circuit_judgeAtn, State.circuit_owe, if_pos rfl, State.circuit_setReceiver, hcirc]
      rfl
    · rw [State.line_of_keeps hjudge (by decide), hline, if_pos rfl, State.line_setReceiver_same]
    · rw [State.slot_judgeAtn, State.generation_owe, State.slot_setReceiver]
    · rw [State.slot_judgeAtn, State.slot_owe_ne hj, State.slot_setReceiver]
    · rw [State.line_of_keeps hjudge (by decide), hline, if_neg hm, State.line_setReceiver_ne hm]
  obtain ⟨rfl, rfl, ha, hb, hlo, hhi, hne, hnear⟩ | ⟨rfl, rfl⟩ | ⟨rfl, rfl, hb, e, ho⟩ := hx
  · have hother : (a.setWidth 5 : Seq) ≠ c.nextExpected := fun h => hne (by
      rw [← h, BitVec.toNat_setWidth]
      omega)
    rw [State.exec_carryFrame hhears (State.frameValid_carry h1 h2 ha hb hlo hhi),
      State.carryArrives_repeat hheard (inData_of_stage hs) (State.carryClass_repeat hother hnear)]
  · rw [State.exec_askFrame hhears (State.frameValid_of h1 h2 rfl), State.askArrives_data hheard (inData_of_stage hs)]
  · rw [State.exec_openFrame hhears (State.frameValid_open h1 h2 hb), State.openArrives_remote hheard hs ho]

end Sys2Proof.Machine

namespace Sys2Proof.Machine

/-! ## A CARRY frame in order (R58, R59, R83) -/

/-- A record that has taken an entry in order, DATA pending and CREDIT owed (R59). -/
def Circuit.carried (c : Circuit) (e : Entry) : Circuit :=
  { c with
    receive := c.receive ++ [e]
    nextExpected := c.nextExpected + 1
    reserved := c.reserved - 1
    conditions := c.conditions.union { data := true }
    owed := c.owed.put .credit true }

namespace State

variable {s : State} {l : LineNo} {n a b : Byte} {i : SlotNo} {c : Circuit} {p : PortNo} {buf : BufNo} {rest : List BufNo}
  {mark : Bool} {payload : List Byte}

/-- The next sequence number with a reservation held is in order. -/
theorem carryClass_next {x : Seq} (hx : x = c.nextExpected) (hr : 0 < c.reserved) : carryClass c x = .inOrder := by
  simp [carryClass, distance_eq_zero.2 hx.symm, hr]

theorem carryArrives_next (h : s.mappedAt l n i c) (hs : c.state.inData = true)
    (hx : carryClass c (a.setWidth 5) = .inOrder) (hq : s.freeQueue = buf :: rest) :
    s.carryArrives l n a b payload = .next (s.takeCarry i buf rest (b = 1) payload).judgeAtn := by
  simp only [carryArrives, arrivalAt_of_mapped h, hs, hx, hq, if_true]

/-- The state in which the payload stands in the head buffer of the free queue, and the buffer on the receive queue (R59, R83). -/
def carryStored (s : State) (i : SlotNo) (buf : BufNo) (rest : List BufNo) (mark : Bool) (payload : List Byte) : State :=
  ((((s.setFreeQueue rest).setReservedTotal (s.reservedTotal - 1)).setPlace buf (.receive i)).writeBuffer buf 0
    payload).modCircuit i fun c =>
      { c with
        receive := c.receive ++ [⟨buf, payload.length, mark⟩]
        nextExpected := c.nextExpected + 1
        reserved := c.reserved - 1 }

/-- The state in which DATA is raised and CREDIT owed besides, before the circuit joins the credit wait queue. -/
def carryTaken (s : State) (i : SlotNo) (buf : BufNo) (rest : List BufNo) (mark : Bool) (payload : List Byte) : State :=
  ((s.carryStored i buf rest mark payload).raise i { data := true }).owe i .credit

theorem takeCarry_eq : s.takeCarry i buf rest mark payload = (s.carryTaken i buf rest mark payload).joinWaitIfShort i := rfl

theorem keeps_carryStored :
    Keeps [.slots, .memory, .places, .freeQueue, .reservedTotal] s (s.carryStored i buf rest mark payload) := by
  refine Keeps.trans ?_ ((keeps_modCircuit _ i _).mono (by decide))
  refine Keeps.trans ?_ ((keeps_writeBuffer _ _ _ _).mono (by decide))
  refine Keeps.trans ?_ ((keeps_setPlace _ _ _).mono (by decide))
  exact (s.keeps_setFreeQueue _).both (keeps_setReservedTotal _ _) (by decide) (by decide)

/-- Raising DATA and owing CREDIT touch the record, the line and the owner's port. -/
theorem keeps_carryOwed : Keeps [.slots, .lines, .ports] (s.carryStored i buf rest mark payload)
    (s.carryTaken i buf rest mark payload) :=
  (keeps_raise _ i _).both (keeps_owe _ i _) (by decide) (by decide)

theorem keeps_carryTaken : Keeps [.slots, .memory, .places, .freeQueue, .reservedTotal, .lines, .ports] s
    (s.carryTaken i buf rest mark payload) :=
  keeps_carryStored.both keeps_carryOwed (by decide) (by decide)

theorem circuit_carryStored (h : s.circuit i = some c) : (s.carryStored i buf rest mark payload).circuit i
    = some { c.carried ⟨buf, payload.length, mark⟩ with conditions := c.conditions, owed := c.owed } := by
  rw [carryStored, circuit_modCircuit_same, circuit_writeBuffer, circuit_setPlace, circuit_setReservedTotal,
    circuit_setFreeQueue, h]
  rfl

/-- The record between the raising of DATA and the owing of CREDIT. -/
theorem circuit_raise_carryStored (h : s.circuit i = some c) (ho : c.owner = some p) :
    ((s.carryStored i buf rest mark payload).raise i { data := true }).circuit i
      = some { c.carried ⟨buf, payload.length, mark⟩ with owed := c.owed } := by
  rw [circuit_raise, if_pos rfl, circuit_carryStored h]
  simp [Circuit.carried, ho]

theorem circuit_carryTaken (h : s.circuit i = some c) (ho : c.owner = some p) :
    (s.carryTaken i buf rest mark payload).circuit i = some (c.carried ⟨buf, payload.length, mark⟩) := by
  rw [carryTaken, circuit_owe, if_pos rfl, circuit_raise_carryStored h ho]
  rfl

theorem line_carryTaken (h : s.circuit i = some c) (ho : c.owner = some p) :
    (s.carryTaken i buf rest mark payload).line c.line
      = { s.line c.line with tx := { (s.line c.line).tx with control := joinTail (s.line c.line).tx.control i } } := by
  rw [carryTaken, line_owe (circuit_raise_carryStored h ho), line_of_keeps (keeps_raise _ i _) (by decide),
    line_of_keeps keeps_carryStored (by decide)]
  exact if_pos rfl

theorem port_carryTaken (h : s.circuit i = some c) (ho : c.owner = some p) (q : PortNo) :
    (s.carryTaken i buf rest mark payload).port q
      = if c.owner = some q ∧ c.conditions = {} then (s.port q).joinedBy i else s.port q := by
  rw [carryTaken, port_of_keeps (keeps_owe _ i _) (by decide), port_raise (circuit_carryStored h) ho,
    port_of_keeps keeps_carryStored (by decide)]
  rfl

theorem actsOn_carryTaken (h : s.circuit i = some c) (ho : c.owner = some p) :
    ActsOn i c.line s (s.carryTaken i buf rest mark payload) := by
  refine ActsOn.trans ?_ (actsOn_owe (line_of_circuit (circuit_raise_carryStored h ho)) _)
  refine ActsOn.trans ?_ (actsOn_raise _)
  refine ActsOn.trans ?_ (ActsOn.modCircuit _)
  have hpool : Keeps [.freeQueue, .reservedTotal, .places] s
      (((s.setFreeQueue rest).setReservedTotal (s.reservedTotal - 1)).setPlace buf (.receive i)) :=
    ((s.keeps_setFreeQueue _).both (keeps_setReservedTotal _ _) (by decide) (by decide)).both (keeps_setPlace _ _ _)
      (xs := [.freeQueue, .reservedTotal]) (by decide) (by decide)
  exact ActsOn.of_keeps (hpool.both (keeps_writeBuffer _ _ _ _) (zs := [.freeQueue, .reservedTotal, .places, .memory])
    (by decide) (by decide)) i c.line (by decide) (by decide) (by decide)

theorem freeQueue_carryTaken : (s.carryTaken i buf rest mark payload).freeQueue = rest :=
  keeps_carryOwed.at_freeQueue (by decide)

theorem reservedTotal_carryTaken : (s.carryTaken i buf rest mark payload).reservedTotal = s.reservedTotal - 1 :=
  keeps_carryOwed.at_reservedTotal (by decide)

theorem waitQueue_carryTaken : (s.carryTaken i buf rest mark payload).waitQueue = s.waitQueue :=
  keeps_carryTaken.at_waitQueue (by decide)

/-- A reserved buffer taken from the free queue leaves as many available as before (R81, R83). -/
theorem available_carryTaken (hq : s.freeQueue = buf :: rest) (hr : 0 < s.reservedTotal) :
    (s.carryTaken i buf rest mark payload).available = s.available := by
  rw [available, available, freeQueue_carryTaken, reservedTotal_carryTaken, hq, List.length_cons]
  omega

/-- When nothing is available, the free queue being not empty, something is reserved. -/
theorem reservedTotal_pos_of_unavailable (hq : s.freeQueue = buf :: rest) (ha : s.available = 0) :
    0 < s.reservedTotal := by
  rw [available, hq, List.length_cons] at ha
  omega

theorem place_carryTaken (d : BufNo) : (s.carryTaken i buf rest mark payload).place d
    = if d = buf then .receive i else s.place d := by
  rw [place_of_keeps keeps_carryOwed (by decide), carryStored, place_modCircuit, place_writeBuffer, place_setPlace,
    place_setReservedTotal, place_setFreeQueue]

theorem bufferByte_carryTaken (d : BufNo) {k : Nat} (hk : k < 128) :
    (s.carryTaken i buf rest mark payload).bufferByte d k
      = if d = buf then (payload[k]?).getD (s.bufferByte d k) else s.bufferByte d k := by
  rw [bufferByte_of_keeps keeps_carryOwed (by decide), carryStored, bufferByte_modCircuit,
    bufferByte_writeBuffer _ _ _ _ _ hk, bufferByte_setPlace, bufferByte_setReservedTotal, bufferByte_setFreeQueue]
  simp

/-- The parts that the joining of the credit wait queue leaves alone once the frame is taken. -/
theorem keeps_takeCarry_judgeAtn : Keeps [.slots, .lines, .reservedTotal, .waitQueue, .ports]
    (s.carryTaken i buf rest mark payload) (s.takeCarry i buf rest mark payload).judgeAtn :=
  (keeps_joinWaitIfShort _ i).both (keeps_judgeAtn _) (by decide) (by decide)

theorem actsOn_takeCarry (h : s.circuit i = some c) (ho : c.owner = some p) :
    ActsOn i c.line s (s.takeCarry i buf rest mark payload) :=
  (actsOn_carryTaken h ho).trans actsOn_joinWaitIfShort

/-- What a CARRY frame in order comes to, up to the judgement: the record with what it is granted at once, the queues of its line, and
no grant when it is not short of its target or nothing is available (R59, R66, R86, R88). -/
theorem takeCarry_spec (h : s.circuit i = some c) (ho : c.owner = some p) :
    ∃ g, (s.takeCarry i buf rest mark payload).circuit i = some ((c.carried ⟨buf, payload.length, mark⟩).granted g)
      ∧ Queued i c.line s (s.takeCarry i buf rest mark payload) (0 < g)
          (fun more => joinTail (s.line c.line).tx.control i ++ more) (s.line c.line).tx.ring (s.line c.line).tx.stray
      ∧ (c.target ≤ c.reserved - 1 ∨ (s.carryTaken i buf rest mark payload).available = 0 → g = 0) := by
  obtain ⟨g, hg, hlines, hzero⟩ := joinWaitIfShort_spec
    (circuit_carryTaken (buf := buf) (rest := rest) (mark := mark) (payload := payload) h ho)
  obtain ⟨more, hmore, hjoined, -⟩ := hlines c.line
  rw [line_carryTaken h ho] at hjoined
  refine ⟨g, hg, ⟨more, fun j hj => ?_, hjoined⟩, fun hnone => ?_⟩
  · obtain hown | ⟨hne, hwaits, hgains⟩ := hmore j hj
    · exact .inl hown
    · rw [waitQueue_carryTaken] at hwaits
      exact .inr ⟨hne, hwaits, (actsOn_carryTaken h ho).gains (.refl i c.line _) hne hgains⟩
  · exact hzero (hnone.imp_left fun hle => decide_eq_false (Nat.not_lt.2 hle))

/-- A circuit that is not short does not join the credit wait queue. -/
theorem takeCarry_of_full (h : s.circuit i = some c) (ho : c.owner = some p) (hle : c.target ≤ c.reserved - 1) :
    s.takeCarry i buf rest mark payload = s.carryTaken i buf rest mark payload :=
  joinWaitIfShort_of_not_short (circuit_carryTaken h ho) (decide_eq_false (Nat.not_lt.2 hle))

/-- A short circuit waits when nothing is available. -/
theorem takeCarry_of_unavailable (h : s.circuit i = some c) (ho : c.owner = some p) (hlt : c.reserved - 1 < c.target)
    (ha : (s.carryTaken i buf rest mark payload).available = 0) :
    s.takeCarry i buf rest mark payload
      = (s.carryTaken i buf rest mark payload).setWaitQueue (joinTail s.waitQueue i) := by
  rw [takeCarry_eq, joinWaitIfShort_of_unavailable (circuit_carryTaken h ho) (decide_eq_true hlt) ha, waitQueue_carryTaken]

end State

/-- Settles O39: the frame taken into the head buffer, the credit wait queue joined by a circuit then short, and the ATN outputs
judged. -/
theorem carryInOrderIsTaken : Obligations.CarryInOrderIsTaken := by
  intro s l n a b payload i c p buf rest hhears h1 h2 hb hlo hhi hmapped hl howner hs ha hr hq
  subst hl
  have ⟨_, hcirc⟩ := hmapped
  have hheard : (s.heard c.line).circuit i = some c := hcirc
  have hfree : (s.heard c.line).freeQueue = buf :: rest := hq
  have hseq : (a.setWidth 5 : Seq) = c.nextExpected := BitVec.eq_of_toNat_eq (by rw [BitVec.toNat_setWidth]; omega)
  have hnext := State.exec_carryFrame hhears (State.frameValid_carry (a := a) h1 h2 (by omega) hb hlo hhi)
  rw [State.carryArrives_next (State.mappedAt_setReceiver _ hmapped) (inData_of_stage hs) (State.carryClass_next hseq hr)
    hfree] at hnext
  have hjudge := State.keeps_judgeAtn ((s.heard c.line).takeCarry i buf rest (b = 1) payload)
  have hlater := State.keeps_takeCarry_judgeAtn (s := s.heard c.line) (i := i) (buf := buf) (rest := rest)
    (mark := b = 1) (payload := payload)
  obtain ⟨g, hg, hqueued, hzero⟩ := State.takeCarry_spec (buf := buf) (rest := rest) (mark := b = 1) (payload := payload)
    hheard howner
  rw [State.tx_heard] at hqueued
  refine ⟨_, g, hnext, ?_, fun hle _ => ⟨hzero (.inl hle), ?_, ?_⟩, fun hlt hnone => ?_, fun hlt hw hpos => ?_, ?_, ?_,
    fun d hd => ?_, fun k v hv => ?_, fun d k hk hout => ?_,
    hqueued.after State.actsOn_judgeAtn (State.line_of_keeps hjudge (by decide) _), State.attends_judgeAtn fun q => ?_,
    (State.actsOn_takeCarry hheard howner).trans State.actsOn_judgeAtn,
    ((s.keeps_heard c.line).both State.keeps_carryTaken (by decide) (List.Subset.refl _)).both hlater (by decide)
      (by decide)⟩
  · rw [State.circuit_judgeAtn, hg]
    rfl
  · rw [hjudge.at_waitQueue (by decide), State.takeCarry_of_full hheard howner hle, State.waitQueue_carryTaken]
    rfl
  · rw [hjudge.at_reservedTotal (by decide), State.takeCarry_of_full hheard howner hle, State.reservedTotal_carryTaken]
    rfl
  · have hunavailable : ((s.heard c.line).carryTaken i buf rest (b = 1) payload).available = 0 :=
      (State.available_carryTaken hfree (State.reservedTotal_pos_of_unavailable hfree hnone)).trans hnone
    refine ⟨hzero (.inr hunavailable), ?_, ?_⟩
    · rw [hjudge.at_waitQueue (by decide), State.takeCarry_of_unavailable hheard howner hlt hunavailable]
      rfl
    · rw [hjudge.at_reservedTotal (by decide), State.takeCarry_of_unavailable hheard howner hlt hunavailable,
        State.setWaitQueue_reservedTotal, State.reservedTotal_carryTaken]
      rfl
  · obtain ⟨halone, hwait, htotal⟩ := State.joinWaitIfShort_alone
      (State.circuit_carryTaken (buf := buf) (rest := rest) (mark := b = 1) (payload := payload) hheard howner) hlt
      (State.waitQueue_carryTaken.trans hw)
    rw [State.available_carryTaken hfree hpos] at halone hwait htotal
    rw [State.reservedTotal_carryTaken] at htotal
    have hgrants := Circuit.granted_inj (Option.some.inj (hg.symm.trans halone))
    refine ⟨hgrants, ?_, ?_⟩
    · rw [hjudge.at_waitQueue (by decide)]
      exact hwait
    · rw [hjudge.at_reservedTotal (by decide), hgrants]
      exact htotal
  · rw [hlater.at_freeQueue (by decide), State.freeQueue_carryTaken]
  · rw [State.place_of_keeps hlater (by decide), State.place_carryTaken, if_pos rfl]
  · rw [State.place_of_keeps hlater (by decide), State.place_carryTaken, if_neg hd, State.place_setReceiver]
  · obtain ⟨hk, -⟩ := List.getElem?_eq_some_iff.1 hv
    rw [State.bufferByte_of_keeps hlater (by decide), State.bufferByte_carryTaken _ (by omega), if_pos rfl, hv,
      Option.getD_some]
  · rw [State.bufferByte_of_keeps hlater (by decide), State.bufferByte_carryTaken _ hk, State.bufferByte_setReceiver]
    rcases hout with hd | hlong
    · rw [if_neg hd]
    · rw [List.getElem?_eq_none hlong, Option.getD_none, ite_self]
  · rw [State.takeCarry_eq, State.port_of_keeps (State.keeps_joinWaitIfShort _ i) (by decide),
      State.port_carryTaken hheard howner]
    rfl

end Sys2Proof.Machine

namespace Sys2Proof.Machine

/-! ## Records through a CREDIT frame (R61, R62, R63) -/

namespace Circuit

variable (c : Circuit) (n : Nat)

/-- A record whose n oldest unacknowledged entries have been acknowledged, with the acknowledge base and the far edge that the frame
leaves: DELIVERED is pending when n is not 0 (R61, R62, R174). -/
def acknowledged (ackBase farEdge : Seq) : Circuit :=
  { c with
    unacked := c.unacked.drop n
    ackBase := ackBase
    delivered := min 65535 (c.delivered + n)
    conditions := if 0 < n then c.conditions.union { delivered := true } else c.conditions
    farEdge := farEdge }

/-- A record that owes ASK no longer, its retries forgotten when the frame acknowledged something or nothing was outstanding (R63). -/
def answered (wasEmpty : Bool) : Circuit :=
  { c with retry := if 0 < n ∨ wasEmpty then 0 else c.retry, owed := c.owed.put .ask false }

/-- The circuit timer after a CREDIT frame that acknowledged n entries, its duration being the line's (R57, R63). -/
def creditTimer (duration : Nat) : Option Timer :=
  if c.unacked ≠ [] then (if 0 < n then some ⟨.ackWait, duration⟩ else c.timer)
  else if c.stalled then (if c.waits .stallWait then c.timer else some ⟨.stallWait, duration⟩)
  else none

/-- A record after R63 has been settled, but for a drain that completes. -/
def creditSettled (wasEmpty : Bool) (duration : Nat) : Circuit :=
  { c.answered n wasEmpty with timer := (c.answered n wasEmpty).creditTimer n duration }

variable (g : Nat)

/-- Grants touch nothing that R63 looks at. -/
theorem granted_creditTimer (duration : Nat) : (c.granted g).creditTimer n duration = c.creditTimer n duration := by
  unfold Circuit.granted
  split <;> rfl

theorem granted_answered (wasEmpty : Bool) :
    (c.granted g).answered n wasEmpty = (c.answered n wasEmpty).granted g := by
  unfold Circuit.granted
  split <;> rfl

theorem granted_creditSettled (wasEmpty : Bool) (duration : Nat) :
    (c.granted g).creditSettled n wasEmpty duration = (c.creditSettled n wasEmpty duration).granted g := by
  unfold creditSettled
  rw [granted_answered, granted_creditTimer]
  exact (granted_with_timer _ g _).symm

/-- CREDIT is owed after a grant, so that a granted record owes nothing only when it was granted nothing. -/
theorem granted_owed_eq_empty : (c.granted g).owed = {} ↔ g = 0 ∧ c.owed = {} := by
  unfold Circuit.granted
  by_cases hg : g = 0
  · simp [hg]
  · simp [hg, Owed.put]

/-- A record that has been granted g reservations and enters CLOSING keeps of them the receive edge alone. -/
theorem granted_closed (cause : Byte) :
    (c.granted g).closed cause = { c.closed cause with receiveEdge := c.receiveEdge + BitVec.ofNat 5 g } := by
  unfold Circuit.granted
  split
  · rename_i hg
    simp [Circuit.closed, hg]
  · rfl

theorem granted_state : (c.granted g).state = c.state := by
  unfold Circuit.granted
  split <;> rfl

theorem granted_transmit : (c.granted g).transmit = c.transmit := by
  unfold Circuit.granted
  split <;> rfl

theorem granted_unacked : (c.granted g).unacked = c.unacked := by
  unfold Circuit.granted
  split <;> rfl

end Circuit

/-! ## What R63 settles -/

namespace State

variable {s : State} {i : SlotNo} {c : Circuit} {n : Nat} {wasEmpty : Bool}

/-- The state in which the retries are settled and ASK is owed no longer (R63, steps 1 and 2). -/
def creditAnswered (s : State) (i : SlotNo) (n : Nat) (wasEmpty : Bool) : State :=
  (if 0 < n || wasEmpty then s.modCircuit i fun c => { c with retry := 0 } else s).dropOwed i .ask

/-- The state in which the timer and readiness are settled besides, before a drain completes (R63, steps 3 and 4). -/
def creditReady (s : State) (i : SlotNo) (n : Nat) (wasEmpty : Bool) : State :=
  ((s.creditAnswered i n wasEmpty).settleTimer i n).settleReady i

/-- The retries are forgotten when the frame acknowledged something or nothing was outstanding. -/
theorem circuit_retriesSettled (h : s.circuit i = some c) :
    (if 0 < n || wasEmpty then s.modCircuit i fun c => { c with retry := 0 } else s).circuit i
      = some { c with retry := if 0 < n ∨ wasEmpty then 0 else c.retry } := by
  by_cases hretry : 0 < n ∨ wasEmpty
  · rw [if_pos hretry, if_pos (by simpa using hretry), circuit_modCircuit_same, h]
    rfl
  · rw [if_neg hretry, if_neg (by simpa using hretry), h]

theorem keeps_retriesSettled :
    Keeps [.slots] s (if 0 < n || wasEmpty then s.modCircuit i fun c => { c with retry := 0 } else s) := by
  split
  · exact s.keeps_modCircuit i _
  · exact .refl _ s

theorem actsOn_retriesSettled (l : LineNo) :
    ActsOn i l s (if 0 < n || wasEmpty then s.modCircuit i fun c => { c with retry := 0 } else s) := by
  split
  · exact ActsOn.modCircuit _
  · exact .refl i l s

theorem circuit_creditAnswered (h : s.circuit i = some c) :
    (s.creditAnswered i n wasEmpty).circuit i = some (c.answered n wasEmpty) := by
  rw [creditAnswered, circuit_dropOwed, if_pos rfl, circuit_retriesSettled h]
  rfl

theorem keeps_creditAnswered : Keeps [.slots, .lines] s (s.creditAnswered i n wasEmpty) :=
  keeps_retriesSettled.both (keeps_dropOwed _ i _) (by decide) (by decide)

theorem actsOn_creditAnswered (h : s.circuit i = some c) : ActsOn i c.line s (s.creditAnswered i n wasEmpty) :=
  (actsOn_retriesSettled c.line).trans (actsOn_dropOwed (line_of_circuit (circuit_retriesSettled h)) _)

/-- Owing nothing takes the circuit off its line's control queue (R63, step 2). -/
theorem line_creditAnswered (h : s.circuit i = some c) : (s.creditAnswered i n wasEmpty).line c.line
    = { s.line c.line with tx := { (s.line c.line).tx with
        control := if c.owed.put .ask false = {} then leave (s.line c.line).tx.control i
          else (s.line c.line).tx.control } } := by
  rw [creditAnswered, line_dropOwed (circuit_retriesSettled h), line_of_keeps keeps_retriesSettled (by decide)]
  by_cases howed : c.owed.put .ask false = {} <;> simp [howed]

theorem circuit_settleTimer (h : s.circuit i = some c) : (s.settleTimer i n).circuit i
    = some { c with timer := c.creditTimer n (s.line c.line).config.retransmit } := by
  have start : ∀ w, (s.startTimer i w).circuit i = some { c with timer := some ⟨w, (s.line c.line).config.duration w⟩ } :=
    fun w => by rw [circuit_startTimer, if_pos rfl, h]; rfl
  simp only [settleTimer, h, Circuit.creditTimer, ne_eq, ite_not, Bool.not_eq_true', List.isEmpty_eq_false_iff]
  by_cases hunacked : c.unacked = []
  · rw [if_pos hunacked, if_pos hunacked]
    by_cases hstall : c.stalled = true
    · rw [if_pos hstall, if_pos hstall]
      by_cases hwait : c.waits .stallWait = true
      · rw [if_pos hwait, if_pos hwait, h]
      · rw [if_neg hwait, if_neg hwait, start]
        rfl
    · rw [if_neg hstall, if_neg hstall, circuit_stopTimer_same h]
  · rw [if_neg hunacked, if_neg hunacked]
    by_cases hn : 0 < n
    · rw [if_pos hn, if_pos hn, start]
      rfl
    · rw [if_neg hn, if_neg hn, h]

theorem actsOn_settleTimer (l : LineNo) : ActsOn i l s (s.settleTimer i n) := by
  unfold settleTimer
  split
  · exact .refl i l s
  · split
    · split
      · exact ActsOn.modCircuit _
      · exact .refl i l s
    · split
      · split
        · exact .refl i l s
        · exact ActsOn.modCircuit _
      · exact ActsOn.modCircuit _

/-- The record between the settling of the timer and of readiness. -/
theorem circuit_settleTimer_creditAnswered (h : s.circuit i = some c) :
    ((s.creditAnswered i n wasEmpty).settleTimer i n).circuit i
      = some (c.creditSettled n wasEmpty (s.line c.line).config.retransmit) := by
  have hconfig : ((s.creditAnswered i n wasEmpty).line c.line).config = (s.line c.line).config := by
    rw [line_creditAnswered h]
  rw [circuit_settleTimer (circuit_creditAnswered h), ← hconfig]
  rfl

theorem circuit_creditReady (h : s.circuit i = some c) : (s.creditReady i n wasEmpty).circuit i
    = some (c.creditSettled n wasEmpty (s.line c.line).config.retransmit) := by
  rw [creditReady, circuit_of_keeps (keeps_settleReady _ i) (by decide), circuit_settleTimer_creditAnswered h]

theorem line_creditReady (h : s.circuit i = some c) : (s.creditReady i n wasEmpty).line c.line
    = { s.line c.line with tx := { (s.line c.line).tx with
        control := if c.owed.put .ask false = {} then leave (s.line c.line).tx.control i
          else (s.line c.line).tx.control
        ring := if c.canSend then joinTail (s.line c.line).tx.ring i else (s.line c.line).tx.ring } } := by
  have hline := line_settleReady (circuit_settleTimer_creditAnswered (n := n) (wasEmpty := wasEmpty) h)
  rw [line_of_keeps (keeps_settleTimer _ i n) (by decide)] at hline
  refine hline.trans ?_
  rw [show (c.creditSettled n wasEmpty (s.line c.line).config.retransmit).line = c.line from rfl, line_creditAnswered h]
  rfl

theorem actsOn_creditReady (h : s.circuit i = some c) : ActsOn i c.line s (s.creditReady i n wasEmpty) := by
  have hline := line_of_circuit (circuit_settleTimer_creditAnswered (n := n) (wasEmpty := wasEmpty) h)
  exact ((actsOn_creditAnswered h).trans (actsOn_settleTimer c.line)).trans (actsOn_settleReady hline)

/-! ## Drains (R43) -/

/-- A drain with nothing left to send or to acknowledge completes (R43). -/
theorem settleDrain_of_drained {cause : Byte} (h : s.circuit i = some c) (hs : c.state = .draining cause)
    (ht : c.transmit = []) (hu : c.unacked = []) : s.settleDrain i = s.enterClosing i cause := by
  simp [settleDrain, h, hs, ht, hu]

/-- An OPEN circuit, and a drain with something left, stay as they are. -/
theorem settleDrain_of_busy (h : s.circuit i = some c) (hs : c.state = .opened ∨ c.transmit ≠ [] ∨ c.unacked ≠ []) :
    s.settleDrain i = s := by
  simp only [settleDrain, h]
  split
  · rename_i hstate
    have hbusy : (c.transmit.isEmpty && c.unacked.isEmpty) = false := by
      rcases hs with hs | hs | hs
      · rw [hs] at hstate; cases hstate
      · simp [hs]
      · simp [hs]
    rw [hbusy]
    rfl
  · rfl

theorem actsOn_settleDrain (h : s.circuit i = some c) : ActsOn i c.line s (s.settleDrain i) := by
  simp only [settleDrain, h]
  split
  · split
    · exact actsOn_enterClosing (line_of_circuit h) _
    · exact .refl i c.line s
  · exact .refl i c.line s

theorem actsOn_settleCredit (h : s.circuit i = some c) : ActsOn i c.line s (s.settleCredit i n wasEmpty) := by
  have hdrain := actsOn_settleDrain (circuit_creditReady (n := n) (wasEmpty := wasEmpty) h)
  exact (actsOn_creditReady h).trans hdrain

end State

end Sys2Proof.Machine

namespace Sys2Proof.Machine

/-! ## Acknowledgements (R61, R62) -/

/-- Acknowledging nothing, behind the base, changes nothing of a record whose count is within its limit (R174). -/
theorem Circuit.acknowledged_zero {c : Circuit} (h : c.delivered ≤ 65535) : c.acknowledged 0 c.ackBase c.farEdge = c := by
  simp only [Circuit.acknowledged, Nat.add_zero, Nat.min_eq_right h, List.drop_zero]
  rfl

/-- The buffers of the n oldest unacknowledged entries of a record. -/
abbrev Circuit.oldest (c : Circuit) (n : Nat) : List BufNo := (c.unacked.take n).map (·.entry.buffer)

/-- Between two states a CREDIT frame at the circuit c in slot i has been acted on up to what R63 settles: it acknowledged n entries,
whose buffers returned, and of what returned the circuit was granted g reservations itself (R61, R62, R66). -/
structure Acknowledges (i : SlotNo) (c : Circuit) (n : Nat) (ackBase farEdge : Seq) (g : Nat) (s u : State) : Prop where
  record : u.circuit i = some ((c.acknowledged n ackBase farEdge).granted g)
  queues : Queued i c.line s u (0 < g) (fun more => (s.line c.line).tx.control ++ more) (s.line c.line).tx.ring
    (s.line c.line).tx.stray
  grants : i ∉ s.waitQueue ∨ n = 0 ∧ s.available = 0 → g = 0
  freeQueue : u.freeQueue = s.freeQueue ++ c.oldest n
  places : ∀ b, u.place b = if b ∈ c.oldest n then .free else s.place b
  ports : ∀ q, u.port q = if 0 < n ∧ c.owner = some q ∧ c.conditions = {} then (s.port q).joinedBy i else s.port q
  acts : ActsOn i c.line s u
  keeps : Keeps [.slots, .places, .freeQueue, .reservedTotal, .waitQueue, .lines, .ports] s u

namespace State

variable {s : State} {l : LineNo} {k a b : Byte} {i : SlotNo} {c : Circuit} {p : PortNo} {n : Nat} {ack edge : Seq}

/-- What service of the credit wait queue does at one circuit: it is granted some number of reservations, none when it does not wait or
nothing is available, and stands among those that join control queues only if it is granted one (R66, R88). -/
theorem serveWait_spec (h : s.circuit i = some c) (l : LineNo) :
    ∃ g, s.serveWait.circuit i = some (c.granted g)
      ∧ Queued i l s s.serveWait (0 < g) (fun more => (s.line l).tx.control ++ more) (s.line l).tx.ring
          (s.line l).tx.stray
      ∧ (i ∉ s.waitQueue ∨ s.available = 0 → g = 0) := by
  have served := served_serveWait s
  obtain ⟨g, hg, hnone⟩ := served.circuits i
  rw [h, Option.map_some] at hg
  obtain ⟨more, hmore, hline⟩ := served.lines l
  refine ⟨g, hg, ⟨more, fun j hj => ?_, hline⟩, fun hquiet => ?_⟩
  · obtain ⟨hwaits, hgains⟩ := hmore j hj
    by_cases hji : j = i
    · subst hji
      obtain ⟨d, m, hd, hm, hgained⟩ := hgains
      obtain rfl : c = d := Option.some.inj (h.symm.trans hd)
      have hgm : g = m := Circuit.granted_inj (Option.some.inj (hg.symm.trans hgained))
      exact .inl ⟨rfl, hgm ▸ hm⟩
    · exact .inr ⟨hji, hwaits, hgains⟩
  · rcases hquiet with hout | hunavailable
    · exact hnone hout
    · rw [serveWait_of_unavailable hunavailable, h] at hg
      exact (Circuit.granted_inj (c := c) (m := 0) (Option.some.inj hg)).symm

/-- A frame behind the acknowledge base acknowledges nothing (R61). -/
theorem acknowledges_nothing (h : s.circuit i = some c) (hd : c.delivered ≤ 65535) :
    Acknowledges i c 0 c.ackBase c.farEdge 0 s s where
  record := by rw [Circuit.acknowledged_zero hd, Circuit.granted_zero, h]
  queues := ⟨[], by simp, by simp⟩
  grants _ := rfl
  freeQueue := by simp
  places := by simp
  ports := by simp
  acts := .refl i c.line s
  keeps := .refl _ s

/-- The state in which n entries have left the unacknowledged list and their buffers the circuit, before the pool serves its credit wait
queue (R61). -/
def entriesReturned (s : State) (i : SlotNo) (c : Circuit) (n : Nat) (ack : Seq) : State :=
  (s.setCircuit i (some { c with unacked := c.unacked.drop n, ackBase := ack })).returnBuffers (c.oldest n)

/-- The state in which the pool has served the queue and the delivered count has risen (R61, R174). -/
def entriesCounted (s : State) (i : SlotNo) (c : Circuit) (n : Nat) (ack : Seq) : State :=
  (s.entriesReturned i c n ack).serveWait.modCircuit i
    fun x => { x with delivered := min Config.countMax (x.delivered + n) }

/-- The state in which DELIVERED is raised, if anything was, and the far edge has moved (R61, R62). -/
def creditTaken (s : State) (i : SlotNo) (c : Circuit) (n : Nat) (ack edge : Seq) : State :=
  (s.acknowledge i c n ack).modCircuit i fun x => { x with farEdge := farEdgeAfter x.farEdge ack edge }

theorem acknowledge_eq : s.acknowledge i c n ack
    = if 0 < n then (s.entriesCounted i c n ack).raise i { delivered := true } else s.entriesCounted i c n ack := rfl

theorem keeps_entriesReturned : Keeps [.slots, .places, .freeQueue] s (s.entriesReturned i c n ack) :=
  (s.keeps_setCircuit i _).both (keeps_returnBuffers _ _) (by decide) (by decide)

theorem keeps_entriesCounted : Keeps [.slots, .lines, .reservedTotal, .waitQueue] (s.entriesReturned i c n ack)
    (s.entriesCounted i c n ack) :=
  (keeps_serveWait _).both (keeps_modCircuit _ i _) (by decide) (by decide)

theorem keeps_acknowledge_raise : Keeps [.slots, .ports] (s.entriesCounted i c n ack) (s.acknowledge i c n ack) := by
  rw [acknowledge_eq]
  split
  · exact keeps_raise _ i _
  · exact .refl _ _

/-- What follows the delivered count touches the record and the owner's port alone. -/
theorem keeps_creditTaken : Keeps [.slots, .ports] (s.entriesCounted i c n ack) (s.creditTaken i c n ack edge) :=
  keeps_acknowledge_raise.both (keeps_modCircuit _ i _) (by decide) (by decide)

theorem actsOn_entriesReturned (l : LineNo) : ActsOn i l s (s.entriesReturned i c n ack) :=
  (ActsOn.setCircuit _).trans (ActsOn.of_keeps (keeps_returnBuffers _ _) i l (by decide) (by decide) (by decide))

/-- What follows the service of the credit wait queue acts on the circuit alone. -/
theorem actsOn_creditTaken (l : LineNo) :
    ActsOn i l (s.entriesReturned i c n ack).serveWait (s.creditTaken i c n ack edge) := by
  have hcounted : ActsOn i l (s.entriesReturned i c n ack).serveWait (s.entriesCounted i c n ack) := ActsOn.modCircuit _
  refine ActsOn.trans ?_ (ActsOn.modCircuit _)
  rw [acknowledge_eq]
  split
  · exact hcounted.trans (actsOn_raise _)
  · exact hcounted

theorem circuit_entriesReturned :
    (s.entriesReturned i c n ack).circuit i = some { c with unacked := c.unacked.drop n, ackBase := ack } := by
  rw [entriesReturned, circuit_of_keeps (keeps_returnBuffers _ _) (by decide), circuit_setCircuit_same]

/-- The record when the delivered count has risen, g being what service granted it. -/
theorem circuit_entriesCounted {g : Nat} (hg : (s.entriesReturned i c n ack).serveWait.circuit i
      = some ({ c with unacked := c.unacked.drop n, ackBase := ack }.granted g)) :
    (s.entriesCounted i c n ack).circuit i
      = some ({ c.acknowledged n ack c.farEdge with conditions := c.conditions }.granted g) := by
  rw [entriesCounted, circuit_modCircuit_same, hg]
  unfold Circuit.granted
  split <;> rfl

theorem circuit_creditTaken {g : Nat} (ho : c.owner = some p) (hg : (s.entriesReturned i c n ack).serveWait.circuit i
      = some ({ c with unacked := c.unacked.drop n, ackBase := ack }.granted g)) :
    (s.creditTaken i c n ack edge).circuit i
      = some ((c.acknowledged n ack (farEdgeAfter c.farEdge ack edge)).granted g) := by
  have hcounted := circuit_entriesCounted hg
  have hraised : (s.acknowledge i c n ack).circuit i = some ((c.acknowledged n ack c.farEdge).granted g) := by
    rw [acknowledge_eq]
    by_cases hn : 0 < n
    · rw [if_pos hn, circuit_raise, if_pos rfl, hcounted]
      unfold Circuit.granted
      split <;> simp [Circuit.acknowledged, ho, hn]
    · rw [if_neg hn, hcounted]
      unfold Circuit.granted
      split <;> simp [Circuit.acknowledged, hn]
  rw [creditTaken, circuit_modCircuit_same, hraised]
  unfold Circuit.granted
  split <;> rfl

theorem port_creditTaken {g : Nat} (ho : c.owner = some p) (hg : (s.entriesReturned i c n ack).serveWait.circuit i
      = some ({ c with unacked := c.unacked.drop n, ackBase := ack }.granted g)) (q : PortNo) :
    (s.creditTaken i c n ack edge).port q
      = if 0 < n ∧ c.owner = some q ∧ c.conditions = {} then (s.port q).joinedBy i else s.port q := by
  have hcounted := circuit_entriesCounted hg
  have howner : (Circuit.granted { c.acknowledged n ack c.farEdge with conditions := c.conditions } g).owner = c.owner := by
    unfold Circuit.granted
    split <;> rfl
  have hpending : (Circuit.granted { c.acknowledged n ack c.farEdge with conditions := c.conditions } g).conditions
      = c.conditions := by
    unfold Circuit.granted
    split <;> rfl
  have hport : (s.entriesCounted i c n ack).port q = s.port q := by
    rw [port_of_keeps keeps_entriesCounted (by decide), port_of_keeps keeps_entriesReturned (by decide)]
  rw [creditTaken, port_modCircuit, acknowledge_eq]
  by_cases hn : 0 < n
  · rw [if_pos hn, port_raise hcounted (howner.trans ho), howner, hpending, hport]
    simp only [hn, true_and]
  · rw [if_neg hn, hport, if_neg fun h => hn h.1]

/-- Nothing returns when nothing is acknowledged. -/
theorem available_entriesReturned_zero : (s.entriesReturned i c 0 ack).available = s.available := rfl

/-- An acknowledgement of n entries, and the far edge that the frame gives (R61, R62). -/
theorem acknowledges_entries (ho : c.owner = some p) :
    ∃ g, Acknowledges i c n ack (farEdgeAfter c.farEdge ack edge) g s (s.creditTaken i c n ack edge) := by
  obtain ⟨g, hg, hqueued, hnone⟩ := serveWait_spec (circuit_entriesReturned (s := s) (i := i) (c := c) (n := n) (ack := ack))
    c.line
  have hbefore : (s.entriesReturned i c n ack).line c.line = s.line c.line :=
    line_of_keeps keeps_entriesReturned (by decide) _
  have hafter : (s.creditTaken i c n ack edge).line c.line = (s.entriesReturned i c n ack).serveWait.line c.line := by
    rw [line_of_keeps keeps_creditTaken (by decide)]
    rfl
  rw [hbefore] at hqueued
  have hlater : Keeps [.slots, .lines, .reservedTotal, .waitQueue, .ports] (s.entriesReturned i c n ack)
      (s.creditTaken i c n ack edge) := keeps_entriesCounted.both keeps_creditTaken (by decide) (by decide)
  refine ⟨g, circuit_creditTaken ho hg, ?_, fun hquiet => hnone ?_, ?_, fun d => ?_, port_creditTaken ho hg,
    ((actsOn_entriesReturned _).trans .serveWait).trans (actsOn_creditTaken _),
    keeps_entriesReturned.both hlater (by decide) (by decide)⟩
  · exact (hqueued.before (actsOn_entriesReturned _) hbefore).after (actsOn_creditTaken _) hafter
  · rcases hquiet with hout | ⟨rfl, hunavailable⟩
    · exact .inl (by rwa [keeps_entriesReturned.at_waitQueue (by decide)])
    · exact .inr (available_entriesReturned_zero.trans hunavailable)
  · rw [hlater.at_freeQueue (by decide), entriesReturned, freeQueue_returnBuffers, setCircuit_freeQueue]
  · rw [place_of_keeps hlater (by decide), entriesReturned, place_returnBuffers, place_setCircuit]

end State

/-! ## What a CREDIT frame comes to -/

/-- The queues of a line through the entry into CLOSING: those granted before it and those granted what it gives back join in turn. -/
theorem Queued.closing {i : SlotNo} {l : LineNo} {s t u : State} {own : Prop} {control ring : List SlotNo}
    {stray : List Reply} (h : Queued i l s t own (fun more => control ++ more) ring stray) (hacts : ActsOn i l s t)
    (k : Queued i l t u False (fun more => joinTail ((t.line l).tx.control ++ more) i) (leave (t.line l).tx.ring i)
      (t.line l).tx.stray) (kacts : ActsOn i l t u) :
    Queued i l s u own (fun more => joinTail (control ++ more) i) (leave ring i) stray := by
  obtain ⟨first, hfirst, hline⟩ := h
  obtain ⟨second, hsecond, kline⟩ := k
  refine ⟨first ++ second, fun j hj => ?_, by rw [kline, hline]; simp⟩
  rcases List.mem_append.1 hj with hj | hj
  · exact (hfirst j hj).imp_right fun h => ⟨h.1, h.2.1, (ActsOn.refl i l s).gains kacts h.1 h.2.2⟩
  · obtain ⟨hne, hwaits, hgains⟩ := (hsecond j hj).resolve_left fun e => e.2
    exact .inr ⟨hne, (hacts.waiting j hwaits).resolve_left hne, hacts.gains (.refl i l u) hne hgains⟩

namespace Acknowledges

variable {s u : State} {i : SlotNo} {c : Circuit} {p : PortNo} {n g : Nat} {ackBase farEdge : Seq} {wasEmpty : Bool}

/-- The line's settings are those before the frame. -/
theorem config (h : Acknowledges i c n ackBase farEdge g s u) : (u.line c.line).config = (s.line c.line).config := by
  obtain ⟨more, -, hline⟩ := h.queues
  rw [hline]

/-- The record once R63 is settled, but for a drain. -/
theorem circuit_ready (h : Acknowledges i c n ackBase farEdge g s u) : (u.creditReady i n wasEmpty).circuit i
    = some (((c.acknowledged n ackBase farEdge).creditSettled n wasEmpty (s.line c.line).config.retransmit).granted g) := by
  rw [State.circuit_creditReady h.record, Circuit.granted_creditSettled, Circuit.granted_line, ← h.config]
  rfl

theorem actsOn_ready (h : Acknowledges i c n ackBase farEdge g s u) : ActsOn i c.line s (u.creditReady i n wasEmpty) := by
  have hready := State.actsOn_creditReady (n := n) (wasEmpty := wasEmpty) h.record
  rw [Circuit.granted_line] at hready
  exact h.acts.trans hready

/-- The queues of the line once R63 is settled, but for a drain: a circuit that is granted nothing and owes nothing is off the control
queue, and one that can send is on the ring (R54, R63). -/
theorem queued_ready (h : Acknowledges i c n ackBase farEdge g s u) :
    Queued i c.line s (u.creditReady i n wasEmpty) (0 < g)
      (fun more => (if g = 0 ∧ c.owed.put .ask false = {} then leave (s.line c.line).tx.control i
        else (s.line c.line).tx.control) ++ more)
      (if (c.acknowledged n ackBase farEdge).canSend then joinTail (s.line c.line).tx.ring i else (s.line c.line).tx.ring)
      (s.line c.line).tx.stray := by
  have hready := State.actsOn_creditReady (n := n) (wasEmpty := wasEmpty) h.record
  have hline := State.line_creditReady (n := n) (wasEmpty := wasEmpty) h.record
  rw [Circuit.granted_line] at hready hline
  rw [Circuit.granted_canSend] at hline
  obtain ⟨more, hmore, hbefore⟩ := h.queues
  refine ⟨more, fun j hj => ?_, ?_⟩
  · exact (hmore j hj).imp_right fun hj => ⟨hj.1, hj.2.1, (ActsOn.refl i c.line s).gains hready hj.1 hj.2.2⟩
  · have howed : ((c.acknowledged n ackBase farEdge).granted g).owed.put .ask false = {}
        ↔ g = 0 ∧ c.owed.put .ask false = {} := by
      have hput := congrArg Circuit.owed (Circuit.granted_answered (c.acknowledged n ackBase farEdge) n g wasEmpty)
      exact (Eq.congr_left hput).trans (Circuit.granted_owed_eq_empty _ _)
    have hleaves : g = 0 → leave ((s.line c.line).tx.control ++ more) i = leave (s.line c.line).tx.control i ++ more := by
      intro hg
      have hothers : leave more i = more := List.filter_eq_self.2 fun j hj => by
        obtain ⟨-, hpos⟩ | ⟨hne, -⟩ := hmore j hj
        · omega
        · simpa using hne
      rw [leave, List.filter_append]
      exact congrArg _ hothers
    refine hline.trans ?_
    rw [show (c.acknowledged n ackBase farEdge).line = c.line from rfl, hbefore]
    by_cases hnothing : g = 0 ∧ c.owed.put .ask false = {}
    · simp only [if_pos hnothing, if_pos (howed.2 hnothing), hleaves hnothing.1]
    · simp only [if_neg hnothing, if_neg (mt howed.1 hnothing)]

/-- A CREDIT frame that leaves something to send or to acknowledge, or finds the circuit OPEN, makes nothing else of it. -/
theorem busy (h : Acknowledges i c n ackBase farEdge g s u)
    (hs : c.state = .opened ∨ c.transmit ≠ [] ∨ c.unacked.drop n ≠ []) :
    u.settleCredit i n wasEmpty = u.creditReady i n wasEmpty := by
  refine State.settleDrain_of_busy h.circuit_ready ?_
  rw [Circuit.granted_state, Circuit.granted_transmit, Circuit.granted_unacked]
  exact hs

/-- A CREDIT frame that leaves a drain with nothing makes the circuit enter CLOSING (R43). -/
theorem drained {cause : Byte} (h : Acknowledges i c n ackBase farEdge g s u) (hs : c.state = .draining cause)
    (ht : c.transmit = []) (hu : c.unacked.drop n = []) :
    u.settleCredit i n wasEmpty = (u.creditReady i n wasEmpty).enterClosing i cause := by
  refine State.settleDrain_of_drained h.circuit_ready ?_ ?_ ?_
  · rw [Circuit.granted_state]
    exact hs
  · rw [Circuit.granted_transmit]
    exact ht
  · rw [Circuit.granted_unacked]
    exact hu

/-- The queues of the line when a drain completes: nothing is left to send, so the ring is joined by no one and left. -/
theorem queued_drained {cause : Byte} (h : Acknowledges i c n ackBase farEdge g s u) (hs : c.state = .draining cause)
    (ht : c.transmit = []) (hu : c.unacked.drop n = []) :
    Queued i c.line s (u.settleCredit i n wasEmpty) (0 < g)
      (fun more => joinTail ((if g = 0 ∧ c.owed.put .ask false = {} then leave (s.line c.line).tx.control i
        else (s.line c.line).tx.control) ++ more) i)
      (leave (s.line c.line).tx.ring i) (s.line c.line).tx.stray := by
  have hidle : (c.acknowledged n ackBase farEdge).canSend = false := by
    simp [Circuit.canSend, Circuit.acknowledged, ht]
  have hready := h.queued_ready (wasEmpty := wasEmpty)
  have hcloses := State.entersClosing (h.circuit_ready (wasEmpty := wasEmpty)) cause
  have hqueues := hcloses.queues
  have hacts := hcloses.acts
  rw [hidle] at hready
  rw [Circuit.granted_line] at hqueues hacts
  rw [h.drained hs ht hu]
  exact hready.closing h.actsOn_ready hqueues hacts

/-- The record when a drain completes: of what it was granted it keeps the receive edge alone. -/
theorem circuit_drained {cause : Byte} (h : Acknowledges i c n ackBase farEdge g s u) (hs : c.state = .draining cause)
    (ht : c.transmit = []) (hu : c.unacked.drop n = []) : (u.settleCredit i n wasEmpty).circuit i = some
      { ((c.acknowledged n ackBase farEdge).creditSettled n wasEmpty (s.line c.line).config.retransmit).closed cause with
        receiveEdge := c.receiveEdge + BitVec.ofNat 5 g } := by
  have hrecord := (State.entersClosing (h.circuit_ready (wasEmpty := wasEmpty)) cause).record
  rw [Circuit.granted_closed] at hrecord
  rw [h.drained hs ht hu]
  exact hrecord

theorem actsOn_settleCredit (h : Acknowledges i c n ackBase farEdge g s u) :
    ActsOn i c.line s (u.settleCredit i n wasEmpty) := by
  have hsettles := State.actsOn_settleCredit (n := n) (wasEmpty := wasEmpty) h.record
  rw [Circuit.granted_line] at hsettles
  exact h.acts.trans hsettles

/-- The ports after R63 is settled and the ATN outputs are judged: the owner attends when something was acknowledged (R61, R172). -/
theorem ports_judgeAtn (h : Acknowledges i c n ackBase farEdge g s u) :
    if 0 < n then s.attends (u.settleCredit i n wasEmpty).judgeAtn i c
    else s.judged (u.settleCredit i n wasEmpty).judgeAtn := by
  have hport : ∀ q, (u.settleCredit i n wasEmpty).port q = u.port q :=
    State.port_of_keeps (State.keeps_settleCredit u i n _) (by decide)
  by_cases hpos : 0 < n
  · rw [if_pos hpos]
    refine State.attends_judgeAtn fun q => ?_
    rw [hport, h.ports]
    simp only [hpos, true_and]
  · rw [if_neg hpos]
    intro q
    rw [State.port_judgeAtn, State.atnLevel_judgeAtn, hport, h.ports, if_neg fun hq => hpos hq.1]

end Acknowledges

end Sys2Proof.Machine

namespace Sys2Proof.Machine

namespace State

variable {s : State} {l : LineNo} {k a b : Byte} {i : SlotNo} {c : Circuit} {p : PortNo}

theorem creditArrives_behind (h : s.mappedAt l k i c) (hs : c.state.inData = true)
    (hback : 1 ≤ distance (a.setWidth 5) c.ackBase ∧ distance (a.setWidth 5) c.ackBase ≤ 16) :
    s.creditArrives l k a b = s.settleCredit i 0 c.unacked.isEmpty := by
  simp only [creditArrives, arrivalAt_of_mapped h, hs, hback, and_self, if_true]

theorem creditArrives_forward (h : s.mappedAt l k i c) (hs : c.state.inData = true)
    (hback : ¬ (1 ≤ distance (a.setWidth 5) c.ackBase ∧ distance (a.setWidth 5) c.ackBase ≤ 16))
    (hcount : distance c.ackBase (a.setWidth 5) ≤ c.unacked.length) :
    s.creditArrives l k a b
      = (s.creditTaken i c (distance c.ackBase (a.setWidth 5)) (a.setWidth 5) (b.setWidth 5)).settleCredit i
          (distance c.ackBase (a.setWidth 5)) c.unacked.isEmpty := by
  simp only [creditArrives, arrivalAt_of_mapped h, hs, hback, Nat.not_lt.2 hcount, if_true, if_false]
  rfl

/-- A CREDIT frame, behind the base or not, is acted on by an acknowledgement, and then R63 is settled (R61, R62). -/
theorem creditArrives_data {n : Nat} {behind : Bool} (h : s.mappedAt l k i c) (hs : c.state.inData = true)
    (ho : c.owner = some p) (hd : c.delivered ≤ 65535)
    (hbehind : behind = true ↔ 1 ≤ distance (a.setWidth 5) c.ackBase ∧ distance (a.setWidth 5) c.ackBase ≤ 16)
    (hn : n = if behind then 0 else distance c.ackBase (a.setWidth 5)) (hcount : n ≤ c.unacked.length) :
    ∃ u g, s.creditArrives l k a b = u.settleCredit i n c.unacked.isEmpty
      ∧ Acknowledges i c n (if behind then c.ackBase else a.setWidth 5)
          (if behind then c.farEdge else farEdgeAfter c.farEdge (a.setWidth 5) (b.setWidth 5)) g s u := by
  cases behind with
  | true =>
    subst hn
    exact ⟨s, 0, creditArrives_behind h hs (hbehind.1 rfl), acknowledges_nothing h.2 hd⟩
  | false =>
    subst hn
    obtain ⟨g, hg⟩ := acknowledges_entries (s := s) (i := i) (n := distance c.ackBase (a.setWidth 5))
      (ack := a.setWidth 5) (edge := b.setWidth 5) ho
    exact ⟨_, g, creditArrives_forward h hs (fun hback => Bool.false_ne_true (hbehind.2 hback)) hcount, hg⟩

end State

/-- Settles O42: the acknowledgement made, R63 settled and a drain with nothing left completed, and the ATN outputs judged. -/
theorem creditSettlesTheAccount : Obligations.CreditSettlesTheAccount := by
  intro s l n a b i c p count behind held c' hhears h1 h2 ha hb hmapped hl howner hs hbehind hcount hle hheld hc' hdelivered
  subst hl
  have ⟨_, hcirc⟩ := hmapped
  have hf : frameValid ⟨n, .credit, a, b, []⟩ = true := State.frameValid_of h1 h2 (by
    simp [fieldsAllowed, BitVec.le_def, ha, hb])
  have hnext := State.exec_creditFrame hhears hf
  obtain ⟨u, g, harrives, hacks⟩ := State.creditArrives_data (b := b) (State.mappedAt_setReceiver (.frame []) hmapped)
    (inData_of_stage hs) howner hdelivered hbehind hcount hle
  obtain ⟨far, hfar⟩ : ∃ far, far = if behind then c.farEdge
    else State.farEdgeAfter c.farEdge (a.setWidth 5) (b.setWidth 5) := ⟨_, rfl⟩
  obtain ⟨base, hbase⟩ : ∃ base : Seq, base = if behind then c.ackBase else a.setWidth 5 := ⟨_, rfl⟩
  rw [← hfar, ← hbase] at hacks
  have hanswered : held = (c.acknowledged count base far).answered count c.unacked.isEmpty := by
    rw [hheld, hfar, hbase]
    cases behind <;> simp [Circuit.answered, Circuit.acknowledged, State.farEdgeAfter]
  obtain rfl : c' = (c.acknowledged count base far).creditSettled count c.unacked.isEmpty
      (s.line c.line).config.retransmit := by
    rw [hc', hanswered]
    rfl
  have hconfig : ((s.heard c.line).line c.line).config = (s.line c.line).config := by rw [State.line_setReceiver_same]
  rw [harrives] at hnext
  have hjudge := State.keeps_judgeAtn (u.settleCredit i count c.unacked.isEmpty)
  have hline := State.line_of_keeps hjudge (by decide) c.line
  have hlater : Keeps [.slots, .lines, .reservedTotal, .waitQueue, .ports] u
      (u.settleCredit i count c.unacked.isEmpty).judgeAtn :=
    (State.keeps_settleCredit u i count _).both hjudge (by decide) (by decide)
  refine ⟨_, g, hnext, fun drain hstate htransmit hunacked => ?_, fun hbusy => ?_, hacks.grants, ?_, fun d => ?_,
    hacks.ports_judgeAtn, hacks.actsOn_settleCredit.trans State.actsOn_judgeAtn,
    ((s.keeps_heard c.line).both hacks.keeps (by decide) (List.Subset.refl _)).both hlater (by decide) (by decide)⟩
  · rw [hanswered] at htransmit hunacked ⊢
    have hrecord := hacks.circuit_drained (wasEmpty := c.unacked.isEmpty) hstate htransmit hunacked
    have hqueued := hacks.queued_drained (wasEmpty := c.unacked.isEmpty) hstate htransmit hunacked
    rw [hconfig] at hrecord
    rw [State.tx_heard] at hqueued
    refine ⟨by rw [State.circuit_judgeAtn, hrecord]; rfl, ?_, hqueued.after State.actsOn_judgeAtn hline⟩
    rw [hjudge.at_waitQueue (by decide), hacks.drained hstate htransmit hunacked]
    exact (State.entersClosing hacks.circuit_ready drain).waits
  · rw [hanswered] at hbusy ⊢
    have hrecord := hacks.circuit_ready (wasEmpty := c.unacked.isEmpty)
    have hqueued := hacks.queued_ready (wasEmpty := c.unacked.isEmpty)
    rw [hconfig] at hrecord
    rw [State.tx_heard] at hqueued
    rw [hacks.busy hbusy] at hline ⊢
    exact ⟨by rw [State.circuit_judgeAtn, hrecord], hqueued.after State.actsOn_judgeAtn hline⟩
  · rw [hlater.at_freeQueue (by decide), hacks.freeQueue]
    rfl
  · rw [State.place_of_keeps hlater (by decide), hacks.places]
    rfl

end Sys2Proof.Machine

/-! The buffer pool: the account of reservations through every step, CLAIM and UNCLAIM, the credit wait queue, and the pool's settings. -/

namespace Sys2Proof.Machine

/-! ## The account, with or without a settled wait queue (R81, R83, R86, R89) -/

namespace State

/-- The account between two commands. Where `q` asks for a settled credit wait queue as well, the circuits on it are short and the pool
rests, so that one induction over the commands carries both halves of the invariant. -/
structure Accounted (q : Prop) (s : State) : Prop where
  backed : Backed q none s
  rests : q → PoolRests s

theorem accounted_false_iff {s : State} : Accounted False s ↔ s.backed :=
  ⟨fun h => backed_iff.2 h.backed, fun h => ⟨backed_iff.1 h, False.elim⟩⟩

theorem accounted_true_iff {s : State} : Accounted True s ↔ s.backed ∧ s.settled := by
  constructor
  · intro h
    have hb := (backed_true_iff.1 h.backed).1
    exact ⟨hb, (settled_iff hb).2 ⟨h.rests trivial, h.backed⟩⟩
  · rintro ⟨hb, hs⟩
    obtain ⟨hrests, hbacked⟩ := (settled_iff hb).1 hs
    exact ⟨hbacked, fun _ => hrests⟩

/-- The parts of State that the account is about. -/
def accountParts : List Part := [.slots, .freeSlots, .freeQueue, .reservedTotal, .waitQueue]

variable {q : Prop} {x : Option SlotNo} {s t : State} {i : SlotNo} {c : Circuit} {p : PortNo} {a : Args} {w : Results}

/-- What keeps those parts keeps the account. -/
theorem Accounted.of_keeps {xs : List Part} (h : Accounted q s) (k : Keeps xs s t)
    (hx : ∀ y ∈ accountParts, y ∉ xs := by decide) : Accounted q t :=
  ⟨h.backed.of_keeps k (hx _ (by decide)) (hx _ (by decide)) (hx _ (by decide)) (hx _ (by decide)) (hx _ (by decide)),
    fun y => (h.rests y).of_keeps k (hx _ (by decide)) (hx _ (by decide)) (hx _ (by decide))⟩

/-- After the pool's service nothing but the account itself is asked for (R88). -/
theorem Accounted.of_serveWait (h : Backed q none s) : Accounted q s.serveWait :=
  ⟨h.serveWait, fun _ => poolRests_serveWait s⟩

theorem Accounted.modCircuit (h : Accounted q s) (f : Circuit → Circuit) (hs : ∀ c, (f c).state = c.state)
    (hr : ∀ c, (f c).reserved = c.reserved) (ht : ∀ c, (f c).target = c.target)
    (hn : ∀ c, c.delivered ≤ Config.countMax → (f c).delivered ≤ Config.countMax) : Accounted q (s.modCircuit i f) :=
  ⟨h.backed.modCircuit f hs hr ht hn, fun y => (h.rests y).of_keeps (s.keeps_modCircuit i f)⟩

theorem Accounted.owe (h : Accounted q s) (k : OwedKind) : Accounted q (s.owe i k) :=
  ⟨h.backed.owe k, fun y => (h.rests y).of_keeps (s.keeps_owe i k)⟩

theorem Accounted.startTimer (h : Accounted q s) (m : Purpose) : Accounted q (s.startTimer i m) :=
  h.modCircuit _ (fun _ => rfl) (fun _ => rfl) (fun _ => rfl) fun _ e => e

theorem Accounted.stopTimer (h : Accounted q s) : Accounted q (s.stopTimer i) :=
  h.modCircuit _ (fun _ => rfl) (fun _ => rfl) (fun _ => rfl) fun _ e => e

theorem Accounted.clearConditions (h : Accounted q s) : Accounted q (s.clearConditions i) :=
  h.modCircuit _ (fun _ => rfl) (fun _ => rfl) (fun _ => rfl) fun _ _ => Nat.zero_le _

theorem Accounted.judgeAtn (h : Accounted q s) : Accounted q s.judgeAtn := h.of_keeps s.keeps_judgeAtn

theorem Accounted.modLine (h : Accounted q s) (l : LineNo) (f : Line → Line) : Accounted q (s.modLine l f) :=
  h.of_keeps (s.keeps_modLine l f)

theorem Accounted.enterClosing (h : Accounted q s) (cause : Byte) : Accounted q (s.enterClosing i cause) :=
  ⟨h.backed.enterClosing cause, fun y => (h.rests y).enterClosing cause⟩

theorem Accounted.enterEnded (h : Accounted q s) (cause : Byte) (side : Side) (m : Option Confirmation) :
    Accounted q (s.enterEnded i cause side m) :=
  ⟨h.backed.enterEnded cause side m, fun y => (h.rests y).enterEnded cause side m⟩

theorem Accounted.endClosing (h : Accounted q s) (m : Confirmation) : Accounted q (s.endClosing i m) :=
  ⟨h.backed.endClosing m, fun y => (h.rests y).endClosing m⟩

theorem Accounted.directFree (h : Accounted q s) (hc : s.circuit i = some c) : Accounted q (s.directFree i) :=
  ⟨h.backed.directFree hc, fun y => (h.rests y).directFree⟩

/-! ## Circuits that do not wait -/

/-- A circuit that is in neither OPEN nor DRAINING does not wait for credit (R86). -/
theorem Backed.not_waiting (h : Backed q none s) (hc : s.circuit i = some c) (hd : c.state.inData = false) :
    i ∉ s.waitQueue := fun hi => by
  obtain ⟨d, hd', hmay⟩ := h.waiting i hi
  rw [hc] at hd'
  cases hd'
  have := (hmay.resolve_left (by simp)).1
  rw [hd] at this
  cases this

theorem inData_of_ended (h : c.state.name = .ended) : c.state.inData = false := by
  cases hs : c.state <;> simp [hs, CircuitState.name, CircuitState.inData] at h ⊢

theorem modCircuit_eq_setCircuit (h : s.circuit i = some c) (f : Circuit → Circuit) :
    s.modCircuit i f = s.setCircuit i (some (f c)) := by
  rw [State.modCircuit, h]
  rfl

/-- Leaving its owner's attention list, a circuit keeps its reservations. -/
theorem reserved_leaveOwner (h : s.circuit i = some c) :
    ∃ d, (s.leaveOwner i).circuit i = some d ∧ d.reserved = c.reserved := by
  simp only [State.leaveOwner, h]
  split
  · exact ⟨c, h, rfl⟩
  · exact ⟨{ c with conditions := {}, delivered := 0 },
      by rw [circuit_clearConditions, if_pos rfl, circuit_leaveAttention, h]; rfl, rfl⟩

/-- An ENDED circuit holds no reservation and waits for none, so its slot may become FREE (R18). -/
theorem Backed.retire (h : Backed q none s) (hc : s.circuit i = some c) (hs : c.state.name = .ended) :
    Backed q none (((s.returnCircuitBuffers i).leaveOwner i).freeSlot i) := by
  have hw := h.not_waiting hc (inData_of_ended hs)
  obtain ⟨d, hd, hr⟩ := reserved_leaveOwner (circuit_returnCircuitBuffers hc hw)
  refine h.returnCircuitBuffers.leaveOwner.freeSlot hd (hr.trans (h.quiet i c (by simp) hc (.inr (.inr hs)))) fun hi => ?_
  rw [(keeps_leaveOwner _ i).at_waitQueue (by decide)] at hi
  exact hw (waitQueue_returnCircuitBuffers hi)

/-! ## The bodies of commands that touch the account -/

theorem Accounted.call (h : Accounted q s) (hb : callBody p a s = .ok (t, w)) : Accounted q t := by
  obtain ⟨l, n, i, u, ha, rfl⟩ := callBody_ok hb
  obtain ⟨hu, hc, hw⟩ := h.backed.allocate ha rfl (Nat.zero_le _)
  have hr := hu.reserve hc rfl (by simp [Circuit.start, CircuitState.name]) hw a.a2.toNat
  exact ⟨hr.owe _, fun y => (((h.rests y).allocate ha).reserve _).of_keeps (keeps_owe _ _ _)⟩

theorem Accounted.accept (h : Accounted q s) (hb : acceptBody p a s = .ok (t, w)) : Accounted q t := by
  obtain ⟨i, c, hc, hs, rfl⟩ := acceptBody_ok hb
  have h0 : c.reserved = 0 := h.backed.quiet i c (by simp) hc (.inl hs)
  have hw : i ∉ s.waitQueue := h.backed.not_waiting hc (by rw [hs]; rfl)
  rw [modCircuit_eq_setCircuit hc]
  refine ⟨?_, fun y => ?_⟩
  · refine (Backed.openWith ?_ (c := { c with timer := none, target := a.a1.toNat, state := .opened, retry := 0 })
      (circuit_setCircuit_same _ _ _) h0 rfl hw a.a1.toNat {}).1
    exact h.backed.setCircuit hc rfl (.inr fun m => by rw [MayWait, hs] at m; cases m.1) (.inr fun _ => h0)
      (h.backed.counted i c hc)
  · exact ((((h.rests y).of_keeps (keeps_setCircuit _ _ _)).reserve _).of_keeps (keeps_owe _ _ _)).joinWaitIfShort

theorem Accounted.refuse (h : Accounted q s) (hb : refuseBody p a s = .ok (t, w)) : Accounted q t := by
  obtain ⟨i, c, hc, rfl⟩ := refuseBody_ok hb
  exact ((h.of_keeps (s.keeps_offerReply _ _)).directFree hc).judgeAtn

theorem Accounted.close (h : Accounted q s) (hb : closeBody p a s = .ok (t, w)) : Accounted q t := by
  obtain ⟨i, c, hc, rfl | ⟨hs, rfl⟩⟩ := closeBody_ok hb
  · exact h.enterClosing _
  · rw [modCircuit_eq_setCircuit hc]
    refine ⟨?_, fun y => (h.rests y).of_keeps (keeps_setCircuit _ _ _)⟩
    exact h.backed.setCircuit hc rfl (.inr fun m => ⟨rfl, m.2⟩) (.inr (by simp [CircuitState.name])) (h.backed.counted i c hc)

theorem Accounted.send (h : Accounted q s) (hb : sendBody p a s = .ok (t, w)) : Accounted q t := by
  obtain ⟨i, b, e, rfl⟩ := sendBody_ok hb
  have hq := (h.of_keeps (s.keeps_setPlace b (.transmit i))).modCircuit (i := i)
    (fun y => { y with transmit := y.transmit ++ [e] }) (fun _ => rfl) (fun _ => rfl) (fun _ => rfl) fun _ e => e
  exact ⟨hq.backed.settleReady.settleStall,
    fun y => ((hq.rests y).of_keeps (keeps_settleReady _ _)).of_keeps (keeps_settleStall _ _)⟩

theorem Accounted.release (h : Accounted q s) (hb : releaseBody p a s = .ok (t, w)) : Accounted q t := by
  obtain ⟨i, b, rest, rfl⟩ := releaseBody_ok hb
  have hm := h.backed.modCircuit (i := i) (fun y => { y with receive := rest }) (fun _ => rfl) (fun _ => rfl) (fun _ => rfl)
    fun _ e => e
  exact .of_serveWait (hm.returnBuffer b)

theorem Accounted.setCredit (h : Accounted q s) (hb : setCreditBody p a s = .ok (t, w)) : Accounted q t := by
  obtain ⟨i, c, hc, hs, ⟨hlt, rfl⟩ | rfl⟩ := setCreditBody_ok hb
  · exact ⟨(h.backed.retarget hc hs _).1 hlt, fun y => ((h.rests y).of_keeps (keeps_modCircuit _ _ _)).joinWait⟩
  · exact ⟨(h.backed.retarget hc hs _).2, fun y => ((h.rests y).of_keeps (keeps_modCircuit _ _ _)).leaveWait⟩

/-- CLAIM takes a buffer only while more are available than the floor, so that what is left still backs the reservations (R91). -/
theorem Accounted.claim (h : Accounted q s) (hb : claimBody p a s = .ok (t, w)) : Accounted q t := by
  obtain ⟨b, rest, hfloor, hq, rfl⟩ := claimBody_ok hb
  have hlen : s.freeQueue.length = rest.length + 1 := by rw [hq, List.length_cons]
  unfold State.available at hfloor
  have hs : Accounted q (s.setFreeQueue rest) := by
    obtain ⟨htotal, _, honce, hwaiting, hquiet, hfree, hcounted⟩ := h.backed
    refine ⟨⟨htotal, ?_, honce, hwaiting, hquiet, hfree, hcounted⟩, fun y => ?_⟩
    · show s.reservedTotal ≤ rest.length
      omega
    · refine (h.rests y).imp id fun e => ?_
      unfold State.available at e
      omega
  exact (hs.of_keeps (keeps_writeBuffer _ _ _ _)).of_keeps (keeps_setPlace _ _ _)

theorem Accounted.unclaim (h : Accounted q s) (hb : unclaimBody p a s = .ok (t, w)) : Accounted q t := by
  obtain ⟨b, rfl⟩ := unclaimBody_ok hb
  exact .of_serveWait (h.backed.returnBuffer b)

theorem Accounted.retire (h : Accounted q s) (hb : retireBody p a s = .ok (t, w)) : Accounted q t := by
  obtain ⟨i, c, hc, hs, rfl⟩ := retireBody_ok hb
  have hr : Accounted q (((s.returnCircuitBuffers i).leaveOwner i).freeSlot i) :=
    ⟨h.backed.retire hc hs,
      fun y => ((h.rests y).returnCircuitBuffers.of_keeps (keeps_leaveOwner _ _)).of_keeps (keeps_freeSlot _ _)⟩
  exact hr.judgeAtn

/-- A take of a circuit: off the list, its conditions and delivered count cleared (R175, R176). -/
theorem Accounted.taken (h : Accounted q s) (p : PortNo) : Accounted q ((s.leaveAttention p i).clearConditions i).judgeAtn :=
  (h.of_keeps (s.keeps_leaveAttention p i)).clearConditions.judgeAtn

/-! ## Lines -/

theorem Accounted.leaveActive (h : Accounted q s) (l : LineNo) (y : LineState) (cause : Byte) :
    Accounted q (s.leaveActive l y cause) := by
  have hl := h.modLine l fun r => { r with state := y }
  have ht : Accounted q ((s.modLine l fun r => { r with state := y }).teardown l cause) :=
    ⟨hl.backed.teardown l cause, fun z => (hl.rests z).teardown l cause⟩
  exact ht.of_keeps (keeps_putLine _ l fun r => r)

theorem Accounted.disableLine (h : Accounted q s) (l : LineNo) : Accounted q (s.disableLine l) := by
  unfold State.disableLine
  split
  · exact ((h.leaveActive _ _ _).modLine _ _).judgeAtn
  · exact h.modLine _ _
  · exact h.modLine _ _
  · exact h

theorem Accounted.lineQuery (h : Accounted q s) (hb : lineQueryBody p a s = .ok (t, w)) : Accounted q t := by
  obtain ⟨l, n, rfl | rfl⟩ := lineQueryBody_ok hb
  · exact h.of_keeps (keeps_setFreeCount _ _)
  · exact (h.of_keeps (keeps_setFreeCount _ _)).modLine _ _

theorem Accounted.select (h : Accounted q s) (l : LineNo) : Accounted q (s.select l) :=
  ⟨h.backed.select l, fun y => (h.rests y).of_keeps (s.keeps_select l)⟩

/-! ## Accesses of the client bus -/

theorem keeps_writeCommand (v : Word) : Keeps [.ports] s (s.writeCommand p v) := by
  unfold writeCommand
  split
  · exact .refl _ s
  · exact keeps_modPort _ _ _
  · exact keeps_modPort _ _ _

theorem keeps_writeArgument (n : Fin 4) (v : Word) : Keeps [.ports] s (s.writeArgument p n v) := by
  unfold writeArgument
  split
  · exact .refl _ s
  · exact keeps_modPort _ _ _
  · exact keeps_modPort _ _ _

theorem keeps_writeWindow (v : Word) : Keeps [.ports] s (s.writeWindow p v) := by
  unfold writeWindow
  split_ifs
  · exact .refl _ s
  · exact keeps_modPort _ _ _
  · exact .refl _ s

theorem keeps_writeStatus (v : Word) : Keeps [.ports] s (s.writeStatus p v) := by
  unfold writeStatus
  split_ifs
  · exact .refl _ s
  · exact keeps_modPort _ _ _
  · exact .refl _ s

theorem keeps_readWindow (k : Nat) (m : Width) : Keeps [.ports, .readData] s (s.readWindow p k m) := by
  unfold readWindow
  dsimp only
  split
  · split
    · exact (s.keeps_setReadData _).mono (by decide)
    · exact (s.keeps_modPort p _).both (keeps_setReadData _ _) (by decide) (by decide)
  · exact (s.keeps_setReadData _).mono (by decide)

theorem keeps_writeWindowData (k : Nat) (m : Width) (v : Word) : Keeps [.ports, .memory] s (s.writeWindowData p k m v) := by
  unfold writeWindowData
  dsimp only
  split
  · split
    · exact (s.keeps_writeBuffer _ _ _).mono (by decide)
    · exact (s.keeps_modPort p _).mono (by decide)
  · exact .refl _ s

theorem keeps_busRead (y : BusAccess) : Keeps [.ports, .readData] s (s.busRead y) := by
  unfold busRead
  split
  · exact (s.keeps_setReadData _).mono (by decide)
  · split
    · exact keeps_readWindow _ _
    · exact (s.keeps_setReadData _).mono (by decide)
    · exact (s.keeps_setReadData _).mono (by decide)

theorem keeps_busWrite (y : BusAccess) : Keeps [.ports, .memory] s (s.busWrite y) := by
  unfold busWrite
  split
  · exact .refl _ s
  · split
    · exact (keeps_writeStatus _).mono (by decide)
    · exact (keeps_writeCommand _).mono (by decide)
    · exact (keeps_writeArgument _ _).mono (by decide)
    · exact (keeps_writeWindow _).mono (by decide)
    · exact keeps_writeWindowData _ _ _
    · exact .refl _ s

/-! ## RESET -/

theorem keeps_atReset (s : State) (y : Phase) : Keeps [.phase, .lines, .freeCount, .pending] reset (s.atReset y) := fun z hz => by
  cases z
  case phase | lines | freeCount | pending => simp at hz
  all_goals simp only [sameAt, atReset]

theorem keeps_samplePins (s : State) : Keeps [.lines] s s.samplePins := fun z hz => by
  cases z
  case lines => simp at hz
  all_goals rfl

theorem accounted_reset : Accounted q reset := by
  obtain ⟨hb, hr⟩ := accounted_true_iff.2 ⟨backed_reset, settled_reset⟩
  refine ⟨⟨hb.total, hb.room, hb.once, ?_, hb.quiet, hb.free, hb.counted⟩, fun _ => hr trivial⟩
  exact fun _ h => absurd h List.not_mem_nil

end State

/-! ## Every command keeps the account and answers a next state -/

/-- No fault is answered. -/
abbrev NoFault : Fault → Prop := fun _ => False

section

open State

variable {q : Prop} {s t : State} {i : SlotNo}

theorem accounted_takeCommand (h : Accounted q s) (code : Byte) {body : Body}
    (hb : ∀ p a t w, body p a s = .ok (t, w) → Accounted q t) :
    Outcome.meets NoFault (Accounted q) (takeCommand code body s) :=
  meets_takeCommand h (fun u p r w hu => hu.of_keeps (keeps_finish u p r w)) code hb

theorem accounted_unknownCommand (h : Accounted q s) : Outcome.meets NoFault (Accounted q) (execUnknownCommand s) := by
  unfold execUnknownCommand
  split
  · exact h
  · exact h.of_keeps (keeps_finish _ _ _ _)

theorem accounted_portReset (h : Accounted q s) : Outcome.meets NoFault (Accounted q) (execPortReset s) := by
  have hr : ∀ p, Accounted q (s.resetPort p) := fun p => ⟨h.backed.resetPort p, fun _ => poolRests_resetPort s p⟩
  unfold execPortReset
  split
  · exact h
  · split
    · exact h.of_keeps (keeps_finish _ _ _ _)
    · dsimp only
      split
      · exact (hr _).of_keeps (keeps_setLastServed _ _)
      · exact (hr _).of_keeps (keeps_finish _ _ _ _)

/-- A bus row acts unless RESET is asserted. -/
theorem accounted_unlessReset (h : Accounted q s) {xs : List Part} (k : Keeps xs s t)
    (hx : ∀ y ∈ accountParts, y ∉ xs := by decide) :
    Outcome.meets NoFault (Accounted q) (if s.phase = .inReset then .next s else .next t) := by
  split
  · exact h
  · exact h.of_keeps k hx

theorem accounted_voidAccess (h : Accounted q s) (y : BusAccess) :
    Outcome.meets NoFault (Accounted q) (execVoidAccess y s) := by
  unfold execVoidAccess
  split
  · exact h.of_keeps (keeps_busWrite y)
  · exact h.of_keeps (keeps_busRead y)

/-- A CARRY frame in order meets a circuit that holds a reservation, which a buffer of the free queue backs (R81, R83). -/
theorem accounted_carryArrives (h : Accounted q s) (l : LineNo) (n a b : Byte) (payload : List Byte) :
    Outcome.meets NoFault (Accounted q) (s.carryArrives l n a b payload) := by
  unfold State.carryArrives
  split
  · exact (h.of_keeps (keeps_strayArrives _ _ _ _)).judgeAtn
  · rename_i i c harr
    have hc := arrivalAt_circuit harr
    split
    · rename_i hd
      split
      · rename_i hclass
        have hr : 0 < c.reserved := by
          unfold carryClass at hclass
          dsimp only at hclass
          split_ifs at hclass
          assumption
        have htotal : 0 < s.reservedTotal := h.backed.total ▸ Nat.lt_of_lt_of_le hr (le_reservedSum hc)
        split
        · rename_i hempty
          exact absurd hempty (h.backed.freeQueue_ne_nil hc hr)
        · rename_i buf rest hq
          have ht : Accounted q (s.takeCarry i buf rest (b = 1) payload) :=
            ⟨h.backed.takeCarry hc hd hr hq _ payload, fun y => (h.rests y).takeCarry htotal hq _ payload⟩
          exact ht.judgeAtn
      · exact (h.owe _).judgeAtn
      · exact (h.owe _).judgeAtn
      · exact (h.enterClosing _).judgeAtn
    · exact h.judgeAtn

theorem accounted_frameArrives (h : Accounted q s) (l : LineNo) (f : Frame) :
    Outcome.meets NoFault (Accounted q) (s.frameArrives l f) := by
  have next : ∀ {u : State}, Backed q none u → (q → PoolRests u) → Accounted q u.judgeAtn := fun hb hr =>
    Accounted.judgeAtn ⟨hb, hr⟩
  unfold State.frameArrives
  cases f.kind with
  | openCall => exact next (h.backed.openArrives _ _ _ _) fun y => (h.rests y).openArrives _ _ _ _
  | grant => exact next (h.backed.grantArrives _ _ _) fun y => (h.rests y).grantArrives _ _ _
  | refuse => exact next (h.backed.refuseArrives _ _ _) fun y => (h.rests y).refuseArrives _ _ _
  | carry => exact accounted_carryArrives h _ _ _ _ _
  | credit => exact next (h.backed.creditArrives _ _ _ _) fun y => (h.rests y).creditArrives _ _ _ _
  | ask => exact next (h.backed.askArrives _ _) fun y => (h.rests y).of_keeps (keeps_askArrives _ _ _)
  | close => exact next (h.backed.closeArrives _ _ _) fun y => (h.rests y).closeArrives _ _ _
  | closed => exact next (h.backed.closedArrives _ _) fun y => (h.rests y).closedArrives _ _

theorem accounted_receive (h : Accounted q s) (l : LineNo) (f : Frame) :
    Outcome.meets NoFault (Accounted q) (s.receive l f) :=
  meets_receive (fun _ l f hu => accounted_frameArrives hu l f) (fun _ _ _ _ _ hu => hu.modLine _ _)
    (fun _ _ hu => hu.modLine _ _) h l f

theorem accounted_takeBits (h : Accounted q s) (l : LineNo) (bits : List Bool) :
    Outcome.meets NoFault (Accounted q) (s.takeBits l bits) :=
  meets_takeBits (fun _ l f hu => accounted_frameArrives hu l f) (fun _ _ _ _ _ hu => hu.modLine _ _)
    (fun _ _ hu => hu.modLine _ _) h l bits

/-! ## Expiries -/

theorem State.Accounted.retryOr (h : Accounted q s) (c : Circuit) {retry giveUp : State → State}
    (hr : ∀ u, Accounted q u → Accounted q (retry u)) (hg : Accounted q (giveUp s)) :
    Accounted q (s.retryOr i c retry giveUp) := by
  unfold State.retryOr
  split
  · exact hr _ (h.modCircuit _ (fun _ => rfl) (fun _ => rfl) (fun _ => rfl) fun _ e => e)
  · exact hg

/-- A circuit timer expires: the timer stops, and the rule of its purpose acts in the state that it fits. -/
theorem accounted_expire (h : Accounted q s) (i : SlotNo) (m : Purpose) {fits : Circuit → Prop} [DecidablePred fits]
    {rule : Circuit → State → State} (hr : ∀ c u, Accounted q u → Accounted q (rule c u)) :
    Outcome.meets NoFault (Accounted q) (s.expire i m fun c t => if fits c then rule c t else t) := by
  refine meets_expire h i m fun c _ => ?_
  split
  · exact hr c _ h.stopTimer
  · exact h.stopTimer

theorem accounted_offerWaitExpiry (h : Accounted q s) (i : SlotNo) :
    Outcome.meets NoFault (Accounted q) (execOfferWaitExpiry i s) := by
  refine accounted_expire h i .offerWait fun c u hu => ?_
  have he : Accounted q (u.enterEnded i Config.causeNoAnswer .localEnd none) := hu.enterEnded _ _ _
  exact (he.of_keeps (keeps_offerReply _ _ _)).judgeAtn

theorem accounted_settleExpiry (h : Accounted q s) (l : LineNo) :
    Outcome.meets NoFault (Accounted q) (execSettleExpiry l s) := by
  unfold execSettleExpiry
  split
  · exact (h.of_keeps (keeps_putLine _ _ _)).judgeAtn
  · exact h

theorem accounted_holdoffExpiry (h : Accounted q s) (p : PortNo) :
    Outcome.meets NoFault (Accounted q) (execHoldoffExpiry p s) := by
  unfold execHoldoffExpiry
  split
  · split
    · exact (h.of_keeps (keeps_modPort _ _ _)).judgeAtn
    · exact h
  · exact h

/-! ## Line events, the transmitter and RESET -/

theorem accounted_readyAsserted (h : Accounted q s) (l : LineNo) :
    Outcome.meets NoFault (Accounted q) (execReadyAsserted l s) := by
  unfold execReadyAsserted
  dsimp only
  split
  · exact h.modLine _ _
  · exact (h.modLine _ _).modLine _ _

theorem accounted_readyDropped (h : Accounted q s) (l : LineNo) :
    Outcome.meets NoFault (Accounted q) (execReadyDropped l s) := by
  unfold execReadyDropped
  dsimp only
  split
  · exact h.modLine _ _
  · have hu := (h.modLine l fun r => { r with readyPin := false }).modLine l fun r => { r with readyLevel := false }
    split
    · exact hu.modLine _ _
    · exact ((hu.modLine _ _).leaveActive _ _ _).judgeAtn
    · exact hu

theorem accounted_selectionEvent (h : Accounted q s) (l : LineNo) :
    Outcome.meets NoFault (Accounted q) (execSelectionEvent l s) := by
  unfold execSelectionEvent
  split
  · exact h.select l
  · exact h

theorem accounted_completion (h : Accounted q s) (l : LineNo) :
    Outcome.meets NoFault (Accounted q) (execCompletion l s) := by
  unfold execCompletion
  split
  · split
    · exact h
    · rename_i staged _
      have hs : Accounted q (s.modTx l fun t => { t with staged := none }) := h.of_keeps (keeps_modTx _ _ _)
      have hc : Accounted q ((s.modTx l fun t => { t with staged := none }).complete staged) :=
        ⟨hs.backed.complete _, fun y => (hs.rests y).of_keeps (keeps_complete _ _)⟩
      exact hc.select l
  · exact h

theorem accounted_startUp (h : Accounted q s) : Outcome.meets NoFault (Accounted q) (execStartUp s) := by
  unfold execStartUp
  split
  · exact (accounted_reset.of_keeps (keeps_atReset s _)).of_keeps (keeps_samplePins _)
  · exact h

theorem keeps_started (s : State) : Keeps [.phase, .ports] s
    { s with phase := .running, ports := s.ports.map fun r => { r with status := .idle } } := fun z hz => by
  cases z
  case phase | ports => simp at hz
  all_goals rfl

theorem accounted_startUpCompletion (h : Accounted q s) : Outcome.meets NoFault (Accounted q) (execStartUpCompletion s) := by
  unfold execStartUpCompletion
  split
  · exact h.of_keeps (keeps_started s)
  · exact h

/-! ## All rows -/

theorem accounted_exec (h : Accounted q s) : ∀ y : Instr, Outcome.meets NoFault (Accounted q) (exec y s)
  | .call => accounted_takeCommand h _ fun _ _ _ _ => h.call
  | .accept => accounted_takeCommand h _ fun _ _ _ _ => h.accept
  | .refuse => accounted_takeCommand h _ fun _ _ _ _ => h.refuse
  | .close => accounted_takeCommand h _ fun _ _ _ _ => h.close
  | .send => accounted_takeCommand h _ fun _ _ _ _ => h.send
  | .release => accounted_takeCommand h _ fun _ _ _ _ => h.release
  | .setCredit => accounted_takeCommand h _ fun _ _ _ _ => h.setCredit
  | .claim => accounted_takeCommand h _ fun _ _ _ _ => h.claim
  | .unclaim => accounted_takeCommand h _ fun _ _ _ _ => h.unclaim
  | .poolSet => accounted_takeCommand h _ fun _ _ _ _ hb => poolSetBody_ok hb ▸ h.of_keeps (keeps_setFloor _ _)
  | .poolQuery => accounted_takeCommand h _ fun _ _ _ _ hb => poolQueryBody_ok hb ▸ h
  | .serviceSet => accounted_takeCommand h _ fun _ _ _ _ hb => by
      obtain ⟨e, y, rfl⟩ := serviceSetBody_ok hb
      exact h.of_keeps (keeps_setEntry _ _ _)
  | .serviceClear => accounted_takeCommand h _ fun _ _ _ _ hb => by
      obtain ⟨e, y, rfl⟩ := serviceClearBody_ok hb
      exact h.of_keeps (keeps_setEntry _ _ _)
  | .serviceQuery => accounted_takeCommand h _ fun _ _ _ _ hb => serviceQueryBody_ok hb ▸ h
  | .lineSet => accounted_takeCommand h _ fun _ _ _ _ hb => by
      obtain ⟨l, g, -, -, rfl⟩ := lineSetBody_ok hb
      exact h.modLine _ _
  | .lineEnable => accounted_takeCommand h _ fun _ _ _ _ hb => by
      obtain ⟨l, -, rfl⟩ := lineEnableBody_ok hb
      exact h.modLine _ _
  | .lineDisable => accounted_takeCommand h _ fun _ _ _ _ hb => by
      obtain ⟨l, rfl⟩ := lineDisableBody_ok hb
      exact h.disableLine l
  | .lineQuery => accounted_takeCommand h _ fun _ _ _ _ => h.lineQuery
  | .lineTake => accounted_takeCommand h _ fun _ _ _ _ hb => by
      obtain ⟨l, rfl⟩ := lineTakeBody_ok hb
      exact (h.of_keeps (keeps_putLine _ _ _)).judgeAtn
  | .query => accounted_takeCommand h _ fun _ _ _ _ hb => queryBody_ok hb ▸ h
  | .retire => accounted_takeCommand h _ fun _ _ _ _ => h.retire
  | .take => accounted_takeCommand h _ fun p _ _ _ hb => by
      obtain ⟨i, rfl⟩ := takeBody_ok hb
      exact h.taken p
  | .takeNext => accounted_takeCommand h _ fun p _ _ _ hb => by
      obtain ⟨i, rfl⟩ := takeNextBody_ok hb
      exact h.taken p
  | .portSet => accounted_takeCommand h _ fun p _ _ _ hb => by
      obtain ⟨f, rfl⟩ := portSetBody_ok hb
      exact (h.of_keeps (keeps_modPort _ p f)).judgeAtn
  | .portReset => accounted_portReset h
  | .unknownCommand => accounted_unknownCommand h
  | .commandWordWrite _ v => accounted_unlessReset h (keeps_writeCommand v)
  | .argumentWordWrite _ n v => accounted_unlessReset h (keeps_writeArgument n v)
  | .windowRegisterWrite _ v => accounted_unlessReset h (keeps_writeWindow v)
  | .clearRequest _ v => accounted_unlessReset h (keeps_writeStatus v)
  | .windowRead _ k m => h.of_keeps (keeps_readWindow k m)
  | .windowWrite _ k m v => h.of_keeps (keeps_writeWindowData k m v)
  | .voidAccess y => accounted_voidAccess h y
  | .openFrame l _ _ _ => accounted_receive h l _
  | .grantFrame l _ _ _ => accounted_receive h l _
  | .refuseFrame l _ _ _ => accounted_receive h l _
  | .carryFrame l _ _ _ _ => accounted_receive h l _
  | .creditFrame l _ _ _ => accounted_receive h l _
  | .askFrame l _ _ _ => accounted_receive h l _
  | .closeFrame l _ _ _ => accounted_receive h l _
  | .closedFrame l _ _ _ => accounted_receive h l _
  | .frameDiscarded l _ => accounted_takeBits h l _
  | .abort l _ => accounted_takeBits h l _
  | .openingFlag flag => accounted_takeBits h flag.line _
  | .openWaitExpiry i => accounted_expire h i _ fun c _ hu => hu.retryOr c (fun _ hv => hv.owe _) (hu.enterClosing _)
  | .offerWaitExpiry i => accounted_offerWaitExpiry h i
  | .ackWaitExpiry i => accounted_expire h i _ fun c _ hu => hu.retryOr c (fun _ hv => hv.owe _) (hu.enterClosing _)
  | .stallWaitExpiry i => accounted_expire h i _ fun c _ hu =>
      hu.retryOr c (fun _ hv => (hv.owe _).startTimer _) (hu.enterClosing _)
  | .closeWaitExpiry i => accounted_expire h i _ fun c _ hu =>
      hu.retryOr c (fun _ hv => hv.owe _) (hu.endClosing _).judgeAtn
  | .settleExpiry l => accounted_settleExpiry h l
  | .holdoffExpiry p => accounted_holdoffExpiry h p
  | .readyAsserted l => accounted_readyAsserted h l
  | .readyDropped l => accounted_readyDropped h l
  | .selectionEvent l => accounted_selectionEvent h l
  | .completion l => accounted_completion h l
  | .resetAsserted => accounted_reset.of_keeps (keeps_atReset s _)
  | .startUp => accounted_startUp h
  | .startUpCompletion => accounted_startUpCompletion h

theorem keeps_pending (s : State) (rest : List Instr) : Keeps [.pending] s { s with pending := rest } := fun z hz => by
  cases z
  case pending => simp at hz
  all_goals rfl

theorem accounted_step (h : Accounted q s) : Outcome.meets NoFault (Accounted q) (step s) := by
  unfold step
  split
  · exact h
  · exact accounted_exec (h.of_keeps (keeps_pending s _)) _

end

/-- Settles O57: the account, without and with the settled wait queue, passes through every row of the table. -/
theorem reservationsStayBacked : Obligations.ReservationsStayBacked := by
  refine ⟨fun s hb => ?_, fun s t hb hs hstep => ?_⟩
  · obtain ⟨t, hstep, ht⟩ := (accounted_step (State.accounted_false_iff.2 hb)).exists
    exact ⟨t, hstep, State.accounted_false_iff.1 ht⟩
  · exact (State.accounted_true_iff.1 ((accounted_step (State.accounted_true_iff.2 ⟨hb, hs⟩)).next hstep)).2

end Sys2Proof.Machine

namespace Sys2Proof.Machine

/-! ## CLAIM (R91) -/

namespace State

variable {s : State} {p : PortNo} {a : Args} {b : BufNo} {rest : List BufNo}

/-- The state in which the head buffer of the free queue has become the port's, its bytes 0 (R91). -/
def claimed (s : State) (p : PortNo) (b : BufNo) (rest : List BufNo) : State :=
  ((s.setFreeQueue rest).writeBuffer b 0 (List.replicate Config.bufferBytes 0)).setPlace b (.claimed p)

theorem keeps_claimed : Keeps [.freeQueue, .places, .memory] s (s.claimed p b rest) :=
  ((s.keeps_setFreeQueue rest).both (keeps_writeBuffer _ b 0 _) (zs := [.freeQueue, .places, .memory]) (by decide)
    (by decide)).both (keeps_setPlace _ b _) (by decide) (by decide)

theorem freeQueue_claimed : (s.claimed p b rest).freeQueue = rest := by
  rw [claimed, setPlace_freeQueue, writeBuffer_freeQueue, setFreeQueue_freeQueue]

theorem available_claimed : (s.claimed p b rest).available = rest.length - s.reservedTotal := by
  rw [available, freeQueue_claimed, keeps_claimed.at_reservedTotal (by decide)]

theorem place_claimed_ne {d : BufNo} (hd : d ≠ b) : (s.claimed p b rest).place d = s.place d := by
  rw [claimed, place_setPlace_ne _ hd, place_writeBuffer, place_setFreeQueue]

theorem bufferByte_claimed (d : BufNo) {k : Nat} (hk : k < 128) :
    (s.claimed p b rest).bufferByte d k = if d = b then 0 else s.bufferByte d k := by
  rw [claimed, bufferByte_setPlace, bufferByte_writeBuffer _ _ _ _ _ hk, bufferByte_setFreeQueue]
  by_cases hd : d = b
  · have hk' : k - 0 < Config.bufferBytes := hk
    rw [if_pos ⟨hd, Nat.zero_le k⟩, if_pos hd, List.getElem?_replicate_of_lt hk', Option.getD_some]
  · rw [if_neg fun e => hd e.1, if_neg hd]

/-- CLAIM passes its check while more buffers are available than the floor, and reports the buffer and what is then available. -/
theorem claimBody_of_available (hfloor : s.floor < s.available) (hq : s.freeQueue = b :: rest) :
    claimBody p a s = .ok (s.claimed p b rest,
      { r0 := BitVec.ofNat 32 b.val, r1 := inBits 9 0 (rest.length - s.reservedTotal) }) := by
  have hb : b.val < 2 ^ 9 := b.isLt
  have hbody : claimBody p a s = .ok (s.claimed p b rest,
      { r0 := inBits 8 0 b.val, r1 := inBits 9 0 (s.claimed p b rest).available }) := by
    simp only [claimBody, hfloor, hq, decide_true, require_true, bind, Except.bind, pure, Except.pure, claimed]
  rw [hbody, inBits_low hb, available_claimed]

theorem claimBody_of_floor (h : s.available ≤ s.floor) : claimBody p a s = .error .noBuffer := by
  simp only [claimBody, Nat.not_lt.2 h, decide_false, require_false, bind, Except.bind]

/-! ## UNCLAIM (R92) -/

/-- UNCLAIM of a buffer that the port has claimed returns it, and the pool serves its queue. -/
theorem unclaimBody_of_claimed (hb : a.a0.toNat = b.val) (hplace : s.place b = .claimed p) :
    unclaimBody p a s = .ok ((s.returnBuffer b).serveWait, {}) := by
  simp only [unclaimBody, bufferArg_of hb, hplace, decide_true, require_true, bind, Except.bind]
  rfl

theorem unclaimBody_of_other (hb : a.a0.toNat = b.val) (hplace : s.place b ≠ .claimed p) :
    unclaimBody p a s = .error .notOwner := by
  simp only [unclaimBody, bufferArg_of hb, hplace, decide_false, require_false, bind, Except.bind]

theorem unclaimBody_of_none (h : 511 < a.a0.toNat) : unclaimBody p a s = .error .badArgument := by
  simp only [unclaimBody, bufferArg_bad h, bind, Except.bind]

end State

/-- Settles O17: CLAIM by the available count and the floor, and UNCLAIM by the buffer its argument names and where that stands. -/
theorem claimAndUnclaimMoveABuffer : Obligations.ClaimAndUnclaimMoveABuffer := by
  refine ⟨fun s p htaken => ⟨fun b rest hfloor hq => ?_, fun hle => fails_of htaken rfl (State.claimBody_of_floor hle)⟩,
    fun s p htaken => ⟨fun b hb => ⟨fun hplace u hu => ?_,
      fun hplace => fails_of htaken rfl (State.unclaimBody_of_other hb hplace)⟩,
      fun hnone => fails_of htaken rfl (State.unclaimBody_of_none hnone)⟩⟩
  · have hnext : exec .claim s = _ := next_of_ok htaken (State.claimBody_of_available hfloor hq)
    refine ⟨_, hnext, State.answers_finish (State.keeps_claimed.at_ports (by decide)) .ok _, ?_, ?_, fun d hd => ?_,
      fun k hk => ?_, fun d k hd hk => ?_, State.keeps_claimed.finish p .ok _⟩
    · rw [(State.keeps_finish _ p .ok _).at_freeQueue (by decide), State.freeQueue_claimed]
    · rw [State.place_finish, State.claimed, State.place_setPlace_same]
    · rw [State.place_finish, State.place_claimed_ne hd]
    · rw [State.bufferByte_finish, State.bufferByte_claimed _ hk, if_pos rfl]
    · rw [State.bufferByte_finish, State.bufferByte_claimed _ hk, if_neg hd]
  · obtain rfl : u = s.returnBuffer b := hu
    have hnext : exec .unclaim s = _ := next_of_ok htaken (State.unclaimBody_of_claimed hb hplace)
    have hkeeps : Keeps [.freeQueue, .places, .slots, .reservedTotal, .waitQueue, .lines] s (s.returnBuffer b).serveWait :=
      (s.keeps_returnBuffer b).both (State.keeps_serveWait _) (by decide) (by decide)
    exact ⟨_, hnext, State.answers_finish (hkeeps.at_ports (by decide)) .ok _, State.keeps_finish _ p .ok _,
      hkeeps.finish p .ok _⟩

/-! ## Service of the credit wait queue (R66, R88) -/

namespace State

variable {s : State} {i j : SlotNo} {rest : List SlotNo} {c : Circuit}

/-- The state in which the circuit at the head of the credit wait queue has left it with one more reservation and owes CREDIT. -/
def handed (s : State) (i : SlotNo) (rest : List SlotNo) : State :=
  (((s.setReservedTotal (s.reservedTotal + 1)).setWaitQueue rest).modCircuit i
    fun c => { c with reserved := c.reserved + 1, receiveEdge := c.receiveEdge + 1 }).owe i .credit

theorem circuit_handed (h : s.circuit i = some c) : (s.handed i rest).circuit i = some
    { c with reserved := c.reserved + 1, receiveEdge := c.receiveEdge + 1, owed := c.owed.put .credit true } := by
  rw [handed, circuit_owe, if_pos rfl, circuit_modCircuit_same, circuit_setWaitQueue, circuit_setReservedTotal, h]
  rfl

theorem slot_handed_ne (h : j ≠ i) : (s.handed i rest).slot j = s.slot j := by
  rw [handed, slot_owe_ne h, slot_modCircuit_ne _ h, slot_setWaitQueue, slot_setReservedTotal]

theorem generation_handed : ((s.handed i rest).slot i).generation = (s.slot i).generation := by simp [handed]

theorem line_handed (h : s.circuit i = some c) (m : LineNo) : (s.handed i rest).line m
    = if m = c.line then { s.line m with tx := { (s.line m).tx with control := joinTail (s.line m).tx.control i } }
      else s.line m := by
  have hd : (((s.setReservedTotal (s.reservedTotal + 1)).setWaitQueue rest).modCircuit i
      fun c => { c with reserved := c.reserved + 1, receiveEdge := c.receiveEdge + 1 }).circuit i
      = some { c with reserved := c.reserved + 1, receiveEdge := c.receiveEdge + 1 } := by
    rw [circuit_modCircuit_same, circuit_setWaitQueue, circuit_setReservedTotal, h]
    rfl
  rw [handed, line_owe hd]
  rfl

theorem reservedTotal_handed : (s.handed i rest).reservedTotal = s.reservedTotal + 1 := by
  rw [handed, (keeps_owe _ i .credit).at_reservedTotal (by decide)]
  rfl

theorem waitQueue_handed : (s.handed i rest).waitQueue = rest := by
  rw [handed, (keeps_owe _ i .credit).at_waitQueue (by decide)]
  rfl

/-- One grant: the head circuit is handed a reservation, and joins the tail while it is still short. -/
theorem grantOne_eq (h : s.circuit i = some c) :
    s.grantOne i rest = (s.handed i rest).setWaitQueue (if c.reserved + 1 < c.target then rest ++ [i] else rest) := by
  have hg : s.grantOne i rest = if ((s.handed i rest).circuit i).any Circuit.short
      then (s.handed i rest).setWaitQueue ((s.handed i rest).waitQueue ++ [i]) else s.handed i rest := rfl
  have hself : (s.handed i rest).setWaitQueue (s.handed i rest).waitQueue = s.handed i rest := rfl
  rw [waitQueue_handed] at hself
  rw [hg, circuit_handed h, waitQueue_handed]
  simp only [Option.any_some, Circuit.short, decide_eq_true_eq]
  split_ifs
  · rfl
  · exact hself.symm

theorem serveWait_of_empty (h : s.waitQueue = []) : s.serveWait = s := by
  unfold serveWait
  cases s.available with
  | zero => rfl
  | succ n => rw [serveTimes, h]

/-- While a circuit waits and a buffer is available, service is one grant and then the service of what is left. -/
theorem serveWait_of_waiting (hq : s.waitQueue = i :: rest) (ha : 0 < s.available) :
    s.serveWait = (s.grantOne i rest).serveWait := by
  obtain ⟨n, hn⟩ : ∃ n, s.available = n + 1 := ⟨s.available - 1, by omega⟩
  have hleft : (s.grantOne i rest).available = n := by
    rw [available_grantOne, hn]
    rfl
  rw [serveWait, serveWait, hn, hleft, serveTimes, hq]

end State

/-- Settles O18: what service may do at all, that it does nothing where there is nothing to grant or nobody waits, and one grant. -/
theorem poolServesTheCreditQueue : Obligations.PoolServesTheCreditQueue := by
  intro s
  refine ⟨State.served_serveWait s, ?_, fun i rest c hq ha hc => ?_⟩
  · rintro (hempty | hnone)
    · exact State.serveWait_of_empty hempty
    · exact State.serveWait_of_unavailable hnone
  · have hkeeps := s.keeps_grantOne i rest
    refine ⟨s.grantOne i rest, State.serveWait_of_waiting hq ha, ?_⟩
    rw [State.grantOne_eq hc] at hkeeps ⊢
    refine ⟨State.reservedTotal_handed, State.circuit_handed hc, rfl, ?_, State.generation_handed,
      fun j hj => State.slot_handed_ne hj, fun m hm => ?_, hkeeps⟩
    · rw [State.line_setWaitQueue, State.line_handed hc, if_pos rfl]
    · rw [State.line_setWaitQueue, State.line_handed hc, if_neg hm]

/-! ## POOL-SET and POOL-QUERY (R93, R94, R156) -/

section

variable {s : State} {p : PortNo} {a : Args}

theorem poolSetBody_of_other (h : p ≠ 0) : poolSetBody p a s = .error .notPermitted := by
  simp only [poolSetBody, supervisorOnly, h, decide_false, require_false, bind, Except.bind]

theorem poolSetBody_of_floor (h : a.a0.toNat ≤ 256) :
    poolSetBody 0 a s = .ok (s.setFloor a.a0.toNat, { r0 := inBits 8 0 s.floor }) := by
  simp only [poolSetBody, supervisorOnly, h, decide_true, require_true, bind, Except.bind]
  rfl

theorem poolSetBody_of_large (h : 256 < a.a0.toNat) : poolSetBody 0 a s = .error .badArgument := by
  simp only [poolSetBody, supervisorOnly, Nat.not_le.2 h, decide_true, decide_false, require_true, require_false, bind,
    Except.bind]

end

/-- Settles O19: POOL-SET by its port and its argument, and POOL-QUERY, whose body has no check. -/
theorem poolSetAndPoolQuery : Obligations.PoolSetAndPoolQuery := by
  refine ⟨fun s p hp htaken => fails_of htaken rfl (poolSetBody_of_other hp),
    fun s htaken => ⟨fun hle => ?_, fun hlt => fails_of htaken rfl (poolSetBody_of_large hlt)⟩, fun s p htaken => ?_⟩
  · have hnext : exec .poolSet s = _ := next_of_ok htaken (poolSetBody_of_floor hle)
    exact ⟨_, hnext, rfl, State.answers_finish rfl .ok _, (s.keeps_setFloor _).finish 0 .ok _⟩
  · have hnext : exec .poolQuery s = .next (s.finish p .ok (s.poolResults p)) := next_of_ok htaken rfl
    exact ⟨_, hnext, State.answers_finish rfl .ok _, s.keeps_finish p .ok _⟩

end Sys2Proof.Machine

namespace Sys2Proof.Machine

/-! ### Refusals by the service table (R100, R101) -/

/-- The admission limit of an action, at the live count of its entry (R101). -/
theorem Action.limit_eq_some {x : Action} {limit : Nat} : x.limit = some limit ↔
    (∃ client, x = .offer client limit) ∨ ∃ client credit, x = .accept client credit limit := by
  cases x <;> simp [Action.limit]

namespace State

variable {s : State} {l : LineNo} {n a b cause : Byte} {e : EntryNo} {f : ServiceFields} {live limit : Nat}

theorem openArrives_unmapped (h : s.lookup l n = none) : s.openArrives l n a b = s.admitCall l n a b := by
  simp only [openArrives, arrivalAt_of_unmapped h]

theorem admitCall_noService (h : ∀ d g m, s.entry d = .active g m → ¬ g.fits l a) :
    s.admitCall l n a b = s.refuseCall l n Config.causeNoService := by
  simp only [admitCall, matchingEntry_of_none h]

theorem admitCall_refuse (hadmits : s.admits l a e f live) (haction : f.action = .refuse cause) :
    s.admitCall l n a b = s.refuseCall l n cause := by
  simp only [admitCall, matchingEntry_of_admits hadmits, haction]

/-- An entry at its limit refuses with BUSY, whether it offers or accepts. -/
theorem admitCall_busy (hadmits : s.admits l a e f live) (hlimit : f.action.limit = some limit) (hfull : limit ≤ live) :
    s.admitCall l n a b = s.refuseCall l n Config.causeBusy := by
  obtain ⟨client, haction⟩ | ⟨client, credit, haction⟩ := Action.limit_eq_some.1 hlimit <;>
    simp only [admitCall, matchingEntry_of_admits hadmits, haction, if_pos hfull]

/-- An entry below its limit refuses with CONGESTED when no slot is FREE, whether it offers or accepts. -/
theorem admitCall_congested (hadmits : s.admits l a e f live) (hlimit : f.action.limit = some limit) (hroom : live < limit)
    (hfree : s.freeSlots = []) : s.admitCall l n a b = s.refuseCall l n Config.causeCongested := by
  have hnot := Nat.not_le.2 hroom
  obtain ⟨client, haction⟩ | ⟨client, credit, haction⟩ := Action.limit_eq_some.1 hlimit
  · simp only [admitCall, matchingEntry_of_admits hadmits, haction, if_neg hnot, admitOffer, allocate_of_full hfree]
  · simp only [admitCall, matchingEntry_of_admits hadmits, haction, if_neg hnot, admitAccept, allocate_of_full hfree]

theorem line_refuseCall_heard : ((s.heard l).refuseCall l n cause).line l = { s.line l with
    receiver := .frame [], tx := { (s.line l).tx with stray := offered (s.line l).tx.stray ⟨n, .refuse, cause⟩ } } := by
  rw [refuseCall, line_offerReply, line_setReceiver_same]

theorem line_refuseCall_heard_ne {m : LineNo} (h : m ≠ l) : ((s.heard l).refuseCall l n cause).line m = s.line m :=
  (line_offerReply_ne h _).trans (line_setReceiver_ne h _)

end State

/-- Settles O32: each test of R101 that fails makes the frame, once heard, offer a REFUSE reply and do nothing else. -/
theorem admissionRefusesACall : Obligations.AdmissionRefusesACall := by
  intro s l n a b cause hhears h1 h2 hb hlookup hrefuses
  suffices h : (s.heard l).admitCall l n a b = (s.heard l).refuseCall l n cause by
    have hnext := State.exec_openFrame hhears (State.frameValid_open (a := a) h1 h2 hb)
    rw [State.openArrives_unmapped (s := s.heard l) hlookup, h] at hnext
    exact ⟨_, hnext, State.judged_strayOnly ((s.keeps_heard l).trans (State.keeps_offerReply _ l _))
      State.line_refuseCall_heard fun m hm => State.line_refuseCall_heard_ne hm⟩
  obtain ⟨hnone, rfl⟩ | ⟨e, f, live, hadmits, hentry⟩ := hrefuses
  · exact State.admitCall_noService hnone
  · have hheard : (s.heard l).admits l a e f live := hadmits
    obtain haction | ⟨client, limit, haction, hfull, rfl⟩ | ⟨client, credit, limit, haction, hfull, rfl⟩
      | ⟨client, limit, haction, hroom, hfree, rfl⟩ | ⟨client, credit, limit, haction, hroom, hfree, rfl⟩ := hentry
    · exact State.admitCall_refuse hheard haction
    · exact State.admitCall_busy hheard (Action.limit_eq_some.2 (.inl ⟨client, haction⟩)) hfull
    · exact State.admitCall_busy hheard (Action.limit_eq_some.2 (.inr ⟨client, credit, haction⟩)) hfull
    · exact State.admitCall_congested hheard (Action.limit_eq_some.2 (.inl ⟨client, haction⟩)) hroom hfree
    · exact State.admitCall_congested hheard (Action.limit_eq_some.2 (.inr ⟨client, credit, haction⟩)) hroom hfree

end Sys2Proof.Machine

namespace Sys2Proof.Machine

/-! ## SERVICE-SET (R104, R105) -/

section

variable {s : State} {p : PortNo} {a : Args} {e : EntryNo} {f : ServiceFields} {x : ServiceEntry} {live : Nat}

theorem supervisorOnly_zero : supervisorOnly 0 = .ok () := rfl

theorem supervisorOnly_of_other (h : p ≠ 0) : supervisorOnly p = .error .notPermitted := by
  rw [supervisorOnly, decide_eq_false h, require_false]

/-- A word that describes a service code, or any code, passes its check (R186). -/
theorem codeArg_of (h : describesService a f) : codeArg a.a1 = .ok f.code := by
  obtain ⟨-, hcode, -⟩ := h
  cases hf : f.code with
  | none =>
    rw [hf] at hcode
    rw [codeArg, if_pos hcode]
  | some x =>
    rw [hf] at hcode
    have hx := x.isLt
    have hany : a.a1 ≠ 0xFFFFFFFF#32 := fun hall => by
      rw [hall] at hcode
      simp only [BitVec.reduceToNat] at hcode
      omega
    have hbyte : a.a1.setWidth 8 = x :=
      BitVec.eq_of_toNat_eq (by rw [BitVec.toNat_setWidth, hcode, Nat.mod_eq_of_lt hx])
    rw [codeArg, if_neg hany, if_pos (by omega), hbyte]

/-- Words that describe the fields of an action, each in its range, pass its checks (R104). -/
theorem actionArg_of (h : describesService a f) : actionArg a.a0 a.a2 = .ok f.action := by
  obtain ⟨-, -, haction⟩ := h
  cases hf : f.action with
  | offer client limit =>
    rw [hf] at haction
    obtain ⟨hkind, hclient, rfl, hlo, hhi⟩ := haction
    simp only [actionArg, hkind, portArg_of hclient, hlo, hhi, decide_true, Bool.and_true, require_true, bind, Except.bind,
      pure, Except.pure]
  | accept client credit limit =>
    rw [hf] at haction
    obtain ⟨hkind, hclient, rfl, hlo, hhi, rfl, hcredit⟩ := haction
    simp only [actionArg, hkind, portArg_of hclient, hlo, hhi, hcredit, decide_true, Bool.and_true, require_true, bind,
      Except.bind, pure, Except.pure]
  | refuse cause =>
    rw [hf] at haction
    obtain ⟨hkind, hcause, hlo⟩ := haction
    simp only [actionArg, hkind, hcause, hlo, decide_true, require_true, bind, Except.bind, pure, Except.pure,
      BitVec.ofNat_toNat, BitVec.setWidth_eq]

/-- SERVICE-SET with its fields in range acts by the entry alone. -/
theorem serviceSetBody_of_describes (he : bitsOf a.a0 7 0 = e.val) (hf : describesService a f) :
    serviceSetBody 0 a s
      = (entryAfterSet f (s.entry e)).bind fun x => .ok (s.setEntry e x, { r0 := x.stateWord }) := by
  have ⟨hlines, _, _⟩ := hf
  have hfields : (⟨f.code, BitVec.ofNat 8 (bitsOf a.a0 31 24), f.action⟩ : ServiceFields) = f := by rw [← hlines]
  simp only [serviceSetBody, supervisorOnly_zero, entryArg_of he, actionArg_of hf, codeArg_of hf, hfields, bind,
    Except.bind, pure, Except.pure]

theorem entryAfterSet_of_free
    (h : x = .empty ∧ live = 0 ∨ ∃ old, x = .active old live ∧ (live = 0 ∨ old.code = f.code)) :
    entryAfterSet f x = .ok (.active f live) := by
  obtain ⟨rfl, rfl⟩ | ⟨old, rfl, hfits⟩ := h
  · rfl
  · rw [entryAfterSet, if_pos hfits]

theorem entryAfterSet_of_inUse (h : (∃ old live, x = .withdrawn old live)
    ∨ ∃ old live, x = .active old live ∧ 0 < live ∧ old.code ≠ f.code) : entryAfterSet f x = .error .inUse := by
  obtain ⟨old, live, rfl⟩ | ⟨old, live, rfl, hlive, hcode⟩ := h
  · rfl
  · have hnot : ¬ (live = 0 ∨ old.code = f.code) := not_or.2 ⟨Nat.ne_of_gt hlive, hcode⟩
    rw [entryAfterSet, if_neg hnot]

end

/-- Settles O20: the checks pass, and the entry takes the fields or is in use. -/
theorem serviceSetLoadsTheEntry : Obligations.ServiceSetLoadsTheEntry := by
  intro s e f htaken he hf
  refine ⟨fun live hfree => ?_, fun hinUse => fails_of htaken rfl ?_⟩
  · have hbody : serviceSetBody 0 (s.port 0).args s
        = .ok (s.setEntry e (.active f live), { r0 := (ServiceEntry.active f live).stateWord }) := by
      rw [serviceSetBody_of_describes he hf, entryAfterSet_of_free hfree]
      rfl
    have hnext : exec .serviceSet s = _ := next_of_ok htaken hbody
    refine ⟨_, hnext, ?_, State.answers_finish rfl .ok _, fun d hd => ?_, (s.keeps_setEntry e _).finish 0 .ok _⟩
    · rw [State.entry_finish, State.entry_setEntry_same]
    · rw [State.entry_finish, State.entry_setEntry_ne _ hd]
  · rw [serviceSetBody_of_describes he hf, entryAfterSet_of_inUse hinUse]
    rfl

/-! ## SERVICE-CLEAR and SERVICE-QUERY (R106, R107) -/

section

variable {s : State} {p : PortNo} {a : Args} {e : EntryNo} {f : ServiceFields}

theorem serviceClearBody_of_other (h : p ≠ 0) : serviceClearBody p a s = .error .notPermitted := by
  simp only [serviceClearBody, supervisorOnly_of_other h, bind, Except.bind]

theorem serviceClearBody_of_none (h : 23 < a.a0.toNat) : serviceClearBody 0 a s = .error .badArgument := by
  simp only [serviceClearBody, supervisorOnly_zero, entryArg_bad h, bind, Except.bind]

theorem serviceClearBody_of_entry (h : a.a0.toNat = e.val) : serviceClearBody 0 a s
    = .ok (s.setEntry e (entryAfterClear (s.entry e)), { r0 := (entryAfterClear (s.entry e)).stateWord }) := by
  simp only [serviceClearBody, supervisorOnly_zero, entryArg_of h, bind, Except.bind, pure, Except.pure]

theorem serviceQueryBody_of_none (h : 23 < a.a0.toNat) : serviceQueryBody p a s = .error .badArgument := by
  simp only [serviceQueryBody, entryArg_bad h, bind, Except.bind]

theorem serviceQueryBody_of_entry (h : a.a0.toNat = e.val) : serviceQueryBody p a s = .ok (s, s.serviceResults e) := by
  simp only [serviceQueryBody, entryArg_of h, bind, Except.bind, pure, Except.pure]

/-! The words that report an entry, by its state (R187). -/

theorem serviceResults_of_empty (h : s.entry e = .empty) :
    (s.serviceResults e).r0 = 0 ∧ (s.serviceResults e).r1 = 0 ∧ (s.serviceResults e).r2 = 0 := by
  simp only [State.serviceResults, h]
  decide

theorem serviceResults_of_fields (h : (s.entry e).fields = some f) :
    (s.serviceResults e).r0 = inBits 1 0 (s.entry e).code ||| inBits 3 2 f.action.code
        ||| optBits 5 4 6 (f.action.client.map Fin.val) ||| inBits 15 8 (s.entry e).live
      ∧ (s.serviceResults e).r1 = optBits 7 0 8 (f.code.map BitVec.toNat) ||| inBits 9 9 (if f.code = none then 1 else 0)
        ||| (inBits 23 16 f.lines.toNat ||| inBits 24 24 1)
      ∧ (s.serviceResults e).r2 = optBits 7 0 8 f.action.refuseCause ||| optBits 12 9 13 f.action.credit
        ||| optBits 23 16 24 f.action.limit := by
  simp only [State.serviceResults, h]
  exact ⟨rfl, rfl, rfl⟩

end

/-- Settles O21: the checks that fail, then SERVICE-CLEAR and SERVICE-QUERY of an entry. -/
theorem serviceClearAndServiceQuery : Obligations.ServiceClearAndServiceQuery := by
  refine ⟨fun s p => ⟨fun hp htaken => fails_of htaken rfl (serviceClearBody_of_other hp), fun hnone => ⟨?_,
    fun htaken => fails_of htaken rfl (serviceQueryBody_of_none hnone)⟩⟩, fun s e htaken he => ?_,
    fun s p e htaken he => ?_⟩
  · rintro rfl htaken
    exact fails_of htaken rfl (serviceClearBody_of_none hnone)
  · have hnext : exec .serviceClear s = _ := next_of_ok htaken (serviceClearBody_of_entry he)
    refine ⟨_, hnext, ?_, ?_, fun d hd => ?_, (s.keeps_setEntry e _).finish 0 .ok _⟩
    · rw [State.entry_finish, State.entry_setEntry_same]
      cases s.entry e with
      | empty => rfl
      | active f live => rfl
      | withdrawn f live => rfl
    · rw [State.entry_finish, State.entry_setEntry_same]
      exact State.answers_finish rfl .ok _
    · rw [State.entry_finish, State.entry_setEntry_ne _ hd]
  · have hnext : exec .serviceQuery s = _ := next_of_ok htaken (serviceQueryBody_of_entry he)
    refine ⟨_, s.serviceResults e, hnext, State.answers_finish rfl .ok _, s.keeps_finish p .ok _, serviceResults_of_empty,
      fun f live hentry => ?_, rfl⟩
    obtain ⟨hfields, rfl⟩ : (s.entry e).fields = some f ∧ (s.entry e).live = live := by
      obtain h | h := hentry <;> rw [h] <;> exact ⟨rfl, rfl⟩
    exact serviceResults_of_fields hfields

end Sys2Proof.Machine

/-! The lines: their records through every step, the line commands, and the READY monitor. -/

namespace Sys2Proof.Machine

/-! ## Records of one line (R109 to R129) -/

/-- What READY asserted makes of a line whose monitor held it deasserted (R111, R113). -/
def Line.readied (r : Line) : Line :=
  { r with
    readyPin := true
    readyLevel := true
    state := if r.state = .waiting then .settling else r.state
    settleTimer := if r.state = .waiting then some r.config.settleTime else r.settleTimer }

/-- What READY dropped makes of a line that is not ACTIVE, whose monitor held it asserted (R113). -/
def Line.unreadied (r : Line) : Line :=
  { r with
    readyPin := false
    readyLevel := false
    state := if r.state = .settling then .waiting else r.state
    settleTimer := if r.state = .settling then none else r.settleTimer }

/-- An ACTIVE line whose READY has dropped, before it leaves ACTIVE (R116, R124). -/
def Line.lost (r : Line) : Line :=
  { r with readyPin := false, readyLevel := false, losses := min Config.lossMax (r.losses + 1) }

/-- An ACTIVE line that has left ACTIVE for a state x, after its teardown (R116 to R120). -/
def Line.tornDown (r : Line) (x : LineState) : Line :=
  { r with
    state := x
    discards := match r.receiver with
      | .frame _ => min Config.countMax (r.discards + 1)
      | _ => r.discards
    receiver := match r.receiver with
      | .frame _ => .hunt
      | y => y
    changed := decide ((if x = .active then Level.up else .down) ≠ r.reported)
    tx := { data := State.afterTeardown r.tx.staged.isSome x } }

/-- A receiver is OFF after a teardown when it was before. -/
theorem Line.tornDown_receiver_off_iff (r : Line) (x : LineState) :
    (r.tornDown x).receiver = .off ↔ r.receiver = .off := by
  unfold Line.tornDown
  cases hr : r.receiver <;> simp

theorem Line.tornDown_discards_le {r : Line} (h : r.discards ≤ Config.countMax) (x : LineState) :
    (r.tornDown x).discards ≤ Config.countMax := by
  unfold Line.tornDown
  cases r.receiver with
  | off => exact h
  | hunt => exact h
  | frame bits => exact min_le_left _ _

/-- A line that LINE-DISABLE has made DISABLED agrees with itself when nothing is staged and the change flag follows. -/
theorem Line.sound_disabled {r : Line} (hidle : ¬ r.tx.staged.isSome = true)
    (hchanged : r.changed = decide (Level.down ≠ r.reported))
    (hcounts : r.discards ≤ Config.countMax ∧ r.losses ≤ Config.lossMax)
    (hdurations : ∀ p, 1 ≤ r.config.duration p ∧ r.config.duration p ≤ 255)
    (hsettings : 1 ≤ r.config.settleTime ∧ r.config.settleTime ≤ 255 ∧ 1 ≤ r.config.retryLimit
      ∧ r.config.retryLimit ≤ 15) :
    r.disabled.sound :=
  ⟨iff_of_false Bool.false_ne_true LineState.noConfusion, iff_of_false Bool.false_ne_true (absurd rfl), iff_of_true rfl rfl,
    hchanged, fun he => absurd he hidle, absurd rfl, hcounts, hdurations, hsettings⟩

namespace Line.sound

variable {r : Line} (h : r.sound)

include h

theorem withPin (x : Bool) : ({ r with readyPin := x } : Line).sound :=
  ⟨h.settle, h.lon, h.receiver, h.changed, h.staged, h.ready, h.counts, h.durations, h.settings⟩

/-- A receiver that is not OFF stays so. -/
theorem withReceiver {x : Receiver} (hr : r.receiver ≠ .off) (hx : x ≠ .off) : ({ r with receiver := x } : Line).sound :=
  ⟨h.settle, h.lon, iff_of_false hx fun hs => hr (h.receiver.2 hs), h.changed, h.staged, h.ready, h.counts, h.durations,
    h.settings⟩

theorem withCounts {d n : Nat} (hd : d ≤ Config.countMax) (hn : n ≤ Config.lossMax) :
    ({ r with discards := d, losses := n } : Line).sound :=
  ⟨h.settle, h.lon, h.receiver, h.changed, h.staged, h.ready, ⟨hd, hn⟩, h.durations, h.settings⟩

theorem withConfig {g : LineConfig} (hd : ∀ p, 1 ≤ g.duration p ∧ g.duration p ≤ 255)
    (hg : 1 ≤ g.settleTime ∧ g.settleTime ≤ 255 ∧ 1 ≤ g.retryLimit ∧ g.retryLimit ≤ 15) :
    ({ r with config := g } : Line).sound :=
  ⟨h.settle, h.lon, h.receiver, h.changed, h.staged, h.ready, h.counts, hd, hg⟩

/-- LINE-TAKE copies the level, and the change flag follows. -/
theorem taken : ({ r with reported := r.level } : Line).flagged.sound :=
  ⟨h.settle, h.lon, h.receiver, rfl, h.staged, h.ready, h.counts, h.durations, h.settings⟩

/-- A line that is not ACTIVE has no staged frame. -/
theorem idle (hs : r.state ≠ .active) : ¬ r.tx.staged.isSome = true := fun he => hs (h.staged he)

/-- The level of a line that is not ACTIVE is DOWN. -/
theorem changed_of_down (hs : r.state ≠ .active) : r.changed = decide (Level.down ≠ r.reported) := by
  rw [h.changed, Line.level, if_neg hs]

theorem enabled (hs : r.state = .disabled) : r.enabled.sound := by
  have hdown : r.state ≠ .active := by rw [hs]; decide
  have hchanged := h.changed_of_down hdown
  cases hr : r.readyLevel with
  | false =>
    have hwaits : r.enabled = { r with
        state := .waiting, settleTimer := none, lon := true, receiver := .hunt, tx := { r.tx with data := .flags } } := by
      simp [Line.enabled, hr]
    rw [hwaits]
    exact ⟨iff_of_false Bool.false_ne_true LineState.noConfusion, iff_of_true rfl LineState.noConfusion,
      iff_of_false Receiver.noConfusion LineState.noConfusion, hchanged, fun he => absurd he (h.idle hdown),
      fun _ => iff_of_false (by simp [hr]) (by simp), h.counts, h.durations, h.settings⟩
  | true =>
    have hsettles : r.enabled = { r with
        state := .settling, settleTimer := some r.config.settleTime, lon := true, receiver := .hunt
        tx := { r.tx with data := .flags } } := by
      simp [Line.enabled, hr]
    rw [hsettles]
    exact ⟨iff_of_true rfl rfl, iff_of_true rfl LineState.noConfusion,
      iff_of_false Receiver.noConfusion LineState.noConfusion, hchanged, fun he => absurd he (h.idle hdown),
      fun _ => iff_of_true hr (.inl rfl), h.counts, h.durations, h.settings⟩

/-- The settle timer's expiry makes a SETTLING line ACTIVE. -/
theorem risen (hs : r.state = .settling) : ({ r with state := .active, settleTimer := none } : Line).flagged.sound := by
  have hup : r.state ≠ .disabled := by rw [hs]; decide
  exact ⟨iff_of_false Bool.false_ne_true LineState.noConfusion, iff_of_true (h.lon.2 hup) LineState.noConfusion,
    iff_of_false (fun he => hup (h.receiver.1 he)) LineState.noConfusion, rfl, fun _ => rfl,
    fun _ => iff_of_true ((h.ready hup).2 (.inl hs)) (.inr rfl), h.counts, h.durations, h.settings⟩

/-- Where the monitor holds READY deasserted, the line is DISABLED or WAITING. -/
theorem down_of_unready (hr : r.readyLevel = false) : r.state = .disabled ∨ r.state = .waiting := by
  by_cases hd : r.state = .disabled
  · exact .inl hd
  · have hready : ¬ (r.state = .settling ∨ r.state = .active) := fun hup => by
      rw [(h.ready hd).2 hup] at hr
      cases hr
    cases hs : r.state with
    | disabled => exact .inl rfl
    | waiting => exact .inr rfl
    | settling => exact absurd (.inl hs) hready
    | active => exact absurd (.inr hs) hready

/-- Where the monitor holds READY asserted and the line is not ACTIVE, it is DISABLED or SETTLING. -/
theorem down_of_ready (hr : r.readyLevel = true) (ha : r.state ≠ .active) : r.state = .disabled ∨ r.state = .settling := by
  by_cases hd : r.state = .disabled
  · exact .inl hd
  · exact .inr (((h.ready hd).1 hr).resolve_right ha)

theorem readied (hr : r.readyLevel = false) : r.readied.sound := by
  have hdown : r.state ≠ .active := by obtain hs | hs := h.down_of_unready hr <;> rw [hs] <;> decide
  have hchanged := h.changed_of_down hdown
  obtain hs | hs := h.down_of_unready hr
  · have hsame : r.readied = { r with readyPin := true, readyLevel := true } := by simp [Line.readied, hs]
    rw [hsame]
    exact ⟨h.settle, h.lon, h.receiver, h.changed, h.staged, fun hup => absurd hs hup, h.counts, h.durations, h.settings⟩
  · have hup : r.state ≠ .disabled := by rw [hs]; decide
    have hrises : r.readied
        = { r with readyPin := true, readyLevel := true, state := .settling, settleTimer := some r.config.settleTime } := by
      simp [Line.readied, hs]
    rw [hrises]
    exact ⟨iff_of_true rfl rfl, iff_of_true (h.lon.2 hup) LineState.noConfusion,
      iff_of_false (fun he => hup (h.receiver.1 he)) LineState.noConfusion, hchanged, fun he => absurd he (h.idle hdown),
      fun _ => iff_of_true rfl (.inl rfl), h.counts, h.durations, h.settings⟩

theorem unreadied (hr : r.readyLevel = true) (hdown : r.state ≠ .active) : r.unreadied.sound := by
  have hchanged := h.changed_of_down hdown
  obtain hs | hs := h.down_of_ready hr hdown
  · have hsame : r.unreadied = { r with readyPin := false, readyLevel := false } := by simp [Line.unreadied, hs]
    rw [hsame]
    exact ⟨h.settle, h.lon, h.receiver, h.changed, h.staged, fun hup => absurd hs hup, h.counts, h.durations, h.settings⟩
  · have hup : r.state ≠ .disabled := by rw [hs]; decide
    have hfalls : r.unreadied
        = { r with readyPin := false, readyLevel := false, state := .waiting, settleTimer := none } := by
      simp [Line.unreadied, hs]
    rw [hfalls]
    exact ⟨iff_of_false Bool.false_ne_true LineState.noConfusion, iff_of_true (h.lon.2 hup) LineState.noConfusion,
      iff_of_false (fun he => hup (h.receiver.1 he)) LineState.noConfusion, hchanged, fun he => absurd he (h.idle hdown),
      fun _ => iff_of_false Bool.false_ne_true (by simp), h.counts, h.durations, h.settings⟩

/-- LINE-DISABLE of a line that is not ACTIVE. -/
theorem disabled (hs : r.state ≠ .active) : r.disabled.sound :=
  Line.sound_disabled (h.idle hs) (h.changed_of_down hs) h.counts h.durations h.settings

/-- LINE-DISABLE of an ACTIVE line, after its teardown. -/
theorem disabled_tornDown : (r.tornDown .disabled).disabled.sound :=
  Line.sound_disabled Bool.false_ne_true rfl ⟨Line.tornDown_discards_le h.counts.1 _, h.counts.2⟩ h.durations h.settings

/-- A lost line, after its teardown, waits for READY. -/
theorem lost_tornDown (hs : r.state = .active) : (r.lost.tornDown .waiting).sound := by
  have hup : r.state ≠ .disabled := by rw [hs]; decide
  have hidle : r.settleTimer.isSome ≠ true := fun he => by
    have hsettling := h.settle.1 he
    rw [hs] at hsettling
    cases hsettling
  have hon : (r.lost.tornDown .waiting).receiver ≠ .off := fun he =>
    hup (h.receiver.1 ((Line.tornDown_receiver_off_iff r.lost .waiting).1 he))
  exact ⟨iff_of_false hidle LineState.noConfusion, iff_of_true (h.lon.2 hup) LineState.noConfusion,
    iff_of_false hon LineState.noConfusion, rfl, fun he => absurd he Bool.false_ne_true,
    fun _ => iff_of_false Bool.false_ne_true (by simp [Line.tornDown]),
    ⟨Line.tornDown_discards_le (r := r.lost) h.counts.1 .waiting, min_le_left _ _⟩, h.durations, h.settings⟩

end Line.sound

namespace State

variable {s t : State} {l m : LineNo} {p : PortNo} {a : Args} {w : Results} {f g : Line → Line}

/-! ## Changes of one line -/

theorem modLine_modLine : (s.modLine l f).modLine l g = s.modLine l fun r => g (f r) := by
  simp only [modLine, line_setLine_same]
  simp only [setLine, Vector.set_set]

theorem modLine_congr (h : f (s.line l) = g (s.line l)) : s.modLine l f = s.modLine l g := by
  rw [modLine, h, modLine]

theorem line_leaveActive (x : LineState) (cause : Byte) :
    (s.leaveActive l x cause).line l = (s.line l).tornDown x := by
  rw [line_leaveActive_same]
  rfl

/-! ## The READY monitor (R111, R113, R116) -/

theorem execReadyAsserted_of_held (h : s.phase = .inReset ∨ (s.line l).readyLevel = true) :
    execReadyAsserted l s = .next (s.modLine l fun r => { r with readyPin := true }) := by
  simp only [execReadyAsserted, if_pos h]

theorem execReadyAsserted_of_down (hp : s.phase ≠ .inReset) (hr : (s.line l).readyLevel = false) :
    execReadyAsserted l s = .next (s.modLine l Line.readied) := by
  have h : ¬ (s.phase = .inReset ∨ (s.line l).readyLevel = true) := by simp [hp, hr]
  simp only [execReadyAsserted, if_neg h, modLine_modLine]
  refine congrArg _ (modLine_congr ?_)
  by_cases hs : (s.line l).state = .waiting <;> simp [Line.readied, hs]

theorem execReadyDropped_of_down (h : s.phase = .inReset ∨ (s.line l).readyLevel = false) :
    execReadyDropped l s = .next (s.modLine l fun r => { r with readyPin := false }) := by
  simp only [execReadyDropped, if_pos h]

theorem execReadyDropped_of_idle (hp : s.phase ≠ .inReset) (hr : (s.line l).readyLevel = true)
    (ha : (s.line l).state ≠ .active) : execReadyDropped l s = .next (s.modLine l Line.unreadied) := by
  have h : ¬ (s.phase = .inReset ∨ (s.line l).readyLevel = false) := by simp [hp, hr]
  simp only [execReadyDropped, if_neg h, modLine_modLine]
  cases hs : (s.line l).state with
  | active => exact absurd hs ha
  | disabled => exact congrArg _ (modLine_congr (by simp [Line.unreadied, hs]))
  | waiting => exact congrArg _ (modLine_congr (by simp [Line.unreadied, hs]))
  | settling => exact congrArg _ (modLine_congr (by simp [Line.unreadied, hs]))

theorem execReadyDropped_of_active (hp : s.phase ≠ .inReset) (hr : (s.line l).readyLevel = true)
    (ha : (s.line l).state = .active) :
    execReadyDropped l s = .next ((s.modLine l Line.lost).leaveActive l .waiting Config.causeLineLost).judgeAtn := by
  have h : ¬ (s.phase = .inReset ∨ (s.line l).readyLevel = false) := by simp [hp, hr]
  simp only [execReadyDropped, if_neg h, ha, modLine_modLine]
  rfl

/-! ## Line records through the operations -/

/-- Every line record agrees with itself. -/
def LinesSound (s : State) : Prop := ∀ l, (s.line l).sound

theorem LinesSound.of_txOnly (h : LinesSound s) (k : TxOnly s t) : LinesSound t := k.sound h

theorem LinesSound.of_keeps {xs : List Part} (h : LinesSound s) (k : Keeps xs s t) (hx : .lines ∉ xs := by decide) :
    LinesSound t := h.of_txOnly (txOnly_of_keeps (.refl s) k hx)

theorem LinesSound.modLine (h : LinesSound s) (l : LineNo) (hf : (f (s.line l)).sound) : LinesSound (s.modLine l f) :=
  sound_modLine h l f hf

theorem LinesSound.judgeAtn (h : LinesSound s) : LinesSound s.judgeAtn := h.of_keeps s.keeps_judgeAtn

theorem LinesSound.countDiscard (h : LinesSound s) (l : LineNo) : LinesSound (s.countDiscard l) :=
  h.modLine l ((h l).withCounts (min_le_left _ _) (h l).counts.2)

theorem LinesSound.setReceiver (h : LinesSound s) {x : Receiver} (hr : (s.line l).receiver ≠ .off) (hx : x ≠ .off) :
    LinesSound (s.setReceiver l x) := h.modLine l ((h l).withReceiver hr hx)

theorem LinesSound.disableLine (h : LinesSound s) (l : LineNo) : LinesSound (s.disableLine l) := by
  unfold State.disableLine
  cases hs : (s.line l).state with
  | disabled => exact h
  | waiting => exact h.modLine l ((h l).disabled (by rw [hs]; decide))
  | settling => exact h.modLine l ((h l).disabled (by rw [hs]; decide))
  | active =>
    refine LinesSound.judgeAtn fun m => ?_
    by_cases hm : m = l
    · subst hm
      rw [line_modLine_same, line_leaveActive]
      exact (h m).disabled_tornDown
    · rw [line_modLine_ne _ hm]
      exact sound_leaveActive_ne hm (h m) .disabled _

theorem LinesSound.lineLoss (h : LinesSound s) (ha : (s.line l).state = .active) (cause : Byte) :
    LinesSound ((s.modLine l Line.lost).leaveActive l .waiting cause) := fun m => by
  by_cases hm : m = l
  · subst hm
    rw [line_leaveActive, line_modLine_same]
    exact (h m).lost_tornDown ha
  · exact sound_leaveActive_ne hm (by rw [line_modLine_ne _ hm]; exact h m) .waiting cause

theorem LinesSound.lineQuery (h : LinesSound s) (hb : lineQueryBody p a s = .ok (t, w)) : LinesSound t := by
  obtain ⟨l, n, rfl | rfl⟩ := lineQueryBody_ok hb
  · exact h.of_keeps (keeps_setFreeCount _ _)
  · exact LinesSound.modLine (h.of_keeps (keeps_setFreeCount _ _)) l ((h l).withCounts (Nat.zero_le _) (Nat.zero_le _))

theorem LinesSound.atReset (s : State) (x : Phase) : LinesSound (s.atReset x) := fun l => by
  have hline : (s.atReset x).line l = { readyPin := (s.line l).readyPin } := by
    simp [State.line, State.atReset]
  rw [hline]
  exact sound_reset _ false

theorem LinesSound.atReset_samplePins (s : State) (x : Phase) : LinesSound (s.atReset x).samplePins := fun l => by
  have hline : (s.atReset x).samplePins.line l = { readyPin := (s.line l).readyPin, readyLevel := (s.line l).readyPin } := by
    simp [State.line, State.atReset, State.samplePins]
  rw [hline]
  exact sound_reset _ _

/-! ## Commands on circuits change the transmitters alone -/

theorem txOnly_callBody (hb : callBody p a s = .ok (t, w)) : TxOnly s t := by
  obtain ⟨l, n, i, u, ha, rfl⟩ := callBody_ok hb
  exact txOnly_owe (txOnly_reserve (txOnly_allocate (.refl s) ha) _ _) _ _

theorem txOnly_acceptBody (hb : acceptBody p a s = .ok (t, w)) : TxOnly s t := by
  obtain ⟨i, c, -, -, rfl⟩ := acceptBody_ok hb
  exact txOnly_joinWaitIfShort (txOnly_owe (txOnly_reserve (txOnly_modCircuit (.refl s) _ _) _ _) _ _) _

theorem txOnly_refuseBody (hb : refuseBody p a s = .ok (t, w)) : TxOnly s t := by
  obtain ⟨i, c, -, rfl⟩ := refuseBody_ok hb
  exact txOnly_judgeAtn (txOnly_directFree (txOnly_offerReply (.refl s) _ _) _)

theorem txOnly_closeBody (hb : closeBody p a s = .ok (t, w)) : TxOnly s t := by
  obtain ⟨i, c, -, rfl | ⟨-, rfl⟩⟩ := closeBody_ok hb
  · exact txOnly_enterClosing (.refl s) _ _
  · exact txOnly_modCircuit (.refl s) _ _

theorem txOnly_sendBody (hb : sendBody p a s = .ok (t, w)) : TxOnly s t := by
  obtain ⟨i, b, e, rfl⟩ := sendBody_ok hb
  exact txOnly_settleStall (txOnly_settleReady (txOnly_modCircuit (txOnly_setPlace (.refl s) _ _) _ _) _) _

theorem txOnly_releaseBody (hb : releaseBody p a s = .ok (t, w)) : TxOnly s t := by
  obtain ⟨i, b, rest, rfl⟩ := releaseBody_ok hb
  exact txOnly_serveWait (txOnly_returnBuffer (txOnly_modCircuit (.refl s) _ _) _)

theorem txOnly_setCreditBody (hb : setCreditBody p a s = .ok (t, w)) : TxOnly s t := by
  obtain ⟨i, c, -, -, ⟨-, rfl⟩ | rfl⟩ := setCreditBody_ok hb
  · exact txOnly_joinWait (txOnly_modCircuit (.refl s) _ _) _
  · exact txOnly_leaveWait (txOnly_modCircuit (.refl s) _ _) _

theorem txOnly_claimBody (hb : claimBody p a s = .ok (t, w)) : TxOnly s t := by
  obtain ⟨b, rest, -, -, rfl⟩ := claimBody_ok hb
  exact txOnly_setPlace (txOnly_writeBuffer (txOnly_setFreeQueue (.refl s) _) _ _ _) _ _

theorem txOnly_unclaimBody (hb : unclaimBody p a s = .ok (t, w)) : TxOnly s t := by
  obtain ⟨b, rfl⟩ := unclaimBody_ok hb
  exact txOnly_serveWait (txOnly_returnBuffer (.refl s) _)

theorem txOnly_retireBody (hb : retireBody p a s = .ok (t, w)) : TxOnly s t := by
  obtain ⟨i, c, -, -, rfl⟩ := retireBody_ok hb
  exact txOnly_judgeAtn (txOnly_freeSlot (txOnly_leaveOwner (txOnly_returnCircuitBuffers (.refl s) _) _) _)

theorem txOnly_takeAccount (s : State) (p : PortNo) (i : SlotNo) :
    TxOnly s ((s.leaveAttention p i).clearConditions i).judgeAtn :=
  txOnly_judgeAtn (txOnly_clearConditions (txOnly_leaveAttention (.refl s) _ _) _)

theorem txOnly_retryOr {r : State} {i : SlotNo} (c : Circuit) {retry giveUp : State → State} (h : TxOnly r s)
    (hr : ∀ u, TxOnly r u → TxOnly r (retry u)) (hg : TxOnly r (giveUp s)) : TxOnly r (s.retryOr i c retry giveUp) := by
  unfold State.retryOr
  split
  · exact hr _ (txOnly_modCircuit h _ _)
  · exact hg

end State

/-! ## Every command keeps the line records sound -/

/-- The records are kept whatever fault ends a step: nothing is said of a fault. -/
abbrev AnyFault : Fault → Prop := fun _ => True

section

open State

variable {s t : State} {l : LineNo}

theorem sound_takeCommand (h : LinesSound s) (code : Byte) {body : Body}
    (hb : ∀ p a t w, body p a s = .ok (t, w) → LinesSound t) :
    Outcome.meets AnyFault LinesSound (takeCommand code body s) :=
  meets_takeCommand h (fun u p r w hu => hu.of_keeps (keeps_finish u p r w)) code hb

theorem sound_takeCommand_txOnly (h : LinesSound s) (code : Byte) {body : Body}
    (hb : ∀ p a t w, body p a s = .ok (t, w) → TxOnly s t) :
    Outcome.meets AnyFault LinesSound (takeCommand code body s) :=
  sound_takeCommand h code fun p a t w e => h.of_txOnly (hb p a t w e)

theorem sound_unknownCommand (h : LinesSound s) : Outcome.meets AnyFault LinesSound (execUnknownCommand s) := by
  unfold execUnknownCommand
  split
  · exact h
  · exact h.of_keeps (keeps_finish _ _ _ _)

theorem sound_portReset (h : LinesSound s) : Outcome.meets AnyFault LinesSound (execPortReset s) := by
  have hr : ∀ p, LinesSound (s.resetPort p) := fun p => h.of_txOnly (txOnly_resetPort (.refl s) p)
  unfold execPortReset
  split
  · exact h
  · split
    · exact h.of_keeps (keeps_finish _ _ _ _)
    · dsimp only
      split
      · exact (hr _).of_keeps (keeps_setLastServed _ _)
      · exact (hr _).of_keeps (keeps_finish _ _ _ _)

/-- A bus row acts unless RESET is asserted. -/
theorem sound_unlessReset (h : LinesSound s) {xs : List Part} (k : Keeps xs s t) (hx : .lines ∉ xs := by decide) :
    Outcome.meets AnyFault LinesSound (if s.phase = .inReset then .next s else .next t) := by
  split
  · exact h
  · exact h.of_keeps k hx

theorem sound_voidAccess (h : LinesSound s) (y : BusAccess) : Outcome.meets AnyFault LinesSound (execVoidAccess y s) := by
  unfold execVoidAccess
  split
  · exact h.of_keeps (keeps_busWrite y)
  · exact h.of_keeps (keeps_busRead y)

theorem sound_carryArrives (h : LinesSound s) (l : LineNo) (n a b : Byte) (payload : List Byte) :
    Outcome.meets AnyFault LinesSound (s.carryArrives l n a b payload) := by
  have next : ∀ {u : State}, TxOnly s u → LinesSound u.judgeAtn := fun hu => h.of_txOnly (txOnly_judgeAtn hu)
  unfold State.carryArrives
  split
  · exact next (txOnly_strayArrives (.refl s) _ _ _)
  · split
    · split
      · split
        · trivial
        · exact next (txOnly_takeCarry (.refl s) _ _ _ _ _)
      · exact next (txOnly_owe (.refl s) _ _)
      · exact next (txOnly_owe (.refl s) _ _)
      · exact next (txOnly_violate (.refl s) _)
    · exact next (.refl s)

theorem sound_frameArrives (h : LinesSound s) (l : LineNo) (f : Frame) :
    Outcome.meets AnyFault LinesSound (s.frameArrives l f) := by
  have next : ∀ {u : State}, TxOnly s u → LinesSound u.judgeAtn := fun hu => h.of_txOnly (txOnly_judgeAtn hu)
  unfold State.frameArrives
  cases f.kind with
  | openCall => exact next (txOnly_openArrives (.refl s) _ _ _ _)
  | grant => exact next (txOnly_grantArrives (.refl s) _ _ _)
  | refuse => exact next (txOnly_refuseArrives (.refl s) _ _ _)
  | carry => exact sound_carryArrives h _ _ _ _ _
  | credit => exact next (txOnly_creditArrives (.refl s) _ _ _ _)
  | ask => exact next (txOnly_askArrives (.refl s) _ _)
  | close => exact next (txOnly_closeArrives (.refl s) _ _ _)
  | closed => exact next (txOnly_closedArrives (.refl s) _ _)

theorem sound_receive (h : LinesSound s) (l : LineNo) (f : Frame) : Outcome.meets AnyFault LinesSound (s.receive l f) :=
  meets_receive (fun _ l f hu => sound_frameArrives hu l f) (fun _ _ _ hr hx hu => hu.setReceiver hr hx)
    (fun _ l hu => hu.countDiscard l) h l f

theorem sound_takeBits (h : LinesSound s) (l : LineNo) (bits : List Bool) :
    Outcome.meets AnyFault LinesSound (s.takeBits l bits) :=
  meets_takeBits (fun _ l f hu => sound_frameArrives hu l f) (fun _ _ _ hr hx hu => hu.setReceiver hr hx)
    (fun _ l hu => hu.countDiscard l) h l bits

/-- A circuit timer expires: the timer stops, and the rule of its purpose acts in the state that it fits. -/
theorem sound_expire (h : LinesSound s) (i : SlotNo) (m : Purpose) {fits : Circuit → Prop} [DecidablePred fits]
    {rule : Circuit → State → State} (hr : ∀ c u, TxOnly s u → TxOnly s (rule c u)) :
    Outcome.meets AnyFault LinesSound (s.expire i m fun c t => if fits c then rule c t else t) := by
  have hstop : TxOnly s (s.stopTimer i) := txOnly_stopTimer (.refl s) i
  refine meets_expire h i m fun c _ => h.of_txOnly ?_
  split
  · exact hr c _ hstop
  · exact hstop

theorem sound_offerWaitExpiry (h : LinesSound s) (i : SlotNo) :
    Outcome.meets AnyFault LinesSound (execOfferWaitExpiry i s) := by
  refine sound_expire h i .offerWait fun c u hu => ?_
  have he : TxOnly s (u.enterEnded i Config.causeNoAnswer .localEnd none) := txOnly_enterEnded hu _ _ _ _
  exact txOnly_judgeAtn (txOnly_offerReply he _ _)

theorem sound_closeWaitExpiry (h : LinesSound s) (i : SlotNo) :
    Outcome.meets AnyFault LinesSound (execCloseWaitExpiry i s) := by
  refine sound_expire h i .closeWait fun c u hu => ?_
  have he : TxOnly s (u.endClosing i .unconfirmed) := txOnly_endClosing hu _ _
  exact txOnly_retryOr c hu (fun _ hv => txOnly_owe hv _ _) (txOnly_judgeAtn he)

theorem sound_settleExpiry (h : LinesSound s) (l : LineNo) : Outcome.meets AnyFault LinesSound (execSettleExpiry l s) := by
  unfold execSettleExpiry
  split
  · rename_i hs
    exact LinesSound.judgeAtn (h.modLine l ((h l).risen hs.2))
  · exact h

theorem sound_holdoffExpiry (h : LinesSound s) (p : PortNo) : Outcome.meets AnyFault LinesSound (execHoldoffExpiry p s) := by
  unfold execHoldoffExpiry
  split
  · split
    · exact LinesSound.judgeAtn (h.of_keeps (keeps_modPort _ _ _))
    · exact h
  · exact h

theorem sound_readyAsserted (h : LinesSound s) (l : LineNo) : Outcome.meets AnyFault LinesSound (execReadyAsserted l s) := by
  by_cases hheld : s.phase = .inReset ∨ (s.line l).readyLevel = true
  · rw [execReadyAsserted_of_held hheld]
    exact h.modLine l ((h l).withPin true)
  · obtain ⟨hp, hr⟩ := not_or.1 hheld
    have hr := Bool.eq_false_of_not_eq_true hr
    rw [execReadyAsserted_of_down hp hr]
    exact h.modLine l ((h l).readied hr)

theorem sound_readyDropped (h : LinesSound s) (l : LineNo) : Outcome.meets AnyFault LinesSound (execReadyDropped l s) := by
  by_cases hheld : s.phase = .inReset ∨ (s.line l).readyLevel = false
  · rw [execReadyDropped_of_down hheld]
    exact h.modLine l ((h l).withPin false)
  · obtain ⟨hp, hr⟩ := not_or.1 hheld
    have hr := Bool.eq_true_of_not_eq_false hr
    by_cases ha : (s.line l).state = .active
    · rw [execReadyDropped_of_active hp hr ha]
      exact (h.lineLoss ha _).judgeAtn
    · rw [execReadyDropped_of_idle hp hr ha]
      exact h.modLine l ((h l).unreadied hr ha)

theorem sound_selectionEvent (h : LinesSound s) (l : LineNo) :
    Outcome.meets AnyFault LinesSound (execSelectionEvent l s) := by
  unfold execSelectionEvent
  split
  · rename_i hs
    exact h.of_txOnly (txOnly_select (.refl s) hs.2.1)
  · exact h

/-- A staged frame stands on an ACTIVE line alone, so its completion selects on one. -/
theorem sound_completion (h : LinesSound s) (l : LineNo) : Outcome.meets AnyFault LinesSound (execCompletion l s) := by
  unfold execCompletion
  split
  · split
    · exact h
    · rename_i x hx
      have ha : (s.line l).state = .active := (h l).staged (by rw [hx]; rfl)
      have hleaves : TxOnly s (s.modTx l fun t => { t with staged := none }) := txOnly_modTx (.refl s) l _ fun _ => .inr rfl
      exact h.of_txOnly (txOnly_select (txOnly_complete hleaves x) ha)
  · exact h

theorem sound_startUp (h : LinesSound s) : Outcome.meets AnyFault LinesSound (execStartUp s) := by
  unfold execStartUp
  split
  · exact LinesSound.atReset_samplePins s _
  · exact h

theorem sound_startUpCompletion (h : LinesSound s) : Outcome.meets AnyFault LinesSound (execStartUpCompletion s) := by
  unfold execStartUpCompletion
  split
  · exact h.of_keeps (keeps_started s)
  · exact h

theorem sound_exec (h : LinesSound s) : ∀ y : Instr, Outcome.meets AnyFault LinesSound (exec y s)
  | .call => sound_takeCommand_txOnly h _ fun _ _ _ _ => txOnly_callBody
  | .accept => sound_takeCommand_txOnly h _ fun _ _ _ _ => txOnly_acceptBody
  | .refuse => sound_takeCommand_txOnly h _ fun _ _ _ _ => txOnly_refuseBody
  | .close => sound_takeCommand_txOnly h _ fun _ _ _ _ => txOnly_closeBody
  | .send => sound_takeCommand_txOnly h _ fun _ _ _ _ => txOnly_sendBody
  | .release => sound_takeCommand_txOnly h _ fun _ _ _ _ => txOnly_releaseBody
  | .setCredit => sound_takeCommand_txOnly h _ fun _ _ _ _ => txOnly_setCreditBody
  | .claim => sound_takeCommand_txOnly h _ fun _ _ _ _ => txOnly_claimBody
  | .unclaim => sound_takeCommand_txOnly h _ fun _ _ _ _ => txOnly_unclaimBody
  | .poolSet => sound_takeCommand h _ fun _ _ _ _ hb => poolSetBody_ok hb ▸ h.of_keeps (keeps_setFloor _ _)
  | .poolQuery => sound_takeCommand h _ fun _ _ _ _ hb => poolQueryBody_ok hb ▸ h
  | .serviceSet => sound_takeCommand h _ fun _ _ _ _ hb => by
      obtain ⟨e, y, rfl⟩ := serviceSetBody_ok hb
      exact h.of_keeps (keeps_setEntry _ _ _)
  | .serviceClear => sound_takeCommand h _ fun _ _ _ _ hb => by
      obtain ⟨e, y, rfl⟩ := serviceClearBody_ok hb
      exact h.of_keeps (keeps_setEntry _ _ _)
  | .serviceQuery => sound_takeCommand h _ fun _ _ _ _ hb => serviceQueryBody_ok hb ▸ h
  | .lineSet => sound_takeCommand h _ fun _ _ _ _ hb => by
      obtain ⟨l, g, hg, -, rfl⟩ := lineSetBody_ok hb
      obtain ⟨hdurations, hsettings⟩ := configArg_ranges hg
      exact h.modLine l ((h l).withConfig hdurations hsettings)
  | .lineEnable => sound_takeCommand h _ fun _ _ _ _ hb => by
      obtain ⟨l, hs, rfl⟩ := lineEnableBody_ok hb
      exact h.modLine l ((h l).enabled hs)
  | .lineDisable => sound_takeCommand h _ fun _ _ _ _ hb => by
      obtain ⟨l, rfl⟩ := lineDisableBody_ok hb
      exact h.disableLine l
  | .lineQuery => sound_takeCommand h _ fun _ _ _ _ => h.lineQuery
  | .lineTake => sound_takeCommand h _ fun _ _ _ _ hb => by
      obtain ⟨l, rfl⟩ := lineTakeBody_ok hb
      exact LinesSound.judgeAtn (h.modLine l (h l).taken)
  | .query => sound_takeCommand h _ fun _ _ _ _ hb => queryBody_ok hb ▸ h
  | .retire => sound_takeCommand_txOnly h _ fun _ _ _ _ => txOnly_retireBody
  | .take => sound_takeCommand_txOnly h _ fun p _ _ _ hb => by
      obtain ⟨i, rfl⟩ := takeBody_ok hb
      exact txOnly_takeAccount s p i
  | .takeNext => sound_takeCommand_txOnly h _ fun p _ _ _ hb => by
      obtain ⟨i, rfl⟩ := takeNextBody_ok hb
      exact txOnly_takeAccount s p i
  | .portSet => sound_takeCommand_txOnly h _ fun p _ _ _ hb => by
      obtain ⟨f, rfl⟩ := portSetBody_ok hb
      exact txOnly_judgeAtn (txOnly_modPort (.refl s) p f)
  | .portReset => sound_portReset h
  | .unknownCommand => sound_unknownCommand h
  | .commandWordWrite _ v => sound_unlessReset h (keeps_writeCommand v)
  | .argumentWordWrite _ n v => sound_unlessReset h (keeps_writeArgument n v)
  | .windowRegisterWrite _ v => sound_unlessReset h (keeps_writeWindow v)
  | .clearRequest _ v => sound_unlessReset h (keeps_writeStatus v)
  | .windowRead _ k m => h.of_keeps (keeps_readWindow k m)
  | .windowWrite _ k m v => h.of_keeps (keeps_writeWindowData k m v)
  | .voidAccess y => sound_voidAccess h y
  | .openFrame l _ _ _ => sound_receive h l _
  | .grantFrame l _ _ _ => sound_receive h l _
  | .refuseFrame l _ _ _ => sound_receive h l _
  | .carryFrame l _ _ _ _ => sound_receive h l _
  | .creditFrame l _ _ _ => sound_receive h l _
  | .askFrame l _ _ _ => sound_receive h l _
  | .closeFrame l _ _ _ => sound_receive h l _
  | .closedFrame l _ _ _ => sound_receive h l _
  | .frameDiscarded l _ => sound_takeBits h l _
  | .abort l _ => sound_takeBits h l _
  | .openingFlag flag => sound_takeBits h flag.line _
  | .openWaitExpiry i => sound_expire h i _ fun c _ hu =>
      txOnly_retryOr c hu (fun _ hv => txOnly_owe hv _ _) (txOnly_enterClosing hu _ _)
  | .offerWaitExpiry i => sound_offerWaitExpiry h i
  | .ackWaitExpiry i => sound_expire h i _ fun c _ hu =>
      txOnly_retryOr c hu (fun _ hv => txOnly_owe hv _ _) (txOnly_enterClosing hu _ _)
  | .stallWaitExpiry i => sound_expire h i _ fun c _ hu =>
      txOnly_retryOr c hu (fun _ hv => txOnly_startTimer (txOnly_owe hv _ _) _ _) (txOnly_enterClosing hu _ _)
  | .closeWaitExpiry i => sound_closeWaitExpiry h i
  | .settleExpiry l => sound_settleExpiry h l
  | .holdoffExpiry p => sound_holdoffExpiry h p
  | .readyAsserted l => sound_readyAsserted h l
  | .readyDropped l => sound_readyDropped h l
  | .selectionEvent l => sound_selectionEvent h l
  | .completion l => sound_completion h l
  | .resetAsserted => LinesSound.atReset s _
  | .startUp => sound_startUp h
  | .startUpCompletion => sound_startUpCompletion h

theorem sound_step (h : LinesSound s) : Outcome.meets AnyFault LinesSound (step s) := by
  unfold step
  split
  · exact h
  · exact sound_exec (h.of_keeps (keeps_pending s _)) _

end

/-- Settles O59: circuits change the transmitters alone, and each change of a line leaves its record sound. -/
theorem lineRecordsStaySound : Obligations.LineRecordsStaySound := by
  intro s t hs hstep
  exact (sound_step hs).next hstep

end Sys2Proof.Machine

namespace Sys2Proof.Machine

/-! ## LINE-SET (R122) -/

section

variable {s : State} {p : PortNo} {a : Args} {l : LineNo} {g : LineConfig}

theorem roleArg_of {n : Nat} {x : Role} (h : n = x.code) : roleArg n = .ok x := by
  subst h
  cases x <;> rfl

/-- A duration that a packed byte gives is at most 255. -/
theorem durationOk_bitsOf {w : Word} {lo : Nat} (h : 1 ≤ bitsOf w (lo + 7) lo) : durationOk (bitsOf w (lo + 7) lo) = true := by
  simp [durationOk, h, bitsOf_lt]

/-- Words that describe a configuration pass its checks (R122). -/
theorem configArg_of (h : describesLine a g) : configArg a.a1 a.a2 = .ok g := by
  obtain ⟨hrole, hsettle, hretry, hopen, hretransmit, hclose, hoffer, h1, h2, h3, h4, h5, hlo, hhi⟩ := h
  have hdurations : (durationOk g.settleTime && durationOk g.openTimeout && durationOk g.retransmit
      && durationOk g.closeTimeout && durationOk g.offerTimeout) = true := by
    rw [← hsettle] at h1 ⊢
    rw [← hopen] at h2 ⊢
    rw [← hretransmit] at h3 ⊢
    rw [← hclose] at h4 ⊢
    rw [← hoffer] at h5 ⊢
    rw [durationOk_bitsOf h1, durationOk_bitsOf h2, durationOk_bitsOf h3, durationOk_bitsOf h4, durationOk_bitsOf h5]
    rfl
  simp only [configArg, roleArg_of hrole, hsettle, hretry, hopen, hretransmit, hclose, hoffer, hdurations, hlo, hhi,
    decide_true, Bool.and_self, require_true, bind, Except.bind, pure, Except.pure]

theorem lineSetBody_of_disabled (hl : a.a0.toNat = l.val) (hg : describesLine a g) (hs : (s.line l).state = .disabled) :
    lineSetBody 0 a s = .ok (s.modLine l fun r => { r with config := g }, {}) := by
  simp only [lineSetBody, supervisorOnly_zero, lineArg_of hl, configArg_of hg, hs, decide_true, require_true, bind,
    Except.bind, pure, Except.pure]

theorem lineSetBody_of_up (hl : a.a0.toNat = l.val) (hg : describesLine a g) (hs : (s.line l).state ≠ .disabled) :
    lineSetBody 0 a s = .error .wrongState := by
  simp only [lineSetBody, supervisorOnly_zero, lineArg_of hl, configArg_of hg, hs, decide_false, require_false, bind,
    Except.bind]

end

/-- Settles O22: the checks pass, and the configuration is replaced or the line is in a wrong state. -/
theorem lineSetReplacesTheConfiguration : Obligations.LineSetReplacesTheConfiguration := by
  intro s l g htaken hl hg
  refine ⟨fun hs => ?_, fun hs => fails_of htaken rfl (lineSetBody_of_up hl hg hs)⟩
  have hnext : exec .lineSet s = _ := next_of_ok htaken (lineSetBody_of_disabled hl hg hs)
  refine ⟨_, hnext, ?_, State.answers_finish rfl .ok _, fun m hm => ?_, (s.keeps_modLine l _).finish 0 .ok _⟩
  · rw [State.line_finish, State.line_modLine_same]
  · rw [State.line_finish, State.line_modLine_ne _ hm]

/-! ## LINE-ENABLE (R112) -/

section

variable {s : State} {p : PortNo} {a : Args} {l : LineNo}

theorem lineEnableBody_of_other (h : p ≠ 0) : lineEnableBody p a s = .error .notPermitted := by
  simp only [lineEnableBody, supervisorOnly_of_other h, bind, Except.bind]

theorem lineEnableBody_of_none (h : 7 < a.a0.toNat) : lineEnableBody 0 a s = .error .badArgument := by
  simp only [lineEnableBody, supervisorOnly_zero, lineArg_bad h, bind, Except.bind]

theorem lineEnableBody_of_up (hl : a.a0.toNat = l.val) (hs : (s.line l).state ≠ .disabled) :
    lineEnableBody 0 a s = .error .wrongState := by
  simp only [lineEnableBody, supervisorOnly_zero, lineArg_of hl, hs, decide_false, require_false, bind, Except.bind]

/-- The state word of an enabled line: 2 while SETTLING, 1 while WAITING (R187). -/
theorem enabled_stateWord (r : Line) : inBits 1 0 r.enabled.state.code = if r.readyLevel then 2 else 1 := by
  cases hr : r.readyLevel <;> simp only [Line.enabled, hr] <;> decide

theorem lineEnableBody_of_disabled (hl : a.a0.toNat = l.val) (hs : (s.line l).state = .disabled) :
    lineEnableBody 0 a s = .ok (s.modLine l Line.enabled, { r0 := if (s.line l).readyLevel then 2 else 1 }) := by
  simp only [lineEnableBody, supervisorOnly_zero, lineArg_of hl, hs, decide_true, require_true, bind, Except.bind, pure,
    Except.pure, State.line_modLine_same, enabled_stateWord]

end

/-- Settles O23: the checks that fail, then a DISABLED line enabled by its READY level, and any other in a wrong state. -/
theorem lineEnableStartsTheLine : Obligations.LineEnableStartsTheLine := by
  refine ⟨fun s p htaken => ⟨fun hp => fails_of htaken rfl (lineEnableBody_of_other hp), ?_⟩, fun s l htaken hl =>
    ⟨fun hs => ?_, fun hs => fails_of htaken rfl (lineEnableBody_of_up hl hs)⟩⟩
  · rintro rfl hnone
    exact fails_of htaken rfl (lineEnableBody_of_none hnone)
  · have hnext : exec .lineEnable s = _ := next_of_ok htaken (lineEnableBody_of_disabled hl hs)
    refine ⟨_, hnext, ?_, State.answers_finish rfl .ok _, fun m hm => ?_, (s.keeps_modLine l _).finish 0 .ok _⟩
    · rw [State.line_finish, State.line_modLine_same]
      rfl
    · rw [State.line_finish, State.line_modLine_ne _ hm]

/-! ## LINE-QUERY and LINE-TAKE (R121, R125) -/

namespace State

variable {s : State} {a : Args} {l : LineNo}

/-- The time that LINE-QUERY reports as left on the settle timer, 0 where none runs (log 4). -/
def timeLeft (s : State) (l : LineNo) : Nat := ((s.line l).settleTimer.map s.settleReading).getD 0

theorem timeLeft_le {d : Nat} (h : (s.line l).settleTimer = some d) : s.timeLeft l ≤ d := by
  rw [timeLeft, h]
  exact Nat.le_of_lt_succ (Nat.mod_lt _ (Nat.succ_pos d))

theorem settleReading_eq_timeLeft :
    (s.line l).settleTimer.map s.settleReading = (s.line l).settleTimer.map fun _ => s.timeLeft l := by
  rw [timeLeft]
  cases (s.line l).settleTimer <;> rfl

/-- The state that LINE-QUERY leaves, up to its completion. -/
def lineQueried (s : State) (l : LineNo) (clear : Prop) [Decidable clear] : State :=
  if clear then (s.setFreeCount (s.freeCount + 1)).modLine l fun r => { r with discards := 0, losses := 0 }
  else s.setFreeCount (s.freeCount + 1)

variable {clear : Prop} [Decidable clear]

theorem keeps_lineQueried : Keeps [.lines, .freeCount] s (s.lineQueried l clear) := by
  unfold lineQueried
  split
  · exact (s.keeps_setFreeCount _).both (keeps_modLine _ l _) (by decide) (by decide)
  · exact (s.keeps_setFreeCount _).mono (by decide)

theorem line_lineQueried : (s.lineQueried l clear).line l
    = if clear then { s.line l with discards := 0, losses := 0 } else s.line l := by
  unfold lineQueried
  split
  · rw [line_modLine_same, line_setFreeCount]
  · rfl

theorem line_lineQueried_ne {m : LineNo} (h : m ≠ l) : (s.lineQueried l clear).line m = s.line m := by
  unfold lineQueried
  split
  · rw [line_modLine_ne _ h, line_setFreeCount]
  · rfl

theorem lineQueryBody_of_line (hl : a.a0.toNat = l.val) (hclear : a.a1.toNat ≤ 1) :
    lineQueryBody 0 a s = .ok (s.lineQueried l (a.a1.toNat = 1), s.lineResults l) := by
  have hone : a.a1 = 1 ↔ a.a1.toNat = 1 := by
    rw [← BitVec.toNat_inj]
    rfl
  simp only [lineQueryBody, supervisorOnly_zero, lineArg_of hl, hclear, decide_true, require_true, bind, Except.bind, pure,
    Except.pure, hone, lineQueried]

/-- The state that LINE-TAKE leaves, up to its completion. -/
def lineTaken (s : State) (l : LineNo) : State := (s.putLine l fun x => { x with reported := x.level }).judgeAtn

theorem keeps_lineTaken : Keeps [.lines, .ports] s (s.lineTaken l) :=
  (s.keeps_putLine l _).both (keeps_judgeAtn _) (by decide) (by decide)

theorem line_lineTaken : (s.lineTaken l).line l = { s.line l with reported := (s.line l).level, changed := false } := by
  rw [lineTaken, line_of_keeps (keeps_judgeAtn _) (by decide), putLine, line_modLine_same]
  simp [Line.flagged, Line.level]

theorem line_lineTaken_ne {m : LineNo} (h : m ≠ l) : (s.lineTaken l).line m = s.line m := by
  rw [lineTaken, line_of_keeps (keeps_judgeAtn _) (by decide), putLine, line_modLine_ne _ h]

theorem port_lineTaken (q : PortNo) : (s.lineTaken l).port q = { s.port q with atn := ((s.lineTaken l).port q).atn } := by
  rw [lineTaken, port_judgeAtn, port_of_keeps (s.keeps_putLine l _) (by decide)]

theorem outputsRight_lineTaken : (s.lineTaken l).outputsRight := outputsRight_judgeAtn _

theorem lineTakeBody_of_line (hl : a.a0.toNat = l.val) : lineTakeBody 0 a s = .ok (s.lineTaken l,
    { r0 := inBits 0 0 (s.line l).level.code ||| inBits 1 1 (s.line l).reported.code
        ||| inBits 5 4 (s.line l).state.code ||| inBits 15 8 (s.line l).losses }) := by
  simp only [lineTakeBody, supervisorOnly_zero, lineArg_of hl, bind, Except.bind, pure, Except.pure, lineTaken]

/-! Completing a command changes no attention list, no holdoff timer and no ATN output. -/

variable {p : PortNo} {code : ResultCode} {w : Results}

theorem attention_finish (q : PortNo) : ((s.finish p code w).port q).attention = (s.port q).attention :=
  ((sameAtn_finish (.refl s) p code w).ports q).1

theorem holdoff_finish (q : PortNo) : ((s.finish p code w).port q).holdoff = (s.port q).holdoff := by
  obtain ⟨-, -, htimer, -⟩ := (sameAtn_finish (.refl s) p code w).ports q
  exact htimer

theorem outputsRight_finish (h : s.outputsRight) : (s.finish p code w).outputsRight :=
  (sameAtn_finish (.refl s) p code w).right h

end State

/-- Settles O25: LINE-QUERY reports the line and clears its counts where it is asked to; LINE-TAKE copies the level, and the ATN
outputs are judged. -/
theorem lineQueryAndLineTake : Obligations.LineQueryAndLineTake := by
  refine ⟨fun s l htaken hl hclear => ?_, fun s l htaken hl => ?_⟩
  · have hnext : exec .lineQuery s = _ := next_of_ok htaken (State.lineQueryBody_of_line hl hclear)
    refine ⟨_, s.timeLeft l, hnext, fun d hd => State.timeLeft_le hd, ?_, State.line_lineQueried,
      fun m hm => State.line_lineQueried_ne hm, State.keeps_lineQueried.finish 0 .ok _⟩
    rw [← State.settleReading_eq_timeLeft]
    exact State.answers_finish (State.keeps_lineQueried.at_ports (by decide)) .ok _
  · have hnext : exec .lineTake s = _ := next_of_ok htaken (State.lineTakeBody_of_line hl)
    refine ⟨_, hnext, ?_, State.answersWithAttention_finish fun q => ?_, fun q => ?_, fun m hm => ?_,
      (State.keeps_lineTaken.finish 0 .ok _).mono (by decide)⟩
    · rw [State.line_finish, State.line_lineTaken]
    · rw [State.port_lineTaken]
    · refine ⟨?_, ?_, State.outputsRight_finish State.outputsRight_lineTaken q⟩
      · rw [State.attention_finish, State.port_lineTaken]
      · rw [State.holdoff_finish, State.port_lineTaken]
    · rw [State.line_finish, State.line_lineTaken_ne hm]

/-! ## Lines that come up (R111, R113, R114) -/

/-- Settles O49: READY asserted, the settle expiry and READY dropped each change the one line, and the expiry is judged. -/
theorem linesComeUp : Obligations.LinesComeUp := by
  intro s l hp
  refine ⟨fun hr => ?_, fun hrunning hs => ?_, fun hr hs => ?_⟩
  · refine ⟨_, State.execReadyAsserted_of_down hp hr, ?_, fun m hm => State.line_modLine_ne s hm _, s.keeps_modLine l _⟩
    rw [State.line_modLine_same]
    rfl
  · have hnext : exec (.settleExpiry l) s
        = .next (s.putLine l fun r => { r with state := .active, settleTimer := none }).judgeAtn := if_pos ⟨hrunning, hs⟩
    have hjudge := State.keeps_judgeAtn (s.putLine l fun r => { r with state := .active, settleTimer := none })
    refine ⟨_, hnext, ?_, State.judged_judgeAtn rfl, fun m hm => ?_,
      (s.keeps_putLine l _).both hjudge (by decide) (by decide)⟩
    · rw [State.line_of_keeps hjudge (by decide), State.putLine, State.line_modLine_same]
      cases hrep : (s.line l).reported <;> simp [Line.flagged, Line.level, hrep]
    · rw [State.line_of_keeps hjudge (by decide), State.putLine, State.line_modLine_ne _ hm]
  · refine ⟨_, State.execReadyDropped_of_idle hp hr hs, ?_, fun m hm => State.line_modLine_ne s hm _, s.keeps_modLine l _⟩
    rw [State.line_modLine_same]
    rfl

end Sys2Proof.Machine

namespace Sys2Proof.Machine

/-! ## Lines that leave ACTIVE (R116 to R120, R144) -/

theorem Line.tornDown_changed {r : Line} {x : LineState} (hx : x ≠ .active) :
    (r.tornDown x).changed = decide (r.reported = .up) := by
  simp only [Line.tornDown, if_neg hx]
  cases r.reported <;> rfl

/-- The abort sequence of the teardown comes before the 1 bits (R144). -/
theorem Line.disabled_tornDown_data (r : Line) :
    (r.tornDown .disabled).disabled.tx.data = if r.tx.staged.isSome then .abortThenOnes else .ones := by
  simp only [Line.disabled, Line.tornDown, State.afterTeardown]
  by_cases hsending : r.tx.staged.isSome = true <;> simp [hsending]

namespace State

variable {s t : State} {l m : LineNo} {x : LineState} {cause : Byte} {f : Line → Line} {a : Args}

theorem keeps_leaveActive (s : State) (l : LineNo) (x : LineState) (cause : Byte) :
    Keeps directoryParts s (s.leaveActive l x cause) :=
  (((s.keeps_modLine l _).mono (by decide)).trans (keeps_teardown _ l cause)).trans ((keeps_putLine _ l _).mono (by decide))

theorem attentionOnly_leaveActive : AttentionOnly s (s.leaveActive l x cause) :=
  ((AttentionOnly.of_keeps (s.keeps_modLine l _) (by decide)).trans (attentionOnly_teardown l cause)).trans
    (.of_keeps (keeps_putLine _ l _) (by decide))

/-- What a line's leaving ACTIVE does to circuits, ports and the other lines is what its teardown does. -/
theorem tornDown_leaveActive (h : Sparse.wf Fin.val {} s.slots) : TornDown l cause s (s.leaveActive l x cause) :=
  (tornDown_teardown (s := s.modLine l fun r => { r with state := x }) h l cause).between (s.keeps_modLine l _)
    (fun _ hm => line_modLine_ne s hm _) ((keeps_putLine _ l _).mono (by decide)) (fun _ hm => line_modLine_ne _ hm _)
    fun _ => ⟨rfl, rfl⟩

/-! ## LINE-DISABLE (R119) -/

theorem disableLine_of_disabled (hs : (s.line l).state = .disabled) : s.disableLine l = s := by
  simp only [disableLine, hs]

theorem disableLine_of_idle (hs : (s.line l).state = .waiting ∨ (s.line l).state = .settling) :
    s.disableLine l = s.modLine l Line.disabled := by
  obtain hs | hs := hs <;> simp only [disableLine, hs]

/-- The state that LINE-DISABLE of an ACTIVE line leaves, up to its completion. -/
def takenDown (s : State) (l : LineNo) : State :=
  ((s.leaveActive l .disabled Config.causeLineDisabled).modLine l Line.disabled).judgeAtn

theorem disableLine_of_active (hs : (s.line l).state = .active) : s.disableLine l = s.takenDown l := by
  simp only [disableLine, hs, takenDown]

theorem keeps_takenDown_leaveActive :
    Keeps [.lines, .ports] (s.leaveActive l .disabled Config.causeLineDisabled) (s.takenDown l) :=
  (keeps_modLine _ l _).both (keeps_judgeAtn _) (by decide) (by decide)

theorem keeps_takenDown : Keeps directoryParts s (s.takenDown l) :=
  (s.keeps_leaveActive l _ _).trans (keeps_takenDown_leaveActive.mono (by decide))

theorem line_takenDown : (s.takenDown l).line l = ((s.line l).tornDown .disabled).disabled := by
  rw [takenDown, line_of_keeps (keeps_judgeAtn _) (by decide), line_modLine_same, line_leaveActive]

theorem line_takenDown_ne (h : m ≠ l) :
    (s.takenDown l).line m = (s.leaveActive l .disabled Config.causeLineDisabled).line m := by
  rw [takenDown, line_of_keeps (keeps_judgeAtn _) (by decide), line_modLine_ne _ h]

theorem attentionOnly_takenDown : AttentionOnly s (s.takenDown l) :=
  (attentionOnly_leaveActive.trans (.of_keeps (keeps_modLine _ l _) (by decide))).trans attentionOnly_judgeAtn

theorem outputsRight_takenDown : (s.takenDown l).outputsRight := outputsRight_judgeAtn _

theorem tornDown_takenDown (h : Sparse.wf Fin.val {} s.slots) : TornDown l Config.causeLineDisabled s (s.takenDown l) := by
  refine (tornDown_leaveActive h).between (.refl _ s) (fun _ _ => rfl) (keeps_takenDown_leaveActive.mono (by decide))
    (fun m hm => line_takenDown_ne hm) fun q => ?_
  rw [takenDown, port_judgeAtn, port_modLine]
  exact ⟨rfl, rfl⟩

/-- LINE-DISABLE of a line passes its checks, and reports the old state and the circuits torn down. -/
theorem lineDisableBody_of_line (hl : a.a0.toNat = l.val) : lineDisableBody 0 a s = .ok (s.disableLine l,
    { r0 := inBits 1 0 (s.line l).state.code
        ||| inBits 14 8 (if (s.line l).state = .active then (s.mappedSlots l).length else 0) }) := by
  simp only [lineDisableBody, supervisorOnly_zero, lineArg_of hl, bind, Except.bind, pure, Except.pure]

/-- Of a line that is not ACTIVE no circuit is torn down, and the word is its state alone. -/
theorem lineDisableBody_of_idle (hl : a.a0.toNat = l.val) (hs : (s.line l).state ≠ .active) :
    lineDisableBody 0 a s = .ok (s.disableLine l, { r0 := inBits 1 0 (s.line l).state.code }) := by
  have hnone : inBits 14 8 0 = 0#32 := rfl
  rw [lineDisableBody_of_line hl, if_neg hs, hnone, BitVec.or_zero]

end State

/-- What a teardown has done stands when the command is finished. -/
theorem TornDown.finish {l : LineNo} {cause : Byte} {s t : State} (h : TornDown l cause s t) (p : PortNo) (code : ResultCode)
    (w : Results) : TornDown l cause s (t.finish p code w) :=
  h.between (.refl _ s) (fun _ _ => rfl) ((t.keeps_finish p code w).mono (by decide)) (fun _ _ => State.line_finish _ _ _)
    fun q => ⟨State.attention_finish q, State.holdoff_finish q⟩

/-- Settles O24: by the line state, nothing is done, the one line is changed, or it is torn down first; then the command is
finished. -/
theorem lineDisableTakesTheLineDown : Obligations.LineDisableTakesTheLineDown := by
  intro s l htaken hl
  refine ⟨fun hs => ?_, fun hs => ?_, fun hs hwf => ?_⟩
  · have hbody := State.lineDisableBody_of_idle (s := s) hl (by rw [hs]; decide)
    rw [State.disableLine_of_disabled hs, hs] at hbody
    have hnext : exec .lineDisable s = _ := next_of_ok htaken hbody
    exact ⟨_, hnext, State.answers_finish rfl .ok _, s.keeps_finish 0 .ok _⟩
  · have hidle : (s.line l).state ≠ .active := by obtain hs | hs := hs <;> rw [hs] <;> decide
    have hbody := State.lineDisableBody_of_idle (s := s) hl hidle
    rw [State.disableLine_of_idle hs] at hbody
    have hnext : exec .lineDisable s = _ := next_of_ok htaken hbody
    refine ⟨_, hnext, ?_, fun hdata => ?_, State.answers_finish rfl .ok _, fun m hm => ?_,
      (s.keeps_modLine l _).finish 0 .ok _⟩
    · rw [State.line_finish, State.line_modLine_same]
      rfl
    · rw [State.line_finish, State.line_modLine_same, Line.disabled, if_neg hdata]
    · rw [State.line_finish, State.line_modLine_ne _ hm]
  · have hbody := State.lineDisableBody_of_line (s := s) hl
    rw [State.disableLine_of_active hs, if_pos hs, hs] at hbody
    have hnext : exec .lineDisable s = _ := next_of_ok htaken hbody
    refine ⟨_, hnext, (State.tornDown_takenDown hwf).finish 0 .ok _, ?_,
      State.answersWithAttention_finish State.attentionOnly_takenDown,
      State.outputsRight_finish State.outputsRight_takenDown, (State.keeps_takenDown.finish 0 .ok _).mono (by decide)⟩
    rw [State.line_finish, State.line_takenDown, ← Line.disabled_tornDown_data,
      ← Line.tornDown_changed (x := .disabled) (by decide)]
    rfl

/-! ## Line loss (R116) -/

namespace State

variable {s : State} {l m : LineNo}

/-- The state that READY dropped on an ACTIVE line leaves. -/
def lineLost (s : State) (l : LineNo) : State :=
  ((s.modLine l Line.lost).leaveActive l .waiting Config.causeLineLost).judgeAtn

theorem keeps_lineLost : Keeps directoryParts s (s.lineLost l) :=
  (((s.keeps_modLine l _).mono (by decide)).trans (keeps_leaveActive _ l _ _)).trans ((keeps_judgeAtn _).mono (by decide))

theorem line_lineLost : (s.lineLost l).line l = (s.line l).lost.tornDown .waiting := by
  rw [lineLost, line_of_keeps (keeps_judgeAtn _) (by decide), line_leaveActive, line_modLine_same]

theorem attentionOnly_lineLost : AttentionOnly s (s.lineLost l) :=
  ((AttentionOnly.of_keeps (s.keeps_modLine l _) (by decide)).trans attentionOnly_leaveActive).trans attentionOnly_judgeAtn

theorem outputsRight_lineLost : (s.lineLost l).outputsRight := outputsRight_judgeAtn _

theorem tornDown_lineLost (h : Sparse.wf Fin.val {} s.slots) : TornDown l Config.causeLineLost s (s.lineLost l) := by
  refine (tornDown_leaveActive (s := s.modLine l Line.lost) h).between (s.keeps_modLine l _)
    (fun m hm => line_modLine_ne s hm _) ((keeps_judgeAtn _).mono (by decide))
    (fun m _ => line_of_keeps (keeps_judgeAtn _) (by decide) m) fun q => ?_
  rw [lineLost, port_judgeAtn]
  exact ⟨rfl, rfl⟩

end State

/-- Settles O50: the line's own record after the loss, and the teardown, judged. -/
theorem lineLossTearsTheLineDown : Obligations.LineLossTearsTheLineDown := by
  intro s l hp hr hs hwf
  have hnext : exec (.readyDropped l) s = .next (s.lineLost l) := State.execReadyDropped_of_active hp hr hs
  refine ⟨_, hnext, State.tornDown_lineLost hwf, ?_, fun q => ?_, State.keeps_lineLost.mono (by decide)⟩
  · have hchanged : ((s.line l).lost.tornDown .waiting).changed = decide ((s.line l).reported = .up) :=
      Line.tornDown_changed (by decide)
    rw [State.line_lineLost, ← hchanged]
    rfl
  · rw [← State.outputsRight_lineLost q]
    exact State.attentionOnly_lineLost q

end Sys2Proof.Machine

namespace Sys2Proof.Machine

/-! ## Replies offered, live counts lowered (R98, R99, R134) -/

namespace State

variable {q : List Reply} {r : Reply}

theorem offered_of_held (h : ∃ x ∈ q, x.number = r.number ∧ x.kind = r.kind) : offered q r = q := by
  rw [offered, if_pos]
  simpa using h

theorem offered_of_new (h : ∀ x ∈ q, ¬ (x.number = r.number ∧ x.kind = r.kind)) :
    offered q r = if Config.strayRoom ≤ q.length then q else q ++ [r] := by
  rw [offered, if_neg]
  simpa using h

end State

theorem ServiceEntry.lowered_withdrawn (f : ServiceFields) {n : Nat} (h : 1 < n) :
    (ServiceEntry.withdrawn f n).lowered = .withdrawn f (n - 1) := if_neg (Nat.not_le.2 h)

/-- Settles O28: the queue holds one of the reply's number and kind, or its room decides; the three falls of a live count. -/
theorem repliesOfferedAndLiveCountsLowered : Obligations.RepliesOfferedAndLiveCountsLowered := by
  refine ⟨fun q r => ⟨State.offered_of_held, fun hnew => ?_⟩, fun f n => ⟨rfl, rfl, ?_⟩⟩
  · rw [State.offered_of_new hnew]
    exact ⟨fun hfull => if_pos hfull, fun hroom => if_neg (Nat.not_le.2 hroom)⟩
  · exact ServiceEntry.lowered_withdrawn f (by omega)

end Sys2Proof.Machine

namespace Sys2Proof.Machine

/-! ## The receiver's rows (R115, R124, R130, R131) -/

/-- Only CARRY has a payload among the frames that pass the field tests (R131). -/
theorem payload_of_fieldsAllowed {f : Frame} (h : fieldsAllowed f = true) (hk : f.kind ≠ .carry) : f.payload = [] := by
  obtain ⟨n, kind, a, b, payload⟩ := f
  cases kind with
  | carry => exact absurd rfl hk
  | _ => simp_all [fieldsAllowed]

theorem fieldsAllowed_of_valid {f : Frame} (h : frameValid f = true) : fieldsAllowed f = true := by
  rw [frameValid, Bool.and_eq_true] at h
  exact h.2

/-- Content that is read as a frame is read as a valid one (R131). -/
theorem frameValid_of_readContent {content : List Bool} {f : Frame} (h : readContent content = some f) : frameValid f = true := by
  unfold readContent at h
  split at h
  · cases h
  · split_ifs at h
    split at h
    · split at h
      · cases h
      · dsimp only at h
        split_ifs at h with hvalid
        obtain rfl := Option.some.inj h
        exact hvalid
    · cases h

namespace State

variable {s : State} {l m : LineNo} {f : Frame} {bits : List Bool}

/-- A frame row hands the receiver one whole frame (log 5). -/
theorem exec_frameRow (l : LineNo) (f : Frame) (s : State) : ∃ g, exec (frameRow l f) s = s.receive l g := by
  obtain ⟨n, kind, a, b, payload⟩ := f
  cases kind <;> exact ⟨_, rfl⟩

/-- The row of a valid frame hands over that frame. -/
theorem exec_frameRow_of_valid (hf : frameValid f = true) : exec (frameRow l f) s = s.receive l f := by
  have hpayload := payload_of_fieldsAllowed (fieldsAllowed_of_valid hf)
  obtain ⟨n, kind, a, b, payload⟩ := f
  cases kind with
  | carry => rfl
  | _ => obtain rfl : payload = [] := hpayload fun hk => by cases hk
         rfl

/-! A frame that is discarded (R124). -/

theorem line_countDiscard_setReceiver (x : Receiver) : ((s.setReceiver l x).countDiscard l).line l
    = { s.line l with receiver := x, discards := min 65535 ((s.line l).discards + 1) } := by
  rw [countDiscard, line_modLine_same, line_setReceiver_same]
  rfl

theorem line_countDiscard_setReceiver_ne (h : m ≠ l) (x : Receiver) :
    ((s.setReceiver l x).countDiscard l).line m = s.line m := by
  rw [countDiscard, line_modLine_ne _ h, line_setReceiver_ne h]

theorem keeps_countDiscard_setReceiver (x : Receiver) : Keeps [.lines] s ((s.setReceiver l x).countDiscard l) :=
  (s.keeps_setReceiver l x).trans (keeps_countDiscard _ l)

/-- A frame that ends on a line that is not ACTIVE is discarded and counted (R115). -/
theorem receive_of_inactive (hrun : s.phase = .running)
    (hopen : (s.line l).receiver = .hunt ∨ (s.line l).receiver = .frame []) (hs : (s.line l).state ≠ .active) (f : Frame) :
    s.receive l f = .next ((s.heard l).countDiscard l) := by
  rw [receive_of_open hrun hopen, closeFields, if_neg]
  rintro ⟨hactive, -⟩
  rw [line_setReceiver_same] at hactive
  exact hs hactive

/-- Content that ends on a line that is not ACTIVE, or that is no valid frame, is discarded and counted (R115, R131). -/
theorem closeContent_of_bad {content : List Bool} (h : (s.line l).state ≠ .active ∨ readContent content = none) :
    s.closeContent l content = .next (s.countDiscard l) := by
  unfold closeContent
  split_ifs with hs
  · rw [h.resolve_left (not_not.2 hs)]
  · rfl

/-- Content that is a valid frame is handed over on an ACTIVE line (R132). -/
theorem closeContent_of_good {content : List Bool} (hs : (s.line l).state = .active) (hf : readContent content = some f) :
    s.closeContent l content = s.frameArrives l f := by
  rw [closeContent, if_pos hs, hf]

/-- Bits and a closing flag at a receiver in FRAME: the content they end is judged. -/
theorem exec_frameDiscarded (hrun : s.phase = .running) {raw : List Bool} (hr : (s.line l).receiver = .frame raw)
    (hsix : sixless (raw ++ bits)) (hne : raw ++ bits ≠ []) :
    exec (.frameDiscarded l bits) s = (s.heard l).closeContent l (deleteZeros 0 (raw ++ bits)) :=
  takeBits_frame_flag hrun hr hsix hne

/-- A flag at the front of the bits that a closing flag ends opens the frame they belong to. -/
theorem exec_frameDiscarded_flag (hrun : s.phase = .running)
    (hopen : (s.line l).receiver = .hunt ∨ (s.line l).receiver = .frame []) (bits : List Bool) :
    exec (.frameDiscarded l (flagBits ++ bits)) s = exec (.frameDiscarded l bits) (s.heard l) :=
  (congrArg (s.takeBits l) (List.append_assoc _ _ _)).trans (takeBits_flag_bits hrun hopen _)

theorem exec_abort_flag (hrun : s.phase = .running)
    (hopen : (s.line l).receiver = .hunt ∨ (s.line l).receiver = .frame []) (bits : List Bool) :
    exec (.abort l (flagBits ++ bits)) s = exec (.abort l bits) (s.heard l) :=
  (congrArg (s.takeBits l) (List.append_assoc _ _ _)).trans (takeBits_flag_bits hrun hopen _)

theorem takeBits_off (hr : (s.line l).receiver = .off) (bits : List Bool) : s.takeBits l bits = .next s := by
  unfold takeBits
  split_ifs
  · simp only [hr]
  · rfl

theorem receive_off (hr : (s.line l).receiver = .off) (f : Frame) : s.receive l f = .next s :=
  if_neg fun h => h.2 hr

theorem heard_heard : (s.heard l).heard l = s.heard l := setReceiver_setReceiver _ _

/-- A flag taken before a valid frame's row changes nothing of what the row does. -/
theorem exec_frameRow_heard (h : s.hears l) (hf : frameValid f = true) :
    exec (frameRow l f) (s.heard l) = exec (frameRow l f) s := by
  rw [exec_frameRow_of_valid hf, exec_frameRow_of_valid hf, receive_of_hears h hf, receive_of_hears (hears_setReceiver h) hf,
    setReceiver_setReceiver]

/-- Bits and a closing flag that end a valid frame on an ACTIVE line do what the frame's own row does (log 5). -/
theorem exec_frameDiscarded_of_good (hrun : s.phase = .running) {raw : List Bool} (hr : (s.line l).receiver = .frame raw)
    (hsix : sixless (raw ++ bits)) (hne : raw ++ bits ≠ []) (hs : (s.line l).state = .active)
    (hf : readContent (deleteZeros 0 (raw ++ bits)) = some f) :
    exec (.frameDiscarded l bits) s = exec (frameRow l f) (s.heard l) := by
  have hactive : ((s.heard l).line l).state = .active := by rwa [line_setReceiver_same]
  have hhears : (s.heard l).hears l := ⟨hrun, hactive, .inr (by rw [line_setReceiver_same])⟩
  have hvalid := frameValid_of_readContent hf
  rw [exec_frameDiscarded hrun hr hsix hne, closeContent_of_good hactive hf, exec_frameRow_of_valid hvalid,
    receive_of_hears hhears hvalid, setReceiver_setReceiver]

end State

/-- Settles O44: each clause is a rule of takeBits, and a frame that ends is handed over, or discarded and counted. -/
theorem receiversDiscardAndCount : Obligations.ReceiversDiscardAndCount := by
  intro s l hrun
  refine ⟨fun f hopen hs => ?_, fun raw bits hr hsix hne => ⟨fun hbad => ?_, fun f hs hf => ?_⟩,
    fun raw bits content k hr hsix hsplit hend => ?_, fun hopen bits => ⟨fun hsix => ?_,
      State.exec_frameDiscarded_flag hrun hopen bits, State.exec_abort_flag hrun hopen bits⟩,
    fun hr bits hno => State.takeBits_hunt_abort hrun hr hno, fun hr f bits => ⟨?_, ?_⟩⟩
  · obtain ⟨g, hg⟩ := State.exec_frameRow l f s
    exact ⟨_, hg.trans (State.receive_of_inactive hrun hopen hs g), State.line_countDiscard_setReceiver _,
      fun m hm => State.line_countDiscard_setReceiver_ne hm _, State.keeps_countDiscard_setReceiver _⟩
  · have hbad' : ((s.heard l).line l).state ≠ .active ∨ readContent (deleteZeros 0 (raw ++ bits)) = none := by
      rwa [State.line_setReceiver_same]
    exact ⟨_, (State.exec_frameDiscarded hrun hr hsix hne).trans (State.closeContent_of_bad hbad'),
      State.line_countDiscard_setReceiver _, fun m hm => State.line_countDiscard_setReceiver_ne hm _,
      State.keeps_countDiscard_setReceiver _⟩
  · exact State.exec_frameDiscarded_of_good hrun hr hsix hne hs hf
  · have hnext : exec (.abort l bits) s = _ := State.takeBits_frame_abort hrun hr hsix hsplit hend
    by_cases hempty : content = []
    · rw [if_pos hempty] at hnext
      refine ⟨_, hnext, ?_, fun m hm => State.line_setReceiver_ne hm _, s.keeps_setReceiver l _⟩
      rw [State.line_setReceiver_same, if_pos hempty]
    · rw [if_neg hempty] at hnext
      refine ⟨_, hnext, ?_, fun m hm => State.line_countDiscard_setReceiver_ne hm _,
        State.keeps_countDiscard_setReceiver _⟩
      rw [State.line_countDiscard_setReceiver, if_neg hempty]
  · have hflag : exec (.openingFlag ⟨l, bits⟩) s = (s.heard l).takeBits l bits := State.takeBits_flag_bits hrun hopen bits
    have hbits : (s.heard l).takeBits l bits = .next ((s.heard l).setReceiver l (.frame bits)) :=
      State.takeBits_frame (s := s.heard l) (raw := []) hrun (by rw [State.line_setReceiver_same]) hsix
    rw [State.setReceiver_setReceiver] at hbits
    exact ⟨_, hflag.trans hbits, State.line_setReceiver_same _, fun m hm => State.line_setReceiver_ne hm _,
      s.keeps_setReceiver l _⟩
  · obtain ⟨g, hg⟩ := State.exec_frameRow l f s
    exact hg.trans (State.receive_off hr g)
  · exact ⟨State.takeBits_off hr _, State.takeBits_off hr _, State.takeBits_off hr _⟩

end Sys2Proof.Machine

namespace Sys2Proof.Machine

/-! ## Bytes and their bits (R127) -/

theorem getElem_placeBit (bit : Bool) (n : Nat) {k : Nat} (hk : k < 8) :
    (placeBit bit n)[k] = (decide (k = n) && bit) := by
  have hk' : decide (k < 8) = true := decide_eq_true hk
  rw [← BitVec.getLsbD_eq_getElem, placeBit, BitVec.getLsbD_ofNat, hk']
  cases bit <;> simp [Nat.one_shiftLeft, Nat.testBit_two_pow, eq_comm]

theorem byteOfBits_byteBits (v : Byte) : byteOfBits (v.getLsbD 7) (v.getLsbD 6) (v.getLsbD 5) (v.getLsbD 4) (v.getLsbD 3)
    (v.getLsbD 2) (v.getLsbD 1) (v.getLsbD 0) = v := by
  refine BitVec.eq_of_getElem_eq fun k hk => ?_
  simp only [byteOfBits, BitVec.getElem_or, getElem_placeBit]
  interval_cases k <;> simp

/-- Bytes are read back from their bits. -/
theorem bytesOfBits_bytesBits (vs : List Byte) : bytesOfBits (bytesBits vs) = some vs := by
  induction vs with
  | nil => rfl
  | cons v vs ih =>
    rw [bytesBits, byteBits]
    simp only [List.cons_append, List.nil_append, bytesOfBits, ih, byteOfBits_byteBits]

theorem bytesBits_append (us vs : List Byte) : bytesBits (us ++ vs) = bytesBits us ++ bytesBits vs := by
  induction us with
  | nil => rfl
  | cons u us ih => rw [List.cons_append, bytesBits, bytesBits, ih, List.append_assoc]

/-! ## The check (R128) -/

/-- A bit equal to the register's highest only shifts it. -/
theorem checkStep_msb (r : BitVec 16) : checkStep r r.msb = r <<< 1 := by simp [checkStep]

/-- The highest bits of a register, in order, shift it out: each is the highest in its turn. -/
theorem foldl_checkStep_bits (r : BitVec 16) (n : Nat) (hn : n ≤ 16) :
    ((List.range n).map fun k => r.getLsbD (15 - k)).foldl checkStep r = r <<< n := by
  induction n with
  | zero => simp
  | succ n ih =>
    have hbit : r.getLsbD (15 - n) = (r <<< n).msb := by
      simp only [BitVec.msb_eq_getLsbD_last, BitVec.getLsbD_shiftLeft]
      have hlt : ¬ 15 < n := by omega
      simp [hlt]
    rw [List.range_succ, List.map_append, List.foldl_append, ih (by omega), List.map_singleton, List.foldl_cons, hbit,
      checkStep_msb, List.foldl_nil, BitVec.shiftLeft_add]

theorem bytesBits_checkBytes (r : BitVec 16) :
    bytesBits (checkBytes r) = (List.range 16).map fun k => r.getLsbD (15 - k) := by
  simp [checkBytes, bytesBits, byteBits, List.range_succ]

/-- A run of bits followed by its own check leaves the remainder 0. -/
theorem checkOf_append_check (bits : List Bool) : checkOf (bits ++ bytesBits (checkBytes (checkOf bits))) = 0 := by
  rw [bytesBits_checkBytes, checkOf, List.foldl_append]
  exact (foldl_checkStep_bits _ 16 le_rfl).trans (BitVec.shiftLeft_eq_zero le_rfl)

theorem checkOf_frameBits (f : Frame) : checkOf (frameBits f) = 0 := by
  rw [frameBits, frameContent, bytesBits_append]
  exact checkOf_append_check _

/-! ## A valid frame is read back from its content (R131) -/

theorem kindOfCode_kindCode (k : FrameKind) : kindOfCode (kindCode k) = some k := by cases k <;> rfl

/-- No frame that passes the field tests has more than 128 payload bytes. -/
theorem payload_le_of_fieldsAllowed {f : Frame} (h : fieldsAllowed f = true) : f.payload.length ≤ 128 := by
  by_cases hk : f.kind = .carry
  · simp only [fieldsAllowed, hk, Bool.and_eq_true, decide_eq_true_eq] at h
    exact h.2
  · rw [payload_of_fieldsAllowed h hk]
    exact Nat.zero_le _

theorem readContent_frameBits {f : Frame} (h : frameValid f = true) : readContent (frameBits f) = some f := by
  have hlen := payload_le_of_fieldsAllowed (fieldsAllowed_of_valid h)
  have hbytes : frameContent f = f.number :: kindCode f.kind :: f.a :: f.b :: (f.payload ++ checkBytes (frameCheck f)) := rfl
  have hpayload : (f.payload ++ checkBytes (frameCheck f)).take ((f.payload ++ checkBytes (frameCheck f)).length - 2)
      = f.payload := by simp [checkBytes]
  have hsize : ¬ ((frameContent f).length < 6 ∨ 134 < (frameContent f).length) := by
    rw [hbytes]
    simp only [List.length_cons, List.length_append, checkBytes, List.length_nil]
    omega
  rw [readContent, checkOf_frameBits, frameBits, bytesOfBits_bytesBits]
  simp only [ne_eq, not_true_eq_false, if_false, hsize]
  simp only [hbytes, kindOfCode_kindCode, hpayload, h, if_true]

/-! ## Zero insertion and deletion (R127, R130) -/

/-- Deletion undoes insertion, after a run of four 1 bits at most. -/
theorem deleteZeros_insertZeros (bits : List Bool) : ∀ n ≤ 4, deleteZeros n (insertZeros n bits) = bits := by
  induction bits with
  | nil => exact fun _ _ => rfl
  | cons b bits ih =>
    intro n hn
    cases b with
    | false => rw [insertZeros, deleteZeros, if_neg (by omega), ih 0 (by omega)]
    | true =>
      rw [insertZeros]
      split_ifs with h4
      · rw [deleteZeros, deleteZeros, if_pos (by omega), ih 0 (by omega)]
      · rw [deleteZeros, ih (n + 1) (by omega)]

/-- A 0 behind five 1 bits at most ends a run: only what follows it can hold six. -/
theorem sixless_run_false {n : Nat} (hn : n ≤ 5) {bits : List Bool} (h : sixless bits) :
    sixless (List.replicate n true ++ false :: bits) := by
  interval_cases n <;> simpa [sixless, List.replicate_succ, List.infix_cons_iff] using h

theorem sixless_run {n : Nat} (hn : n ≤ 5) : sixless (List.replicate n true) := fun h => by
  have := h.length_le
  rw [List.length_replicate] at this
  exact absurd this (Nat.not_le.2 (Nat.lt_succ_of_le hn))

theorem replicate_append_cons (n : Nat) (bits : List Bool) :
    List.replicate n true ++ true :: bits = List.replicate (n + 1) true ++ bits := by
  rw [List.replicate_succ', List.append_assoc, List.singleton_append]

/-- No bits with zeros inserted hold six consecutive 1 bits, with the run before them. -/
theorem sixless_run_insertZeros (bits : List Bool) : ∀ n ≤ 4, sixless (List.replicate n true ++ insertZeros n bits) := by
  induction bits with
  | nil =>
    intro n hn
    rw [insertZeros, List.append_nil]
    exact sixless_run (by omega)
  | cons b bits ih =>
    intro n hn
    cases b with
    | false =>
      rw [insertZeros]
      exact sixless_run_false (by omega) (ih 0 (by omega))
    | true =>
      rw [insertZeros]
      split_ifs with h4
      · rw [replicate_append_cons]
        exact sixless_run_false (by omega) (ih 0 (by omega))
      · rw [replicate_append_cons]
        exact ih (n + 1) (by omega)

theorem sixless_insertZeros (bits : List Bool) : sixless (insertZeros 0 bits) := sixless_run_insertZeros bits 0 (by omega)

theorem insertZeros_ne_nil {bits : List Bool} (h : bits ≠ []) : insertZeros 0 bits ≠ [] := fun hnil => by
  have hback := deleteZeros_insertZeros bits 0 (by omega)
  rw [hnil] at hback
  exact h hback.symm

theorem frameBits_ne_nil (f : Frame) : frameBits f ≠ [] := List.cons_ne_nil _ _

/-- Settles O45: deletion undoes insertion, a frame's check leaves no remainder, and the bits between two flags are its content. -/
theorem framesReadBack : Obligations.FramesReadBack := by
  have hback : ∀ bits, deleteZeros 0 (insertZeros 0 bits) = bits := fun bits => deleteZeros_insertZeros bits 0 (by omega)
  refine ⟨fun f hf => ⟨?_, checkOf_frameBits f⟩, hback, sixless_insertZeros, fun s l f hhears hf => ?_⟩
  · rw [hback, readContent_frameBits hf]
  · have ⟨hrun, _, hopen⟩ := hhears
    have ⟨_, hactive, _⟩ := State.hears_setReceiver hhears
    have hgood : exec (.frameDiscarded l (insertZeros 0 (frameBits f))) (s.heard l)
        = exec (frameRow l f) ((s.heard l).heard l) :=
      State.exec_frameDiscarded_of_good (raw := []) hrun (by rw [State.line_setReceiver_same]) (sixless_insertZeros _)
        (insertZeros_ne_nil (frameBits_ne_nil f)) hactive (by rw [List.nil_append, hback, readContent_frameBits hf])
    rw [State.exec_frameDiscarded_flag hrun hopen, hgood, State.heard_heard, State.exec_frameRow_heard hhears hf]

end Sys2Proof.Machine

namespace Sys2Proof.Machine

/-! ## The order of owed control (R140) -/

/-- The order in which a selection serves owed control. -/
def OwedKind.order : List OwedKind := [.close, .grant, .openCall, .resend, .credit, .ask]

/-- The kinds served before this one. -/
def OwedKind.before (k : OwedKind) : List OwedKind := order.takeWhile (· ≠ k)

theorem OwedKind.eq_before {earlier later : List OwedKind} {k : OwedKind} (h : order = earlier ++ k :: later) :
    earlier = k.before := by
  have hnodup : (earlier ++ k :: later).Nodup := h ▸ by decide
  have hk : ∀ x ∈ earlier, decide (x ≠ k) = true := fun x hx => by
    rw [decide_eq_true_eq]
    rintro rfl
    exact List.disjoint_of_nodup_append hnodup hx List.mem_cons_self
  rw [before, h, List.takeWhile_append_of_pos hk, List.takeWhile_cons, if_neg (by simp), List.append_nil]

namespace Circuit

variable {c : Circuit} {k : OwedKind}

/-- The first kind owed is served, a RESEND with nothing unacknowledged being passed over and dropped (R140). -/
theorem nextOwed_of_first (hk : c.owed.has k = true) (hr : k = .resend → c.unacked ≠ [])
    (hfirst : ∀ x ∈ k.before, c.owed.has x = true → x = .resend ∧ c.unacked = []) :
    c.nextOwed = (some k, if .resend ∈ k.before then (c.owed.put .resend false).put k false else c.owed.put k false) := by
  have hno : ∀ x ∈ k.before, x ≠ .resend → c.owed.has x = false := fun x hx hne =>
    Bool.eq_false_iff.2 fun hx' => hne (hfirst x hx hx').1
  have hresend : .resend ∈ k.before → c.owed.resend = true → c.unacked = [] := fun hx hx' => (hfirst _ hx hx').2
  cases k <;> simp_all [nextOwed, OwedKind.before, OwedKind.order, Owed.has, Owed.put]

/-- A RESEND with nothing unacknowledged, owed alone, is dropped without a frame (R140). -/
theorem nextOwed_of_dropped (h : c.owed = { resend := true }) (hu : c.unacked = []) : c.nextOwed = (none, {}) := by
  simp [nextOwed, h, hu, Owed.put]

end Circuit

/-! ## Selections from the control queue (R139 to R141) -/

namespace State

variable {s : State} {l m : LineNo} {i j : SlotNo} {rest : List SlotNo} {c : Circuit} {k : OwedKind} {left : Owed}

theorem execSelectionEvent_of_idle (hrun : s.phase = .running) (hs : (s.line l).state = .active)
    (hidle : (s.line l).tx.staged = none) : exec (.selectionEvent l) s = .next (s.select l) := if_pos ⟨hrun, hs, hidle⟩

/-- The state that a selection leaves which serves kind k of the circuit at the head of the control queue. -/
def controlServed (s : State) (l : LineNo) (i : SlotNo) (rest : List SlotNo) (c : Circuit) (k : OwedKind) (left : Owed) :
    State :=
  ((s.setCircuit i (some { c with owed := left })).modTx l
    fun x => { x with control := if left.isEmpty then rest else rest ++ [i] }).stage l (s.composeOwed c k) (k = .resend)
      (some (s.noteOf i c))

theorem line_stage (f : Frame) (again : Bool) (note : Option Noted) : (s.stage l f again note).line l
    = { s.line l with
        tx := { (s.line l).tx with staged := some ⟨f, frameCheck f, again, note⟩, data := .stagedFrame } } :=
  line_modTx_same _ _ _

theorem line_stage_ne (h : m ≠ l) (f : Frame) (again : Bool) (note : Option Noted) :
    (s.stage l f again note).line m = s.line m := line_modTx_ne _ h _

theorem line_controlServed : (s.controlServed l i rest c k left).line l = { s.line l with
    tx := { (s.line l).tx with
      staged := some ⟨s.composeOwed c k, frameCheck (s.composeOwed c k), decide (k = .resend), some (s.noteOf i c)⟩
      control := if left = {} then rest else rest ++ [i]
      data := .stagedFrame } } := by
  simp only [controlServed, line_stage, line_modTx_same, line_setCircuit, Owed.isEmpty, decide_eq_true_eq]

theorem line_controlServed_ne (h : m ≠ l) : (s.controlServed l i rest c k left).line m = s.line m := by
  rw [controlServed, line_stage_ne h, line_modTx_ne _ h, line_setCircuit]

theorem circuit_controlServed : (s.controlServed l i rest c k left).circuit i = some { c with owed := left } :=
  circuit_setCircuit_same _ _ _

theorem slot_controlServed_ne (h : j ≠ i) : (s.controlServed l i rest c k left).slot j = s.slot j :=
  slot_setCircuit_ne _ h _

theorem generation_controlServed :
    ((s.controlServed l i rest c k left).slot j).generation = (s.slot j).generation := generation_setCircuit _ _ _ _

theorem keeps_controlServed : Keeps [.slots, .lines] s (s.controlServed l i rest c k left) :=
  ((s.keeps_setCircuit i _).both (keeps_modTx _ l _) (by decide) (by decide)).both (keeps_stage _ l _ _ _)
    (List.Subset.refl _) (by decide)

theorem select_of_owed (hq : (s.line l).tx.control = i :: rest) (hc : s.circuit i = some c)
    (hn : c.nextOwed = (some k, left)) : s.select l = s.controlServed l i rest c k left := by
  have hcontrol : selectControl l (s.line l).tx.control.length s = s.controlServed l i rest c k left := by
    simp only [hq, List.length_cons, selectControl, hc, hn]
    rfl
  rw [select, hcontrol, line_controlServed]
  rfl

/-- The state in which a selection goes on that has dropped all that the head circuit owed. -/
def controlDropped (s : State) (l : LineNo) (i : SlotNo) (rest : List SlotNo) (c : Circuit) (left : Owed) : State :=
  (s.setCircuit i (some { c with owed := left })).modTx l fun x => { x with control := rest }

theorem line_controlDropped : (s.controlDropped l i rest c left).line l
    = { s.line l with tx := { (s.line l).tx with control := rest } } := line_modTx_same _ _ _

theorem keeps_controlDropped : Keeps [.slots, .lines] s (s.controlDropped l i rest c left) :=
  (s.keeps_setCircuit i _).both (keeps_modTx _ l _) (by decide) (by decide)

/-- A dropped RESEND leaves the selection to go on as if the circuit had not stood on the queue (R140). -/
theorem select_of_dropped (hq : (s.line l).tx.control = i :: rest) (hc : s.circuit i = some c)
    (hn : c.nextOwed = (none, left)) : s.select l = (s.controlDropped l i rest c left).select l := by
  have hcontrol : selectControl l (s.line l).tx.control.length s
      = selectControl l rest.length (s.controlDropped l i rest c left) := by
    simp only [hq, List.length_cons, selectControl, hc, hn]
    rfl
  have hrest : ((s.controlDropped l i rest c left).line l).tx.control = rest := by rw [line_controlDropped]
  rw [select, hcontrol, select, hrest]

/-- The frame that each kind of owed control composes, field by field (R141). -/
theorem composeOwed_eq {f : Frame}
    (h : k = .openCall ∧ f = ⟨c.number, .openCall, c.service, c.receiveEdge.setWidth 8, []⟩
      ∨ k = .grant ∧ f = ⟨c.number, .grant, BitVec.ofNat 8 (distance c.nextExpected c.receiveEdge), 0, []⟩
      ∨ (∃ cause, k = .close ∧ c.state = .closing cause ∧ f = ⟨c.number, .close, cause, 0, []⟩)
      ∨ k = .credit ∧ f = ⟨c.number, .credit, c.nextExpected.setWidth 8, c.receiveEdge.setWidth 8, []⟩
      ∨ k = .ask ∧ f = ⟨c.number, .ask, 0, 0, []⟩
      ∨ (∃ e more, k = .resend ∧ c.unacked = e :: more
        ∧ f = ⟨c.number, .carry, e.sequence.setWidth 8, if e.entry.endMark then 1 else 0,
            s.bufferBytes e.entry.buffer 0 e.entry.length⟩)) : s.composeOwed c k = f := by
  obtain ⟨rfl, rfl⟩ | ⟨rfl, rfl⟩ | ⟨cause, rfl, hs, rfl⟩ | ⟨rfl, rfl⟩ | ⟨rfl, rfl⟩ | ⟨e, more, rfl, hu, rfl⟩ := h
  · rfl
  · rfl
  · simp only [composeOwed, Circuit.closeCause, hs]
  · rfl
  · rfl
  · simp only [composeOwed, hu]
    rfl

end State

/-- Settles O51: the first kind owed is the one that nextOwed gives, and a selection serves it; a dropped RESEND leaves the rest of the
selection to the state without it. -/
theorem selectionServesOwedControl : Obligations.SelectionServesOwedControl := by
  intro s l i rest c hrun hs hidle hq hc
  refine ⟨fun k earlier later left f horder hk hr hfirst hleft hf => ?_, fun howed hu => ?_⟩
  · obtain rfl := OwedKind.eq_before horder
    have hnext := Circuit.nextOwed_of_first hk hr hfirst
    rw [← hleft] at hnext
    have hserved := State.select_of_owed hq hc hnext
    obtain rfl := State.composeOwed_eq hf
    exact ⟨_, (State.execSelectionEvent_of_idle hrun hs hidle).trans (congrArg _ hserved), State.circuit_controlServed,
      State.line_controlServed, State.generation_controlServed, fun j hj => State.slot_controlServed_ne hj,
      fun m hm => State.line_controlServed_ne hm, State.keeps_controlServed⟩
  · have hline := State.line_controlDropped (s := s) (l := l) (i := i) (rest := rest) (c := c) (left := {})
    have hgoesOn : exec (.selectionEvent l) (s.controlDropped l i rest c {})
        = .next ((s.controlDropped l i rest c {}).select l) :=
      State.execSelectionEvent_of_idle hrun (by rw [hline]; exact hs) (by rw [hline]; exact hidle)
    refine ⟨_, _, (State.execSelectionEvent_of_idle hrun hs hidle).trans
      (congrArg _ (State.select_of_dropped hq hc (Circuit.nextOwed_of_dropped howed hu))), hgoesOn,
      State.circuit_setCircuit_same _ _ _, hline, State.generation_setCircuit _ _ _ _,
      fun j hj => State.slot_setCircuit_ne _ hj _, fun m hm => ?_, State.keeps_controlDropped⟩
    rw [State.controlDropped, State.line_modTx_ne _ hm, State.line_setCircuit]

end Sys2Proof.Machine

namespace Sys2Proof.Machine

/-! ## Selections with no control owed (R139, R142, R54, R55) -/

/-- A record whose oldest transmit entry has been sent: the entry joins the unacknowledged list under the next sequence number (R55). -/
def Circuit.sentOldest (c : Circuit) (e : Entry) (more : List Entry) : Circuit :=
  { c with transmit := more, unacked := c.unacked ++ [⟨c.nextSend, e⟩], nextSend := c.nextSend + 1 }

namespace State

variable {s : State} {l m : LineNo} {i j : SlotNo} {rest : List SlotNo} {c : Circuit} {e : Entry} {more : List Entry}
  {r : Reply} {replies : List Reply}

/-- With nothing staged and no control owed, the stray reply queue and the ring decide (R139). -/
theorem select_of_noControl (hidle : (s.line l).tx.staged = none) (hq : (s.line l).tx.control = []) :
    s.select l = match (s.line l).tx.stray, (s.line l).tx.ring with
      | r :: rest, _ => (s.modTx l fun x => { x with stray := rest }).stage l (replyFrame r) false none
      | [], i :: rest => s.stageData l i rest
      | [], [] => s.modTx l fun x => { x with data := .flags } := by
  have hcontrol : selectControl l (s.line l).tx.control.length s = s := by rw [hq]; rfl
  rw [select, hcontrol, hidle]
  rfl

/-! A stray reply. -/

/-- The state that a selection leaves which serves the stray reply queue. -/
def replyServed (s : State) (l : LineNo) (r : Reply) (replies : List Reply) : State :=
  (s.modTx l fun x => { x with stray := replies }).stage l (replyFrame r) false none

theorem select_of_reply (hidle : (s.line l).tx.staged = none) (hq : (s.line l).tx.control = [])
    (hstray : (s.line l).tx.stray = r :: replies) : s.select l = s.replyServed l r replies := by
  simp only [select_of_noControl hidle hq, hstray]
  rfl

theorem line_replyServed : (s.replyServed l r replies).line l = { s.line l with
    tx := { (s.line l).tx with
      staged := some ⟨replyFrame r, frameCheck (replyFrame r), false, none⟩, stray := replies, data := .stagedFrame } } := by
  simp only [replyServed, line_stage, line_modTx_same]

theorem line_replyServed_ne (h : m ≠ l) : (s.replyServed l r replies).line m = s.line m := by
  rw [replyServed, line_stage_ne h, line_modTx_ne _ h]

theorem keeps_replyServed : Keeps [.lines] s (s.replyServed l r replies) :=
  (s.keeps_modTx l _).trans (keeps_stage _ l _ _ _)

/-- The frame of each kind of reply, field by field (R142). -/
theorem replyFrame_eq {f : Frame}
    (h : r.kind = .refuse ∧ f = ⟨r.number, .refuse, r.cause, 0, []⟩ ∨ r.kind = .close ∧ f = ⟨r.number, .close, r.cause, 0, []⟩
      ∨ r.kind = .closed ∧ f = ⟨r.number, .closed, 0, 0, []⟩) : replyFrame r = f := by
  obtain ⟨hk, rfl⟩ | ⟨hk, rfl⟩ | ⟨hk, rfl⟩ := h <;> simp only [replyFrame, hk]

/-! New data. -/

/-- The state that a selection leaves which sends the oldest transmit entry of the circuit at the head of the ring. -/
def dataServed (s : State) (l : LineNo) (i : SlotNo) (rest : List SlotNo) (c : Circuit) (e : Entry) (more : List Entry) : State :=
  (((s.setCircuit i (some (c.sentOldest e more))).setPlace e.buffer (.unacked i)).modTx l
    fun x => { x with ring := if (c.sentOldest e more).canSend then joinTail rest i else rest }).stage l
      (s.carryOf c.number c.nextSend e) false (some (s.noteOf i c))

/-- Two updates of one transmitter are one. -/
theorem modTx_modTx (f g : Transmitter → Transmitter) : (s.modTx l f).modTx l g = s.modTx l fun x => g (f x) := by
  simp [modTx, modLine, setLine, line]

theorem stageData_of_entry (hc : s.circuit i = some c) (he : c.transmit = e :: more) :
    s.stageData l i rest = s.dataServed l i rest c e more := by
  -- the record and the place are written apart from the transmitter, whose updates are then one
  have happart : ((s.modTx l fun t => { t with ring := rest }).setCircuit i (some (c.sentOldest e more))).setPlace e.buffer
      (.unacked i) = ((s.setCircuit i (some (c.sentOldest e more))).setPlace e.buffer (.unacked i)).modTx l
        fun t => { t with ring := rest } := rfl
  simp only [stageData, hc, he, ← Circuit.sentOldest.eq_def, happart, dataServed, stage, modTx_modTx]
  split_ifs <;> rfl

theorem select_of_data (hidle : (s.line l).tx.staged = none) (hq : (s.line l).tx.control = [])
    (hstray : (s.line l).tx.stray = []) (hring : (s.line l).tx.ring = i :: rest) (hc : s.circuit i = some c)
    (he : c.transmit = e :: more) : s.select l = s.dataServed l i rest c e more := by
  simp only [select_of_noControl hidle hq, hstray, hring]
  exact stageData_of_entry hc he

theorem line_dataServed : (s.dataServed l i rest c e more).line l = { s.line l with
    tx := { (s.line l).tx with
      staged := some ⟨s.carryOf c.number c.nextSend e, frameCheck (s.carryOf c.number c.nextSend e), false,
        some (s.noteOf i c)⟩
      ring := if (c.sentOldest e more).canSend then joinTail rest i else rest
      data := .stagedFrame } } := by
  simp only [dataServed, line_stage, line_modTx_same, line_setPlace, line_setCircuit]

theorem line_dataServed_ne (h : m ≠ l) : (s.dataServed l i rest c e more).line m = s.line m := by
  rw [dataServed, line_stage_ne h, line_modTx_ne _ h, line_setPlace, line_setCircuit]

theorem circuit_dataServed : (s.dataServed l i rest c e more).circuit i = some (c.sentOldest e more) :=
  circuit_setCircuit_same _ _ _

theorem slot_dataServed_ne (h : j ≠ i) : (s.dataServed l i rest c e more).slot j = s.slot j := slot_setCircuit_ne _ h _

theorem generation_dataServed : ((s.dataServed l i rest c e more).slot j).generation = (s.slot j).generation :=
  generation_setCircuit _ _ _ _

theorem place_dataServed (b : BufNo) :
    (s.dataServed l i rest c e more).place b = if b = e.buffer then .unacked i else s.place b :=
  place_setPlace (s.setCircuit i (some (c.sentOldest e more))) e.buffer b (.unacked i)

theorem keeps_dataServed : Keeps [.slots, .places, .lines] s (s.dataServed l i rest c e more) :=
  ((s.keeps_setCircuit i _).both (keeps_setPlace _ _ _) (by decide) (by decide)).trans
    (((keeps_modTx _ l _).trans (keeps_stage _ l _ _ _)).mono (by decide))

/-! Nothing to select. -/

theorem select_of_nothing (hidle : (s.line l).tx.staged = none) (hq : (s.line l).tx.control = [])
    (hstray : (s.line l).tx.stray = []) (hring : (s.line l).tx.ring = []) :
    s.select l = s.modTx l fun x => { x with data := .flags } := by
  simp only [select_of_noControl hidle hq, hstray, hring]

end State

/-- Settles O52: the selection by what the stray reply queue and the ring hold. -/
theorem selectionServesRepliesThenData : Obligations.SelectionServesRepliesThenData := by
  intro s l hrun hs hidle hq
  have hselects := State.execSelectionEvent_of_idle hrun hs hidle
  refine ⟨fun r more f hstray hf => ?_, fun i rest c e more c' f hstray hring hc he hc' hf => ?_, fun hstray hring => ?_⟩
  · obtain rfl := State.replyFrame_eq hf
    exact ⟨_, hselects.trans (congrArg _ (State.select_of_reply hidle hq hstray)), State.line_replyServed,
      fun m hm => State.line_replyServed_ne hm, State.keeps_replyServed⟩
  · obtain rfl : c' = c.sentOldest e more := hc'
    obtain rfl : f = s.carryOf c.number c.nextSend e := hf
    exact ⟨_, hselects.trans (congrArg _ (State.select_of_data hidle hq hstray hring hc he)), State.circuit_dataServed,
      (State.place_dataServed _).trans (if_pos rfl), fun b hb => (State.place_dataServed b).trans (if_neg hb),
      State.line_dataServed, State.generation_dataServed, fun j hj => State.slot_dataServed_ne hj,
      fun m hm => State.line_dataServed_ne hm, State.keeps_dataServed⟩
  · exact ⟨_, hselects.trans (congrArg _ (State.select_of_nothing hidle hq hstray hring)), State.line_modTx_same _ _ _,
      fun m hm => State.line_modTx_ne _ hm _, s.keeps_modTx l _⟩

end Sys2Proof.Machine

namespace Sys2Proof.Machine

/-! ## Completions (R13, R27, R46, R56, R68, R143) -/

/-- OPEN and DRAINING count as one state in the comparison of R13. -/
theorem sameStage_iff {x y : StateName} :
    x.sameStage y = true ↔ x = y ∨ (x = .opened ∨ x = .draining) ∧ (y = .opened ∨ y = .draining) := by
  simp only [StateName.sameStage, Bool.or_eq_true, Bool.and_eq_true, decide_eq_true_eq]
  grind

theorem inData_iff_name {x : CircuitState} : x.inData = true ↔ x.name = .opened ∨ x.name = .draining := by
  cases x <;> simp [CircuitState.inData, CircuitState.name]

namespace State

variable {s : State} {l m : LineNo} {i j : SlotNo} {c : Circuit} {x : Staged} {note : Noted}

theorem fits_iff : s.fits note c = true ↔ (s.slot note.slot).generation = note.generation ∧ c.line = note.line
    ∧ c.number = note.number ∧ (c.state.name = note.state
      ∨ c.state.inData = true ∧ (note.state = .opened ∨ note.state = .draining)) := by
  rw [fits, Bool.and_eq_true, Bool.and_eq_true, Bool.and_eq_true, decide_eq_true_eq, decide_eq_true_eq, decide_eq_true_eq,
    sameStage_iff, inData_iff_name, and_assoc, and_assoc]

/-- The record that an applied completion leaves: the timer that the frame's kind calls for (R27, R46, R56, R68). -/
def completed (s : State) (x : Staged) (c : Circuit) : Circuit :=
  match x.frame.kind with
  | .openCall => { c with timer := some ⟨.openWait, (s.line c.line).config.openTimeout⟩ }
  | .close => { c with timer := some ⟨.closeWait, (s.line c.line).config.closeTimeout⟩ }
  | .carry =>
    if c.unacked ≠ [] ∧ (x.retransmission = true ∨ c.waits .ackWait = false) then
      { c with timer := some ⟨.ackWait, (s.line c.line).config.retransmit⟩ }
    else c
  | _ => c

theorem circuit_startTimer_same (h : s.circuit i = some c) (p : Purpose) :
    (s.startTimer i p).circuit i = some { c with timer := some ⟨p, (s.line c.line).config.duration p⟩ } := by
  rw [circuit_startTimer, if_pos rfl, h]
  rfl

theorem circuit_applyCompletion (h : s.circuit i = some c) :
    (s.applyCompletion i c x).circuit i = some (s.completed x c) := by
  unfold applyCompletion completed
  cases x.frame.kind with
  | openCall => exact circuit_startTimer_same h .openWait
  | close => exact circuit_startTimer_same h .closeWait
  | carry =>
    dsimp only
    by_cases hu : c.unacked = []
    · simp [hu, h]
    · have hsome : c.unacked.isEmpty = false := by simpa using hu
      by_cases hagain : x.retransmission = true ∨ c.waits .ackWait = false
      · have htest : (x.retransmission || !c.waits .ackWait) = true := by simpa using hagain
        simp only [hsome, htest, if_pos (And.intro hu hagain), Bool.false_eq_true, if_false, if_true]
        exact circuit_startTimer_same h .ackWait
      · have htest : (x.retransmission || !c.waits .ackWait) = false := by simpa using hagain
        have hboth : ¬ (c.unacked ≠ [] ∧ (x.retransmission = true ∨ c.waits .ackWait = false)) := fun hb => hagain hb.2
        simp only [hsome, htest, if_neg hboth, Bool.false_eq_true, if_false, h]
  | _ => exact h

/-- A completion starts a timer of the noted circuit, or does nothing. -/
theorem complete_cases (s : State) (x : Staged) :
    s.complete x = s ∨ ∃ note p, x.noted = some note ∧ s.complete x = s.startTimer note.slot p := by
  unfold complete
  cases hx : x.noted with
  | none => exact .inl rfl
  | some note =>
    dsimp only
    split
    · exact .inl rfl
    · split_ifs
      · unfold applyCompletion
        split
        · exact .inr ⟨note, _, rfl, rfl⟩
        · exact .inr ⟨note, _, rfl, rfl⟩
        · split_ifs
          · exact .inl rfl
          · exact .inr ⟨note, _, rfl, rfl⟩
          · exact .inl rfl
        · exact .inl rfl
      · exact .inl rfl

theorem circuit_complete_ne (h : x.noted.map (·.slot) ≠ some j) : (s.complete x).circuit j = s.circuit j := by
  obtain hsame | ⟨note, p, hnote, hstart⟩ := s.complete_cases x
  · rw [hsame]
  · have hj : j ≠ note.slot := fun hj => h (by rw [hnote, hj]; rfl)
    rw [hstart, startTimer, circuit_modCircuit_ne _ hj]

theorem generation_complete : ((s.complete x).slot j).generation = (s.slot j).generation := by
  obtain hsame | ⟨note, p, -, hstart⟩ := s.complete_cases x
  · rw [hsame]
  · rw [hstart, startTimer, generation_modCircuit]

theorem circuit_complete_of_fits (hnote : x.noted = some note) (hc : s.circuit note.slot = some c)
    (hfits : s.fits note c = true) : (s.complete x).circuit note.slot = some (s.completed x c) := by
  simp only [complete, hnote, hc, hfits, if_true]
  exact circuit_applyCompletion hc

theorem circuit_complete_of_not_fits (hnote : x.noted = some note) (hc : s.circuit note.slot = some c)
    (hfits : ¬ s.fits note c = true) : (s.complete x).circuit note.slot = some c := by
  simp only [complete, hnote, hc, if_neg hfits]

/-- A line's transmitter without its staged frame. -/
def unstaged (s : State) (l : LineNo) : State := s.modTx l fun t => { t with staged := none }

theorem line_complete_unstaged :
    ((s.unstaged l).complete x).line l = { s.line l with tx := { (s.line l).tx with staged := none } } :=
  (line_of_keeps (keeps_complete _ x) (by decide) l).trans (line_modTx_same _ _ _)

theorem line_complete_unstaged_ne (h : m ≠ l) : ((s.unstaged l).complete x).line m = s.line m :=
  (line_of_keeps (keeps_complete _ x) (by decide) m).trans (line_modTx_ne _ h _)

/-- The line settings are those before the frame was unstaged. -/
theorem config_unstaged (m : LineNo) : ((s.unstaged l).line m).config = (s.line m).config := by
  by_cases h : m = l
  · subst h
    rw [unstaged, line_modTx_same]
  · rw [unstaged, line_modTx_ne _ h]

theorem completed_unstaged : (s.unstaged l).completed x c = s.completed x c := by
  simp only [completed, config_unstaged]

theorem execCompletion_of_staged (hrun : s.phase = .running) (hx : (s.line l).tx.staged = some x) :
    exec (.completion l) s = .next (((s.unstaged l).complete x).select l) := by
  refine (if_pos hrun).trans ?_
  rw [hx]
  rfl

end State

/-- Settles O53: the staged frame leaves, its completion starts a timer of the noted circuit or does nothing, and the line selects. -/
theorem completionStartsTheTimer : Obligations.CompletionStartsTheTimer := by
  intro s l x hrun hs hx
  have hline := State.line_complete_unstaged (s := s) (l := l) (x := x)
  have hkeeps : Keeps [.slots, .lines] s ((s.unstaged l).complete x) :=
    (s.keeps_modTx l _).both (State.keeps_complete _ x) (by decide) (by decide)
  refine ⟨_, _, State.execCompletion_of_staged hrun hx,
    State.execSelectionEvent_of_idle ((hkeeps.at_phase (by decide)).trans hrun) (by rw [hline]; exact hs) (by rw [hline]), hline,
    fun m hm => State.line_complete_unstaged_ne hm, fun j => State.generation_complete,
    fun j hj => State.circuit_complete_ne hj, fun note c hnote hc => ⟨fun hfits => ?_, fun hfits => ?_⟩, hkeeps⟩
  · have hstarted := State.circuit_complete_of_fits (s := s.unstaged l) hnote hc (State.fits_iff.2 hfits)
    rw [State.completed_unstaged] at hstarted
    exact hstarted
  · exact State.circuit_complete_of_not_fits (s := s.unstaged l) hnote hc fun h => hfits (State.fits_iff.1 h)

end Sys2Proof.Machine

namespace Sys2Proof.Machine

/-! # Client ports and commands (chapter 8) -/

/-! ## The arbiter (R152) -/

/-- The arbiter's order is the ports taken by their distance from the port after the last served one. -/
theorem roundFrom_eq_map (q : PortNo) : roundFrom q = (List.finRange 4).map (q + 1 + ·) := by
  revert q; decide

/-- Settles O2: the first port that passes in a list by distance is the one of least distance. -/
theorem arbiterGoesRoundThePorts : Obligations.ArbiterGoesRoundThePorts := by
  intro s p
  obtain ⟨k, rfl⟩ : ∃ k, p = s.lastServed + 1 + k := ⟨p - (s.lastServed + 1), (add_sub_cancel _ _).symm⟩
  have hnext : s.nextPort = some (s.lastServed + 1 + k)
      ↔ Fin.find? (fun j => decide ((s.port (s.lastServed + 1 + j)).status = .pending)) = some k := by
    rw [State.nextPort, roundFrom_eq_map, List.find?_map, Fin.find?_eq_find?_finRange, Option.map_eq_some_iff]
    exact ⟨fun ⟨j, hj, he⟩ => add_left_cancel he ▸ hj, fun h => ⟨k, h, rfl⟩⟩
  rw [hnext, Fin.find?_eq_some_iff, add_sub_cancel_left, decide_eq_true_iff]
  refine and_congr_right fun _ => ⟨fun h q hq => ?_, fun h j hj => ?_⟩
  · have := h (q - (s.lastServed + 1)) hq
    rwa [add_sub_cancel, decide_eq_false_iff_not] at this
  · exact decide_eq_false (h _ (by rwa [add_sub_cancel_left]))

/-! ## Unknown codes (R155) and supervisor-only commands (R156) -/

/-- Settles O3: the row of unknown codes answers the code UNKNOWN-COMMAND to the arbiter's next port. -/
theorem unknownCodeCompletes : Obligations.UnknownCodeCompletes := by
  intro s p hrun hnext hcode
  have htakes : (s.takes fun code => !Code.known.contains code) = some p := by
    simp [State.takes, hrun, hnext, hcode]
  exact ⟨s.finish p .unknownCommand {}, by simp only [exec, execUnknownCommand, htakes, State.conclude],
    State.fails_finish s p .unknownCommand⟩

/-- A command that is taken and whose first check is that of the supervisor completes NOT-PERMITTED from the other ports, whatever it
does next. -/
theorem notPermitted_of_supervisorOnly {s : State} {p : PortNo} {c : Instr} {code : Byte} {body : Body}
    {rest : Unit → Except ResultCode (State × Results)} (hp : p ≠ 0) (htaken : s.taken p code)
    (hexec : exec c s = takeCommand code body s)
    (hbody : body p (s.port p).args s = (supervisorOnly p).bind rest) :
    ∃ t, exec c s = .next t ∧ s.fails t p .notPermitted :=
  fails_of htaken hexec (by rw [hbody, supervisorOnly_of_other hp]; rfl)

theorem State.takes_of_taken {s : State} {p : PortNo} {code : Byte} (h : s.taken p code) : s.takes (· == code) = some p := by
  obtain ⟨hrun, hnext, hcode⟩ := h
  simp [takes, hrun, hnext, hcode]

/-- PORT-RESET that is taken and fails a check changes nothing but its slot. -/
theorem portReset_fails {s : State} {p : PortNo} {r : ResultCode} (htaken : s.taken p Code.portReset)
    (hcheck : portResetCheck p (s.port p).args = .error r) : ∃ t, exec .portReset s = .next t ∧ s.fails t p r :=
  ⟨s.finish p r {}, by simp only [exec, execPortReset, State.takes_of_taken htaken, hcheck], State.fails_finish s p r⟩

theorem portResetCheck_of_other {p : PortNo} {a : Args} (hp : p ≠ 0) (ha : a.a0.toNat ≠ p.val) :
    portResetCheck p a = .error .notPermitted := by
  simp only [portResetCheck, hp, ha, decide_false, Bool.or_self, require_false, bind, Except.bind]

/-- Settles O4: the eight commands check the supervisor first, and PORT-RESET the port it names. -/
theorem otherPortsAreNotPermitted : Obligations.OtherPortsAreNotPermitted := by
  refine fun s p hp => ⟨fun c code hc htaken => ?_, fun htaken ha => portReset_fails htaken (portResetCheck_of_other hp ha)⟩
  simp only [List.mem_cons, Prod.mk.injEq, List.not_mem_nil, or_false] at hc
  obtain ⟨rfl, rfl⟩ | ⟨rfl, rfl⟩ | ⟨rfl, rfl⟩ | ⟨rfl, rfl⟩ | ⟨rfl, rfl⟩ | ⟨rfl, rfl⟩ | ⟨rfl, rfl⟩ | ⟨rfl, rfl⟩ := hc
  · exact notPermitted_of_supervisorOnly (body := poolSetBody) hp htaken rfl rfl
  · exact notPermitted_of_supervisorOnly (body := serviceSetBody) hp htaken rfl rfl
  · exact notPermitted_of_supervisorOnly (body := serviceClearBody) hp htaken rfl rfl
  · exact notPermitted_of_supervisorOnly (body := lineSetBody) hp htaken rfl rfl
  · exact notPermitted_of_supervisorOnly (body := lineEnableBody) hp htaken rfl rfl
  · exact notPermitted_of_supervisorOnly (body := lineDisableBody) hp htaken rfl rfl
  · exact notPermitted_of_supervisorOnly (body := lineQueryBody) hp htaken rfl rfl
  · exact notPermitted_of_supervisorOnly (body := lineTakeBody) hp htaken rfl rfl

/-! ## PORT-SET (R161) -/

section

variable {s : State} {p q : PortNo} {a : Args}

/-- A port's record under new holdoff settings, its timer ABSENT or started afresh (R161). -/
def Port.withHoldoff (r : Port) (count time : Nat) : Port :=
  { r with
    holdoffCount := count
    holdoffTime := time
    holdoff := if r.attention ≠ [] ∧ 0 < time then .running time else .absent }

/-- The state that PORT-SET leaves, up to its completion: the settings changed, and the ATN outputs judged. -/
def State.holdoffSet (s : State) (p : PortNo) (count time : Nat) : State :=
  (s.modPort p fun r => r.withHoldoff count time).judgeAtn

theorem portSetBody_of_range (hcount : a.a0.toNat ≤ 15) (htime : a.a1.toNat ≤ 255) :
    portSetBody p a s = .ok (s.holdoffSet p a.a0.toNat a.a1.toNat,
      { r0 := inBits 3 0 (s.port p).holdoffCount ||| inBits 15 8 (s.port p).holdoffTime }) := by
  simp only [portSetBody, hcount, htime, decide_true, require_true, bind, Except.bind, pure, Except.pure, State.holdoffSet,
    Port.withHoldoff, Bool.and_eq_true, Bool.not_eq_true', List.isEmpty_eq_false_iff, decide_eq_true_eq]

theorem portSetBody_of_beyond (h : 15 < a.a0.toNat ∨ 255 < a.a1.toNat) : portSetBody p a s = .error .badArgument := by
  by_cases hcount : a.a0.toNat ≤ 15
  · have htime : ¬ a.a1.toNat ≤ 255 := by omega
    simp only [portSetBody, hcount, htime, decide_true, decide_false, require_true, require_false, bind, Except.bind]
  · simp only [portSetBody, hcount, decide_false, require_false, bind, Except.bind]

theorem keeps_holdoffSet (count time : Nat) : Keeps [.ports] s (s.holdoffSet p count time) :=
  (s.keeps_modPort p _).trans (State.keeps_judgeAtn _)

theorem port_holdoffSet (count time : Nat) : (s.holdoffSet p count time).port p
    = { (s.port p).withHoldoff count time with atn := (s.holdoffSet p count time).atnLevel p } := by
  rw [State.holdoffSet, State.port_judgeAtn, State.port_modPort_same, State.atnLevel_judgeAtn]

theorem port_holdoffSet_ne (h : q ≠ p) (count time : Nat) : (s.holdoffSet p count time).port q
    = { s.port q with atn := (s.holdoffSet p count time).atnLevel q } := by
  rw [State.holdoffSet, State.port_judgeAtn, State.port_modPort_ne _ h, State.atnLevel_judgeAtn]

end

/-- Settles O26: the settings and the timer changed and the outputs judged, or BAD-ARGUMENT answered, and the command finished. -/
theorem portSetSetsTheHoldoff : Obligations.PortSetSetsTheHoldoff := by
  refine fun s p htaken => ⟨fun hcount htime => ?_, fun h => fails_of htaken rfl (portSetBody_of_beyond h)⟩
  have hnext : exec .portSet s = _ := next_of_ok htaken (portSetBody_of_range hcount htime)
  refine ⟨_, hnext, rfl, ?_, fun q hq => ?_, State.outputsRight_finish (State.outputsRight_judgeAtn _),
    (keeps_holdoffSet _ _).both (State.keeps_finish _ p .ok _) (by decide) (by decide)⟩
  · rw [State.port_finish_same, port_holdoffSet]
    rfl
  · rw [State.port_finish_ne hq, port_holdoffSet_ne hq]

end Sys2Proof.Machine

namespace Sys2Proof.Machine

/-! ## Writes of the port block (R149, R150, R157, R159) -/

namespace State

variable {s : State} {p : PortNo} {v : Word}

theorem writeCommand_accepted (h : (s.port p).status = .idle ∨ (s.port p).status = .done) :
    s.writeCommand p v = s.modPort p fun r =>
      { r with status := .pending, command := v.setWidth 8, result := .ok, results := {}, overrun := false } := by
  obtain h | h := h <;> simp only [writeCommand, h]

theorem writeCommand_pending (h : (s.port p).status = .pending) :
    s.writeCommand p v = s.modPort p fun r => { r with overrun := true } := by
  simp only [writeCommand, h]

theorem writeCommand_starting (h : (s.port p).status = .starting) : s.writeCommand p v = s := by
  simp only [writeCommand, h]

theorem writeArgument_accepted (h : (s.port p).status = .idle ∨ (s.port p).status = .done) (i : Fin 4) :
    s.writeArgument p i v = s.modPort p fun r => { r with args := putArg r.args i v } := by
  obtain h | h := h <;> simp only [writeArgument, h]

theorem writeArgument_pending (h : (s.port p).status = .pending) (i : Fin 4) :
    s.writeArgument p i v = s.modPort p fun r => { r with overrun := true } := by
  simp only [writeArgument, h]

theorem writeArgument_starting (h : (s.port p).status = .starting) (i : Fin 4) : s.writeArgument p i v = s := by
  simp only [writeArgument, h]

theorem writeWindow_starting (h : (s.port p).status = .starting) : s.writeWindow p v = s := if_pos h

theorem writeWindow_of_buffer {b : BufNo} (h : (s.port p).status ≠ .starting) (hv : v.toNat = b.val) :
    s.writeWindow p v = s.modPort p fun r => { r with window := b } := by
  have hlt : v.toNat < 512 := hv ▸ b.isLt
  obtain rfl : (⟨v.toNat, hlt⟩ : BufNo) = b := Fin.ext hv
  rw [writeWindow, if_neg h, dif_pos hlt]

theorem writeWindow_beyond (hv : 511 < v.toNat) : s.writeWindow p v = s := by
  rw [writeWindow, dif_neg (by omega), ite_self]

theorem writeStatus_starting (h : (s.port p).status = .starting) : s.writeStatus p v = s := if_pos h

theorem writeStatus_clear (h : (s.port p).status ≠ .starting) (hv : v.getLsbD 9 = true) :
    s.writeStatus p v = s.modPort p fun r => { r with windowFault := none } := by
  rw [writeStatus, if_neg h, if_pos hv]

/-- What changes one port alone: its record is this one, and the other ports and parts are as before. -/
theorem next_modPort {o : Outcome} {f : Port → Port} (h : o = .next (s.modPort p f)) :
    ∃ t, o = .next t ∧ t.port p = f (s.port p) ∧ (∀ q, q ≠ p → t.port q = s.port q) ∧ Keeps [.ports] s t :=
  ⟨_, h, s.port_modPort_same p f, fun _ hq => s.port_modPort_ne hq f, s.keeps_modPort p f⟩

end State

/-! The four rows while RESET is asserted, and while it is not (R169). -/

section

variable {s : State} (p : PortNo) (i : Fin 4) (v : Word)

theorem exec_portWrites_inReset (h : s.phase = .inReset) :
    exec (.commandWordWrite p v) s = .next s ∧ exec (.argumentWordWrite p i v) s = .next s
      ∧ exec (.windowRegisterWrite p v) s = .next s ∧ exec (.clearRequest p v) s = .next s :=
  ⟨if_pos h, if_pos h, if_pos h, if_pos h⟩

variable (h : s.phase ≠ .inReset)
include h

theorem exec_commandWordWrite : exec (.commandWordWrite p v) s = .next (s.writeCommand p v) := if_neg h
theorem exec_argumentWordWrite : exec (.argumentWordWrite p i v) s = .next (s.writeArgument p i v) := if_neg h
theorem exec_windowRegisterWrite : exec (.windowRegisterWrite p v) s = .next (s.writeWindow p v) := if_neg h
theorem exec_clearRequest : exec (.clearRequest p v) s = .next (s.writeStatus p v) := if_neg h

end

/-- Settles O29: under RESET nothing is written, and otherwise each write acts by the slot status. -/
theorem portWritesActBySlotStatus : Obligations.PortWritesActBySlotStatus := by
  refine ⟨fun s p v i h => exec_portWrites_inReset p i v h, fun s p v h => ?_⟩
  have hcommand := exec_commandWordWrite p v h
  have hargument := fun i => exec_argumentWordWrite p i v h
  have hwindow := exec_windowRegisterWrite p v h
  have hclear := exec_clearRequest p v h
  refine ⟨fun hstatus => ⟨?_, ?_⟩, fun i hstatus => ?_, fun i hstatus => ?_, fun b hstatus hv => ?_, fun hv => ?_,
    fun hstatus hv => ?_⟩
  · exact State.next_modPort (hcommand.trans (by rw [State.writeCommand_accepted hstatus]))
  · rintro a rfl
    have hwrite := fun i => State.next_modPort ((hargument i).trans (by rw [State.writeArgument_accepted hstatus]))
    exact ⟨hwrite 0, hwrite 1, hwrite 2, hwrite 3⟩
  · obtain ⟨t, hnext, hport⟩ := State.next_modPort (hcommand.trans (by rw [State.writeCommand_pending hstatus]))
    refine ⟨t, hnext, ?_, hport⟩
    rw [← hnext, hargument, hcommand, State.writeArgument_pending hstatus, State.writeCommand_pending hstatus]
  · rw [hcommand, hargument, hwindow, hclear, State.writeCommand_starting hstatus, State.writeArgument_starting hstatus,
      State.writeWindow_starting hstatus, State.writeStatus_starting hstatus]
    exact ⟨rfl, rfl, rfl, rfl⟩
  · exact State.next_modPort (hwindow.trans (by rw [State.writeWindow_of_buffer hstatus hv]))
  · rw [hwindow, State.writeWindow_beyond hv]
  · exact State.next_modPort (hclear.trans (by rw [State.writeStatus_clear hstatus hv]))

end Sys2Proof.Machine

namespace Sys2Proof.Machine

/-! ## The buffer window (R158, R159, R183) -/

/-- An access to the window that is not void lies within the buffer. -/
theorem windowAccessOk_le {k : Nat} {w : Width} (h : windowAccessOk k w = true) : k + widthBytes w ≤ 128 := by
  simp only [windowAccessOk, Bool.and_eq_true, decide_eq_true_eq] at h
  exact h.2

namespace State

variable {s : State} {p : PortNo} {k : Nat} {w : Width} {b : BufNo} {v : Word}

/-- The data of a read depends on the bytes that the access covers alone. -/
theorem readDataOf_congr {f g : Nat → Byte} (h : ∀ j, j < widthBytes w → f j = g j) : readDataOf f w = readDataOf g w := by
  cases w with
  | byte => rw [readDataOf, readDataOf, h 0 (by decide)]
  | half => rw [readDataOf, readDataOf, h 0 (by decide), h 1 (by decide)]
  | word => rw [readDataOf, readDataOf, h 0 (by decide), h 1 (by decide), h 2 (by decide), h 3 (by decide)]
  | none => rfl

/-! What a port may read of a buffer, by where the buffer stands. -/

theorem readableLength_claimed (h : s.place b = .claimed p) : s.readableLength p b = some 128 := by
  simp only [readableLength, h, if_true, Config.bufferBytes]

/-- The one entry that names a buffer gives the length received. -/
theorem receivedLength_of_entry {c : Circuit} {e : Entry} (he : e ∈ c.receive) (hb : e.buffer = b)
    (hone : ∀ x ∈ c.receive, x.buffer = b → x = e) : receivedLength c b = e.length := by
  have hfind : c.receive.find? (fun x => decide (x.buffer = b)) = some e := by
    cases hx : c.receive.find? fun x => decide (x.buffer = b) with
    | none => exact absurd (decide_eq_true hb) (List.find?_eq_none.1 hx e he)
    | some x => rw [hone x (List.mem_of_find?_eq_some hx) (by simpa using List.find?_some hx)]
  rw [receivedLength, hfind]
  rfl

theorem readableLength_received {i : SlotNo} {c : Circuit} (h : s.place b = .receive i) (hc : s.circuit i = some c)
    (ho : c.owner = some p) : s.readableLength p b = some (receivedLength c b) := by
  simp only [readableLength, h, hc, ho, if_true]

theorem readableLength_other (h : s.place b ≠ .claimed p)
    (hr : ∀ i c, s.place b = .receive i → s.circuit i = some c → c.owner ≠ some p) : s.readableLength p b = none := by
  cases hb : s.place b with
  | free | transmit | unacked => simp only [readableLength, hb]
  | claimed q =>
    have hq : q ≠ p := fun e => h (by rw [hb, e])
    simp only [readableLength, hb, if_neg hq]
  | receive i =>
    cases hc : s.circuit i with
    | none => simp only [readableLength, hb, hc]
    | some c => simp only [readableLength, hb, hc, if_neg (hr i c hb hc)]

/-! A read, by what the port may read of the buffer in its window. -/

theorem readWindow_readable {n : Nat} (hrun : s.phase = .running) (hok : windowAccessOk k w = true)
    (hn : s.readableLength p (s.port p).window = some n) : s.readWindow p k w
      = s.setReadData (readDataOf (fun j => if k + j < n then s.bufferByte (s.port p).window (k + j) else 0) w) := by
  simp only [readWindow, if_pos (And.intro hrun hok), hn]
  rfl

/-- All the bytes that an access covers may be read of a claimed buffer. -/
theorem readWindow_claimed (hrun : s.phase = .running) (hok : windowAccessOk k w = true)
    (hb : s.place (s.port p).window = .claimed p) :
    s.readWindow p k w = s.setReadData (readDataOf (fun j => s.bufferByte (s.port p).window (k + j)) w) := by
  have hle := windowAccessOk_le hok
  rw [readWindow_readable hrun hok (readableLength_claimed hb)]
  exact congrArg _ (readDataOf_congr fun j hj => if_pos (by omega))

theorem readWindow_fault (hrun : s.phase = .running) (hok : windowAccessOk k w = true)
    (hn : s.readableLength p (s.port p).window = none) :
    s.readWindow p k w = (s.faultWindow p (s.port p).window).setReadData (readDataOf (fun _ => 0) w) := by
  simp only [readWindow, if_pos (And.intro hrun hok), hn]
  rfl

theorem not_windowAccess (h : s.phase ≠ .running ∨ windowAccessOk k w = false) :
    ¬ (s.phase = .running ∧ windowAccessOk k w = true) := fun ⟨hrun, hok⟩ =>
  h.elim (· hrun) fun e => by rw [hok] at e; cases e

theorem readWindow_void (h : s.phase ≠ .running ∨ windowAccessOk k w = false) :
    s.readWindow p k w = s.setReadData (readDataOf (fun _ => 0) w) := if_neg (not_windowAccess h)

/-- A window fault records its buffer unless one is recorded (R159). -/
theorem port_faultWindow : (s.faultWindow p b).port p = { s.port p with
    windowFault := if (s.port p).windowFault = none then some b else (s.port p).windowFault } := by
  rw [faultWindow, port_modPort_same]
  cases (s.port p).windowFault <;> rfl

theorem port_faultWindow_ne {q : PortNo} (h : q ≠ p) : (s.faultWindow p b).port q = s.port q := s.port_modPort_ne h _

theorem keeps_faultWindow : Keeps [.ports] s (s.faultWindow p b) := s.keeps_modPort p _

/-! A write, by where the buffer in the window stands. -/

theorem writeWindowData_claimed (hrun : s.phase = .running) (hok : windowAccessOk k w = true)
    (hb : s.place (s.port p).window = .claimed p) :
    s.writeWindowData p k w v = s.writeBuffer (s.port p).window k (writtenBytes v w) := by
  simp only [writeWindowData, if_pos (And.intro hrun hok), if_pos hb]

theorem writeWindowData_other (hrun : s.phase = .running) (hok : windowAccessOk k w = true)
    (hb : s.place (s.port p).window ≠ .claimed p) :
    s.writeWindowData p k w v = s.faultWindow p (s.port p).window := by
  simp only [writeWindowData, if_pos (And.intro hrun hok), if_neg hb]

theorem writeWindowData_void (h : s.phase ≠ .running ∨ windowAccessOk k w = false) : s.writeWindowData p k w v = s :=
  if_neg (not_windowAccess h)

theorem getElem?_writtenBytes (j : Nat) :
    (writtenBytes v w)[j]? = if j < widthBytes w then some (v.extractLsb' (8 * j) 8) else none := by
  rw [writtenBytes, List.getElem?_map]
  by_cases hj : j < widthBytes w
  · rw [if_pos hj, List.getElem?_range hj]
    rfl
  · rw [if_neg hj, List.getElem?_eq_none (by simpa using hj)]
    rfl

/-- A byte that the access covers is the part of the data at its offset (R183). -/
theorem bufferByte_written (hok : windowAccessOk k w = true) {j : Nat} (hj : j < widthBytes w) :
    (s.writeBuffer b k (writtenBytes v w)).bufferByte b (k + j) = v.extractLsb' (8 * j) 8 := by
  have hle := windowAccessOk_le hok
  have hlt : k + j < Config.bufferBytes := show k + j < 128 by omega
  rw [bufferByte_writeBuffer _ _ _ _ _ hlt, if_pos ⟨rfl, Nat.le_add_right k j⟩, Nat.add_sub_cancel_left,
    getElem?_writtenBytes, if_pos hj, Option.getD_some]

/-- A byte that the access does not cover is as it was. -/
theorem bufferByte_unwritten {a : BufNo} {m : Nat} (hm : m < 128) (h : a ≠ b ∨ m < k ∨ k + widthBytes w ≤ m) :
    (s.writeBuffer b k (writtenBytes v w)).bufferByte a m = s.bufferByte a m := by
  rw [bufferByte_writeBuffer _ _ _ _ _ hm]
  split_ifs with hin
  · obtain ⟨rfl, hle⟩ := hin
    have hover : k + widthBytes w ≤ m := (h.resolve_left (fun e => e rfl)).resolve_left (Nat.not_lt.2 hle)
    rw [getElem?_writtenBytes, if_neg (by omega), Option.getD_none]
  · rfl

end State

/-- Settles O30: reads by what may be read of the buffer, void accesses, the order of the bytes, and writes by who claimed it. -/
theorem windowAccessesAreJudged : Obligations.WindowAccessesAreJudged := by
  refine ⟨?_, fun s p k w v h => ⟨⟨_, congrArg Host.Outcome.next (State.readWindow_void h), rfl, s.keeps_setReadData _⟩,
    congrArg Host.Outcome.next (State.writeWindowData_void h)⟩, fun bytes => ⟨rfl, rfl, rfl⟩, ?_⟩
  · rintro s p k w _ hrun hok rfl
    refine ⟨fun hplace => ?_, fun i c e hplace hc ho he hb hone => ?_, fun hplace hother => ?_⟩
    · exact ⟨_, congrArg Host.Outcome.next (State.readWindow_claimed hrun hok hplace), rfl, s.keeps_setReadData _⟩
    · have hn := State.readableLength_received hplace hc ho
      rw [State.receivedLength_of_entry he hb hone] at hn
      exact ⟨_, congrArg Host.Outcome.next (State.readWindow_readable hrun hok hn), rfl, s.keeps_setReadData _⟩
    · exact ⟨_, congrArg Host.Outcome.next (State.readWindow_fault hrun hok (State.readableLength_other hplace hother)), rfl,
        State.port_faultWindow, fun q hq => State.port_faultWindow_ne hq,
        State.keeps_faultWindow.both (State.keeps_setReadData _ _) (by decide) (by decide)⟩
  · rintro s p k w v _ hrun hok rfl
    refine ⟨fun hplace => ?_, fun hplace => ?_⟩
    · exact ⟨_, congrArg Host.Outcome.next (State.writeWindowData_claimed hrun hok hplace), fun j hj => State.bufferByte_written hok hj,
        fun a m hm h => State.bufferByte_unwritten hm h, s.keeps_writeBuffer _ _ _⟩
    · exact ⟨_, congrArg Host.Outcome.next (State.writeWindowData_other hrun hok hplace), State.port_faultWindow,
        fun q hq => State.port_faultWindow_ne hq, State.keeps_faultWindow⟩

/-! ## RESET and start-up (R169, R170, R171) -/

namespace State

variable {s : State}

theorem line_atReset (x : Phase) (l : LineNo) : (s.atReset x).line l = { readyPin := (s.line l).readyPin } := by
  simp [line, atReset]

/-- At the release of RESET the phase too is that of the reset state (log 10). -/
theorem keeps_atReset_starting : Keeps [.lines, .pending, .freeCount] reset (s.atReset .starting) := fun x hx => by
  cases x
  case lines | pending | freeCount => simp at hx
  all_goals simp only [sameAt, atReset, reset]

theorem line_samplePins (l : LineNo) : s.samplePins.line l = { s.line l with readyLevel := (s.line l).readyPin } := by
  simp [line, samplePins]

/-- The state that start-up leaves when it completes: RUNNING, with every slot IDLE (R171). -/
def started (s : State) : State :=
  { s with phase := .running, ports := s.ports.map fun r => { r with status := .idle } }

theorem port_started (p : PortNo) : s.started.port p = { s.port p with status := .idle } := by
  simp [port, started]

theorem keeps_started : Keeps [.phase, .ports] s s.started := fun x hx => by
  cases x
  case phase | ports => simp at hx
  all_goals rfl

end State

/-- Settles O54: RESET, its release and the completion of start-up, each by what it leaves of the lines, the ports and the rest. -/
theorem resetAndStartUp : Obligations.ResetAndStartUp := by
  refine fun s => ⟨⟨_, rfl, rfl, State.line_atReset .inReset, (State.keeps_atReset s .inReset).mono (by decide), rfl⟩,
    fun hreset => ?_, fun hstart => ⟨s.started, if_pos hstart, rfl, State.port_started, State.keeps_started⟩⟩
  refine ⟨(s.atReset .starting).samplePins, if_pos hreset, rfl, fun l => ?_,
    State.keeps_atReset_starting.both (State.keeps_samplePins _) (by decide) (by decide), rfl⟩
  rw [State.line_samplePins, State.line_atReset]

end Sys2Proof.Machine

namespace Sys2Proof.Machine

/-! ## The checks of the commands (R154) -/

section

variable {s : State} {p : PortNo} {a : Args} {i : SlotNo} {c : Circuit} {l : LineNo} {b : BufNo}

/-! Argument ranges. Each check of this step passes or fails with BAD-ARGUMENT, so a command fails with it as soon as its ranges cannot
all hold. -/

theorem badArgument_bind {α β : Type} {x : Except ResultCode α} {f : α → Except ResultCode β}
    (hx : x = .error .badArgument ∨ ∃ v, x = .ok v) (hf : ∀ v, x = .ok v → f v = .error .badArgument) :
    (x >>= f) = .error .badArgument := by
  obtain hx | ⟨v, hv⟩ := hx
  · rw [hx]; rfl
  · rw [hv]; exact hf v hv

theorem require_cases (test : Bool) :
    require test .badArgument = .error .badArgument ∨ ∃ u, require test .badArgument = .ok u := by
  cases test with
  | true => exact .inr ⟨(), rfl⟩
  | false => exact .inl rfl

theorem lineArg_lt {w : Word} (h : lineArg w = .ok l) : w.toNat ≤ 7 := by
  by_contra hlt
  rw [lineArg_bad (by omega)] at h
  cases h

theorem bufferArg_lt {w : Word} (h : bufferArg w = .ok b) : w.toNat ≤ 511 := by
  by_contra hlt
  rw [bufferArg_bad (by omega)] at h
  cases h

/-- A test that passed as a proposition. -/
theorem of_require_ok {x : Prop} [Decidable x] {r : ResultCode} {u : Unit} (h : require (decide x) r = .ok u) : x :=
  of_decide_eq_true (require_ok h)

theorem callBody_badArgument (h : 7 < a.a0.toNat ∨ 255 < a.a1.toNat ∨ 15 < a.a2.toNat) :
    callBody p a s = .error .badArgument := by
  unfold callBody
  refine badArgument_bind (lineArg_cases _) fun l hl => badArgument_bind (require_cases _) fun _ hservice =>
    badArgument_bind (require_cases _) fun _ htarget => ?_
  have h0 := lineArg_lt hl
  have h1 := of_require_ok hservice
  have h2 := of_require_ok htarget
  omega

theorem acceptBody_badArgument (h : 15 < a.a1.toNat) : acceptBody p a s = .error .badArgument := by
  unfold acceptBody
  refine badArgument_bind (handleArg_cases _) fun _ _ => badArgument_bind (require_cases _) fun _ htarget => ?_
  exact absurd (of_require_ok htarget) (Nat.not_le.2 h)

theorem setCreditBody_badArgument (h : 15 < a.a1.toNat) : setCreditBody p a s = .error .badArgument := by
  unfold setCreditBody
  refine badArgument_bind (handleArg_cases _) fun _ _ => badArgument_bind (require_cases _) fun _ htarget => ?_
  exact absurd (of_require_ok htarget) (Nat.not_le.2 h)

theorem refuseBody_badArgument (h1 : a.a1.toNat ≠ 1) (h : a.a1.toNat < 16 ∨ 255 < a.a1.toNat) :
    refuseBody p a s = .error .badArgument := by
  unfold refuseBody
  refine badArgument_bind (handleArg_cases _) fun _ _ => badArgument_bind (require_cases _) fun _ hcause => ?_
  have := (clientCause_iff 1 _).1 (require_ok hcause)
  omega

theorem closeBody_badArgument
    (h : 1 < a.a1.toNat ∨ a.a2.toNat ≠ 0 ∧ (a.a2.toNat < 16 ∨ 255 < a.a2.toNat)) :
    closeBody p a s = .error .badArgument := by
  unfold closeBody
  refine badArgument_bind (handleArg_cases _) fun _ _ => badArgument_bind (require_cases _) fun _ hmode =>
    badArgument_bind (require_cases _) fun _ hcause => ?_
  have h1 := of_require_ok hmode
  have h2 := (clientCause_iff 0 _).1 (require_ok hcause)
  omega

theorem sendBody_badArgument (h : 511 < a.a1.toNat ∨ a.a2.toNat = 0 ∨ 128 < a.a2.toNat ∨ 1 < a.a3.toNat) :
    sendBody p a s = .error .badArgument := by
  unfold sendBody
  refine badArgument_bind (handleArg_cases _) fun _ _ => badArgument_bind (bufferArg_cases _) fun _ hbuffer =>
    badArgument_bind (require_cases _) fun _ hlength => badArgument_bind (require_cases _) fun _ hmark => ?_
  have h1 := bufferArg_lt hbuffer
  have h2 := require_ok hlength
  have h3 := of_require_ok hmark
  simp only [Bool.and_eq_true, decide_eq_true_eq] at h2
  omega

theorem lineDisableBody_badArgument (h : 7 < a.a0.toNat) : lineDisableBody 0 a s = .error .badArgument := by
  simp only [lineDisableBody, supervisorOnly_zero, lineArg_bad h, bind, Except.bind]

theorem lineTakeBody_badArgument (h : 7 < a.a0.toNat) : lineTakeBody 0 a s = .error .badArgument := by
  simp only [lineTakeBody, supervisorOnly_zero, lineArg_bad h, bind, Except.bind]

theorem lineQueryBody_badArgument (h : 7 < a.a0.toNat ∨ 1 < a.a1.toNat) : lineQueryBody 0 a s = .error .badArgument := by
  unfold lineQueryBody
  refine badArgument_bind (.inr ⟨(), supervisorOnly_zero⟩) fun _ _ => badArgument_bind (lineArg_cases _) fun l hl =>
    badArgument_bind (require_cases _) fun _ hclear => ?_
  have h0 := lineArg_lt hl
  have h1 := of_require_ok hclear
  omega

theorem portResetCheck_badArgument (h : 3 < a.a0.toNat) : portResetCheck 0 a = .error .badArgument := by
  have hport : portArg a.a0.toNat = .error .badArgument := by rw [portArg, dif_neg (by omega)]
  simp only [portResetCheck, decide_true, Bool.true_or, require_true, hport, bind, Except.bind]

/-! CALL, its arguments in range: the line, a slot and a number (R25). -/

theorem callBody_lineDown (hl : a.a0.toNat = l.val) (h1 : a.a1.toNat ≤ 255) (h2 : a.a2.toNat ≤ 15)
    (hs : (s.line l).state ≠ .active) : callBody p a s = .error .lineDown := by
  simp only [callBody, lineArg_of hl, h1, h2, hs, decide_true, decide_false, require_true, require_false, bind, Except.bind]

theorem callBody_noSlot (hl : a.a0.toNat = l.val) (h1 : a.a1.toNat ≤ 255) (h2 : a.a2.toNat ≤ 15)
    (hs : (s.line l).state = .active) (hfree : s.freeSlots = []) : callBody p a s = .error .noSlot := by
  simp only [callBody, lineArg_of hl, h1, h2, hs, hfree, List.isEmpty_nil, Bool.not_true, decide_true, require_true,
    require_false, bind, Except.bind]

theorem callBody_noNumber (hl : a.a0.toNat = l.val) (h1 : a.a1.toNat ≤ 255) (h2 : a.a2.toNat ≤ 15)
    (hs : (s.line l).state = .active) (hfree : s.freeSlots ≠ [])
    (hheld : ∀ m : Byte, 1 ≤ m.toNat → m.toNat ≤ 127 → s.lookup l m ≠ none) : callBody p a s = .error .noNumber := by
  have hslot : (!s.freeSlots.isEmpty) = true := by simpa using hfree
  simp only [callBody, lineArg_of hl, h1, h2, hs, hslot, State.chooseNumber_none hheld, decide_true, require_true, bind,
    Except.bind]

/-! The port's own circuit in a state that the command does not act in. -/

theorem acceptBody_wrongState (h : s.namesOwn a.a0 p i c) (hn : a.a1.toNat ≤ 15) (hs : c.state ≠ .offered) :
    acceptBody p a s = .error .wrongState := by
  simp only [acceptBody, State.handleArg_of_names h, State.ownedCircuit_of_names h, hn, hs, decide_true, decide_false,
    require_true, require_false, bind, Except.bind]

theorem refuseBody_wrongState (h : s.namesOwn a.a0 p i c) (hcause : clientCause 1 a.a1 = true) (hs : c.state ≠ .offered) :
    refuseBody p a s = .error .wrongState := by
  simp only [refuseBody, State.handleArg_of_names h, State.ownedCircuit_of_names h, hcause, hs, decide_false, require_true,
    require_false, bind, Except.bind]

theorem closeBody_drain_wrongState (h : s.namesOwn a.a0 p i c) (hcause : clientCause 0 a.a2 = true) (hmode : a.a1.toNat = 0)
    (hs : c.state ≠ .opened) : closeBody p a s = .error .wrongState := by
  have h0 : a.a1 = 0 := BitVec.eq_of_toNat_eq hmode
  simp only [closeBody, State.handleArg_of_names h, State.ownedCircuit_of_names h, h0, hcause, hs, decide_false,
    require_true, require_false, bind, Except.bind]
  rfl

theorem closeBody_abort_wrongState (h : s.namesOwn a.a0 p i c) (hcause : clientCause 0 a.a2 = true) (hmode : a.a1.toNat = 1)
    (hs : c.state = .offered ∨ c.state.name = .closing ∨ c.state.name = .ended) :
    closeBody p a s = .error .wrongState := by
  have h1 : a.a1 ≠ 0 := fun e => by rw [e] at hmode; exact absurd hmode (by decide)
  have hquiet : (decide (c.state = .calling) || c.state.inData) = false := by
    cases hc : c.state with
    | offered | closing | ended => rfl
    | calling | opened | draining => simp [hc, CircuitState.name] at hs
  simp only [closeBody, State.handleArg_of_names h, State.ownedCircuit_of_names h, hmode, h1, hcause, hquiet, if_false,
    Nat.le_refl, decide_true, require_true, require_false, bind, Except.bind]

theorem setCreditBody_wrongState (h : s.namesOwn a.a0 p i c) (hn : a.a1.toNat ≤ 15) (hopen : c.state ≠ .opened)
    (hdrain : c.state.name ≠ .draining) : setCreditBody p a s = .error .wrongState := by
  have hquiet : c.state.inData = false := by
    cases hc : c.state with
    | opened => exact absurd hc hopen
    | draining x => rw [hc] at hdrain; exact absurd rfl hdrain
    | calling | offered | closing | ended => rfl
  simp only [setCreditBody, State.handleArg_of_names h, State.ownedCircuit_of_names h, hn, hquiet, decide_true, require_true,
    require_false, bind, Except.bind]

theorem retireBody_wrongState (h : s.namesOwn a.a0 p i c) (hs : c.state.name ≠ .ended) :
    retireBody p a s = .error .wrongState := by
  simp only [retireBody, State.handleArg_of_names h, State.ownedCircuit_of_names h, hs, decide_false, require_false, bind,
    Except.bind]

/-! SEND to the port's own circuit, its arguments in range: the buffer, the state, the room (R53). -/

/-- What SEND checks once its handle and its arguments have passed. -/
theorem sendBody_of_range (h : s.namesOwn a.a0 p i c) (hb : a.a1.toNat = b.val) (hlo : 1 ≤ a.a2.toNat)
    (hhi : a.a2.toNat ≤ 128) (hm : a.a3.toNat ≤ 1) : sendBody p a s = (do
      require (s.place b = .claimed p) .notOwner
      require (c.state = .calling || c.state = .opened) .wrongState
      require (c.transmit.length < Config.transmitRoom) .noRoom
      return (s.sent i ⟨b, a.a2.toNat, a.a3 = 1⟩, {})) := by
  have hlength : (decide (1 ≤ a.a2.toNat) && decide (a.a2.toNat ≤ 128)) = true := by simp [hlo, hhi]
  simp only [sendBody, State.handleArg_of_names h, bufferArg_of hb, State.ownedCircuit_of_names h, hlength, hm, decide_true,
    require_true, bind, Except.bind]
  rfl

theorem sendBody_notOwner (h : s.namesOwn a.a0 p i c) (hb : a.a1.toNat = b.val) (hlo : 1 ≤ a.a2.toNat)
    (hhi : a.a2.toNat ≤ 128) (hm : a.a3.toNat ≤ 1) (hplace : s.place b ≠ .claimed p) :
    sendBody p a s = .error .notOwner := by
  rw [sendBody_of_range h hb hlo hhi hm, decide_eq_false hplace]
  rfl

theorem sendBody_wrongState (h : s.namesOwn a.a0 p i c) (hb : a.a1.toNat = b.val) (hlo : 1 ≤ a.a2.toNat)
    (hhi : a.a2.toNat ≤ 128) (hm : a.a3.toNat ≤ 1) (hplace : s.place b = .claimed p) (hcalling : c.state ≠ .calling)
    (hopen : c.state ≠ .opened) : sendBody p a s = .error .wrongState := by
  rw [sendBody_of_range h hb hlo hhi hm, decide_eq_true hplace, decide_eq_false hcalling, decide_eq_false hopen]
  rfl

theorem sendBody_noRoom (h : s.namesOwn a.a0 p i c) (hb : a.a1.toNat = b.val) (hlo : 1 ≤ a.a2.toNat)
    (hhi : a.a2.toNat ≤ 128) (hm : a.a3.toNat ≤ 1) (hplace : s.place b = .claimed p)
    (hs : c.state = .calling ∨ c.state = .opened) (hfull : 64 ≤ c.transmit.length) :
    sendBody p a s = .error .noRoom := by
  have hlive : (decide (c.state = .calling) || decide (c.state = .opened)) = true := by simpa using hs
  have hroom : ¬ c.transmit.length < Config.transmitRoom := Nat.not_lt.2 hfull
  rw [sendBody_of_range h hb hlo hhi hm, decide_eq_true hplace, hlive, decide_eq_false hroom]
  rfl

theorem takeNextBody_empty (h : (s.port p).attention = []) : takeNextBody p a s = .error .empty := by
  simp only [takeNextBody, h]

end

/-- Settles O6: by the step of R154 that fails, and then by the command; each body answers the code of its first failed check. -/
theorem failedChecksAreAnswered : Obligations.FailedChecksAreAnswered := by
  rintro s p _ c code r htaken rfl (⟨rfl, hrange⟩ | ⟨rfl, rfl, h1, h2, l, hl, hcall⟩ | ⟨i, x, hnames, hcircuit⟩
    | ⟨rfl, rfl, hempty, rfl⟩)
  · simp only [List.mem_cons, Prod.mk.injEq, List.not_mem_nil, or_false] at hrange
    obtain ⟨rfl, rfl, h⟩ | ⟨⟨rfl, rfl⟩ | ⟨rfl, rfl⟩, h⟩ | ⟨rfl, rfl, h1, h⟩ | ⟨rfl, rfl, h⟩ | ⟨rfl, rfl, h⟩
      | ⟨rfl, rfl, rfl, h⟩ | ⟨rfl, rfl, rfl, h⟩ | ⟨rfl, rfl, h⟩ | ⟨rfl, rfl, rfl, h⟩
      | ⟨⟨rfl, rfl⟩ | ⟨rfl, rfl⟩ | ⟨rfl, rfl⟩ | ⟨rfl, rfl⟩, rfl, h⟩ | ⟨rfl, rfl, rfl, h⟩ | ⟨rfl, rfl, rfl, h⟩ := hrange
    · exact fails_of htaken rfl (callBody_badArgument h)
    · exact fails_of htaken rfl (acceptBody_badArgument h)
    · exact fails_of htaken rfl (setCreditBody_badArgument h)
    · exact fails_of htaken rfl (refuseBody_badArgument h1 h)
    · exact fails_of htaken rfl (closeBody_badArgument h)
    · exact fails_of htaken rfl (sendBody_badArgument h)
    · exact fails_of htaken rfl (serviceSet_bad h)
    · exact fails_of htaken rfl (serviceClearBody_of_none h)
    · exact fails_of htaken rfl (serviceQueryBody_of_none h)
    · exact fails_of htaken rfl (lineSet_bad h)
    · exact fails_of htaken rfl (lineEnableBody_of_none h)
    · exact fails_of htaken rfl (lineDisableBody_badArgument h)
    · exact fails_of htaken rfl (lineQueryBody_badArgument (.inl h))
    · exact fails_of htaken rfl (lineTakeBody_badArgument h)
    · exact fails_of htaken rfl (lineQueryBody_badArgument (.inr h))
    · exact portReset_fails htaken (portResetCheck_badArgument h)
  · obtain ⟨hs, rfl⟩ | ⟨hs, hfree, rfl⟩ | ⟨hs, hfree, hheld, rfl⟩ := hcall
    · exact fails_of htaken rfl (callBody_lineDown hl h1 h2 hs)
    · exact fails_of htaken rfl (callBody_noSlot hl h1 h2 hs hfree)
    · exact fails_of htaken rfl (callBody_noNumber hl h1 h2 hs hfree hheld)
  · obtain ⟨rfl, hstate⟩ | ⟨rfl, rfl, hlo, hhi, hmark, b, hb, hsend⟩ := hcircuit
    · obtain ⟨rfl, rfl, hn, hs⟩ | ⟨rfl, rfl, hcause, hs⟩ | ⟨rfl, rfl, hcause, ⟨hmode, hs⟩ | ⟨hmode, hs⟩⟩
        | ⟨rfl, rfl, hn, hopen, hdrain⟩ | ⟨rfl, rfl, hs⟩ := hstate
      · exact fails_of htaken rfl (acceptBody_wrongState hnames hn hs)
      · exact fails_of htaken rfl (refuseBody_wrongState hnames ((clientCause_iff 1 _).2 hcause) hs)
      · exact fails_of htaken rfl (closeBody_drain_wrongState hnames ((clientCause_iff 0 _).2 hcause) hmode hs)
      · exact fails_of htaken rfl (closeBody_abort_wrongState hnames ((clientCause_iff 0 _).2 hcause) hmode hs)
      · exact fails_of htaken rfl (setCreditBody_wrongState hnames hn hopen hdrain)
      · exact fails_of htaken rfl (retireBody_wrongState hnames hs)
    · obtain ⟨hplace, rfl⟩ | ⟨hplace, hcalling, hopen, rfl⟩ | ⟨hplace, hs, hfull, rfl⟩ := hsend
      · exact fails_of htaken rfl (sendBody_notOwner hnames hb hlo hhi hmark hplace)
      · exact fails_of htaken rfl (sendBody_wrongState hnames hb hlo hhi hmark hplace hcalling hopen)
      · exact fails_of htaken rfl (sendBody_noRoom hnames hb hlo hhi hmark hplace hs hfull)
  · exact fails_of htaken rfl (takeNextBody_empty hempty)

end Sys2Proof.Machine

namespace Sys2Proof.Machine

/-! ## PORT-RESET (R162 to R167) -/

namespace State

variable {s t : State} {p q r : PortNo} {i : SlotNo} {c : Circuit}

/-! The circuits after PORT-RESET, those of the port and the others. -/

theorem mem_circuitsOf (h : Sparse.wf Fin.val {} s.slots) :
    i ∈ s.circuitsOf q ↔ ∃ c, s.circuit i = some c ∧ c.owner = some q := by
  rw [circuitsOf, mem_slotsWhere h]
  simp only [decide_eq_true_eq]

theorem circuitsOf_beforePass_nodup (h : Sparse.wf Fin.val {} s.slots) (q : PortNo) :
    ((s.beforePass q).circuitsOf q).Nodup := slotsWhere_nodup (slots_wf_beforePass h q) _

theorem mem_circuitsOf_beforePass (h : Sparse.wf Fin.val {} s.slots) (hc : s.circuit i = some c) (ho : c.owner = some q) :
    i ∈ (s.beforePass q).circuitsOf q := by
  rw [circuitsOf_beforePass h q]
  exact (mem_circuitsOf h).2 ⟨c, hc, ho⟩

theorem passed_beforePass (h : Sparse.wf Fin.val {} s.slots) (q : PortNo) :
    Passed orphan (s.circuitsOf q) (s.beforePass q) (((s.beforePass q).circuitsOf q).foldl orphan (s.beforePass q)) := by
  have hpassed := Passed.foldl actsAt_orphan _ (circuitsOf_beforePass_nodup h q) (s.beforePass q)
  rwa [circuitsOf_beforePass h q] at hpassed ⊢

/-- A circuit that is not the port's has lost what the list emptied had pending, and been granted some. -/
theorem circuit_resetPort_other (h : Sparse.wf Fin.val {} s.slots) (hi : i ∉ s.circuitsOf q) :
    ∃ n, (s.resetPort q).circuit i = (s.circuit i).map (fun c => (s.untaken q i c).granted n)
      ∧ (i ∉ s.waitQueue → n = 0) := by
  obtain ⟨m, hm, hm0⟩ := circuit_beforePass (s := s) q i
  obtain ⟨n, hn, hn0⟩ := (passed_beforePass h q).others i hi
  refine ⟨m + n, ?_, fun hw => by rw [hm0 hw, hn0 fun h' => hw (waitQueue_beforePass q i h')]⟩
  rw [resetPort_eq, circuit_judgeAtn, hn, hm, Option.map_map]
  exact congrArg (Option.map · _) (funext fun c => Circuit.granted_add _ m n)

/-- A circuit of the port has been dealt with by its state, and granted some before and after. -/
theorem circuit_resetPort_own (h : Sparse.wf Fin.val {} s.slots) (hc : s.circuit i = some c) (ho : c.owner = some q) :
    ∃ (u : State) (m n : Nat), u.circuit i = some ((s.untaken q i c).granted m) ∧ (i ∉ s.waitQueue → m = 0 ∧ i ∉ u.waitQueue)
      ∧ (s.resetPort q).circuit i = ((u.orphan i).circuit i).map (·.granted n)
      ∧ (i ∉ (u.orphan i).waitQueue → n = 0) := by
  obtain ⟨k, hk, hk0⟩ := circuit_beforePass_some hc q
  obtain ⟨u, m, n, hu, hm0, hn, hn0⟩ := (passed_beforePass h q).each i ((mem_circuitsOf h).2 ⟨c, hc, ho⟩)
  refine ⟨u, k + m, n, ?_, fun hw => ?_, by rw [resetPort_eq, circuit_judgeAtn]; exact hn, hn0⟩
  · rw [hu, hk, Option.map_some, Circuit.granted_add]
  · obtain ⟨hm, hleft⟩ := hm0 fun h' => hw (waitQueue_beforePass q i h')
    exact ⟨by rw [hk0 hw, hm], hleft⟩

theorem not_mem_circuitsOf (h : Sparse.wf Fin.val {} s.slots) (ho : ∀ c, s.circuit i = some c → c.owner ≠ some q) :
    i ∉ s.circuitsOf q := fun hi => by
  obtain ⟨c, hc, hq⟩ := (mem_circuitsOf h).1 hi
  exact ho c hc hq

/-- The state in which the record was dealt with holds it as it was, but for what it had pending and for grants. -/
theorem state_untaken_granted (m : Nat) : ((s.untaken q i c).granted m).state = c.state := by
  obtain ⟨-, hstate, -⟩ := untaken_same (s := s) q i c
  rw [granted_state, hstate]

theorem circuit_resetPort_freed (h : Sparse.wf Fin.val {} s.slots) (hc : s.circuit i = some c) (ho : c.owner = some q)
    (hs : c.state = .offered ∨ c.state.name = .ended) : (s.resetPort q).circuit i = none := by
  obtain ⟨u, m, n, hu, -, ht, -⟩ := circuit_resetPort_own h hc ho
  rw [ht, circuit_orphan_freed hu (by rwa [state_untaken_granted])]
  rfl

theorem circuit_resetPort_closing (h : Sparse.wf Fin.val {} s.slots) (hc : s.circuit i = some c) (ho : c.owner = some q)
    (hs : c.state.name = .closing) : ∃ n,
      (s.resetPort q).circuit i = some ({ s.untaken q i c with owner := none }.granted n) ∧ (i ∉ s.waitQueue → n = 0) := by
  obtain ⟨u, m, n, hu, hm0, ht, hn0⟩ := circuit_resetPort_own h hc ho
  obtain ⟨x, hx⟩ : ∃ x, c.state = .closing x := by
    cases hstate : c.state with
    | closing x => exact ⟨x, rfl⟩
    | calling | offered | opened | draining | ended => rw [hstate] at hs; cases hs
  have horphan := orphan_closing hu ((state_untaken_granted m).trans hx)
  have howner : { (s.untaken q i c).granted m with owner := none } = { s.untaken q i c with owner := none }.granted m := by
    unfold Circuit.granted
    split_ifs <;> rfl
  refine ⟨m + n, ?_, fun hw => ?_⟩
  · rw [ht, horphan, circuit_modCircuit_same, hu, Option.map_some, Option.map_some, howner, Circuit.granted_add]
  · obtain ⟨hm, hleft⟩ := hm0 hw
    rw [hm, hn0 (by rwa [horphan, modCircuit_waitQueue])]

theorem circuit_resetPort_live (h : Sparse.wf Fin.val {} s.slots) (hc : s.circuit i = some c) (ho : c.owner = some q)
    (hs : c.live) : ∃ n, (s.resetPort q).circuit i = some
      { s.untaken q i c with
        state := .closing Config.causeWithdrawn, owner := none, timer := none, retry := 0, reserved := 0
        owed := { close := true }, transmit := [], unacked := [], receive := []
        receiveEdge := c.receiveEdge + BitVec.ofNat 5 n } ∧ (i ∉ s.waitQueue → n = 0) := by
  obtain ⟨u, m, n, hu, hm0, ht, hn0⟩ := circuit_resetPort_own h hc ho
  have hlive : ((s.untaken q i c).granted m).live := by rwa [Circuit.live, state_untaken_granted]
  obtain ⟨horphan, hleft⟩ := circuit_orphan_live hu hlive
  refine ⟨m, ?_, fun hw => (hm0 hw).1⟩
  rw [ht, horphan, hn0 hleft, granted_map_zero]
  unfold Circuit.granted untaken
  by_cases hm : m = 0 <;> split_ifs <;> simp [hm]

/-- No circuit is left to the port. -/
theorem owner_resetPort (h : Sparse.wf Fin.val {} s.slots) (ht : (s.resetPort q).circuit i = some c) :
    c.owner ≠ some q := by
  by_cases hown : ∃ d, s.circuit i = some d ∧ d.owner = some q
  · obtain ⟨d, hd, ho⟩ := hown
    obtain ⟨u, m, n, hu, -, he, -⟩ := circuit_resetPort_own h hd ho
    rw [ht] at he
    obtain ⟨x, hx, rfl⟩ := Option.map_eq_some_iff.1 he.symm
    rw [granted_owner, owner_orphan hu x hx]
    exact nofun
  · obtain ⟨n, he, -⟩ := circuit_resetPort_other h (not_mem_circuitsOf h fun d hd ho => hown ⟨d, hd, ho⟩)
    rw [ht] at he
    obtain ⟨d, hd, rfl⟩ := Option.map_eq_some_iff.1 he.symm
    obtain ⟨howner, -⟩ := untaken_same (s := s) q i d
    rw [granted_owner, howner]
    exact fun ho => hown ⟨d, hd, ho⟩

theorem generation_resetPort (h : Sparse.wf Fin.val {} s.slots) (q : PortNo) (i : SlotNo) :
    ((s.resetPort q).slot i).generation = (s.slot i).generation := by
  rw [resetPort_eq, slot_judgeAtn, (passed_beforePass h q).generations, generation_beforePass]

/-- A circuit of the port as the pass over the port's circuits finds it. -/
theorem circuit_beforePass_own (hc : s.circuit i = some c) (q : PortNo) : ∃ d, (s.beforePass q).circuit i = some d
    ∧ d.state = c.state ∧ d.owner = c.owner ∧ d.line = c.line ∧ d.number = c.number := by
  obtain ⟨n, hn, -⟩ := circuit_beforePass_some hc q
  refine ⟨_, hn, ?_, ?_, ?_, ?_⟩ <;>
    simp only [granted_state, granted_owner, granted_line, granted_number] <;> unfold untaken <;> split_ifs <;> rfl

theorem unmapped_resetPort (h : Sparse.wf Fin.val {} s.slots) (hc : s.circuit i = some c) (ho : c.owner = some q)
    (hs : c.state = .offered) : (s.resetPort q).lookup c.line c.number = none := by
  obtain ⟨d, hd, hstate, -, hline, hnumber⟩ := circuit_beforePass_own hc q
  rw [resetPort_eq, lookup_of_keeps (keeps_judgeAtn _) (by decide)]
  exact lookup_foldl_orphan _ _ _ _ i (circuitsOf_beforePass_nodup h q) (mem_circuitsOf_beforePass h hc ho)
    ⟨d, hd, hstate.trans hs, hline, hnumber⟩

theorem queues_resetPort (h : Sparse.wf Fin.val {} s.slots) (hc : s.circuit i = some c) (ho : c.owner = some q)
    (hs : c.live) : i ∈ ((s.resetPort q).line c.line).tx.control ∧ i ∉ (s.resetPort q).waitQueue := by
  obtain ⟨d, hd, hstate, -, hline, -⟩ := circuit_beforePass_own hc q
  rw [resetPort_eq, line_of_keeps (keeps_judgeAtn _) (by decide), (keeps_judgeAtn _).at_waitQueue (by decide)]
  exact queues_foldl_orphan _ _ i (circuitsOf_beforePass_nodup h q) (mem_circuitsOf_beforePass h hc ho)
    ⟨d, hd, hline, by rwa [Circuit.live, hstate]⟩

/-- What PORT-RESET does to the circuits, their slots and buffers, the service table and the queues (R164 to R166). -/
theorem orphaned_resetPort (hs : s.canonical) (q : PortNo) : Orphaned q s (s.resetPort q) where
  others i c hc ho := by
    have hi : i ∉ s.circuitsOf q := not_mem_circuitsOf hs.slots fun d hd => by rw [hc] at hd; cases hd; exact ho
    obtain ⟨n, hn, hn0⟩ := circuit_resetPort_other hs.slots hi
    exact ⟨n, by rw [hn, hc]; rfl, hn0⟩
  freed _ _ hc ho h := circuit_resetPort_freed hs.slots hc ho h
  unmapped _ _ hc ho h := unmapped_resetPort hs.slots hc ho h
  closing _ _ hc ho h := circuit_resetPort_closing hs.slots hc ho h
  closed _ _ hc ho h := circuit_resetPort_live hs.slots hc ho h
  ownsNone _ _ ht := owner_resetPort hs.slots ht
  frees i hi := by
    obtain ⟨n, hn, -⟩ := circuit_resetPort_other hs.slots
      (not_mem_circuitsOf (q := q) hs.slots fun c hc => by rw [hi] at hc; cases hc)
    rw [hn, hi]
    rfl
  otherNumbers m o h := lookup_resetPort hs.slots q m o h
  generations := generation_resetPort hs.slots q
  queues _ _ hc ho h := queues_resetPort hs.slots hc ho h
  freeSlots := freeSlots_resetPort hs.slots q
  freeQueue := freeQueue_resetPort hs.slots q
  places := place_resetPort hs.slots q
  entries := entry_resetPort hs.slots q
  lines := line_resetPort hs.slots q
  staying := staying_resetPort hs.slots q
  standing _ _ hc ho := standing_resetPort hs.slots q hc ho

/-! The ports after PORT-RESET, and what it reports. -/

/-- The pass over the port's circuits changes no port: the list that they might leave is empty already. -/
theorem port_resetPort (hs : Sparse.wf Fin.val {} s.slots) (q r : PortNo) : (s.resetPort q).port r
    = { (if r = q then { ({} : Port) with status := .idle } else s.port r) with atn := (s.resetPort q).atnLevel r } := by
  have howner : ∀ i ∈ (s.beforePass q).circuitsOf q, ∃ c, (s.beforePass q).circuit i = some c ∧ c.owner = some q :=
    fun i hi => (mem_circuitsOf (slots_wf_beforePass hs q)).1 hi
  have hself := port_beforePass (s := s) q q
  rw [if_pos rfl] at hself
  have hpass := port_foldl_orphan _ _ (circuitsOf_beforePass_nodup hs q) howner (by rw [hself]) (by rw [hself]) r
  rw [resetPort_eq, port_judgeAtn, atnLevel_judgeAtn, hpass, port_beforePass]
  split_ifs <;> rfl

/-- The buffers that PORT-RESET counts are those it returns. -/
theorem buffersOf_eq_length (q : PortNo) : s.buffersOf q = (s.resetBuffers q).length := by
  rw [buffersOf, resetBuffers, buffersIn, List.length_flatMap]
  refine congrArg List.sum (List.map_congr_left fun i _ => ?_)
  cases s.circuit i <;> rfl

/-- The words that PORT-RESET of another port reports (R167). -/
theorem resetResults_eq (q : PortNo) : s.resetResults q =
    { r0 := inBits 7 0 (s.countOf q [.calling, .opened, .draining]) ||| inBits 15 8 (s.countOf q [.closing])
        ||| inBits 23 16 (s.countOf q [.offered]) ||| inBits 31 24 (s.countOf q [.ended])
      r1 := inBits 9 0 (s.claimedSet q).length ||| inBits 25 16 (s.resetBuffers q).length } := by
  rw [resetResults, buffersOf_eq_length]

theorem atnLevel_setLastServed (p q : PortNo) : (s.setLastServed p).atnLevel q = s.atnLevel q := rfl

end State

/-! The completion of PORT-RESET: of the port's own slot, and of port 0's for another port (R167). -/

theorem Orphaned.setLastServed {q : PortNo} {s t : State} (h : Orphaned q s t) (p : PortNo) : Orphaned q s (t.setLastServed p) := { h with }

theorem Orphaned.finish {q : PortNo} {s t : State} (h : Orphaned q s t) (p : PortNo) (code : ResultCode) (w : Results) :
    Orphaned q s (t.finish p code w) := { h with }

/-- PORT-RESET passes its checks for a port that names itself, and for port 0. -/
theorem portResetCheck_of_port {p q : PortNo} {a : Args} (ha : a.a0.toNat = q.val) (hp : p = 0 ∨ p = q) :
    portResetCheck p a = .ok q := by
  have hmay : (decide (p = 0) || decide (a.a0.toNat = p.val)) = true := by
    obtain rfl | rfl := hp
    · rfl
    · simp [ha]
  simp only [portResetCheck, hmay, require_true, portArg_of ha, bind, Except.bind]

theorem execPortReset_of_taken {s : State} {p q : PortNo} (htaken : s.taken p Code.portReset)
    (hcheck : portResetCheck p (s.port p).args = .ok q) : exec .portReset s
      = .next (if q = p then (s.resetPort q).setLastServed p else (s.resetPort q).finish p .ok (s.resetResults q)) := by
  simp only [exec, execPortReset, State.takes_of_taken htaken, hcheck]
  split <;> rfl

/-- Settles O27: the port is reset, and a self-reset leaves its slot IDLE where port 0's of another port is finished. -/
theorem portResetClearsThePortAndItsCircuits : Obligations.PortResetClearsThePortAndItsCircuits := by
  intro s p q htaken ha hp hs
  have hexec := execPortReset_of_taken htaken (portResetCheck_of_port ha hp)
  have hport := State.port_resetPort hs.slots q
  have horphaned := State.orphaned_resetPort hs q
  have hclaimed := State.claimedSet_eq hs q
  by_cases hqp : q = p
  · subst hqp
    rw [if_pos rfl] at hexec
    refine ⟨_, hexec, rfl, ?_, fun h => absurd rfl h, fun r hr _ => ?_, hclaimed, horphaned.setLastServed q,
      (s.keeps_resetPort q).both (State.keeps_setLastServed _ _) (by decide) (by decide)⟩
    · rw [State.port_setLastServed, State.atnLevel_setLastServed, hport, if_pos rfl]
    · rw [State.port_setLastServed, State.atnLevel_setLastServed, hport, if_neg hr]
  · rw [if_neg hqp] at hexec
    refine ⟨_, hexec, rfl, ?_, fun _ => ?_, fun r hrp hrq => ?_, hclaimed, horphaned.finish p .ok _,
      (s.keeps_resetPort q).both (State.keeps_finish _ p .ok _) (by decide) (by decide)⟩
    · rw [State.port_finish_ne hqp, State.atnLevel_finish, hport, if_pos rfl]
    · rw [State.port_finish_same, State.atnLevel_finish, hport, if_neg (Ne.symm hqp), State.resetResults_eq]
    · rw [State.port_finish_ne hrp, State.atnLevel_finish, hport, if_neg hrq]

end Sys2Proof.Machine

namespace Sys2Proof.Machine

/-! ## Accesses without a row of their own (R180, R183, R184, R185; log 9) -/

/-- No register lies in the window data's part of the port block. -/
theorem registerAt_beyond {o : Nat} (h : 0x200 ≤ o) : registerAt o = .undefinedOffset := by
  simp (disch := omega) only [registerAt, if_neg]

section

variable {x : BusAccess} (h : hasOwnRow x = false)
include h

/-- Every access that reaches the window data has a row. -/
theorem accessTarget_ne_windowData (k : Nat) : accessTarget x ≠ .windowData k := fun hk => by
  simp [hasOwnRow, hk] at h

/-- Without a row of its own a word access reaches the register at its offset, and any other access nothing. -/
theorem accessTarget_of_not_ownRow :
    accessTarget x = if x.width = .word then registerAt x.offset.toNat else .undefinedOffset := by
  by_cases hwindow : 0x200 ≤ x.offset.toNat ∧ x.offset.toNat ≤ 0x27F
  · have hdata := accessTarget_ne_windowData h (x.offset.toNat - 0x200)
    simp only [accessTarget, if_pos hwindow, registerAt_beyond hwindow.1, ite_self] at hdata ⊢
    split_ifs at hdata ⊢
    · exact absurd rfl hdata
    · rfl
  · rw [accessTarget]
    exact if_neg hwindow

theorem accessTarget_undefined (hvoid : x.width ≠ .word ∨ registerAt x.offset.toNat = .undefinedOffset) :
    accessTarget x = .undefinedOffset := by
  rw [accessTarget_of_not_ownRow h]
  obtain hwidth | hoffset := hvoid
  · exact if_neg hwidth
  · rw [hoffset, ite_self]

end

namespace State

variable {s : State} {x : BusAccess}

theorem writeStatus_without_clear {p : PortNo} {v : Word} (h : v.getLsbD 9 = false) : s.writeStatus p v = s := by
  rw [writeStatus, h, if_neg Bool.false_ne_true, ite_self]

/-- The writes without a row are of read-only words, of the status word without the clear request, and void (R183, R185). -/
theorem busWrite_of_not_ownRow (h : hasOwnRow x = false) (hwrite : x.write = true) : s.busWrite x = s := by
  rw [busWrite]
  split_ifs with hreset
  · rfl
  · cases htarget : accessTarget x with
    | commandWord | argument | windowRegister | windowData => simp [hasOwnRow, htarget, hwrite] at h
    | portStatus =>
      have hclear : x.data.getLsbD 9 = false := by simpa [hasOwnRow, htarget, hwrite] using h
      exact writeStatus_without_clear hclear
    | identity | globalStatus | result | holdoffSettings | attentionHead | attentionState | undefinedOffset => rfl

theorem busRead_void (h : s.phase = .inReset ∨ accessTarget x = .undefinedOffset) :
    s.busRead x = s.setReadData (readDataOf (fun _ => 0) x.width) := by
  rw [busRead]
  split_ifs with hreset
  · rfl
  · rw [h.resolve_left hreset]
    rfl

theorem busRead_register {r : Target} (hreset : s.phase ≠ .inReset) (htarget : accessTarget x = r)
    (hdefined : r ≠ .undefinedOffset) (hdata : ∀ k, r ≠ .windowData k) :
    s.busRead x = s.setReadData (.word (s.readRegister x.mn r)) := by
  rw [busRead, if_neg hreset, htarget]
  cases r with
  | undefinedOffset => exact absurd rfl hdefined
  | windowData k => exact absurd rfl (hdata k)
  | _ => rfl

/-- A read without a row changes the data read alone (R183). -/
theorem busRead_of_not_ownRow (h : hasOwnRow x = false) : ∃ d, s.busRead x = s.setReadData d := by
  by_cases hvoid : s.phase = .inReset ∨ accessTarget x = .undefinedOffset
  · exact ⟨_, busRead_void hvoid⟩
  · obtain ⟨hreset, hdefined⟩ := not_or.1 hvoid
    exact ⟨_, busRead_register hreset rfl hdefined (accessTarget_ne_windowData h)⟩

/-! ### The words of the registers (R184) -/

/-- Each register's offset with the word that it reads as (11.1). -/
def registerWords (s : State) (p : PortNo) : List (Nat × Word) :=
  [(0x000, identityWord), (0x004, s.globalStatusWord), (0x100, s.portStatusWord p), (0x104, (s.port p).command.setWidth 32),
   (0x108, (s.port p).args.a0), (0x10C, (s.port p).args.a1), (0x110, (s.port p).args.a2), (0x114, (s.port p).args.a3),
   (0x118, (s.port p).results.r0), (0x11C, (s.port p).results.r1), (0x120, (s.port p).results.r2),
   (0x124, (s.port p).results.r3), (0x128, inBits 8 0 (s.port p).window.val), (0x12C, s.holdoffWord p),
   (0x130, s.attentionHeadWord p), (0x134, s.attentionStateWord p)]

theorem readRegister_of_registerWords (p : PortNo) : ∀ y ∈ s.registerWords p,
    registerAt y.1 ≠ .undefinedOffset ∧ s.readRegister p (registerAt y.1) = y.2 := by
  simp [registerWords, registerAt, readRegister, argAt, resultAt]

theorem readData_of_registerWords (h : hasOwnRow x = false) (hreset : s.phase ≠ .inReset) (hwidth : x.width = .word)
    {word : Word} (hword : (x.offset.toNat, word) ∈ s.registerWords x.mn) : (s.busRead x).readData = .word word := by
  obtain ⟨hdefined, hread⟩ := readRegister_of_registerWords x.mn _ hword
  have htarget : accessTarget x = registerAt x.offset.toNat := by rw [accessTarget_of_not_ownRow h, if_pos hwidth]
  rw [busRead_register hreset htarget hdefined (htarget ▸ accessTarget_ne_windowData h), hread, setReadData_readData]

theorem urgentOn_iff (p : PortNo) : s.urgentOn p = true ↔ ∃ i ∈ (s.port p).attention, ∃ c, s.circuit i = some c
    ∧ (c.conditions.arrival = true ∨ c.conditions.ended = true) := by
  rw [urgentOn, List.any_eq_true]
  refine exists_congr fun i => and_congr_right fun _ => ?_
  rw [conditionsOf]
  cases s.circuit i <;> simp [Conditions.urgent]

/-- The change flags of the eight lines, line 0's lowest (R180). -/
theorem changedBits_eq : s.changedBits =
    inBits 16 16 (s.line 0).changed.toNat ||| inBits 17 17 (s.line 1).changed.toNat
      ||| inBits 18 18 (s.line 2).changed.toNat ||| inBits 19 19 (s.line 3).changed.toNat
      ||| inBits 20 20 (s.line 4).changed.toNat ||| inBits 21 21 (s.line 5).changed.toNat
      ||| inBits 22 22 (s.line 6).changed.toNat ||| inBits 23 23 (s.line 7).changed.toNat := by
  rw [← BitVec.zero_or (x := inBits 16 16 (s.line 0).changed.toNat)]
  rfl

end State

/-- Settles O31: a write is ignored, a void read is 0, and a register read is the word at its offset. -/
theorem otherAccessesChangeNothing : Obligations.OtherAccessesChangeNothing := by
  refine fun s x h => ⟨fun hwrite => ?_, fun hread => ?_⟩
  · change Host.Outcome.next (if x.write then s.busWrite x else s.busRead x) = _
    rw [if_pos hwrite, State.busWrite_of_not_ownRow h hwrite]
  · obtain ⟨d, hd⟩ := State.busRead_of_not_ownRow (s := s) h
    have hkeeps : Keeps [.readData] s (s.busRead x) := hd ▸ s.keeps_setReadData d
    have hexec : exec (.voidAccess x) s = .next (s.busRead x) :=
      congrArg Host.Outcome.next (if_neg (by rw [hread]; decide))
    refine ⟨_, hexec, hkeeps, fun hvoid => ?_, ?_⟩
    · rw [State.busRead_void (hvoid.imp_right (accessTarget_undefined h)), State.setReadData_readData]
    · rintro _ rfl hreset hwidth urgent hurgent _ word hword rfl
      obtain rfl : s.urgentOn x.mn = urgent := Bool.eq_iff_iff.2 ((State.urgentOn_iff x.mn).trans hurgent.symm)
      rw [← State.changedBits_eq] at hword
      exact State.readData_of_registerWords h hreset hwidth hword

end Sys2Proof.Machine

/-! The canonical form of the maps: memory, places, slots and the index map through every step (log 15). -/

namespace Sys2Proof.Machine

namespace State

variable {s t : State} {p : PortNo} {a : Args} {w : Results}

/-! ## What keeps the form -/

/-- The parts that stand for maps. -/
def mapParts : List Part := [.memory, .slots, .places, .index]

theorem canonical.of_keeps {xs : List Part} (h : s.canonical) (k : Keeps xs s t)
    (hx : ∀ y ∈ mapParts, y ∉ xs) : t.canonical :=
  canonical_of_keeps h k (hx _ (by decide)) (hx _ (by decide)) (hx _ (by decide)) (hx _ (by decide))

theorem canonical_finish (h : s.canonical) (p : PortNo) (r : ResultCode) (w : Results) : (s.finish p r w).canonical :=
  h.of_keeps (keeps_finish s p r w) (by decide)

/-- A retry raises the count first; giving up acts at once (R23). -/
theorem canonical_retryOr (h : s.canonical) (i : SlotNo) (c : Circuit) {retry giveUp : State → State}
    (hr : ∀ u : State, u.canonical → (retry u).canonical) (hg : (giveUp s).canonical) :
    (s.retryOr i c retry giveUp).canonical := by
  unfold retryOr
  split
  · exact hr _ (canonical_modCircuit h _ _)
  · exact hg

theorem canonical_leaveActive (h : s.canonical) (l : LineNo) (x : LineState) (cause : Byte) :
    (s.leaveActive l x cause).canonical :=
  canonical_putLine (canonical_teardown (canonical_modLine h _ _) _ _) _ _

theorem canonical_disableLine (h : s.canonical) (l : LineNo) : (s.disableLine l).canonical := by
  unfold disableLine
  cases (s.line l).state with
  | active => exact canonical_judgeAtn (canonical_modLine (canonical_leaveActive h _ _ _) _ _)
  | waiting | settling => exact canonical_modLine h _ _
  | disabled => exact h

/-- Each circuit of a reset port goes through operations that keep the form, by its state (R166). -/
theorem canonical_orphan (v : State) (i : SlotNo) (h : v.canonical) : (v.orphan i).canonical := by
  cases hc : v.circuit i with
  | none => rwa [orphan_none hc]
  | some c =>
    obtain hs | ⟨x, hs⟩ | hs | hs := orphan_cases c
    · rw [orphan_offered hc hs]
      exact canonical_directFree (canonical_offerReply h _ _) _
    · rw [orphan_closing hc hs]
      exact canonical_modCircuit h _ _
    · rw [orphan_ended hc hs]
      exact canonical_freeSlot (canonical_returnCircuitBuffers h _) _
    · rw [orphan_live hc hs]
      exact canonical_returnCircuitBuffers (canonical_modCircuit (canonical_enterClosing h _ _) _ _) _

theorem canonical_emptyAttention (h : s.canonical) (p : PortNo) : (s.emptyAttention p).canonical :=
  canonical_modPort (canonical_foldl (fun _ i hv => canonical_clearConditions hv i) _ _ h) _ _

theorem canonical_resetPort (h : s.canonical) (p : PortNo) : (s.resetPort p).canonical := by
  have hfields : (s.resetPortFields p).canonical := canonical_modPort h _ _
  have hclaimed : (((s.resetPortFields p).emptyAttention p).returnClaimed p).canonical :=
    canonical_serveWait (canonical_returnBuffers (canonical_emptyAttention hfields p) _)
  exact canonical_judgeAtn (canonical_foldl canonical_orphan _ _ hclaimed)

/-- A window write stores bytes in a buffer of the port's own, or records a fault, or does nothing (R158, R159). -/
theorem canonical_writeWindowData (h : s.canonical) (p : PortNo) (k : Nat) (m : Width) (v : Word) :
    (s.writeWindowData p k m v).canonical := by
  by_cases hvoid : s.phase ≠ .running ∨ windowAccessOk k m = false
  · rwa [writeWindowData_void hvoid]
  · obtain ⟨hrun, hok⟩ := not_or.1 hvoid
    have hrun := not_not.1 hrun
    have hok := Bool.eq_true_of_not_eq_false hok
    by_cases hb : s.place (s.port p).window = .claimed p
    · rw [writeWindowData_claimed hrun hok hb]
      exact canonical_writeBuffer h _ _ _
    · rw [writeWindowData_other hrun hok hb]
      exact h.of_keeps keeps_faultWindow (by decide)

theorem canonical_busWrite (h : s.canonical) (y : BusAccess) : (s.busWrite y).canonical := by
  unfold busWrite
  split
  · exact h
  · cases accessTarget y with
    | portStatus => exact h.of_keeps (keeps_writeStatus _) (by decide)
    | commandWord => exact h.of_keeps (keeps_writeCommand _) (by decide)
    | argument n => exact h.of_keeps (keeps_writeArgument n _) (by decide)
    | windowRegister => exact h.of_keeps (keeps_writeWindow _) (by decide)
    | windowData k => exact canonical_writeWindowData h _ _ _ _
    | identity | globalStatus | result | holdoffSettings | attentionHead | attentionState | undefinedOffset => exact h

/-! ## The bodies of the commands -/

theorem canonical_callBody (h : s.canonical) (hb : callBody p a s = .ok (t, w)) : t.canonical := by
  obtain ⟨l, n, i, u, ha, rfl⟩ := callBody_ok hb
  exact canonical_owe (canonical_reserve (canonical_allocate h ha) _ _) _ _

theorem canonical_acceptBody (h : s.canonical) (hb : acceptBody p a s = .ok (t, w)) : t.canonical := by
  obtain ⟨i, c, -, -, rfl⟩ := acceptBody_ok hb
  exact canonical_joinWaitIfShort (canonical_owe (canonical_reserve (canonical_modCircuit h _ _) _ _) _ _) _

theorem canonical_refuseBody (h : s.canonical) (hb : refuseBody p a s = .ok (t, w)) : t.canonical := by
  obtain ⟨i, c, -, rfl⟩ := refuseBody_ok hb
  exact canonical_judgeAtn (canonical_directFree (canonical_offerReply h _ _) _)

theorem canonical_closeBody (h : s.canonical) (hb : closeBody p a s = .ok (t, w)) : t.canonical := by
  obtain ⟨i, c, -, rfl | ⟨-, rfl⟩⟩ := closeBody_ok hb
  · exact canonical_enterClosing h _ _
  · exact canonical_modCircuit h _ _

theorem canonical_sendBody (h : s.canonical) (hb : sendBody p a s = .ok (t, w)) : t.canonical := by
  obtain ⟨i, b, e, rfl⟩ := sendBody_ok hb
  exact canonical_settleStall (canonical_settleReady (canonical_modCircuit (canonical_setPlace h _ _) _ _) _) _

theorem canonical_releaseBody (h : s.canonical) (hb : releaseBody p a s = .ok (t, w)) : t.canonical := by
  obtain ⟨i, b, rest, rfl⟩ := releaseBody_ok hb
  exact canonical_serveWait (canonical_returnBuffer (canonical_modCircuit h _ _) _)

theorem canonical_setCreditBody (h : s.canonical) (hb : setCreditBody p a s = .ok (t, w)) : t.canonical := by
  obtain ⟨i, c, -, -, ⟨-, rfl⟩ | rfl⟩ := setCreditBody_ok hb
  · exact canonical_joinWait (canonical_modCircuit h _ _) _
  · exact canonical_leaveWait (canonical_modCircuit h _ _) _

theorem canonical_claimBody (h : s.canonical) (hb : claimBody p a s = .ok (t, w)) : t.canonical := by
  obtain ⟨b, rest, -, -, rfl⟩ := claimBody_ok hb
  exact canonical_setPlace (canonical_writeBuffer (canonical_setFreeQueue h _) _ _ _) _ _

theorem canonical_unclaimBody (h : s.canonical) (hb : unclaimBody p a s = .ok (t, w)) : t.canonical := by
  obtain ⟨b, rfl⟩ := unclaimBody_ok hb
  exact canonical_serveWait (canonical_returnBuffer h _)

theorem canonical_lineQueryBody (h : s.canonical) (hb : lineQueryBody p a s = .ok (t, w)) : t.canonical := by
  obtain ⟨l, n, rfl | rfl⟩ := lineQueryBody_ok hb
  · exact canonical_setFreeCount h _
  · exact canonical_modLine (canonical_setFreeCount h _) _ _

theorem canonical_retireBody (h : s.canonical) (hb : retireBody p a s = .ok (t, w)) : t.canonical := by
  obtain ⟨i, c, -, -, rfl⟩ := retireBody_ok hb
  exact canonical_judgeAtn (canonical_freeSlot (canonical_leaveOwner (canonical_returnCircuitBuffers h _) _) _)

theorem canonical_takeAccount (h : s.canonical) (p : PortNo) (i : SlotNo) :
    ((s.leaveAttention p i).clearConditions i).judgeAtn.canonical :=
  canonical_judgeAtn (canonical_clearConditions (canonical_leaveAttention h _ _) _)

end State

/-! ## Every row keeps the form -/

section

open State

variable {s t : State}

theorem canonical_takeCommand (h : s.canonical) (code : Byte) {body : Body}
    (hb : ∀ p a t w, body p a s = .ok (t, w) → t.canonical) :
    Outcome.meets AnyFault State.canonical (takeCommand code body s) :=
  meets_takeCommand h (fun _ p r w hu => canonical_finish hu p r w) code hb

theorem canonical_unknownCommand (h : s.canonical) : Outcome.meets AnyFault State.canonical (execUnknownCommand s) := by
  unfold execUnknownCommand
  split
  · exact h
  · exact canonical_finish h _ _ _

theorem canonical_portReset (h : s.canonical) : Outcome.meets AnyFault State.canonical (execPortReset s) := by
  unfold execPortReset
  split
  · exact h
  · split
    · exact canonical_finish h _ _ _
    · dsimp only
      split
      · exact canonical_setLastServed (canonical_resetPort h _) _
      · exact canonical_finish (canonical_resetPort h _) _ _ _

/-- A bus row that changes its port alone, unless RESET is asserted. -/
theorem canonical_unlessReset (h : s.canonical) (k : Keeps [.ports] s t) :
    Outcome.meets AnyFault State.canonical (if s.phase = .inReset then .next s else .next t) := by
  split
  · exact h
  · exact h.of_keeps k (by decide)

theorem canonical_voidAccess (h : s.canonical) (y : BusAccess) :
    Outcome.meets AnyFault State.canonical (execVoidAccess y s) := by
  unfold execVoidAccess
  split
  · exact canonical_busWrite h y
  · exact h.of_keeps (keeps_busRead y) (by decide)

/-- A CARRY frame that finds no free buffer ends in a fault (log 12), of which nothing is said here. -/
theorem canonical_carryArrives (h : s.canonical) (l : LineNo) (n a b : Byte) (payload : List Byte) :
    Outcome.meets AnyFault State.canonical (s.carryArrives l n a b payload) := by
  unfold State.carryArrives
  split
  · exact canonical_judgeAtn (canonical_strayArrives h _ _ _)
  · split
    · split
      · split
        · trivial
        · exact canonical_judgeAtn (canonical_takeCarry h _ _ _ _ _)
      · exact canonical_judgeAtn (canonical_owe h _ _)
      · exact canonical_judgeAtn (canonical_owe h _ _)
      · exact canonical_judgeAtn (canonical_violate h _)
    · exact canonical_judgeAtn h

theorem canonical_frameArrives (h : s.canonical) (l : LineNo) (f : Frame) :
    Outcome.meets AnyFault State.canonical (s.frameArrives l f) := by
  unfold State.frameArrives
  cases f.kind with
  | openCall => exact canonical_judgeAtn (canonical_openArrives h _ _ _ _)
  | grant => exact canonical_judgeAtn (canonical_grantArrives h _ _ _)
  | refuse => exact canonical_judgeAtn (canonical_refuseArrives h _ _ _)
  | carry => exact canonical_carryArrives h _ _ _ _ _
  | credit => exact canonical_judgeAtn (canonical_creditArrives h _ _ _ _)
  | ask => exact canonical_judgeAtn (canonical_askArrives h _ _)
  | close => exact canonical_judgeAtn (canonical_closeArrives h _ _ _)
  | closed => exact canonical_judgeAtn (canonical_closedArrives h _ _)

theorem canonical_receive (h : s.canonical) (l : LineNo) (f : Frame) :
    Outcome.meets AnyFault State.canonical (s.receive l f) :=
  meets_receive (fun _ l f hu => canonical_frameArrives hu l f) (fun _ l _ _ _ hu => canonical_modLine hu l _)
    (fun _ l hu => canonical_countDiscard hu l) h l f

theorem canonical_takeBits (h : s.canonical) (l : LineNo) (bits : List Bool) :
    Outcome.meets AnyFault State.canonical (s.takeBits l bits) :=
  meets_takeBits (fun _ l f hu => canonical_frameArrives hu l f) (fun _ l _ _ _ hu => canonical_modLine hu l _)
    (fun _ l hu => canonical_countDiscard hu l) h l bits

/-- A circuit timer expires: the timer stops, and the rule of its purpose acts in the state that it fits. -/
theorem canonical_expire (h : s.canonical) (i : SlotNo) (m : Purpose) {fits : Circuit → Prop} [DecidablePred fits]
    {rule : Circuit → State → State} (hr : ∀ c u, State.canonical u → (rule c u).canonical) :
    Outcome.meets AnyFault State.canonical (s.expire i m fun c t => if fits c then rule c t else t) := by
  refine meets_expire h i m fun c _ => ?_
  split
  · exact hr c _ (canonical_stopTimer h i)
  · exact canonical_stopTimer h i

theorem canonical_offerWaitExpiry (h : s.canonical) (i : SlotNo) :
    Outcome.meets AnyFault State.canonical (execOfferWaitExpiry i s) := by
  refine canonical_expire h i .offerWait fun c u hu => ?_
  exact canonical_judgeAtn (canonical_offerReply (canonical_enterEnded hu _ _ _ _) _ _)

theorem canonical_closeWaitExpiry (h : s.canonical) (i : SlotNo) :
    Outcome.meets AnyFault State.canonical (execCloseWaitExpiry i s) := by
  refine canonical_expire h i .closeWait fun c u hu => ?_
  have hended : (u.endClosing i .unconfirmed).canonical := canonical_endClosing hu _ _
  exact canonical_retryOr hu i c (fun _ hv => canonical_owe hv _ _) (canonical_judgeAtn hended)

theorem canonical_settleExpiry (h : s.canonical) (l : LineNo) :
    Outcome.meets AnyFault State.canonical (execSettleExpiry l s) := by
  unfold execSettleExpiry
  split
  · exact canonical_judgeAtn (canonical_putLine h _ _)
  · exact h

theorem canonical_holdoffExpiry (h : s.canonical) (p : PortNo) :
    Outcome.meets AnyFault State.canonical (execHoldoffExpiry p s) := by
  unfold execHoldoffExpiry
  split
  · split
    · exact canonical_judgeAtn (canonical_modPort h _ _)
    · exact h
  · exact h

theorem canonical_readyAsserted (h : s.canonical) (l : LineNo) :
    Outcome.meets AnyFault State.canonical (execReadyAsserted l s) := by
  unfold execReadyAsserted
  dsimp only
  split
  · exact canonical_modLine h _ _
  · exact canonical_modLine (canonical_modLine h _ _) _ _

/-- Only the line loss of an ACTIVE line changes more than the line's record (R116). -/
theorem canonical_readyDropped (h : s.canonical) (l : LineNo) :
    Outcome.meets AnyFault State.canonical (execReadyDropped l s) := by
  by_cases hheld : s.phase = .inReset ∨ (s.line l).readyLevel = false
  · rw [execReadyDropped_of_down hheld]
    exact canonical_modLine h _ _
  · obtain ⟨hp, hr⟩ := not_or.1 hheld
    have hr := Bool.eq_true_of_not_eq_false hr
    by_cases ha : (s.line l).state = .active
    · rw [execReadyDropped_of_active hp hr ha]
      exact canonical_judgeAtn (canonical_leaveActive (canonical_modLine h _ _) _ _ _)
    · rw [execReadyDropped_of_idle hp hr ha]
      exact canonical_modLine h _ _

theorem canonical_selectionEvent (h : s.canonical) (l : LineNo) :
    Outcome.meets AnyFault State.canonical (execSelectionEvent l s) := by
  unfold execSelectionEvent
  split
  · exact canonical_select h l
  · exact h

theorem canonical_completion (h : s.canonical) (l : LineNo) :
    Outcome.meets AnyFault State.canonical (execCompletion l s) := by
  unfold execCompletion
  split
  · split
    · exact h
    · exact canonical_select (canonical_complete (canonical_modTx h _ _) _) l
  · exact h

/-- RESET empties the maps, whatever they held. -/
theorem canonical_atReset (s : State) (x : Phase) : (s.atReset x).canonical :=
  canonical_reset.of_keeps (keeps_atReset s x) (by decide)

theorem canonical_startUp (h : s.canonical) : Outcome.meets AnyFault State.canonical (execStartUp s) := by
  unfold execStartUp
  split
  · exact (canonical_atReset s _).of_keeps (keeps_samplePins _) (by decide)
  · exact h

theorem canonical_startUpCompletion (h : s.canonical) :
    Outcome.meets AnyFault State.canonical (execStartUpCompletion s) := by
  unfold execStartUpCompletion
  split
  · exact h.of_keeps s.keeps_started (by decide)
  · exact h

theorem canonical_exec (h : s.canonical) : ∀ y : Instr, Outcome.meets AnyFault State.canonical (exec y s)
  | .call => canonical_takeCommand h _ fun _ _ _ _ => canonical_callBody h
  | .accept => canonical_takeCommand h _ fun _ _ _ _ => canonical_acceptBody h
  | .refuse => canonical_takeCommand h _ fun _ _ _ _ => canonical_refuseBody h
  | .close => canonical_takeCommand h _ fun _ _ _ _ => canonical_closeBody h
  | .send => canonical_takeCommand h _ fun _ _ _ _ => canonical_sendBody h
  | .release => canonical_takeCommand h _ fun _ _ _ _ => canonical_releaseBody h
  | .setCredit => canonical_takeCommand h _ fun _ _ _ _ => canonical_setCreditBody h
  | .claim => canonical_takeCommand h _ fun _ _ _ _ => canonical_claimBody h
  | .unclaim => canonical_takeCommand h _ fun _ _ _ _ => canonical_unclaimBody h
  | .poolSet => canonical_takeCommand h _ fun _ _ _ _ hb => poolSetBody_ok hb ▸ canonical_setFloor h _
  | .poolQuery => canonical_takeCommand h _ fun _ _ _ _ hb => poolQueryBody_ok hb ▸ h
  | .serviceSet => canonical_takeCommand h _ fun _ _ _ _ hb => by
      obtain ⟨e, y, rfl⟩ := serviceSetBody_ok hb
      exact canonical_setEntry h e y
  | .serviceClear => canonical_takeCommand h _ fun _ _ _ _ hb => by
      obtain ⟨e, y, rfl⟩ := serviceClearBody_ok hb
      exact canonical_setEntry h e y
  | .serviceQuery => canonical_takeCommand h _ fun _ _ _ _ hb => serviceQueryBody_ok hb ▸ h
  | .lineSet => canonical_takeCommand h _ fun _ _ _ _ hb => by
      obtain ⟨l, g, -, -, rfl⟩ := lineSetBody_ok hb
      exact canonical_modLine h l _
  | .lineEnable => canonical_takeCommand h _ fun _ _ _ _ hb => by
      obtain ⟨l, -, rfl⟩ := lineEnableBody_ok hb
      exact canonical_modLine h l _
  | .lineDisable => canonical_takeCommand h _ fun _ _ _ _ hb => by
      obtain ⟨l, rfl⟩ := lineDisableBody_ok hb
      exact canonical_disableLine h l
  | .lineQuery => canonical_takeCommand h _ fun _ _ _ _ => canonical_lineQueryBody h
  | .lineTake => canonical_takeCommand h _ fun _ _ _ _ hb => by
      obtain ⟨l, rfl⟩ := lineTakeBody_ok hb
      exact canonical_judgeAtn (canonical_putLine h l _)
  | .query => canonical_takeCommand h _ fun _ _ _ _ hb => queryBody_ok hb ▸ h
  | .retire => canonical_takeCommand h _ fun _ _ _ _ => canonical_retireBody h
  | .take => canonical_takeCommand h _ fun p _ _ _ hb => by
      obtain ⟨i, rfl⟩ := takeBody_ok hb
      exact canonical_takeAccount h p i
  | .takeNext => canonical_takeCommand h _ fun p _ _ _ hb => by
      obtain ⟨i, rfl⟩ := takeNextBody_ok hb
      exact canonical_takeAccount h p i
  | .portSet => canonical_takeCommand h _ fun p _ _ _ hb => by
      obtain ⟨f, rfl⟩ := portSetBody_ok hb
      exact canonical_judgeAtn (canonical_modPort h p f)
  | .portReset => canonical_portReset h
  | .unknownCommand => canonical_unknownCommand h
  | .commandWordWrite _ v => canonical_unlessReset h (keeps_writeCommand v)
  | .argumentWordWrite _ n v => canonical_unlessReset h (keeps_writeArgument n v)
  | .windowRegisterWrite _ v => canonical_unlessReset h (keeps_writeWindow v)
  | .clearRequest _ v => canonical_unlessReset h (keeps_writeStatus v)
  | .windowRead _ k m => h.of_keeps (keeps_readWindow k m) (by decide)
  | .windowWrite p k m v => canonical_writeWindowData h p k m v
  | .voidAccess y => canonical_voidAccess h y
  | .openFrame l _ _ _ => canonical_receive h l _
  | .grantFrame l _ _ _ => canonical_receive h l _
  | .refuseFrame l _ _ _ => canonical_receive h l _
  | .carryFrame l _ _ _ _ => canonical_receive h l _
  | .creditFrame l _ _ _ => canonical_receive h l _
  | .askFrame l _ _ _ => canonical_receive h l _
  | .closeFrame l _ _ _ => canonical_receive h l _
  | .closedFrame l _ _ _ => canonical_receive h l _
  | .frameDiscarded l _ => canonical_takeBits h l _
  | .abort l _ => canonical_takeBits h l _
  | .openingFlag flag => canonical_takeBits h flag.line _
  | .openWaitExpiry i => canonical_expire h i _ fun c _ hu =>
      canonical_retryOr hu i c (fun _ hv => canonical_owe hv _ _) (canonical_enterClosing hu _ _)
  | .offerWaitExpiry i => canonical_offerWaitExpiry h i
  | .ackWaitExpiry i => canonical_expire h i _ fun c _ hu =>
      canonical_retryOr hu i c (fun _ hv => canonical_owe hv _ _) (canonical_enterClosing hu _ _)
  | .stallWaitExpiry i => canonical_expire h i _ fun c _ hu =>
      canonical_retryOr hu i c (fun _ hv => canonical_startTimer (canonical_owe hv _ _) _ _) (canonical_enterClosing hu _ _)
  | .closeWaitExpiry i => canonical_closeWaitExpiry h i
  | .settleExpiry l => canonical_settleExpiry h l
  | .holdoffExpiry p => canonical_holdoffExpiry h p
  | .readyAsserted l => canonical_readyAsserted h l
  | .readyDropped l => canonical_readyDropped h l
  | .selectionEvent l => canonical_selectionEvent h l
  | .completion l => canonical_completion h l
  | .resetAsserted => canonical_atReset s _
  | .startUp => canonical_startUp h
  | .startUpCompletion => canonical_startUpCompletion h

theorem canonical_step (h : s.canonical) : Outcome.meets AnyFault State.canonical (step s) := by
  unfold step
  split
  · exact h
  · exact canonical_exec (h.of_keeps (keeps_pending s _) (by decide)) _

end

/-- Settles O56: every row changes the maps by inserts, erases and sets, or empties them at RESET, and each keeps their form. -/
theorem mapsStayCanonical : Obligations.MapsStayCanonical := by
  intro s t hs hstep
  exact (canonical_step hs).next hstep

end Sys2Proof.Machine
